-- ==== Sys2Proof/Word.lean ====
section
/-! DEFINITION. The words of the 2440: names for the widths the manual gives, and the type of a sparse table.
Widths: R179 (bytes, 48-bit Ethernet addresses), R8 (64-bit stripe key), R3 (32-bit CRC), R5 (16-bit generation). -/

namespace Sys2Proof

/-- One byte of a message or of fragment data. -/
abbrev Byte := BitVec 8

/-- An Ethernet address; byte 0, the first byte sent, is the most significant (R179, R199). -/
abbrev EthAddr := BitVec 48

/-- The number by which the store names a stripe (file 00, Terms; R8). -/
abbrev StripeKey := BitVec 64

/-- The segment CRC (R3). -/
abbrev Crc := BitVec 32

/-- A record's generation, which wraps after 65,535 (R5). -/
abbrev Generation := BitVec 16

/-- A table with many entries, most of them at their reset value: the entries that differ from it, by rising index.
`Machine/Table.lean` gives its operations and its canonical form (log entry 14). -/
abbrev Sparse (α : Type) := List (Nat × α)

end Sys2Proof
end

