-- ==== Sys2Proof/Config.lean ====
section
/-! DEFINITION. What is fixed for the part: the sizes of its collections, and the free values (opaque constants that nothing can evaluate).
Sizes: R5, R28, R64, R86, R112 and the conventions of file 00. -/

namespace Sys2Proof.Config

/-- Records of the Rebuild Table (R5). -/
def tableSize : Nat := 65536

/-- Node slots of the Node Roster (R64). -/
def nodeSlots : Nat := 1024

/-- Fetch slots of the Fetch Unit (R86). -/
def fetchSlots : Nat := 96

/-- Combine lanes (R112). -/
def laneCount : Nat := 8

/-- Ways of one bucket of the key index (R28). -/
def waysPerBucket : Nat := 8

/-- Bytes of a full segment (R1). -/
def segmentBytes : Nat := 65536

/-- Bytes of one 4 KiB block, the unit in which a fetch slot notes what it has received (R86). -/
def blockBytes : Nat := 4096

/-- Bytes of a full STORE chunk (R139). -/
def chunkBytes : Nat := 8192

/-- The largest fragment length (R1). -/
def maxLength : Nat := 67108864

/-- The longest message body (R179). -/
def maxBody : Nat := 8984

/-- The longest frame a port takes (R179). -/
def maxFrame : Nat := 9018

/-- One millisecond in the model's unit of time, 10 microseconds (log entry 2). -/
def msUnits : Nat := 100

/-- The broadcast address, all ones (R153). -/
def broadcast : EthAddr := 0xFFFFFFFFFFFF#48

/-- FREE VALUE (log entry 7): the generation that the NOTICE of a record becoming fixed carries when the generation was in the lost
word. R32 says that a NOTICE is sent and what LOCATE and the peek image show for a lost field, not what the NOTICE shows. -/
opaque lostNoticeGeneration : Nat → Generation

/-- FREE VALUE (log entry 7): the code of the state left that the NOTICE of a record becoming fixed carries when the state was in the
lost word (R32, R58). It is one of R189's state codes, 0 to 5, the only ones that the part puts in such a field. -/
opaque lostNoticeState : Nat → Fin 6

end Sys2Proof.Config
end

