-- ==== Sys2Proof/Syntax.lean ====
section
/-! DEFINITION. The commands of the 2440: one constructor of `Instr` for each row of spec/opcode_table.json, with the operands that the
row's rule says the event carries. A frame's operands are what R179 to R184 say a frame holds; the operands of a window write are the
register's fields (R190); an internal event names the slot, lane or target it ends (R104, R139, R141). -/

namespace Sys2Proof

/-- The two Fabric Ports (R152). -/
inductive Port where
  | a
  | b
  deriving DecidableEq, Repr

/-- A frame on a port's link whose UFP header is readable (R179, R180), less its kind, which the command gives. -/
structure Frame where
  /-- The port on whose link the frame arrives. -/
  port : Port
  /-- Destination address (R179). -/
  dst : EthAddr
  /-- Source address: the sender (R37). -/
  src : EthAddr
  /-- EtherType (R153). -/
  etherType : BitVec 16
  /-- Whether the frame passes the frame check, an input to the part (R179). -/
  fcsOk : Bool
  /-- Header flags: bit 0 URGENT, bit 1 LAST, bit 2 REPLACED (R180). -/
  flags : Byte
  /-- Header tag (R180). -/
  tag : BitVec 32
  /-- Header wake cluster, read in WAKE only (R180). -/
  cluster : BitVec 16
  /-- Header wake unit, read in WAKE only (R180). -/
  wakeUnit : BitVec 16
  /-- The body: as many bytes as the header's body length says (R180). -/
  body : List Byte
  /-- Number of bytes after the body, ignored on receipt (R179). -/
  trailing : Nat
  deriving DecidableEq, Repr

/-- A frame as bytes: what follows the EtherType, up to the frame check sequence (R179, R180). -/
structure RawFrame where
  port : Port
  dst : EthAddr
  src : EthAddr
  etherType : BitVec 16
  fcsOk : Bool
  payload : List Byte
  deriving DecidableEq, Repr

/-- The fields of a record that the store keeps in words of their own (R30). The first twelve are R30's identity words and the last six its
work words. -/
inductive RecField where
  | state
  | generation
  | cls
  | holdCause
  | stallNode
  | watch
  | stamp
  | key
  | way
  | definer
  | counts
  | slots
  | length
  | segTotal
  | frags
  | coefs
  | placed
  | status
  deriving DecidableEq, Repr

/-- A word of the Rebuild Table: a record word, a free-list entry by its place in the ring, or an index way (R30). -/
inductive TableWord where
  | record (n : Nat) (f : RecField)
  | freeEntry (pos : Nat)
  | way (bucket way : Nat)
  deriving DecidableEq, Repr

/-- What the ECC of one copy of a word says (R30). -/
inductive CopyHealth where
  | clean
  | correctable
  | uncorrectable
  deriving DecidableEq, Repr

/-- Damage that one copy of a word took since the last command: an input, since the manual gives no event for it (log entry 5). -/
structure Damage where
  word : TableWord
  /-- Whether the damage is to the second copy (false: the first). -/
  second : Bool
  health : CopyHealth
  deriving DecidableEq, Repr

/-- The three pacing settings of R97. -/
inductive PacingSetting where
  | period
  | granule
  | multiplier
  deriving DecidableEq, Repr

/-- The two lease settings of R176. -/
inductive LeaseSetting where
  | tMin
  | tMax
  deriving DecidableEq, Repr

/-- The twelve counters, in register order (R196). -/
inductive Counter where
  | dormantDrop
  | malformed
  | late
  | duplicate
  | replyDropped
  | noticeDropped
  | staleGen
  | segmentRestart
  | fencedDiscard
  | eccCorrected
  | peekRefused
  | windowWriteIgnored
  deriving DecidableEq, Repr

/-- The commands: one constructor for each row of spec/opcode_table.json. -/
inductive Instr where
  /-- COLD_RESET (R34). -/
  | coldReset
  /-- WARM_RESET: the window write of 1 (R197). -/
  | warmReset
  /-- DEFINE (R42). -/
  | define (f : Frame) (mem : List Damage)
  /-- LOCATE (R44). -/
  | locate (f : Frame) (mem : List Damage)
  /-- CLASS (R47). -/
  | setClass (f : Frame) (mem : List Damage)
  /-- REVISE (R49). -/
  | revise (f : Frame) (mem : List Damage)
  /-- REDIRECT (R51). -/
  | redirect (f : Frame) (mem : List Damage)
  /-- HOLD (R52). -/
  | hold (f : Frame) (mem : List Damage)
  /-- RESUME (R53). -/
  | resume (f : Frame) (mem : List Damage)
  /-- CANCEL (R54). -/
  | cancel (f : Frame) (mem : List Damage)
  /-- RETIRE (R55). -/
  | retire (f : Frame) (mem : List Damage)
  /-- WATCH (R56). -/
  | watch (f : Frame) (mem : List Damage)
  /-- FENCE (R80). -/
  | fence (f : Frame)
  /-- UNFENCE (R82). -/
  | unfence (f : Frame)
  /-- ROSTER_SET (R70). -/
  | rosterSet (f : Frame)
  /-- ROSTER_CLEAR (R71). -/
  | rosterClear (f : Frame)
  /-- MODE (R156). -/
  | modeRequest (f : Frame)
  /-- LEASE_TAKE (R170). -/
  | leaseTake (f : Frame)
  /-- LEASE_RENEW (R171). -/
  | leaseRenew (f : Frame)
  /-- LEASE_RELEASE (R172). -/
  | leaseRelease (f : Frame)
  /-- WAKE (R161, R163). -/
  | wake (f : Frame)
  /-- UNREADABLE_FRAME (R181). -/
  | unreadableFrame (f : RawFrame)
  /-- FETCH_DATA (R100). -/
  | fetchData (f : Frame) (mem : List Damage)
  /-- FETCH_FAIL (R106). -/
  | fetchFail (f : Frame)
  /-- STORE_ACK (R142). -/
  | storeAck (f : Frame) (mem : List Damage)
  /-- PROBE_ACK (R79). -/
  | probeAck (f : Frame)
  /-- FIRST_CHUNK_TIMER_EXPIRY of one fetch slot (R104). -/
  | firstChunkTimerExpiry (slot : Fin 96)
  /-- STREAM_TIMER_EXPIRY of one fetch slot (R105). -/
  | streamTimerExpiry (slot : Fin 96)
  /-- STORE_TIMER_EXPIRY of one store record (R141). -/
  | storeTimerExpiry (lane : Fin 8) (target : Fin 4)
  /-- PROBE_TIMER_EXPIRY (R78). -/
  | probeTimerExpiry
  /-- PACING_TIMER_EXPIRY (R96). -/
  | pacingTimerExpiry
  /-- LEASE_LAPSE (R173). -/
  | leaseLapse
  /-- SEND_COMPLETION of one store attempt (R139). -/
  | sendCompletion (lane : Fin 8) (target : Fin 4) (attempt : Nat)
  /-- FETCH_ISSUE: one grant (R92, R93). -/
  | fetchIssue (mem : List Damage)
  /-- STORE_ATTEMPT_BEGIN (R138). -/
  | storeAttemptBegin
  /-- ADMISSION: one admission (R116, R118). -/
  | admission (mem : List Damage)
  /-- DRAIN_END (R157). -/
  | drainEnd
  /-- LINK_UP (R164). -/
  | linkUp (p : Port)
  /-- LINK_DOWN (R164). -/
  | linkDown (p : Port)
  /-- MSI_ENABLE_CHANGE: the enable as the host leaves it (R195). -/
  | msiEnableChange (enable : Bool)
  /-- MODE_WRITE: bits 7 to 0 of the mode register (R156, R190). -/
  | modeWrite (code : BitVec 8)
  /-- PORT_WRITE: bits 1 to 0 of a port register (R160, R190). -/
  | portWrite (p : Port) (code : BitVec 2)
  /-- ADDRESS_LOW_WRITE (R192). -/
  | addressLowWrite (p : Port) (low : BitVec 32)
  /-- ADDRESS_HIGH_WRITE: bits 15 to 0 (R192). -/
  | addressHighWrite (p : Port) (high : BitVec 16)
  /-- ETHERTYPE_WRITE: bits 15 to 0 (R191). -/
  | etherTypeWrite (value : BitVec 16)
  /-- PACING_SETTING_WRITE: bits 16 to 0 (R97, R191). -/
  | pacingSettingWrite (which : PacingSetting) (value : BitVec 17)
  /-- PROBE_PERIOD_WRITE: bits 16 to 0 (R78, R191). -/
  | probePeriodWrite (value : BitVec 17)
  /-- RESERVE_WRITE: bits 16 to 0 (R117). -/
  | reserveWrite (value : BitVec 17)
  /-- LEASE_SETTING_WRITE: bits 16 to 0 (R176). -/
  | leaseSettingWrite (which : LeaseSetting) (value : BitVec 17)
  /-- EVENT_FLAGS_WRITE: the event bits (R193). -/
  | eventFlagsWrite (mask : BitVec 15)
  /-- EVENT_ENABLES_WRITE: the event bits (R194). -/
  | eventEnablesWrite (mask : BitVec 15)
  /-- EVENT_CLASSES_WRITE: the event bits (R194). -/
  | eventClassesWrite (mask : BitVec 15)
  /-- GLOBAL_ENABLE_WRITE: bit 0 (R194). -/
  | globalEnableWrite (enable : Bool)
  /-- COUNTER_CLEAR (R196). -/
  | counterClear (c : Counter)
  /-- PEEK_SET: record number and word count, GO 0 (R198). -/
  | peekSet (number : BitVec 16) (count : BitVec 6)
  /-- PEEK_GO: record number and word count, GO 1 (R198). -/
  | peekGo (number : BitVec 16) (count : BitVec 6)
  /-- PEEK_COMPLETION (R198). -/
  | peekCompletion (mem : List Damage)
  /-- WINDOW_WRITE of any other register (R190, R191). -/
  | windowWrite (offset : BitVec 12) (value : BitVec 32)
  /-- STORE_CHUNK_SENT of one store attempt (R139). -/
  | storeChunkSent (lane : Fin 8) (target : Fin 4) (attempt : Nat)
  deriving DecidableEq, Repr

end Sys2Proof
end

