-- ==== Sys2Proof/Machine/Bytes.lean ====
section
/-! DEFINITION. Bytes on the wire: byte order (R179), kind codes and their routing (R181), the header (R180), status codes (R189). -/

namespace Sys2Proof.Machine

/-- The number `n` as `k` bytes, most significant first (R179). -/
def be : (k : Nat) → (n : Nat) → List Byte
  | 0, _ => []
  | k + 1, n => BitVec.ofNat 8 (n / 256 ^ k) :: be k n

/-- The number that `bs` spells, most significant byte first (R179). -/
def beNum (bs : List Byte) : Nat :=
  bs.foldl (fun acc b => acc * 256 + b.toNat) 0

/-- The field of `size` bytes at offset `off` of a body, most significant byte first (R179). -/
def field (body : List Byte) (off size : Nat) : Nat :=
  beNum ((body.drop off).take size)

/-- The byte at offset `off` of a body. -/
def byteAt (body : List Byte) (off : Nat) : Byte :=
  body.getD off 0

/-- `k` reserved bytes, sent as zero (R179). -/
def reserved (k : Nat) : List Byte :=
  List.replicate k 0

/-- The message kinds (R181). -/
inductive Kind where
  | define | locate | cls | revise | redirect | hold | resume | cancel | retire | watch | fence | unfence | rosterSet | rosterClear
  | mode | leaseTake | leaseRenew | leaseRelease | wake
  | reply | notice
  | fetch | fetchData | fetchFail | store | storeAck | probe | probeAck
  deriving DecidableEq, Repr

/-- The code of a kind (R181). -/
def Kind.code : Kind → Byte
  | .define => 0x01 | .locate => 0x02 | .cls => 0x03 | .revise => 0x04 | .redirect => 0x05 | .hold => 0x06 | .resume => 0x07
  | .cancel => 0x08 | .retire => 0x09 | .watch => 0x0A | .fence => 0x0B | .unfence => 0x0C | .rosterSet => 0x0D | .rosterClear => 0x0E
  | .mode => 0x0F | .leaseTake => 0x10 | .leaseRenew => 0x11 | .leaseRelease => 0x12 | .wake => 0x13
  | .reply => 0x20 | .notice => 0x21
  | .fetch => 0x30 | .fetchData => 0x31 | .fetchFail => 0x32 | .store => 0x33 | .storeAck => 0x34 | .probe => 0x35 | .probeAck => 0x36

/-- The kind that a code stands for, if any (R181). -/
def kindOfCode (c : Byte) : Option Kind :=
  [Kind.define, .locate, .cls, .revise, .redirect, .hold, .resume, .cancel, .retire, .watch, .fence, .unfence, .rosterSet, .rosterClear,
    .mode, .leaseTake, .leaseRenew, .leaseRelease, .wake, .reply, .notice, .fetch, .fetchData, .fetchFail, .store, .storeAck, .probe,
    .probeAck].find? (fun k => k.code == c)

/-- Where a frame with a readable header goes outside DORMANT (R181). -/
inductive Route where
  /-- To the Request Unit. -/
  | request
  /-- To the fence test, then to its unit. -/
  | nodeAnswer
  /-- Discarded: a kind that the 2440 only sends. -/
  | sentOnly
  deriving DecidableEq, Repr

/-- The route of a kind (R181). -/
def Kind.route : Kind → Route
  | .define | .locate | .cls | .revise | .redirect | .hold | .resume | .cancel | .retire | .watch | .fence | .unfence | .rosterSet
  | .rosterClear | .mode | .leaseTake | .leaseRenew | .leaseRelease | .wake => .request
  | .fetchData | .fetchFail | .storeAck | .probeAck => .nodeAnswer
  | .reply | .notice | .fetch | .store | .probe => .sentOnly

/-- Whether the header of a frame's bytes is readable (R180). -/
def headerReadable (payload : List Byte) : Bool :=
  decide (16 ≤ payload.length) && byteAt payload 0 == 1
    && decide (field payload 8 2 ≤ Config.maxBody) && decide (field payload 8 2 ≤ payload.length - 16)

/-- The frame that bytes with a readable header spell, less its kind (R179, R180). -/
def rawParse (f : RawFrame) : Frame :=
  { port := f.port, dst := f.dst, src := f.src, etherType := f.etherType, fcsOk := f.fcsOk
    flags := byteAt f.payload 2
    tag := BitVec.ofNat 32 (field f.payload 4 4)
    cluster := BitVec.ofNat 16 (field f.payload 10 2)
    wakeUnit := BitVec.ofNat 16 (field f.payload 12 2)
    body := (f.payload.drop 16).take (field f.payload 8 2)
    trailing := f.payload.length - 16 - field f.payload 8 2 }

/-- The kind code in a frame's bytes (R180). -/
def rawKind (f : RawFrame) : Byte :=
  byteAt f.payload 1

/-- The REPLY status codes (R189). -/
inductive Status where
  | ok | noLease | notHolder | staleEpoch | tooEarly | leaseHeld | notFound | notTarget | existing | indexFull | tableFull | badLength
  | badList | badSlot | staleGen | wrongState | inUse | modeRefused | malformed
  deriving DecidableEq, Repr

/-- The code of a status (R189). -/
def Status.code : Status → Byte
  | .ok => 0 | .noLease => 1 | .notHolder => 2 | .staleEpoch => 3 | .tooEarly => 4 | .leaseHeld => 5 | .notFound => 6 | .notTarget => 7
  | .existing => 8 | .indexFull => 9 | .tableFull => 10 | .badLength => 11 | .badList => 12 | .badSlot => 13 | .staleGen => 14
  | .wrongState => 15 | .inUse => 16 | .modeRefused => 17 | .malformed => 18

end Sys2Proof.Machine
end

