-- ==== Sys2Proof/WellFormed.lean ====
section
/-! DEFINITION. Which commands describe an event that can happen: a frame's body fits a frame (R179, R180), the bytes of UNREADABLE_FRAME are not
a readable frame of a kind that has a row of its own (R181), an attempt is the first or the second (R134), a WINDOW_WRITE is aligned and not
the write of a register that has a row of its own (R190). -/

namespace Sys2Proof

/-- A body of at most 8,984 bytes (R180). -/
def Frame.wellFormed (f : Frame) : Bool :=
  decide (f.body.length ≤ Config.maxBody)

/-- The bytes do not have a readable header with the kind of a request or of a node answer (R181). -/
def RawFrame.wellFormed (f : RawFrame) : Bool :=
  !Machine.headerReadable f.payload ||
    match Machine.kindOfCode (Machine.rawKind f) with
    | some k => k.route == .sentOnly
    | none => true

/-- A write of this offset with this value has a row of its own in the table (R190): a mode, port, address, EtherType, pacing, probe period,
reserve, lease, event, counter or peek register, or a 1 written to warm reset. -/
def hasOwnRow (offset : BitVec 12) (value : BitVec 32) : Bool :=
  [0x010, 0x014, 0x018, 0x020, 0x024, 0x028, 0x02C, 0x034, 0x04C, 0x050, 0x054, 0x058, 0x060, 0x068, 0x06C, 0x080, 0x084, 0x088, 0x08C,
    0x100, 0x104, 0x108, 0x10C, 0x110, 0x114, 0x118, 0x11C, 0x120, 0x124, 0x128, 0x12C, 0x200].contains offset.toNat
  || (offset.toNat == 0x090 && value.getLsbD 0)

/-- The command describes an event that can happen. -/
def Instr.wellFormed : Instr → Bool
  | .coldReset => true
  | .warmReset => true
  | .define f _ => f.wellFormed
  | .locate f _ => f.wellFormed
  | .setClass f _ => f.wellFormed
  | .revise f _ => f.wellFormed
  | .redirect f _ => f.wellFormed
  | .hold f _ => f.wellFormed
  | .resume f _ => f.wellFormed
  | .cancel f _ => f.wellFormed
  | .retire f _ => f.wellFormed
  | .watch f _ => f.wellFormed
  | .fence f => f.wellFormed
  | .unfence f => f.wellFormed
  | .rosterSet f => f.wellFormed
  | .rosterClear f => f.wellFormed
  | .modeRequest f => f.wellFormed
  | .leaseTake f => f.wellFormed
  | .leaseRenew f => f.wellFormed
  | .leaseRelease f => f.wellFormed
  | .wake f => f.wellFormed
  | .unreadableFrame f => f.wellFormed
  | .fetchData f _ => f.wellFormed
  | .fetchFail f => f.wellFormed
  | .storeAck f _ => f.wellFormed
  | .probeAck f => f.wellFormed
  | .firstChunkTimerExpiry _ => true
  | .streamTimerExpiry _ => true
  | .storeTimerExpiry _ _ => true
  | .probeTimerExpiry => true
  | .pacingTimerExpiry => true
  | .leaseLapse => true
  | .sendCompletion _ _ attempt => attempt == 1 || attempt == 2
  | .fetchIssue _ => true
  | .storeAttemptBegin => true
  | .admission _ => true
  | .drainEnd => true
  | .linkUp _ => true
  | .linkDown _ => true
  | .msiEnableChange _ => true
  | .modeWrite _ => true
  | .portWrite _ _ => true
  | .addressLowWrite _ _ => true
  | .addressHighWrite _ _ => true
  | .etherTypeWrite _ => true
  | .pacingSettingWrite _ _ => true
  | .probePeriodWrite _ => true
  | .reserveWrite _ => true
  | .leaseSettingWrite _ _ => true
  | .eventFlagsWrite _ => true
  | .eventEnablesWrite _ => true
  | .eventClassesWrite _ => true
  | .globalEnableWrite _ => true
  | .counterClear _ => true
  | .peekSet _ _ => true
  | .peekGo _ _ => true
  | .peekCompletion _ => true
  | .windowWrite offset value => offset.toNat % 4 == 0 && !hasOwnRow offset value
  | .storeChunkSent _ _ attempt => attempt == 1 || attempt == 2

end Sys2Proof
end

