-- ==== Sys2Proof/Machine/State.lean ====
section
/-! DEFINITION. The state of the 2440 as plain data, its reset value, and the ways a step can stop.
INVENTORY.md lists every piece with the rule that names it and its reset value. -/

namespace Sys2Proof.Machine

/-! ### The Rebuild Table (Chapter 1) -/

/-- The urgency of a record's rebuild (R14). The constructor `foreground` is FOREGROUND, `background` BACKGROUND. -/
inductive RecordClass where
  | foreground
  | background
  deriving DecidableEq, Repr

/-- A source entry (R9): node slot, fragment index, one coefficient for each target. -/
structure Source where
  slot : Nat
  frag : Byte
  coefs : List Byte
  deriving DecidableEq, Repr

/-- A target's status, OPEN, DONE or LOST (R10). -/
inductive TargetStatus where
  | opened
  | done
  | lost
  deriving DecidableEq, Repr

/-- A target entry (R10): fragment index, destination slot, placed count, status. -/
structure Target where
  frag : Byte
  dest : Nat
  placed : Nat
  status : TargetStatus
  deriving DecidableEq, Repr

/-- A hold cause with the position it carries (R15). -/
inductive HoldCause where
  | operator
  | sourceLost (position : Nat)
  | sourceCorrupt (position : Nat)
  | destLost (position : Nat)
  | memory
  deriving DecidableEq, Repr

/-- The five live states of a record (R18); the sixth, FREE, is a record with nothing live. The stall node is present in STALLED only and the
hold cause in HELD only (R15). -/
inductive RecState where
  | waiting
  | active
  | stalled (node : Nat)
  | held (cause : HoldCause)
  | placed
  deriving DecidableEq, Repr

/-- A watch's edge set (R16). -/
inductive Edge where
  | placed
  | held
  | any
  deriving DecidableEq, Repr

/-- A watch: the watcher's address and the edge set (R16). -/
structure Watch where
  watcher : EthAddr
  edge : Edge
  deriving DecidableEq, Repr

/-- What a live record holds (R8). -/
structure Live where
  key : StripeKey
  length : Nat
  segTotal : Nat
  cls : RecordClass
  sources : List Source
  targets : List Target
  state : RecState
  watch : Option Watch
  stamp : BitVec 32
  definer : EthAddr
  way : Nat
  /-- Whether the record is fixed (R32). -/
  fixed : Bool
  /-- The identity fields that were in a lost word of a fixed record; they read as 0 (R32). -/
  lostFields : List RecField
  deriving DecidableEq, Repr

/-- A record of the table: its generation, which it keeps while FREE, and what it holds while live (R5, R8). -/
structure Record where
  generation : Generation
  live : Option Live
  deriving DecidableEq, Repr

/-- The free list as a ring (R26): the entries that differ from the cold-reset content, in which place p holds record number p, and the head and
tail registers (R30). How many entries it has is 65,536 less the live count (R27). -/
structure FreeList where
  ring : Sparse Nat
  head : BitVec 16
  tail : BitVec 16
  deriving DecidableEq, Repr

/-- An index way that is not empty: a record number and a copy of its key (R28). -/
structure IndexEntry where
  record : Nat
  key : StripeKey
  deriving DecidableEq, Repr

/-- What the ECC says of the two copies of a word (R30). -/
structure WordHealth where
  first : CopyHealth
  second : CopyHealth
  deriving DecidableEq, Repr

/-! ### The Node Roster (Chapter 3) -/

/-- The state of a node slot (R64). -/
inductive NodeState where
  | absent
  | serving
  | muted
  | fenced
  deriving DecidableEq, Repr

/-- A node slot's port preference (R64). -/
inductive Preference where
  | portA
  | portB
  | either
  deriving DecidableEq, Repr

/-- A node slot (R64). -/
structure Node where
  state : NodeState
  addr : EthAddr
  rack : Nat
  pref : Preference
  limit : Nat
  outstanding : Nat
  consecutive : Nat
  refs : Nat
  probeSeq : Byte
  stallList : List Nat
  deriving DecidableEq, Repr

/-! ### The Fetch Unit (Chapter 4) -/

/-- A fetch in flight: what a slot in use holds (R86). A timer that runs holds the time left, in units of 10 microseconds (log entry 2). The
accepted 4 KiB blocks stand with their bytes, by rising block number: the blocks received, and the part of the receive buffer that is written
(log entry 29). -/
structure Fetch where
  lane : Fin 8
  record : Nat
  generation : Generation
  segment : Nat
  length : Nat
  source : Nat
  node : Nat
  attempt : Nat
  blocks : List (Nat × List Byte)
  announced : Option Crc
  conflict : Bool
  firstTimer : Option Nat
  streamTimer : Option Nat
  deriving DecidableEq, Repr

/-- A fetch slot: its generation, which it keeps while free, and its fetch while in use (R86). -/
structure FetchSlot where
  generation : Byte
  use : Option Fetch
  deriving DecidableEq, Repr

/-- The pacing budget and timer and the arbiter's two pointers (R92, R95, R96). -/
structure Pacing where
  budget : Nat
  timer : Nat
  fgPtr : Fin 8
  bgPtr : Fin 8
  deriving DecidableEq, Repr

/-! ### Combine Lanes and Placement Unit (Chapters 5 and 6) -/

/-- A pending fetch (R90). -/
structure PendingFetch where
  source : Nat
  attempt : Nat
  deriving DecidableEq, Repr

/-- A store record's state (R134). -/
inductive StoreState where
  | queued
  | sending
  | awaiting
  | stored
  deriving DecidableEq, Repr

/-- A store record (R134). -/
structure Store where
  target : Nat
  frag : Byte
  dest : Nat
  crc : Crc
  attempt : Nat
  state : StoreState
  chunksSent : Nat
  timer : Option Nat
  deriving DecidableEq, Repr

/-- The phase of a lane that is not IDLE (R112); the store records exist in PLACE only (R134). -/
inductive Phase where
  | gather
  | place (stores : List Store)
  deriving DecidableEq, Repr

/-- What a lane that is not IDLE holds (R112). Needed targets, sources complete and pending fetches are in rising order; an accumulator is
kept for each needed target, by its position. -/
structure Job where
  record : Nat
  generation : Generation
  cls : RecordClass
  segment : Nat
  segLength : Nat
  needed : List Nat
  complete : List Nat
  accs : Sparse (List Byte)
  turnCount : Nat
  pendingFetches : List PendingFetch
  phase : Phase
  deriving DecidableEq, Repr

/-! ### Mode, ports, lease (Chapters 7 and 8) -/

/-- The four modes (R151). -/
inductive Mode where
  | dormant
  | ready
  | rebuild
  | drain
  deriving DecidableEq, Repr

/-- The three port states, OFF, LISTEN and ON (R152). -/
inductive PortState where
  | off
  | listen
  | on
  deriving DecidableEq, Repr

/-- What the part keeps of one port (R152, R159, R192). -/
structure PortRegs where
  state : PortState
  resume : PortState
  linkUp : Bool
  addr : EthAddr
  staging : BitVec 32
  deriving DecidableEq, Repr

/-- A held lease: the holder and the time since the window start, in units of 10 microseconds (R169, log entry 2). -/
structure Grant where
  holder : EthAddr
  elapsed : Nat
  deriving DecidableEq, Repr

/-- The lease (R169). -/
structure Lease where
  grant : Option Grant
  epoch : BitVec 32
  deriving DecidableEq, Repr

/-! ### The Local Control Window (Chapter 10) -/

/-- The settings (R191), each in the unit of its register. -/
structure Settings where
  tFirst : Nat
  tStream : Nat
  tStore : Nat
  probePeriod : Nat
  pacingN : Nat
  granule : Nat
  multiplier : Nat
  quantum : Nat
  reserve : Nat
  threshold : Nat
  tMin : Nat
  tMax : Nat
  tableHigh : Nat
  deriving DecidableEq, Repr

/-- Event flags, enables, classes (1 is URGENT), the global enable, the message signalling enable and the two messages held pending
(R193 to R195). -/
structure Events where
  flags : BitVec 15
  enables : BitVec 15
  classes : BitVec 15
  globalEnable : Bool
  msiEnable : Bool
  pendingUrgent : Bool
  pendingRoutine : Bool
  deriving DecidableEq, Repr

/-- The peek engine (R198). -/
structure Peek where
  busy : Bool
  number : BitVec 16
  count : BitVec 6
  image : List (BitVec 64)
  deriving DecidableEq, Repr

/-! ### What the part sends -/

/-- A frame the part has sent (R179, R180). -/
structure SentFrame where
  port : Port
  dst : EthAddr
  src : EthAddr
  etherType : BitVec 16
  kind : Byte
  flags : Byte
  tag : BitVec 32
  body : List Byte
  deriving DecidableEq, Repr

/-- Something the part has sent: a frame, or an interrupt message (R194: message 0 is the urgent one). -/
inductive Output where
  | frame (f : SentFrame)
  | urgentMessage
  | routineMessage
  deriving DecidableEq, Repr

/-! ### The state -/

/-- The state of the 2440. -/
structure State where
  /-- Commands that wait, first in, first out. -/
  pending : List Instr
  /-- The records, by number (R5). -/
  records : Sparse Record
  freeList : FreeList
  /-- Number of live records (R27). -/
  liveCount : Nat
  /-- The key index: way w of bucket b at 8 b + w (R28). -/
  index : Sparse (Option IndexEntry)
  /-- Health of the table's words, by `TableWord.code` (R30). -/
  dram : Sparse WordHealth
  /-- The queue sequence counter (R17). -/
  queueSeq : BitVec 32
  /-- The Foreground Queue, head first (R114). -/
  fgQueue : List Nat
  /-- The Background Queue, head first (R114). -/
  bgQueue : List Nat
  /-- The lanes; a lane with nothing is IDLE (R112). -/
  lanes : Vector (Option Job) 8
  /-- The node slots, by number (R64). -/
  nodes : Sparse Node
  /-- The probe timer's time left (R78). -/
  probeTimer : Nat
  /-- The fetch slots, by number (R86). -/
  fetch : Sparse FetchSlot
  pacing : Pacing
  /-- The store wait list, head first: lane and target position (R135). -/
  waitList : List (Fin 8 × Nat)
  mode : Mode
  portA : PortRegs
  portB : PortRegs
  wakeCluster : BitVec 16
  wakeUnit : BitVec 16
  etherType : BitVec 16
  lease : Lease
  /-- The notice counter (R58). -/
  noticeCounter : BitVec 32
  settings : Settings
  events : Events
  /-- The counters, in register order (R196). -/
  counters : Vector (BitVec 32) 12
  peek : Peek
  /-- The model's own: what the part has sent, oldest first (log entry 8). -/
  outputs : List Output
  /-- The model's own: the counter that free values are applied to (log entry 7). -/
  fresh : Nat
  deriving DecidableEq, Repr

/-- Reasons for a fault: none. The manual names no event that stops the part (INVENTORY.md, Faults). -/
inductive Fault
  deriving DecidableEq, Repr

/-- Reasons for a refusal. -/
inductive Refusal where
  /-- A command that has no meaning in this model; raised by `exec`'s arms only, and by none of them now. Safe: the model stops where the part
  goes on. -/
  | notModelled (mnemonic : String)
  deriving DecidableEq, Repr

/-- A port after cold reset (R167, R192). -/
def PortRegs.reset : PortRegs :=
  { state := .listen, resume := .listen, linkUp := false, addr := 0, staging := 0 }

/-- The settings after cold reset (R191). -/
def Settings.reset : Settings :=
  { tFirst := 20, tStream := 50, tStore := 50, probePeriod := 10, pacingN := 10, granule := 1, multiplier := 16, quantum := 8,
    reserve := 2, threshold := 3, tMin := 500, tMax := 2000, tableHigh := 61440 }

/-- Flags, enables, classes, global enable and pending messages after cold reset (R193 to R195); the message signalling enable by log
entry 13. -/
def Events.reset : Events :=
  { flags := 0, enables := 0, classes := 0, globalEnable := false, msiEnable := false, pendingUrgent := false, pendingRoutine := false }

/-- The peek engine after cold reset (R198). -/
def Peek.reset : Peek :=
  { busy := false, number := 0, count := 0, image := List.replicate 32 0 }

/-- The state after cold reset: R34 (table), R84 (roster), R110 (fetch), R132 (lanes), R150 (stores), R167 (mode and ports), R178 (lease),
R191 to R198 (window). The probe timer runs 100 ms (R84) and the pacing timer 100 microseconds (R96, R110), in units of 10 microseconds. -/
def State.reset : State :=
  { pending := []
    records := []
    freeList := { ring := [], head := 0, tail := 0 }
    liveCount := 0
    index := []
    dram := []
    queueSeq := 0
    fgQueue := []
    bgQueue := []
    lanes := Vector.replicate 8 none
    nodes := []
    probeTimer := 10000
    fetch := []
    pacing := { budget := 1048576, timer := 10, fgPtr := 7, bgPtr := 7 }
    waitList := []
    mode := .dormant
    portA := PortRegs.reset
    portB := PortRegs.reset
    wakeCluster := 0
    wakeUnit := 0
    etherType := 0x88B6
    lease := { grant := none, epoch := 0 }
    noticeCounter := 0
    settings := Settings.reset
    events := Events.reset
    counters := Vector.replicate 12 0
    peek := Peek.reset
    outputs := []
    fresh := 0 }

end Sys2Proof.Machine
end

