-- ==== Sys2Proof/Machine/Table.lean ====
section
/-! DEFINITION. Sparse tables: reading and writing one entry, and the canonical form (log entry 14). `d` gives what an unlisted index holds, from
the reset contents that R34, R84 and R110 state. -/

namespace Sys2Proof.Machine

variable {α : Type}

/-- The entry at index `k`. -/
def Sparse.get (d : Nat → α) : Sparse α → Nat → α
  | [], k => d k
  | (j, v) :: m, k => if k = j then v else Sparse.get d m k

/-- `m` with `v` listed at `k`, in rising order. -/
def Sparse.insert : Sparse α → Nat → α → Sparse α
  | [], k, v => [(k, v)]
  | (j, w) :: m, k, v =>
    if k < j then (k, v) :: (j, w) :: m
    else if k = j then (k, v) :: m
    else (j, w) :: Sparse.insert m k v

/-- `m` with index `k` unlisted. -/
def Sparse.erase (m : Sparse α) (k : Nat) : Sparse α :=
  m.filter (fun e => !(e.1 == k))

/-- `m` with `v` at index `k`, keeping the canonical form. -/
def Sparse.set [DecidableEq α] (d : Nat → α) (m : Sparse α) (k : Nat) (v : α) : Sparse α :=
  if v = d k then Sparse.erase m k else Sparse.insert m k v

/-- The canonical form: indices strictly rising, and no entry equal to what an unlisted index holds. -/
abbrev Sparse.wf (d : Nat → α) (m : Sparse α) : Prop :=
  m.Pairwise (fun a b => a.1 < b.1) ∧ ∀ e ∈ m, e.2 ≠ d e.1

/-- The listed indices, in order. -/
def Sparse.keys (m : Sparse α) : List Nat :=
  m.map (fun e => e.1)

/-! What an unlisted index of each table holds after cold reset. -/

/-- A FREE record of generation 0 (R34). -/
def freeRecord : Nat → Record := fun _ => { generation := 0, live := none }

/-- Ring place p holds record number p (R26, R34). -/
def resetRingEntry : Nat → Nat := fun p => p

/-- An empty index way (R34). -/
def emptyWay : Nat → Option IndexEntry := fun _ => none

/-- A word whose two copies are clean (R34). -/
def soundWord : Nat → WordHealth := fun _ => { first := .clean, second := .clean }

/-- An ABSENT node slot (R84). -/
def absentNode : Nat → Node := fun _ =>
  { state := .absent, addr := 0, rack := 0, pref := .either, limit := 4, outstanding := 0, consecutive := 0, refs := 0, probeSeq := 0,
    stallList := [] }

/-- A free fetch slot of generation 0 (R110). -/
def freeSlot : Nat → FetchSlot := fun _ => { generation := 0, use := none }

/-- An accumulator with nothing in it (R112). -/
def noBytes : Nat → List Byte := fun _ => []

end Sys2Proof.Machine
end

