-- ==== Sys2Proof/Machine/Flags.lean ====
section
/-! DEFINITION. Event flags (R193), the interrupt conditions and their messages (R194, R195), the counters (R196), and what the part sends. -/

namespace Sys2Proof.Machine

/-- The events, in bit order (R193). -/
inductive Event where
  | modeChanged | modeRefused | portRefused | linkDown | linkUp | leaseLapsed | leaseReleased | nodeMuted | nodeRestored | recordHeld
  | tableHigh | indexFull | wake | peekDone | memoryError
  deriving DecidableEq, Repr

/-- The bit of an event (R193). -/
def Event.bit : Event → Nat
  | .modeChanged => 0 | .modeRefused => 1 | .portRefused => 2 | .linkDown => 3 | .linkUp => 4 | .leaseLapsed => 5 | .leaseReleased => 6
  | .nodeMuted => 7 | .nodeRestored => 8 | .recordHeld => 9 | .tableHigh => 10 | .indexFull => 11 | .wake => 12 | .peekDone => 13
  | .memoryError => 14

/-- The register value with this event's bit alone. -/
def Event.mask (e : Event) : BitVec 15 :=
  BitVec.ofNat 15 (2 ^ e.bit)

/-- The event's cause: its flag becomes 1 (R193). -/
def raise (e : Event) (s : State) : State :=
  { s with events := { s.events with flags := s.events.flags ||| e.mask } }

/-- Flags cleared where the mask has a 1 (R193). -/
def clearFlags (mask : BitVec 15) (s : State) : State :=
  { s with events := { s.events with flags := s.events.flags &&& ~~~mask } }

/-- Whether an event's flag is 1. -/
def flagSet (e : Event) (s : State) : Bool :=
  s.events.flags.getLsbD e.bit

/-- The register index of a counter (R196). -/
def counterIndex : Counter → Fin 12
  | .dormantDrop => 0 | .malformed => 1 | .late => 2 | .duplicate => 3 | .replyDropped => 4 | .noticeDropped => 5 | .staleGen => 6
  | .segmentRestart => 7 | .fencedDiscard => 8 | .eccCorrected => 9 | .peekRefused => 10 | .windowWriteIgnored => 11

/-- The value of a counter. -/
def counterValue (c : Counter) (s : State) : BitVec 32 :=
  s.counters[(counterIndex c).val]

/-- One more, unless the counter stands at its maximum (R196). -/
def saturatingSucc (v : BitVec 32) : BitVec 32 :=
  if v = 0xFFFFFFFF#32 then v else v + 1

/-- The counter's cause: it rises by 1 and saturates (R196). -/
def count (c : Counter) (s : State) : State :=
  { s with counters := s.counters.set (counterIndex c) (saturatingSucc (counterValue c s)) }

/-- The counter set to 0 (R196). -/
def clearCounter (c : Counter) (s : State) : State :=
  { s with counters := s.counters.set (counterIndex c) 0 }

/-- Something leaves the part. -/
def emit (o : Output) (s : State) : State :=
  { s with outputs := s.outputs ++ [o] }

/-! ### Interrupt conditions (R194) -/

/-- The urgent condition. -/
def urgentCondition (e : Events) : Bool :=
  e.globalEnable && (e.flags &&& e.enables &&& e.classes != 0)

/-- The routine condition. -/
def routineCondition (e : Events) : Bool :=
  e.globalEnable && (e.flags &&& e.enables &&& ~~~e.classes != 0)

/-- The urgent message after a change from events `old`: sent, or held pending while message signalling is off, when the condition became true;
a pending message is dropped when it is false (R194, R195). -/
def signalUrgent (old : Events) (s : State) : State :=
  if urgentCondition s.events then
    if urgentCondition old then s
    else if s.events.msiEnable then emit .urgentMessage s
    else { s with events := { s.events with pendingUrgent := true } }
  else { s with events := { s.events with pendingUrgent := false } }

/-- The same for the routine message. -/
def signalRoutine (old : Events) (s : State) : State :=
  if routineCondition s.events then
    if routineCondition old then s
    else if s.events.msiEnable then emit .routineMessage s
    else { s with events := { s.events with pendingRoutine := true } }
  else { s with events := { s.events with pendingRoutine := false } }

/-- The end of every command: the conditions before and after it are compared and the messages follow (R194, R195; log entry 20). -/
def commit (old s : State) : Host.Outcome State Fault Refusal :=
  .next (signalRoutine old.events (signalUrgent old.events s))

end Sys2Proof.Machine
end

