-- ==== Sys2Proof/Machine/Galois.lean ====
section
/-! DEFINITION. The arithmetic of the conventions: GF(2^8) (R2), the segment CRC (R3), the key fold (R4), lengths and segments (R1, R88). -/

namespace Sys2Proof.Machine

/-- A byte times x, reduced by the field polynomial 0x11D (R2). -/
def gfDouble (b : Byte) : Byte :=
  if b.msb then (b <<< 1) ^^^ 0x1D#8 else b <<< 1

/-- The product of two elements of GF(2^8): the terms of `a` from x^7 down (R2). -/
def gfMul (a b : Byte) : Byte :=
  [7, 6, 5, 4, 3, 2, 1, 0].foldl (fun acc i => if a.getLsbD i then gfDouble acc ^^^ b else gfDouble acc) 0

/-- `acc` plus `coef` times `buf`, byte by byte (R2, R120). -/
def gfAddScaled (coef : Byte) (acc buf : List Byte) : List Byte :=
  List.zipWith (fun x y => x ^^^ gfMul coef y) acc buf

/-- One bit of the segment CRC (R3, step 2). -/
def crcBit (c : Crc) (bit : Bool) : Crc :=
  if (c.getLsbD 0) ^^ bit then (c >>> 1) ^^^ 0x82F63B78#32 else c >>> 1

/-- One byte of the segment CRC, least significant bit first (R3, step 2). -/
def crcByte (c : Crc) (b : Byte) : Crc :=
  [0, 1, 2, 3, 4, 5, 6, 7].foldl (fun acc i => crcBit acc (b.getLsbD i)) c

/-- The segment CRC (R3). -/
def segmentCrc (bs : List Byte) : Crc :=
  ~~~(bs.foldl crcByte 0xFFFFFFFF#32)

/-- The bucket of a stripe key (R4). -/
def bucketOf (k : StripeKey) : Nat :=
  (((k >>> 48) ^^^ (k >>> 32) ^^^ (k >>> 16) ^^^ k).setWidth 13).toNat

/-- The segment total of a fragment of length `len` (R1). -/
def segmentTotal (len : Nat) : Nat :=
  (len + 65535) / 65536

/-- The length of segment `seg` of a fragment of length `len` (R1, R88). -/
def segmentLength (len seg : Nat) : Nat :=
  min 65536 (len - 65536 * seg)

/-- How many STORE chunks a segment of `n` bytes takes (R139). -/
def chunkCount (n : Nat) : Nat :=
  (n + 8191) / 8192

/-- The bytes of chunk `k` of a segment of `n` bytes (R139). -/
def chunkOf (bytes : List Byte) (n k : Nat) : List Byte :=
  (bytes.drop (8192 * k)).take (min 8192 (n - 8192 * k))

end Sys2Proof.Machine
end

