-- ==== Sys2Proof/Machine/Ops.lean ====
section
/-! DEFINITION. The named operations over the state: reading and writing records, node slots, fetch slots, lanes and ports; the port selections
(R67, R154); frames, replies and notices (R36, R57, R58, R179, R185, R187); the reads of the protected store (R30). -/

namespace Sys2Proof.Machine

/-! ### One home for every collection -/

/-- Record `n` (R5). -/
def recordAt (s : State) (n : Nat) : Record :=
  Sparse.get freeRecord s.records n

/-- What record `n` holds while live (R8). -/
def liveAt (s : State) (n : Nat) : Option Live :=
  (recordAt s n).live

/-- The generation of record `n` (R5). -/
def generationAt (s : State) (n : Nat) : Generation :=
  (recordAt s n).generation

def setRecord (n : Nat) (r : Record) (s : State) : State :=
  { s with records := Sparse.set freeRecord s.records n r }

/-- Record `n` live with `l`, its generation unchanged (R5). -/
def setLive (n : Nat) (l : Live) (s : State) : State :=
  setRecord n { generation := generationAt s n, live := some l } s

/-- Node slot `k` (R64). -/
def nodeAt (s : State) (k : Nat) : Node :=
  Sparse.get absentNode s.nodes k

def setNode (k : Nat) (v : Node) (s : State) : State :=
  { s with nodes := Sparse.set absentNode s.nodes k v }

/-- Fetch slot `k` (R86). -/
def slotAt (s : State) (k : Nat) : FetchSlot :=
  Sparse.get freeSlot s.fetch k

def setSlot (k : Nat) (v : FetchSlot) (s : State) : State :=
  { s with fetch := Sparse.set freeSlot s.fetch k v }

/-- What lane `i` holds, if it is not IDLE (R112). -/
def laneAt (s : State) (i : Fin 8) : Option Job :=
  s.lanes[i.val]

def setLane (i : Fin 8) (j : Option Job) (s : State) : State :=
  { s with lanes := s.lanes.set i j }

/-- The lanes in lane-number order (R112). -/
def laneNumbers : List (Fin 8) :=
  [0, 1, 2, 3, 4, 5, 6, 7]

/-- Whether every lane is IDLE. -/
def allIdle (s : State) : Bool :=
  laneNumbers.all (fun i => (laneAt s i).isNone)

/-- The lane that holds record `n`, if one does (R113). -/
def laneHolding (s : State) (n : Nat) : Option (Fin 8) :=
  laneNumbers.find? (fun i => match laneAt s i with
    | some j => j.record == n
    | none => false)

def portAt (s : State) : Port → PortRegs
  | .a => s.portA
  | .b => s.portB

def setPort (p : Port) (v : PortRegs) (s : State) : State :=
  match p with
  | .a => { s with portA := v }
  | .b => { s with portB := v }

/-- The other port. -/
def otherPort : Port → Port
  | .a => .b
  | .b => .a

/-! ### Ports (R152 to R155, R67) -/

/-- The port is ON with link up (R152). -/
def ableToSend (s : State) (p : Port) : Bool :=
  (portAt s p).state == .on && (portAt s p).linkUp

/-- The first of two ports that is able to send. -/
def choosePort (s : State) (p : Port) : Option Port :=
  if ableToSend s p then some p else if ableToSend s (otherPort p) then some (otherPort p) else none

/-- Node port selection (R67). -/
def nodePort (s : State) : Preference → Option Port
  | .portA => choosePort s .a
  | .portB => choosePort s .b
  | .either => choosePort s .a

/-- The combinations of port states a mode allows (R155). -/
def portsAllowed (s : State) (m : Mode) : Bool :=
  match m with
  | .dormant => (s.portA.state != .on) && (s.portB.state != .on)
  | .ready => true
  | .rebuild => ableToSend s .a || ableToSend s .b
  | .drain => ableToSend s .a || ableToSend s .b

/-- Whether a port takes a frame from its link: port state, EtherType and destination by R153, frame check and length by R179. A frame of fewer than 64
bytes is not turned away for that (log entry 38). -/
def portTakes (s : State) (p : Port) (dst : EthAddr) (etherType : BitVec 16) (fcsOk : Bool) (frameLength : Nat) : Bool :=
  (portAt s p).state != .off && fcsOk && decide (frameLength ≤ Config.maxFrame) && etherType == s.etherType
    && (dst == Config.broadcast || (dst == (portAt s p).addr && dst != 0))

/-- Length of a frame, from the destination address to the last byte of the frame check sequence (R179). -/
def frameLength (f : Frame) : Nat :=
  14 + 16 + f.body.length + f.trailing + 4

/-- Whether the frame is taken by its port (R153, R179). -/
def taken (s : State) (f : Frame) : Bool :=
  portTakes s f.port f.dst f.etherType f.fcsOk (frameLength f)

/-- Whether a frame given as bytes is taken by its port (R153, R179). -/
def rawTaken (s : State) (f : RawFrame) : Bool :=
  portTakes s f.port f.dst f.etherType f.fcsOk (14 + f.payload.length + 4)

/-! ### Frames that the part sends -/

/-- A frame leaves by port `p`, with the port's address as its source and the EtherType as it stands (R152, R179). -/
def sendFrame (p : Port) (dst : EthAddr) (kind : Kind) (flags : Byte) (tag : BitVec 32) (body : List Byte) (s : State) : State :=
  emit (.frame { port := p, dst := dst, src := (portAt s p).addr, etherType := s.etherType, kind := kind.code, flags := flags, tag := tag,
                 body := body }) s

/-- The bytes of a sent frame from the destination address on, less the frame check sequence, padded to the minimum length (R179, R180). -/
def SentFrame.wire (f : SentFrame) : List Byte :=
  let unpadded := be 6 f.dst.toNat ++ be 6 f.src.toNat ++ be 2 f.etherType.toNat
    ++ ([1, f.kind, f.flags, 0] ++ be 4 f.tag.toNat ++ be 2 f.body.length ++ reserved 6) ++ f.body
  unpadded ++ reserved (60 - unpadded.length)

/-- Whom a REPLY answers: the port on which the request arrived, its source address and its tag (R36, R154). -/
structure Asker where
  port : Port
  src : EthAddr
  tag : BitVec 32
  deriving DecidableEq, Repr

/-- The asker of a request frame. -/
def askerOf (f : Frame) : Asker :=
  { port := f.port, src := f.src, tag := f.tag }

/-- A REPLY leaves by the port selection of R154 or is dropped and counted. -/
def sendReply (a : Asker) (kindCode : Byte) (st : Status) (flags : Byte) (result : List Byte) (s : State) : State :=
  match choosePort s a.port with
  | some p => sendFrame p a.src .reply flags a.tag ([kindCode, st.code] ++ be 2 result.length ++ result) s
  | none => count .replyDropped s

/-- A request is answered (R36, R185); every request answered MALFORMED is counted (R181). -/
def answer (a : Asker) (kindCode : Byte) (st : Status) (flags : Byte) (result : List Byte) (s : State) : State :=
  sendReply a kindCode st flags result (if st = .malformed then count .malformed s else s)

/-- A request of a frame is answered with its kind and no flag. -/
def reply (f : Frame) (k : Kind) (st : Status) (result : List Byte) (s : State) : State :=
  answer (askerOf f) k.code st 0 result s

/-! ### Codes of states and causes (R189) -/

/-- The code of a record state; `none` is FREE. -/
def stateCode : Option RecState → Byte
  | none => 0
  | some .waiting => 1
  | some .active => 2
  | some (.stalled _) => 3
  | some (.held _) => 4
  | some .placed => 5

def classCode : RecordClass → Byte
  | .foreground => 0
  | .background => 1

def causeCode : HoldCause → Byte
  | .operator => 1
  | .sourceLost _ => 2
  | .sourceCorrupt _ => 3
  | .destLost _ => 4
  | .memory => 5

/-- The position a cause carries, 0 when it carries none (R15, R186). -/
def causePosition : HoldCause → Nat
  | .operator => 0
  | .sourceLost p => p
  | .sourceCorrupt p => p
  | .destLost p => p
  | .memory => 0

/-- The hold cause byte and the position byte: NONE outside HELD (R186, R187). -/
def causeBytes : Option RecState → List Byte
  | some (.held c) => [causeCode c, BitVec.ofNat 8 (causePosition c)]
  | _ => [0, 0]

/-- The stall node, 0xFFFF outside STALLED (R186, R187). -/
def stallField : Option RecState → Nat
  | some (.stalled k) => k
  | _ => 0xFFFF

/-! ### Notices (R57, R58) -/

/-- Whether a change into `new` (`none` is FREE) sends a NOTICE to a watch of this edge set (R57). -/
def edgeMatches (e : Edge) (new : Option RecState) : Bool :=
  match e, new with
  | .any, _ => true
  | .placed, some .placed => true
  | .held, some (.held _) => true
  | _, _ => false

/-- The NOTICE body (R187). -/
def noticeBody (n : Nat) (gen : Generation) (oldCode : Byte) (new : Option RecState) : List Byte :=
  be 2 n ++ be 2 gen.toNat ++ [oldCode, stateCode new] ++ causeBytes new ++ be 2 (stallField new) ++ reserved 2

/-- A NOTICE is made: its tag is the notice counter, which rises whether the NOTICE is sent or dropped (R58); its port is R154's. -/
def makeNotice (w : Watch) (body : List Byte) (s : State) : State :=
  match choosePort s .a with
  | some p => sendFrame p w.watcher .notice 0 s.noticeCounter body { s with noticeCounter := s.noticeCounter + 1 }
  | none => count .noticeDropped { s with noticeCounter := s.noticeCounter + 1 }

/-- The watch of a changed record is given to the Request Unit (R18, R57). -/
def notify (n : Nat) (gen : Generation) (w : Option Watch) (oldCode : Byte) (new : Option RecState) (s : State) : State :=
  match w with
  | some w => if edgeMatches w.edge new then makeNotice w (noticeBody n gen oldCode new) s else s
  | none => s

/-! ### The protected store (R30) -/

/-- The number of a record field among the words of its record. -/
def fieldNumber : RecField → Nat
  | .state => 0 | .generation => 1 | .cls => 2 | .holdCause => 3 | .stallNode => 4 | .watch => 5 | .stamp => 6 | .key => 7 | .way => 8
  | .definer => 9 | .counts => 10 | .slots => 11 | .length => 12 | .segTotal => 13 | .frags => 14 | .coefs => 15 | .placed => 16
  | .status => 17

/-- The number of a table word, by which its health is kept. -/
def wordCode : TableWord → Nat
  | .record n f => 3 * (18 * n + fieldNumber f)
  | .freeEntry p => 3 * p + 1
  | .way b w => 3 * (8 * b + w) + 2

def healthOf (s : State) (w : TableWord) : WordHealth :=
  Sparse.get soundWord s.dram (wordCode w)

def setHealth (w : TableWord) (h : WordHealth) (s : State) : State :=
  { s with dram := Sparse.set soundWord s.dram (wordCode w) h }

/-- The two copies of a word are written afresh (R30). -/
def writeWord (w : TableWord) (s : State) : State :=
  setHealth w { first := .clean, second := .clean } s

/-- The worse of two findings. -/
def worse : CopyHealth → CopyHealth → CopyHealth
  | .clean, h => h
  | .correctable, .uncorrectable => .uncorrectable
  | .correctable, _ => .correctable
  | .uncorrectable, _ => .uncorrectable

/-- The memory takes one damage (log entry 5). -/
def strikeOne (d : Damage) (s : State) : State :=
  if d.second then setHealth d.word { healthOf s d.word with second := worse (healthOf s d.word).second d.health } s
  else setHealth d.word { healthOf s d.word with first := worse (healthOf s d.word).first d.health } s

/-- The memory takes the damage that precedes a command (log entry 5). -/
def strike (ds : List Damage) (s : State) : State :=
  ds.foldl (fun s d => strikeOne d s) s

/-- A read of a table word: whether it gives a value, and the state after it, by the table of R30. -/
def readWord (w : TableWord) (s : State) : Bool × State :=
  match (healthOf s w).first, (healthOf s w).second with
  | .clean, _ => (true, s)
  | .correctable, h => (true, count .eccCorrected (setHealth w { first := .clean, second := h } s))
  | .uncorrectable, .uncorrectable => (false, raise .memoryError s)
  | .uncorrectable, _ => (true, count .eccCorrected (writeWord w s))

/-- Reads of fields of record `n`: those that could not be read, and the state after the reads. -/
def readFields (n : Nat) : List RecField → State → List RecField × State
  | [], s => ([], s)
  | f :: fs, s =>
    let r := readWord (.record n f) s
    let rest := readFields n fs r.2
    (if r.1 then rest.1 else f :: rest.1, rest.2)

/-- Fields of record `n` are written (R30). -/
def writeFields (n : Nat) (fs : List RecField) (s : State) : State :=
  fs.foldl (fun s f => writeWord (.record n f) s) s

/-- R30's identity words of a record. -/
def identityFields : List RecField :=
  [.state, .generation, .cls, .holdCause, .stallNode, .watch, .stamp, .key, .way, .definer, .counts, .slots]

/-- R30's work words of a record. -/
def workFields : List RecField :=
  [.length, .segTotal, .frags, .coefs, .placed, .status]

/-! ### Node counts (R65, R72) -/

/-- The node's outstanding count rises by 1 (R65). -/
def raiseOutstanding (k : Nat) (s : State) : State :=
  setNode k { nodeAt s k with outstanding := (nodeAt s k).outstanding + 1 } s

/-- The node's outstanding count falls by 1 (R65). -/
def lowerOutstanding (k : Nat) (s : State) : State :=
  setNode k { nodeAt s k with outstanding := (nodeAt s k).outstanding - 1 } s

/-- The node's consecutive timeout count is set to 0 (R76). -/
def clearConsecutive (k : Nat) (s : State) : State :=
  setNode k { nodeAt s k with consecutive := 0 } s

/-- The node is SERVING with room under its limit (R65). -/
def hasRoom (s : State) (k : Nat) : Bool :=
  (nodeAt s k).state == .serving && decide ((nodeAt s k).outstanding < (nodeAt s k).limit)

/-- Each element once. -/
def distinct : List Nat → List Nat
  | [] => []
  | k :: ks => if k ∈ ks then distinct ks else k :: distinct ks

/-- The distinct slots that source and target lists name (R72). -/
def slotsNamed (sources : List Source) (targets : List Target) : List Nat :=
  distinct (sources.map (fun e => e.slot) ++ targets.map (fun e => e.dest))

/-- Each slot's reference count rises by 1 (R72). -/
def raiseRefs (ks : List Nat) (s : State) : State :=
  ks.foldl (fun s k => setNode k { nodeAt s k with refs := (nodeAt s k).refs + 1 } s) s

/-- Each slot's reference count falls by 1 (R72). -/
def lowerRefs (ks : List Nat) (s : State) : State :=
  ks.foldl (fun s k => setNode k { nodeAt s k with refs := (nodeAt s k).refs - 1 } s) s

/-- The counts after a record that named `old` names `new` (R72). -/
def adjustRefs (old new : List Nat) (s : State) : State :=
  lowerRefs (old.filter (fun k => !(new.contains k))) (raiseRefs (new.filter (fun k => !(old.contains k))) s)

/-! ### Mode (R151, R157) -/

/-- The mode becomes `m`, with MODE_CHANGED when it was another (R151). -/
def setMode (m : Mode) (s : State) : State :=
  if s.mode = m then s else raise .modeChanged { s with mode := m }

/-- In DRAIN with every lane IDLE the mode becomes READY (R157). -/
def endDrain (s : State) : State :=
  if s.mode = .drain ∧ allIdle s = true then setMode .ready s else s

/-- The mode enters DRAIN; the drain ends at once when every lane is IDLE (R157). -/
def enterDrain (s : State) : State :=
  endDrain (setMode .drain s)

end Sys2Proof.Machine
end

