-- ==== Sys2Proof/Machine/Clock.lean ====
section
/-! DEFINITION. The passing of time: 10 microseconds on an empty queue (log entry 2). The table has no row for it; R169 gives the lease window's
elapsed time, and R78, R96, R103, R105 and R140 the timers. -/

namespace Sys2Proof.Machine

/-- A running timer with one unit less left; at 0 it waits for its expiry to be taken (log entry 26). -/
def tickTimer (t : Option Nat) : Option Nat :=
  t.map (fun n => n - 1)

/-- The store timer of a store record. -/
def tickStore (st : Store) : Store :=
  { st with timer := tickTimer st.timer }

/-- The store timers of a lane. -/
def tickJob (j : Job) : Job :=
  { j with phase := match j.phase with
      | .gather => .gather
      | .place ss => .place (ss.map tickStore) }

/-- The timers of a fetch. -/
def tickFetch (ft : Fetch) : Fetch :=
  { ft with firstTimer := tickTimer ft.firstTimer, streamTimer := tickTimer ft.streamTimer }

/-- The timers of a fetch slot. -/
def tickSlot (v : FetchSlot) : FetchSlot :=
  { v with use := v.use.map tickFetch }

/-- The elapsed time of a lease window, which does not pass T_max (R169). -/
def tickGrant (tMax : Nat) (g : Grant) : Grant :=
  { g with elapsed := if g.elapsed < tMax * Config.msUnits then g.elapsed + 1 else g.elapsed }

/-- 10 microseconds pass: every running timer has that much less left, and the lease window that much more elapsed. -/
def tick (s : State) : State :=
  { s with
    lanes := s.lanes.map (fun j => j.map tickJob)
    fetch := s.fetch.map (fun e => (e.1, tickSlot e.2))
    probeTimer := s.probeTimer - 1
    pacing := { s.pacing with timer := s.pacing.timer - 1 }
    lease := { s.lease with grant := s.lease.grant.map (tickGrant s.settings.tMax) } }

end Sys2Proof.Machine
end

