-- ==== Sys2Proof/Machine/Lanes.lean ====
section
/-! DEFINITION. Records on the move: lane abandonment (R128), the entries into each record state (R19 to R24), records that meet a memory error
(R31, R32), muting (R77), the next segment (R13), the segment-start check (R74), work on a node and the fence cause rule (R75), and the beginning
of a segment (R119). -/

namespace Sys2Proof.Machine

/-! ### Giving up work -/

/-- Fetch slot `k` is freed; its generation is kept and its node's outstanding count falls (R89). -/
def endFetch (k : Nat) (s : State) : State :=
  match (slotAt s k).use with
  | none => s
  | some f => lowerOutstanding f.node (setSlot k { generation := (slotAt s k).generation, use := none } s)

/-- The fetch slots in use for lane `i`, in slot order. -/
def slotsOfLane (s : State) (i : Fin 8) : List Nat :=
  (List.range Config.fetchSlots).filter (fun k => match (slotAt s k).use with
    | some f => f.lane == i
    | none => false)

/-- The store records of a lane; none outside PLACE (R134). -/
def storesOf (j : Job) : List Store :=
  match j.phase with
  | .gather => []
  | .place ss => ss

/-- A store attempt is in flight (R134). -/
def inFlight (st : Store) : Bool :=
  st.state == .sending || st.state == .awaiting

/-- Every store of the lane is forgotten: those in flight lower their destination's count, those that wait leave the wait list (R128 step 3,
R135). -/
def forgetStores (i : Fin 8) (j : Job) (s : State) : State :=
  let s1 := ((storesOf j).filter inFlight).foldl (fun s st => lowerOutstanding st.dest s) s
  { s1 with waitList := s1.waitList.filter (fun e => !(e.1 == i)) }

/-- Lane abandonment (R128): slots freed, pending fetches, stores and accumulators dropped, the lane IDLE. An IDLE lane is not abandoned. -/
def abandonLane (i : Fin 8) (s : State) : State :=
  match laneAt s i with
  | none => s
  | some j => setLane i none (forgetStores i j ((slotsOfLane s i).foldl (fun s k => endFetch k s) s))

/-- The record leaves whatever holds it: its queue, its stall list, or its lane, whose work is abandoned (R18, R22 step 1, R24 step 1). -/
def leaveHolder (n : Nat) (l : Live) (s : State) : State :=
  match l.state with
  | .waiting => { s with fgQueue := s.fgQueue.erase n, bgQueue := s.bgQueue.erase n }
  | .stalled k => setNode k { nodeAt s k with stallList := (nodeAt s k).stallList.erase n } s
  | .active => match laneHolding s n with
    | some i => abandonLane i s
    | none => s
  | .held _ => s
  | .placed => s

/-! ### Entries into the record states -/

/-- The record joins the tail of the queue of class `c` and takes the queue sequence counter as its stamp, which then rises (R17, R114). -/
def joinQueue (n : Nat) (c : RecordClass) (s : State) : State :=
  match c with
  | .foreground => { s with fgQueue := s.fgQueue ++ [n], queueSeq := s.queueSeq + 1 }
  | .background => { s with bgQueue := s.bgQueue ++ [n], queueSeq := s.queueSeq + 1 }

/-- Entry into WAITING (R19). -/
def enterWaiting (n : Nat) (s : State) : State :=
  match liveAt s n with
  | none => s
  | some l =>
    let s1 := leaveHolder n l s
    let s2 := writeFields n [.state, .holdCause, .stallNode, .stamp] (setLive n { l with state := .waiting, stamp := s1.queueSeq } s1)
    notify n (generationAt s n) l.watch (stateCode (some l.state)) (some .waiting) (joinQueue n l.cls s2)

/-- Entry into ACTIVE, of a record already off its queue (R20, R118 step 4). -/
def enterActive (n : Nat) (s : State) : State :=
  match liveAt s n with
  | none => s
  | some l =>
    notify n (generationAt s n) l.watch (stateCode (some l.state)) (some .active)
      (writeFields n [.state] (setLive n { l with state := .active } s))

/-- Entry into STALLED on node `k`, at the tail of its stall list (R21). -/
def enterStalled (n k : Nat) (s : State) : State :=
  match liveAt s n with
  | none => s
  | some l =>
    let s1 := leaveHolder n l s
    let s2 := writeFields n [.state, .stallNode] (setLive n { l with state := .stalled k } s1)
    notify n (generationAt s n) l.watch (stateCode (some l.state)) (some (.stalled k))
      (setNode k { nodeAt s2 k with stallList := (nodeAt s2 k).stallList ++ [n] } s2)

/-- Entry into HELD with a cause (R22). -/
def enterHeld (n : Nat) (c : HoldCause) (s : State) : State :=
  match liveAt s n with
  | none => s
  | some l =>
    let s1 := leaveHolder n l s
    let s2 := writeFields n [.state, .holdCause, .stallNode] (setLive n { l with state := .held c } s1)
    notify n (generationAt s n) l.watch (stateCode (some l.state)) (some (.held c)) (raise .recordHeld s2)

/-- Entry into PLACED, with the lane IDLE in the same change (R23, R124). -/
def enterPlaced (n : Nat) (s : State) : State :=
  match liveAt s n with
  | none => s
  | some l =>
    let s1 := leaveHolder n l s
    notify n (generationAt s n) l.watch (stateCode (some l.state)) (some .placed)
      (writeFields n [.state] (setLive n { l with state := .placed } s1))

/-- The index entry of a record is emptied and its way written (R28, R33). -/
def clearIndexEntry (l : Live) (s : State) : State :=
  writeWord (.way (bucketOf l.key) l.way) { s with index := Sparse.set emptyWay s.index (8 * bucketOf l.key + l.way) none }

/-- A record number joins the tail of the free list, and the live count falls (R26, R27). -/
def appendFree (n : Nat) (s : State) : State :=
  writeWord (.freeEntry s.freeList.tail.toNat)
    { s with freeList := { s.freeList with ring := Sparse.set resetRingEntry s.freeList.ring s.freeList.tail.toNat n,
                                           tail := s.freeList.tail + 1 }
             liveCount := s.liveCount - 1 }

/-- Entry into FREE, in the order of R24. -/
def enterFree (n : Nat) (s : State) : State :=
  match liveAt s n with
  | none => s
  | some l =>
    let s1 := leaveHolder n l s
    let s2 := notify n (generationAt s n) l.watch (stateCode (some l.state)) none s1
    let s3 := lowerRefs (slotsNamed l.sources l.targets) (clearIndexEntry l s2)
    appendFree n (writeFields n (identityFields ++ workFields) (setRecord n { generation := generationAt s n + 1, live := none } s3))

/-- The record becomes fixed because the identity fields `bad` could not be read (R32). The NOTICE goes to a watch that was not in the lost
word; where the generation or the state was, what the NOTICE shows for it is a free value, of R189's codes for the state (log entry 7). -/
def makeFixed (n : Nat) (bad : List RecField) (s : State) : State :=
  match liveAt s n with
  | none => s
  | some l =>
    let s1 := leaveHolder n l s
    let watch := if RecField.watch ∈ bad then none else l.watch
    let lost := l.lostFields ++ bad
    let s2 := writeFields n [.state, .holdCause]
      (setLive n { l with state := .held .memory, fixed := true, watch := watch, lostFields := lost } s1)
    let gen := if RecField.generation ∈ lost then Config.lostNoticeGeneration s.fresh else generationAt s n
    let old := if RecField.state ∈ bad then BitVec.ofNat 8 (Config.lostNoticeState s.fresh).val else stateCode (some l.state)
    notify n gen watch old (some (.held .memory)) (raise .recordHeld { s2 with fresh := s2.fresh + 1 })

/-! ### Reads of a record by the part's units (R31, R32) -/

/-- A step reads the identity fields `ids` and the work fields `work` of a live record: whether every word could be read, and the state after it.
An identity word that could not be read makes the record fixed; otherwise a work word that could not be read holds it with MEMORY. Fields
already lost, and the work words of a record held with MEMORY, are not read. -/
def readRecordFields (n : Nat) (ids work : List RecField) (s : State) : Bool × State :=
  match liveAt s n with
  | none => (false, s)
  | some l =>
    let r := readFields n (ids.filter (fun f => !(l.lostFields.contains f))) s
    if r.1 ≠ [] then (false, makeFixed n r.1 r.2)
    else if l.state = .held .memory then (true, r.2)
    else
      let w := readFields n work r.2
      if w.1 ≠ [] then (false, enterHeld n .memory w.2) else (true, w.2)

/-- A step reads a live record's identity words and the work fields it needs (log entry 6). -/
def readRecord (n : Nat) (work : List RecField) (s : State) : Bool × State :=
  readRecordFields n identityFields work s

/-! ### Every busy lane given up (R129) -/

/-- Lane `i` is abandoned and its record then returns to WAITING (R128, R129). -/
def returnLane (s : State) (i : Fin 8) : State :=
  match laneAt s i with
  | none => s
  | some j => enterWaiting j.record (abandonLane i s)

/-- Every busy lane is abandoned and its record returned to WAITING, in lane-number order (R158, R164, R133). -/
def returnAllLanes (s : State) : State :=
  laneNumbers.foldl returnLane s

/-! ### Segments (R13, R74, R75, R119) -/

/-- A target needs a segment when it is OPEN and its placed count equals it (R13). -/
def needsSegment (t : Target) (seg : Nat) : Bool :=
  t.status == .opened && t.placed == seg

/-- The next segment: the smallest placed count among the targets that are not DONE (R13); 0 where there is none (log entry 15). -/
def nextSegment (l : Live) : Nat :=
  (((l.targets.filter (fun t => !(t.status == .done))).map (fun t => t.placed)).min?).getD 0

/-- The positions of the targets that need a segment, in list order (R13, R119). -/
def neededTargets (l : Live) (seg : Nat) : List Nat :=
  (List.range l.targets.length).filter (fun q => match l.targets[q]? with
    | some t => needsSegment t seg
    | none => false)

/-- The destination slot of target position `q`. -/
def destOf (l : Live) (q : Nat) : Option Nat :=
  (l.targets[q]?).map (fun t => t.dest)

/-- The nodes the segment-start check examines, in order, each with the cause a FENCED one gives (R74). -/
def checkList (l : Live) (seg : Nat) : List (Nat × HoldCause) :=
  (l.sources.zipIdx.map (fun e => (e.1.slot, HoldCause.sourceLost e.2)))
    ++ ((neededTargets l seg).filterMap (fun q => (destOf l q).map (fun k => (k, HoldCause.destLost q))))

/-- The outcome of the segment-start check (R74). -/
inductive StartCheck where
  | pass
  | hold (c : HoldCause)
  | stall (k : Nat)
  deriving DecidableEq, Repr

/-- The segment-start check: the first node that is not SERVING decides (R74). It never meets an ABSENT node (R72); the model would hold
(log entry 15). -/
def startCheck (s : State) (l : Live) (seg : Nat) : StartCheck :=
  match (checkList l seg).find? (fun e => !((nodeAt s e.1).state == .serving)) with
  | none => .pass
  | some e => if (nodeAt s e.1).state = .muted then .stall e.1 else .hold e.2

/-- Whether the store of target `q` has been acknowledged for the lane's segment (R75). -/
def storeDone (j : Job) (q : Nat) : Bool :=
  (storesOf j).any (fun st => st.target == q && st.state == .stored)

/-- The nodes on which the record of a lane has work (R75). -/
def workNodes (l : Live) (j : Job) : List Nat :=
  l.sources.map (fun e => e.slot) ++ (j.needed.filter (fun q => !storeDone j q)).filterMap (destOf l)

/-- Whether the record of lane `i` has work on one of the nodes (R75). -/
def laneHasWork (s : State) (i : Fin 8) (ks : List Nat) : Bool :=
  match laneAt s i with
  | none => false
  | some j => match liveAt s j.record with
    | none => false
    | some l => (workNodes l j).any (fun k => ks.contains k)

/-- The fence cause rule (R75), for the next segment `seg` of the record. -/
def fenceCause (s : State) (l : Live) (seg : Nat) : HoldCause :=
  let fenced := fun k => (nodeAt s k).state == NodeState.fenced
  let targetFenced := fun q => match destOf l q with
    | some k => fenced k
    | none => false
  match (List.range l.sources.length).find? (fun p => match l.sources[p]? with
      | some e => fenced e.slot
      | none => false) with
  | some p => .sourceLost p
  | none => match (neededTargets l seg).find? targetFenced with
    | some q => .destLost q
    | none => match (List.range l.targets.length).find? targetFenced with
      | some q => .destLost q
      | none => .destLost 0

/-- Lane `i` begins segment `seg` of record `n` (R119): needed targets fixed, no source complete, accumulators zero over the segment length, one
pending fetch of attempt 1 for each source. -/
def beginSegment (i : Fin 8) (n : Nat) (l : Live) (seg : Nat) (c : RecordClass) (turns : Nat) (s : State) : State :=
  let len := segmentLength l.length seg
  let needed := neededTargets l seg
  setLane i (some
    { record := n, generation := generationAt s n, cls := c, segment := seg, segLength := len, needed := needed, complete := []
      accs := needed.map (fun q => (q, List.replicate len 0)), turnCount := turns
      pendingFetches := (List.range l.sources.length).map (fun p => { source := p, attempt := 1 }), phase := .gather }) s

/-! ### Muting (R76, R77) -/

/-- Where the record of lane `i` has work on node `k`, it enters STALLED on it (R77 step 2). -/
def stallLane (k : Nat) (s : State) (i : Fin 8) : State :=
  if laneHasWork s i [k] then
    match laneAt s i with
    | some j => enterStalled j.record k s
    | none => s
  else s

/-- A SERVING node is muted (R77). -/
def muteNode (k : Nat) (s : State) : State :=
  if (nodeAt s k).state = .serving then
    raise .nodeMuted (laneNumbers.foldl (stallLane k) (setNode k { nodeAt s k with state := .muted } s))
  else s

/-- A timeout report raises the consecutive count by 1 (R76). -/
def raiseConsecutive (k : Nat) (s : State) : State :=
  setNode k { nodeAt s k with consecutive := (nodeAt s k).consecutive + 1 } s

/-- Whether the next timeout of the node reaches the threshold (R76). -/
def timeoutMutes (s : State) (k : Nat) : Bool :=
  (nodeAt s k).state == .serving && decide (s.settings.threshold ≤ (nodeAt s k).consecutive + 1)

end Sys2Proof.Machine
end

