-- ==== Sys2Proof/Machine/Stores.lean ====
section
/-! DEFINITION. The shared operations of the Placement Unit and of the end of a segment: chunks (R139), store attempts and the wait list
(R135, R137, R138), combining (R120), the entry into PLACE (R121, R136), turn end (R122 to R127), and `settle`, which a change that may make room
or empty the lanes ends with (R138, R157). -/

namespace Sys2Proof.Machine

/-- The store record of target `q`. -/
def findStore (j : Job) (q : Nat) : Option Store :=
  (storesOf j).find? (fun st => st.target == q)

/-- The store record of target `q` of lane `i`, with its lane. -/
def storeAt (s : State) (i : Fin 8) (q : Nat) : Option (Job × Store) :=
  match laneAt s i with
  | none => none
  | some j => (findStore j q).map (fun st => (j, st))

/-- The store records of `ss` with the one of target `q` replaced. -/
def replaceStore (ss : List Store) (q : Nat) (st : Store) : List Store :=
  ss.map (fun x => if x.target == q then st else x)

/-- The store record of target `q` of lane `i` becomes `st`. -/
def setStore (i : Fin 8) (q : Nat) (st : Store) (s : State) : State :=
  match laneAt s i with
  | none => s
  | some j => setLane i (some { j with phase := match j.phase with
      | .gather => .gather
      | .place ss => .place (replaceStore ss q st) }) s

/-- The STORE body (R188). -/
def storeBody (i : Fin 8) (j : Job) (st : Store) (key : StripeKey) (k : Nat) : List Byte :=
  let chunk := chunkOf (Sparse.get noBytes j.accs st.target) j.segLength k
  be 8 key.toNat ++ [st.frag, BitVec.ofNat 8 i.val] ++ be 2 j.generation.toNat ++ [BitVec.ofNat 8 st.attempt] ++ reserved 1 ++ be 2 j.segment
    ++ be 4 j.segLength ++ be 4 (8192 * k) ++ be 2 chunk.length ++ reserved 2 ++ chunk

/-- Chunk `k` of the current attempt of a store is sent by node port selection as it stands (R139); the last one carries LAST. -/
def sendChunk (i : Fin 8) (q k : Nat) (s : State) : State :=
  match storeAt s i q with
  | none => s
  | some (j, st) => match liveAt s j.record, nodePort s (nodeAt s st.dest).pref with
    | some l, some p =>
      sendFrame p (nodeAt s st.dest).addr .store (if k + 1 = chunkCount j.segLength then 2 else 0) 0 (storeBody i j st l.key k) s
    | _, _ => s

/-- The store attempt of target `q` begins, room having been found (R137 steps 1 to 3). -/
def startAttempt (i : Fin 8) (q : Nat) (s : State) : State :=
  match storeAt s i q with
  | none => s
  | some (_, st) =>
    sendChunk i q 0 (raiseOutstanding st.dest (setStore i q { st with state := .sending, chunksSent := 0, timer := none } s))

/-- The store attempt of target `q` begins if its destination has room, and joins the wait list's tail otherwise (R137). -/
def beginAttempt (i : Fin 8) (q : Nat) (s : State) : State :=
  match storeAt s i q with
  | none => s
  | some (_, st) =>
    if hasRoom s st.dest then startAttempt i q s
    else
      let s1 := setStore i q { st with state := .queued, chunksSent := 0, timer := none } s
      { s1 with waitList := s1.waitList ++ [(i, q)] }

/-- The entry of the wait list begins if its node has room (R138). -/
def beginIfRoom (s : State) (e : Fin 8 × Nat) : State :=
  match storeAt s e.1 e.2 with
  | none => s
  | some (_, st) =>
    if hasRoom s st.dest then startAttempt e.1 e.2 { s with waitList := s.waitList.erase e } else s

/-- The wait list is taken from its head: each entry whose node has room begins, the others keep their places (R138). -/
def handRoom (s : State) : State :=
  s.waitList.foldl beginIfRoom s

/-- The end of a change that may make room under a limit or leave every lane IDLE: waiting stores begin (R138), and a drain with no busy lane
ends (R157). -/
def settle (s : State) : State :=
  endDrain (handRoom s)

/-! ### Combining and entering PLACE -/

/-- The coefficient of source entry `e` for target position `q` (R9). -/
def coefOf (e : Source) (q : Nat) : Byte :=
  e.coefs.getD q 0

/-- The accumulators after a source's buffer is added for each needed target (R120). -/
def addedAccs (j : Job) (e : Source) (buf : List Byte) : Sparse (List Byte) :=
  j.accs.map (fun a => if j.needed.contains a.1 then (a.1, gfAddScaled (coefOf e a.1) a.2 buf) else a)

/-- A position joins a set kept in rising order. -/
def insertPosition : Nat → List Nat → List Nat
  | p, [] => [p]
  | p, q :: qs => if p < q then p :: q :: qs else if p = q then q :: qs else q :: insertPosition p qs

/-- The store record made for target `q` when PLACE begins (R136). -/
def newStore (l : Live) (j : Job) (q : Nat) : Option Store :=
  (l.targets[q]?).map (fun t =>
    { target := q, frag := t.frag, dest := t.dest, crc := segmentCrc ((Sparse.get noBytes j.accs q).take j.segLength), attempt := 1
      state := .queued, chunksSent := 0, timer := none })

/-- The lane enters PLACE and the Placement Unit sets up and begins one store for each needed target (R121, R136). The fragment indices and slots of all
targets are read before the first store is set up (log entry 37). -/
def enterPlace (i : Fin 8) (s : State) : State :=
  match laneAt s i with
  | none => s
  | some j =>
    let r := readRecord j.record [.frags] s
    match r.1, liveAt r.2 j.record with
    | true, some l =>
      j.needed.foldl (fun s q => beginAttempt i q s)
        (setLane i (some { j with phase := .place (j.needed.filterMap (newStore l j)) }) r.2)
    | _, _ => r.2

/-- A good buffer of source position `p` is added into lane `i`'s accumulators, and the lane enters PLACE when it was the last (R101 step 2, R120,
R121). -/
def combine (i : Fin 8) (p : Nat) (buf : List Byte) (s : State) : State :=
  match laneAt s i with
  | none => s
  | some j =>
    let r := readRecord j.record [.coefs] s
    match r.1, liveAt r.2 j.record with
    | true, some l => match l.sources[p]? with
      | none => r.2
      | some e =>
        let j' := { j with accs := addedAccs j e buf, complete := insertPosition p j.complete }
        let s' := setLane i (some j') r.2
        if j'.complete.length = l.sources.length then enterPlace i s' else s'
    | _, _ => r.2

/-! ### Turn end (R122 to R127) -/

/-- Whether a record waits that makes a lane of class `c` give way (R125). -/
def othersWait (s : State) (c : RecordClass) : Bool :=
  match c with
  | .foreground => !s.fgQueue.isEmpty
  | .background => !s.fgQueue.isEmpty || !s.bgQueue.isEmpty

/-- The lane goes on to the record's next segment, or the check takes the record from it (R125, R127). -/
def continueTurn (i : Fin 8) (j : Job) (turns : Nat) (s : State) : State :=
  let r := readRecord j.record [.placed, .status, .length] s
  match r.1, liveAt r.2 j.record with
  | true, some l => match startCheck r.2 l (nextSegment l) with
    | .pass => beginSegment i j.record l (nextSegment l) j.cls turns r.2
    | .hold c => enterHeld j.record c r.2
    | .stall k => enterStalled j.record k r.2
  | _, _ => r.2

/-- Turn end of lane `i` (R123 to R126): PLACED when every target is DONE; in REBUILD going on or giving way; otherwise WAITING. -/
def turnEnd (i : Fin 8) (s : State) : State :=
  match laneAt s i with
  | none => s
  | some j => match liveAt s j.record with
    | none => s
    | some l =>
      if l.targets.all (fun t => t.status == .done) then enterPlaced j.record s
      else if s.mode = .rebuild then
        if s.settings.quantum ≤ j.turnCount + 1 ∧ othersWait s j.cls = true then enterWaiting j.record s
        else continueTurn i j (j.turnCount + 1) s
      else enterWaiting j.record s

end Sys2Proof.Machine
end

