-- ==== Sys2Proof/Machine/Admission.lean ====
section
/-! DEFINITION. ADMISSION (R116 to R118): one admission of a waiting record by an IDLE lane. -/

namespace Sys2Proof.Machine

/-- The IDLE lane with the lowest number (R116 step 1). -/
def idleLane (s : State) : Option (Fin 8) :=
  laneNumbers.find? (fun i => (laneAt s i).isNone)

/-- How many lanes have the admission class BACKGROUND (R117). -/
def backgroundLanes (s : State) : Nat :=
  laneNumbers.countP (fun i => match laneAt s i with
    | some j => j.cls == .background
    | none => false)

/-- The record that the admitting lane takes: the Foreground Queue's head, or the Background Queue's within the reserve (R116 steps 2 and 3). -/
def admissible (s : State) : Option Nat :=
  match s.fgQueue with
  | n :: _ => some n
  | [] => match s.bgQueue with
    | n :: _ => if backgroundLanes s < Config.laneCount - s.settings.reserve then some n else none
    | [] => none

/-- The head leaves its queue (R118 step 1). -/
def takeHead (s : State) : State :=
  match s.fgQueue with
  | _ :: q => { s with fgQueue := q }
  | [] => { s with bgQueue := s.bgQueue.drop 1 }

/-- Record `n` is admitted by lane `i`, having left its queue (R118 steps 2 to 5). -/
def admitRecord (i : Fin 8) (n : Nat) (s : State) : State :=
  let rd := readRecord n [.placed, .status, .length] s
  match rd.1, liveAt rd.2 n with
  | true, some l => match startCheck rd.2 l (nextSegment l) with
    | .pass => enterActive n (beginSegment i n l (nextSegment l) l.cls 0 rd.2)
    | .hold c => enterHeld n c rd.2
    | .stall k => enterStalled n k rd.2
  | _, _ => rd.2

/-- One admission, where R116 allows one. -/
def admitOne (s : State) : State :=
  if s.mode = .rebuild then
    match idleLane s, admissible s with
    | some i, some n => admitRecord i n (takeHead s)
    | _, _ => s
  else s

/-- ADMISSION (R116, R118). -/
def execAdmission (mem : List Damage) (s : State) : Host.Outcome State Fault Refusal :=
  commit s (admitOne (strike mem s))

end Sys2Proof.Machine
end

