-- ==== Sys2Proof/Machine/Operands.lean ====
section
/-! DEFINITION. The operands that request bodies and node answers carry (R182 to R184, R188), the codes they are written in (R189), the list and slot
checks (R11, R40, R48), and the way a frame reaches the unit that acts on it (R36, R37, R153, R161, R175, R182). -/

namespace Sys2Proof.Machine

/-! ### Codes (R189) -/

def classOfCode (c : Byte) : Option RecordClass :=
  if c = 0 then some .foreground else if c = 1 then some .background else none

/-- An edge set; `some none` is NONE. -/
def edgeOfCode (c : Byte) : Option (Option Edge) :=
  if c = 0 then some none else if c = 1 then some (some .placed) else if c = 2 then some (some .held)
  else if c = 3 then some (some .any) else none

def prefOfCode (c : Byte) : Option Preference :=
  if c = 0 then some .portA else if c = 1 then some .portB else if c = 2 then some .either else none

def prefCode : Preference → Byte
  | .portA => 0
  | .portB => 1
  | .either => 2

def nodeStateCode : NodeState → Byte
  | .absent => 0
  | .serving => 1
  | .muted => 2
  | .fenced => 3

def modeOfCode (c : Byte) : Option Mode :=
  if c = 0 then some .dormant else if c = 1 then some .ready else if c = 2 then some .rebuild else if c = 3 then some .drain else none

def modeCode : Mode → Byte
  | .dormant => 0
  | .ready => 1
  | .rebuild => 2
  | .drain => 3

def portStateCode : PortState → Byte
  | .off => 0
  | .listen => 1
  | .on => 2

def linkCode (up : Bool) : Byte :=
  if up then 1 else 0

def statusCode : TargetStatus → Byte
  | .opened => 0
  | .done => 1
  | .lost => 2

/-! ### DEFINE and the other record requests -/

/-- What a DEFINE carries (R183). -/
structure DefineReq where
  key : StripeKey
  length : Nat
  cls : Byte
  edge : Byte
  watcher : EthAddr
  targets : List (Byte × Nat)
  sources : List Source
  deriving DecidableEq, Repr

/-- A source entry at `off` with `c` coefficients (R183). -/
def sourceEntry (body : List Byte) (off c : Nat) : Source :=
  { slot := field body off 2, frag := byteAt body (off + 2), coefs := (body.drop (off + 4)).take c }

/-- The DEFINE body, if it is readable (R183). -/
def parseDefine (body : List Byte) : Option DefineReq :=
  let nS := (byteAt body 13).toNat
  let nT := (byteAt body 14).toNat
  if body.length = 24 + 4 * nT + nS * (4 + nT) then
    some
      { key := BitVec.ofNat 64 (field body 0 8), length := field body 8 4, cls := byteAt body 12, edge := byteAt body 15
        watcher := BitVec.ofNat 48 (field body 16 6)
        targets := (List.range nT).map (fun q => (byteAt body (24 + 4 * q), field body (26 + 4 * q) 2))
        sources := (List.range nS).map (fun p => sourceEntry body (24 + 4 * nT + p * (4 + nT)) nT) }
  else none

/-- What a LOCATE carries (R184); no fragment index is 0xFF. -/
structure LocateReq where
  key : StripeKey
  frag : Option Byte
  deriving DecidableEq, Repr

def parseLocate (body : List Byte) : Option LocateReq :=
  if body.length = 12 then
    some { key := BitVec.ofNat 64 (field body 0 8), frag := if byteAt body 8 = 0xFF then none else some (byteAt body 8) }
  else none

/-- The record number and generation that a request carries first (R184). -/
structure RecordName where
  number : Nat
  generation : Generation
  deriving DecidableEq, Repr

def recordName (body : List Byte) : RecordName :=
  { number := field body 0 2, generation := BitVec.ofNat 16 (field body 2 2) }

/-- HOLD, RESUME, CANCEL and RETIRE (R184). -/
def parseName (body : List Byte) : Option RecordName :=
  if body.length = 4 then some (recordName body) else none

/-- CLASS and WATCH: a name and a code (R184). -/
def parseNameCode (body : List Byte) : Option (RecordName × Byte) :=
  if body.length = 8 then some (recordName body, byteAt body 4) else none

/-- What a REVISE carries (R184). -/
structure ReviseReq where
  name : RecordName
  coefCount : Nat
  sources : List Source
  deriving DecidableEq, Repr

def parseRevise (body : List Byte) : Option ReviseReq :=
  let nS := (byteAt body 4).toNat
  let nC := (byteAt body 5).toNat
  if body.length = 8 + nS * (4 + nC) then
    some { name := recordName body, coefCount := nC, sources := (List.range nS).map (fun p => sourceEntry body (8 + p * (4 + nC)) nC) }
  else none

/-- What a REDIRECT carries (R184). -/
structure RedirectReq where
  name : RecordName
  position : Nat
  dest : Nat
  deriving DecidableEq, Repr

def parseRedirect (body : List Byte) : Option RedirectReq :=
  if body.length = 8 then some { name := recordName body, position := (byteAt body 4).toNat, dest := field body 6 2 } else none

/-! ### Roster, mode and lease requests -/

/-- What FENCE and UNFENCE carry (R184). -/
structure SelectorReq where
  kind : Byte
  number : Nat
  deriving DecidableEq, Repr

def parseSelector (body : List Byte) : Option SelectorReq :=
  if body.length = 4 then some { kind := byteAt body 0, number := field body 2 2 } else none

/-- What a ROSTER_SET carries (R184). -/
structure RosterReq where
  slot : Nat
  rack : Nat
  pref : Byte
  limit : Nat
  addr : EthAddr
  deriving DecidableEq, Repr

def parseRosterSet (body : List Byte) : Option RosterReq :=
  if body.length = 12 then
    some { slot := field body 0 2, rack := (byteAt body 2).toNat, pref := byteAt body 3, limit := (byteAt body 4).toNat
           addr := BitVec.ofNat 48 (field body 6 6) }
  else none

/-- The slot of a ROSTER_CLEAR (R184). -/
def parseRosterClear (body : List Byte) : Option Nat :=
  if body.length = 4 then some (field body 0 2) else none

/-- The target code of a MODE (R184). -/
def parseMode (body : List Byte) : Option Byte :=
  if body.length = 4 then some (byteAt body 0) else none

/-- The empty body of LEASE_TAKE (R184). -/
def parseEmpty (body : List Byte) : Option Unit :=
  if body.length = 0 then some () else none

/-- The epoch of LEASE_RENEW and LEASE_RELEASE (R184). -/
def parseEpoch (body : List Byte) : Option (BitVec 32) :=
  if body.length = 4 then some (BitVec.ofNat 32 (field body 0 4)) else none

/-! ### Node answers (R188) -/

/-- What a FETCH_DATA carries. -/
structure DataChunk where
  slot : Nat
  generation : Byte
  length : Nat
  offset : Nat
  crc : Crc
  data : List Byte
  deriving DecidableEq, Repr

def parseFetchData (body : List Byte) : Option DataChunk :=
  if body.length = 16 + field body 2 2 then
    some { slot := (byteAt body 0).toNat, generation := byteAt body 1, length := field body 2 2, offset := field body 4 4
           crc := BitVec.ofNat 32 (field body 8 4), data := body.drop 16 }
  else none

/-- What a FETCH_FAIL carries. -/
structure FailReport where
  slot : Nat
  generation : Byte
  status : Byte
  deriving DecidableEq, Repr

def parseFetchFail (body : List Byte) : Option FailReport :=
  if body.length = 8 then some { slot := (byteAt body 0).toNat, generation := byteAt body 1, status := byteAt body 2 } else none

/-- What a STORE_ACK carries. -/
structure Receipt where
  lane : Nat
  attempt : Nat
  generation : Generation
  frag : Byte
  status : Byte
  segment : Nat
  crc : Crc
  deriving DecidableEq, Repr

def parseStoreAck (body : List Byte) : Option Receipt :=
  if body.length = 16 then
    some { lane := (byteAt body 0).toNat, attempt := (byteAt body 1).toNat, generation := BitVec.ofNat 16 (field body 2 2)
           frag := byteAt body 4, status := byteAt body 5, segment := field body 6 2, crc := BitVec.ofNat 32 (field body 8 4) }
  else none

/-- What a PROBE_ACK carries. -/
structure ProbeAnswer where
  slot : Nat
  sequence : Byte
  status : Byte
  deriving DecidableEq, Repr

def parseProbeAck (body : List Byte) : Option ProbeAnswer :=
  if body.length = 8 then some { slot := field body 0 2, sequence := byteAt body 2, status := byteAt body 3 } else none

/-! ### Checks that several requests make -/

/-- The list rules of R11 for a source list beside targets of the fragment indices `targetFrags`: what R40 and R48 refuse with BAD_LIST, the target
count apart. -/
def badSources (sources : List Source) (targetFrags : List Byte) : Bool :=
  sources.isEmpty || decide (16 < sources.length)
    || (sources.map (fun e => e.frag) ++ targetFrags).any (fun x => decide (19 < x.toNat))
    || !decide (sources.map (fun e => e.frag) ++ targetFrags).Nodup
    || sources.any (fun e => e.coefs.all (fun c => c == 0))
    || (List.range targetFrags.length).any (fun q => sources.all (fun e => e.coefs.getD q 0 == 0))

/-- A slot number over 1,023, or the number of an ABSENT slot (R40, R48, R50). -/
def badSlot (s : State) (k : Nat) : Bool :=
  decide (Config.nodeSlots ≤ k) || (nodeAt s k).state == .absent

/-- Whether the sender of a frame holds the lease (R37, R175). -/
def holdsLease (s : State) (src : EthAddr) : Bool :=
  match s.lease.grant with
  | some g => g.holder == src
  | none => false

/-! ### The lease report (R169, R185) -/

/-- The time left in the lease window in whole milliseconds, rounded down; 0 when no lease is held (R169). -/
def leaseTimeLeft (s : State) : Nat :=
  match s.lease.grant with
  | some g => (s.settings.tMax * Config.msUnits - g.elapsed) / Config.msUnits
  | none => 0

/-- The holder's address, or zero (R169). -/
def leaseHolder (s : State) : EthAddr :=
  match s.lease.grant with
  | some g => g.holder
  | none => 0

/-- The lease report (R169, R185). -/
def leaseReport (s : State) : List Byte :=
  be 6 (leaseHolder s).toNat ++ reserved 2 ++ be 4 s.lease.epoch.toNat ++ be 2 s.settings.tMax ++ be 2 s.settings.tMin
    ++ be 2 (leaseTimeLeft s) ++ [modeCode s.mode] ++ reserved 1

/-- The result that a refusal of this kind carries: a lease report for the lease requests, whatever the status, nothing otherwise (R185). -/
def refusalResult (k : Kind) (s : State) : List Byte :=
  match k with
  | .leaseTake | .leaseRenew | .leaseRelease => leaseReport s
  | _ => []

/-! ### The way of a frame (R153, R161, R181) -/

/-- A frame on a link: not taken and not counted (R153, R179); dropped and counted in DORMANT (R161); otherwise acted on. WAKE has its own way. -/
def receive (f : Frame) (act : State → State) (s : State) : State :=
  if taken s f then if s.mode = .dormant then count .dormantDrop s else act s else s

/-- A request: answered MALFORMED when its body is unreadable, before every other check (R182); refused with NO_LEASE when it needs the lease and its
sender does not hold it (R37, R175); otherwise applied by `act`. -/
def request {ρ : Type} (k : Kind) (needsLease : Bool) (f : Frame) (body : Option ρ) (act : ρ → State → State) (s : State) : State :=
  receive f (fun s => match body with
    | none => reply f k .malformed (refusalResult k s) s
    | some r => if needsLease && !holdsLease s f.src then reply f k .noLease [] s else act r s) s

/-- A message from the address of a FENCED slot (R68). -/
def fromFenced (s : State) (src : EthAddr) : Bool :=
  s.nodes.any (fun e => e.2.state == .fenced && e.2.addr == src)

/-- A node answer: put to the fence test (R68), then to the readability test of its unit (R188), then to `act`. -/
def nodeAnswer {ρ : Type} (f : Frame) (body : Option ρ) (act : ρ → State → State) (s : State) : State :=
  receive f (fun s =>
    if fromFenced s f.src then count .fencedDiscard s
    else match body with
      | none => count .malformed s
      | some r => act r s) s

end Sys2Proof.Machine
end

