-- ==== Sys2Proof/Machine/Fetch.lean ====
section
/-! DEFINITION. The Fetch Unit (Chapter 4): FETCH_ISSUE, FETCH_DATA, FETCH_FAIL, the two fetch timers and the pacing timer. -/

namespace Sys2Proof.Machine

/-! ### Pacing (R95 to R97) -/

/-- Bytes of a granule, by its code (R191). -/
def granuleBytes (code : Nat) : Nat :=
  4096 * 16 ^ code

/-- The refill value (R95). -/
def refillValue (st : Settings) : Nat :=
  granuleBytes st.granule * st.multiplier

/-- The budget allows a fetch of `n` bytes (R95). -/
def budgetAllows (s : State) (n : Nat) : Bool :=
  s.settings.multiplier == 0
    || (if n ≤ refillValue s.settings then decide (n ≤ s.pacing.budget) else s.pacing.budget == refillValue s.settings)

/-- The budget after a grant of `n` bytes (R95). -/
def chargedBudget (s : State) (n : Nat) : Nat :=
  if s.settings.multiplier = 0 then s.pacing.budget
  else if n ≤ refillValue s.settings then s.pacing.budget - n
  else 0

/-- The budget becomes the refill value and the pacing timer starts (R96, R97). -/
def reloadPacing (s : State) : State :=
  { s with pacing := { s.pacing with budget := refillValue s.settings, timer := s.settings.pacingN } }

/-- The pacing timer's expiry; one that is not due does nothing (log entries 16 and 26). -/
def pacingExpiry (s : State) : State :=
  if s.pacing.timer = 0 then reloadPacing s else s

/-- PACING_TIMER_EXPIRY (R96). -/
def execPacingTimerExpiry (s : State) : Host.Outcome State Fault Refusal :=
  commit s (pacingExpiry s)

/-! ### The fetch issue arbiter (R91 to R94) -/

/-- The lowest-numbered slot that is not in use (R87). -/
def freeSlotNumber (s : State) : Option Nat :=
  (List.range Config.fetchSlots).find? (fun k => (slotAt s k).use.isNone)

/-- The pending fetch `e` of a lane with job `j`, whose record holds `l`, is issuable, a slot being free (R91). -/
def issuable (s : State) (l : Live) (j : Job) (e : PendingFetch) : Bool :=
  match l.sources[e.source]? with
  | none => false
  | some src => hasRoom s src.slot && budgetAllows s j.segLength

/-- The first issuable pending fetch of a lane of class `c`, in source-list order (R92 step 3). -/
def firstIssuable (s : State) (c : RecordClass) (i : Fin 8) : Option PendingFetch :=
  match laneAt s i with
  | none => none
  | some j => match liveAt s j.record with
    | none => none
    | some l => if j.cls = c then j.pendingFetches.find? (issuable s l j) else none

/-- The lanes from the one after `p` upward, lane 7 followed by lane 0 (R92 step 1). -/
def lanesAfter (p : Fin 8) : List (Fin 8) :=
  [p + 1, p + 2, p + 3, p + 4, p + 5, p + 6, p + 7, p]

/-- The winner among the lanes of class `c`, from the class's pointer (R92). -/
def classWinner (s : State) (c : RecordClass) : Option (Fin 8 × PendingFetch) :=
  (lanesAfter (match c with
    | .foreground => s.pacing.fgPtr
    | .background => s.pacing.bgPtr)).findSome? (fun i => (firstIssuable s c i).map (fun e => (i, e)))

/-- The next grant: its class, lane and pending fetch (R92). -/
def nextGrant (s : State) : Option (RecordClass × Fin 8 × PendingFetch) :=
  match classWinner s .foreground with
  | some w => some (.foreground, w)
  | none => (classWinner s .background).map (fun w => (.background, w))

/-- The pointer of class `c` is set to lane `i` (R92 step 4). -/
def setPointer (c : RecordClass) (i : Fin 8) (s : State) : State :=
  match c with
  | .foreground => { s with pacing := { s.pacing with fgPtr := i } }
  | .background => { s with pacing := { s.pacing with bgPtr := i } }

/-- The FETCH body (R188). -/
def fetchBody (key : StripeKey) (frag : Byte) (j : Job) (slot : Nat) (gen : Byte) : List Byte :=
  be 8 key.toNat ++ [frag] ++ reserved 1 ++ be 2 j.segment ++ be 4 j.segLength ++ [BitVec.ofNat 8 slot, gen] ++ reserved 2

/-- The fetch that fills a slot at its allocation (R87), its first-chunk timer started (R103). -/
def newFetch (s : State) (i : Fin 8) (j : Job) (e : PendingFetch) (node : Nat) : Fetch :=
  { lane := i, record := j.record, generation := j.generation, segment := j.segment, length := j.segLength, source := e.source, node := node
    attempt := e.attempt, blocks := [], announced := none, conflict := false, firstTimer := some (s.settings.tFirst * Config.msUnits)
    streamTimer := none }

/-- Slot `k` is allocated to a pending fetch, the budget charged and the node's count raised (R93 steps 1 to 4). -/
def allocateFetch (k : Nat) (i : Fin 8) (j : Job) (e : PendingFetch) (node : Nat) (s : State) : State :=
  let s1 := setLane i (some { j with pendingFetches := j.pendingFetches.filter (fun x => !(x == e)) }) s
  let s2 := setSlot k { generation := (slotAt s1 k).generation + 1, use := some (newFetch s i j e node) } s1
  raiseOutstanding node { s2 with pacing := { s2.pacing with budget := chargedBudget s j.segLength } }

/-- The FETCH of slot `k` is sent (R93 step 5). -/
def sendFetch (k : Nat) (j : Job) (l : Live) (src : Source) (s : State) : State :=
  match nodePort s (nodeAt s src.slot).pref with
  | none => s
  | some p => sendFrame p (nodeAt s src.slot).addr .fetch 0 0 (fetchBody l.key src.frag j k (slotAt s k).generation) s

/-- A grant (R92 step 4, R93). -/
def grantFetch (k : Nat) (c : RecordClass) (i : Fin 8) (e : PendingFetch) (s : State) : State :=
  match laneAt s i with
  | none => s
  | some j => match liveAt s j.record with
    | none => s
    | some l => match l.sources[e.source]? with
      | none => s
      | some src =>
        let rd := readRecord j.record [.frags, .coefs] (allocateFetch k i j e src.slot (setPointer c i s))
        if rd.1 then sendFetch k j l src rd.2 else settle rd.2

/-- One grant of the arbiter; nothing when no pending fetch is issuable (R92). -/
def issueFetch (s : State) : State :=
  match freeSlotNumber s, nextGrant s with
  | some k, some (c, i, e) => grantFetch k c i e s
  | _, _ => s

/-- FETCH_ISSUE (R92, R93). -/
def execFetchIssue (mem : List Damage) (s : State) : Host.Outcome State Fault Refusal :=
  commit s (issueFetch (strike mem s))

/-! ### The end of a fetch -/

/-- A pending fetch is put back at its place in source-list order (R90). -/
def insertPending (e : PendingFetch) : List PendingFetch → List PendingFetch
  | [] => [e]
  | x :: xs => if e.source < x.source then e :: x :: xs else if e.source = x.source then e :: xs else x :: insertPending e xs

/-- Slot `k` is freed and its read goes back on the lane's list with attempt 2 (R102, R104, R106). -/
def reissue (k : Nat) (ft : Fetch) (s : State) : State :=
  let s1 := endFetch k s
  match laneAt s1 ft.lane with
  | none => s1
  | some j => setLane ft.lane (some { j with pendingFetches := insertPending { source := ft.source, attempt := 2 } j.pendingFetches }) s1

/-- A segment restart (R107). -/
def restartSegment (ft : Fetch) (s : State) : State :=
  enterWaiting ft.record (count .segmentRestart s)

/-- A fetch that failed without holding its record: a second attempt after the first, a segment restart after the second (R104, R106). -/
def retryFetch (k : Nat) (ft : Fetch) (s : State) : State :=
  if ft.attempt = 1 then reissue k ft s else restartSegment ft s

/-! ### FETCH_DATA (R98 to R102) -/

/-- The fetch that an answer's tag and source address match (R98). -/
def taggedFetch (s : State) (src : EthAddr) (slot : Nat) (gen : Byte) : Option Fetch :=
  if slot < Config.fetchSlots then
    match (slotAt s slot).use with
    | none => none
    | some ft => if (slotAt s slot).generation = gen ∧ src = (nodeAt s ft.node).addr then some ft else none
  else none

/-- What the checks of R99 find. -/
inductive ChunkForm where
  | malformed
  | duplicate
  | accepted
  deriving DecidableEq, Repr

/-- The 4 KiB blocks of a chunk, with their bytes (R99, R100). -/
def chunkBlocks (c : DataChunk) : List (Nat × List Byte) :=
  (List.range (c.length / 4096)).map (fun b => (c.offset / 4096 + b, (c.data.drop (4096 * b)).take 4096))

/-- The checks of R99, in order. -/
def chunkForm (ft : Fetch) (c : DataChunk) : ChunkForm :=
  if (c.length ≠ 4096 ∧ c.length ≠ 8192) ∨ c.offset % 4096 ≠ 0 then .malformed
  else if ft.length < c.offset + c.length then .malformed
  else if (chunkBlocks c).any (fun b => (ft.blocks.map (fun x => x.1)).contains b.1) then .duplicate
  else .accepted

/-- The fetch after an accepted chunk (R100); the stream timer starts at the first (R105). -/
def fetchAfterChunk (st : Settings) (ft : Fetch) (c : DataChunk) : Fetch :=
  { ft with
    blocks := (chunkBlocks c).foldl (fun m b => Sparse.insert m b.1 b.2) ft.blocks
    announced := some (ft.announced.getD c.crc)
    conflict := ft.conflict || (match ft.announced with
      | some a => a != c.crc
      | none => false)
    firstTimer := none
    streamTimer := if ft.blocks = [] then some (st.tStream * Config.msUnits) else ft.streamTimer }

/-- Bytes received (R86). -/
def bytesReceived (ft : Fetch) : Nat :=
  4096 * ft.blocks.length

/-- The receive buffer of a complete segment, in offset order (R101). -/
def receiveBuffer (ft : Fetch) : List Byte :=
  (ft.blocks.map (fun b => b.2)).flatten

/-- The computed CRC equals the announced one, and no other was announced (R101). -/
def goodSegment (ft : Fetch) : Bool :=
  (ft.announced == some (segmentCrc (receiveBuffer ft))) && !ft.conflict

/-- The segment of slot `k` is complete: R101, or R102 on a mismatch. -/
def completeSegment (k : Nat) (ft : Fetch) (s : State) : State :=
  if goodSegment ft then endFetch k (combine ft.lane ft.source (receiveBuffer ft) (clearConsecutive ft.node s))
  else if ft.attempt = 1 then reissue k ft s
  else enterHeld ft.record (.sourceCorrupt ft.source) s

/-- A chunk is accepted into slot `k` (R100), which may complete its segment (R101). -/
def acceptChunk (k : Nat) (ft : Fetch) (c : DataChunk) (s : State) : State :=
  let ft' := fetchAfterChunk s.settings ft c
  let s1 := setSlot k { generation := (slotAt s k).generation, use := some ft' } s
  if bytesReceived ft' = ft'.length then settle (completeSegment k ft' s1) else s1

/-- A readable FETCH_DATA that passed the fence test: R98, R99, R100. -/
def applyFetchData (f : Frame) (c : DataChunk) (s : State) : State :=
  match taggedFetch s f.src c.slot c.generation with
  | none => count .late s
  | some ft => match chunkForm ft c with
    | .malformed => count .malformed s
    | .duplicate => count .duplicate s
    | .accepted => acceptChunk c.slot ft c s

/-- A FETCH_DATA frame. -/
def onFetchData (f : Frame) (s : State) : State :=
  nodeAnswer f (parseFetchData f.body) (applyFetchData f) s

/-- FETCH_DATA (R98 to R102). -/
def execFetchData (f : Frame) (mem : List Damage) (s : State) : Host.Outcome State Fault Refusal :=
  commit s (onFetchData f (strike mem s))

/-! ### FETCH_FAIL (R106) -/

/-- A readable FETCH_FAIL that passed the fence test. -/
def applyFetchFail (f : Frame) (r : FailReport) (s : State) : State :=
  match taggedFetch s f.src r.slot r.generation with
  | none => count .late s
  | some ft =>
    if r.status = 1 ∨ r.status = 2 then settle (enterHeld ft.record (.sourceLost ft.source) s)
    else if r.status = 3 then settle (retryFetch r.slot ft s)
    else count .malformed s

/-- A FETCH_FAIL frame. -/
def onFetchFail (f : Frame) (s : State) : State :=
  nodeAnswer f (parseFetchFail f.body) (applyFetchFail f) s

/-- FETCH_FAIL (R106). -/
def execFetchFail (f : Frame) (s : State) : Host.Outcome State Fault Refusal :=
  commit s (onFetchFail f s)

/-! ### The fetch timers (R103 to R105) -/

/-- The first-chunk timer of slot `k` expires (R104); where it does not run, or has time left, nothing happens (log entries 16 and 26). -/
def firstChunkExpiry (k : Nat) (s : State) : State :=
  match (slotAt s k).use with
  | none => s
  | some ft =>
    if ft.firstTimer = some 0 then
      if timeoutMutes s ft.node then settle (muteNode ft.node (raiseConsecutive ft.node s))
      else settle (retryFetch k ft (raiseConsecutive ft.node s))
    else s

/-- FIRST_CHUNK_TIMER_EXPIRY (R104). -/
def execFirstChunkTimerExpiry (slot : Fin 96) (s : State) : Host.Outcome State Fault Refusal :=
  commit s (firstChunkExpiry slot.val s)

/-- The stream timer of slot `k` expires (R105). -/
def streamExpiry (k : Nat) (s : State) : State :=
  match (slotAt s k).use with
  | none => s
  | some ft => if ft.streamTimer = some 0 then settle (muteNode ft.node s) else s

/-- STREAM_TIMER_EXPIRY (R105). -/
def execStreamTimerExpiry (slot : Fin 96) (s : State) : Host.Outcome State Fault Refusal :=
  commit s (streamExpiry slot.val s)

end Sys2Proof.Machine
end

