-- ==== Sys2Proof/Machine/Requests.lean ====
section
/-! DEFINITION. The record requests (Chapter 2): DEFINE, LOCATE, CLASS, REVISE, REDIRECT, HOLD, RESUME, CANCEL, RETIRE, WATCH. -/

namespace Sys2Proof.Machine

/-- The REPLY that ends a request which may have abandoned a lane, after the room and the idle lanes that it made are handed on (R138, R157; log
entry 28). -/
def finish (f : Frame) (k : Kind) (st : Status) (result : List Byte) (s : State) : State :=
  reply f k st result (settle s)

/-- A record number and a generation as results carry them (R185). -/
def nameBytes (n : Nat) (g : Generation) : List Byte :=
  be 2 n ++ be 2 g.toNat

/-- The generation of record `n` as results carry it: 0 when it was in a fixed record's lost word (R32, R41). -/
def shownGeneration (s : State) (n : Nat) : Generation :=
  match liveAt s n with
  | some l => if l.lostFields.contains .generation then 0 else generationAt s n
  | none => generationAt s n

/-- A request's reads of a record. One that meets an uncorrectable error may abandon a lane, whose room is handed on (R31, R32, R138). -/
def requestRead (n : Nat) (ids work : List RecField) (s : State) : Bool × State :=
  let rd := readRecordFields n ids work s
  if rd.1 then rd else (false, settle rd.2)

/-! ### Identity (R6, R38 stage 2) -/

/-- Stage 2 of R38: the live record that a request names, or the status that refuses it, by the table of R6. A FREE record whose state or generation
cannot be read is not compared (R31); nor is a fixed one, or one that the read makes fixed (R32). -/
def identify (r : RecordName) (s : State) : Except Status Live × State :=
  match liveAt s r.number with
  | none =>
    let rd := readFields r.number [.state, .generation] s
    if rd.1 ≠ [] then (.error .wrongState, rd.2)
    else if generationAt s r.number = r.generation then (.error .wrongState, rd.2)
    else (.error .staleGen, count .staleGen rd.2)
  | some l =>
    if l.fixed then (.error .wrongState, s)
    else
      let rd := requestRead r.number identityFields [] s
      if !rd.1 then (.error .wrongState, rd.2)
      else if generationAt s r.number = r.generation then (.ok l, rd.2)
      else (.error .staleGen, count .staleGen rd.2)

/-- A request that names a record: refused by stage 2, or applied by `act` (R38). -/
def onRecord (f : Frame) (k : Kind) (r : RecordName) (act : Live → State → State) (s : State) : State :=
  match identify r s with
  | (.error st, s1) => reply f k st [] s1
  | (.ok l, s1) => act l s1

/-- Work words of a record whose identity words the step has read (R31). -/
def readWork (n : Nat) (work : List RecField) (s : State) : Bool × State :=
  requestRead n [] work s

/-- State, class, hold cause and cause position of record `n` as it stands (R185). -/
def stateReport (s : State) (n : Nat) : List Byte :=
  match liveAt s n with
  | some l => [stateCode (some l.state), classCode l.cls] ++ causeBytes (some l.state)
  | none => [0, 0, 0, 0]

/-- A request that may have abandoned a lane is applied: what follows from it, then its OK with the record as it stands (R38, R185). -/
def applied (f : Frame) (k : Kind) (n : Nat) (s : State) : State :=
  finish f k .ok (stateReport s n) s

/-! ### The key index (R28, R29, R33) -/

/-- What a lookup found in a bucket: the record of the matching way, the lowest empty way, whether a way could not be read. -/
structure Lookup where
  hit : Option Nat
  empty : Option Nat
  unreadable : Bool
  deriving DecidableEq, Repr

/-- The lookup meets way `w` of bucket `b`. -/
def lookupWay (key : StripeKey) (b : Nat) (acc : Lookup × State) (w : Nat) : Lookup × State :=
  let r := readWord (.way b w) acc.2
  if r.1 then
    match Sparse.get emptyWay acc.2.index (8 * b + w) with
    | none => ({ acc.1 with empty := acc.1.empty <|> some w }, r.2)
    | some e => (if e.key = key then { acc.1 with hit := some e.record } else acc.1, r.2)
  else ({ acc.1 with unreadable := true }, r.2)

/-- The lookup of a key in its bucket (R29). -/
def lookup (key : StripeKey) (s : State) : Lookup × State :=
  (List.range Config.waysPerBucket).foldl (lookupWay key (bucketOf key)) ({ hit := none, empty := none, unreadable := false }, s)

/-! ### DEFINE (R40 to R43) -/

/-- A length that R40 refuses. -/
def badLength (len : Nat) : Bool :=
  len == 0 || len % 4096 != 0 || decide (Config.maxLength < len)

/-- The target list carried, every target OPEN with placed count 0 (R42). -/
def newTargets (r : DefineReq) : List Target :=
  r.targets.map (fun t => { frag := t.1, dest := t.2, placed := 0, status := .opened })

/-- The lists that R40 refuses with BAD_LIST. -/
def badDefineList (r : DefineReq) : Bool :=
  r.targets.isEmpty || decide (4 < r.targets.length) || badSources r.sources (r.targets.map (fun t => t.1))

/-- The slots that R40 refuses with BAD_SLOT. -/
def badDefineSlot (s : State) (r : DefineReq) : Bool :=
  (r.sources.map (fun e => e.slot) ++ r.targets.map (fun t => t.2)).any (badSlot s)

/-- The watch that a DEFINE or a WATCH from `src` sets (R43, R56). -/
def watchFor (watcher src : EthAddr) (e : Option Edge) : Option Watch :=
  e.map (fun e => { watcher := if watcher = 0 then src else watcher, edge := e })

/-- Record `n` carries the watch `w` (R16). -/
def setWatch (n : Nat) (w : Option Watch) (s : State) : State :=
  match liveAt s n with
  | none => s
  | some l => writeFields n [.watch] (setLive n { l with watch := w } s)

/-- The new record's fields (R42 step 2). -/
def newLive (r : DefineReq) (c : RecordClass) (src : EthAddr) (way : Nat) (stamp : BitVec 32) : Live :=
  { key := r.key, length := r.length, segTotal := segmentTotal r.length, cls := c, sources := r.sources, targets := newTargets r
    state := .waiting, watch := none, stamp := stamp, definer := src, way := way, fixed := false, lostFields := [] }

/-- Record `n` is created (R42 steps 1 to 6). -/
def createRecord (n : Nat) (g : Generation) (l : Live) (s : State) : State :=
  let s1 := { s with freeList := { s.freeList with head := s.freeList.head + 1 } }
  let s2 := writeFields n (identityFields ++ workFields) (setRecord n { generation := g, live := some l } s1)
  let s3 := writeWord (.way (bucketOf l.key) l.way)
    { s2 with index := Sparse.set emptyWay s2.index (8 * bucketOf l.key + l.way) (some { record := n, key := l.key }) }
  let s4 := joinQueue n l.cls (raiseRefs (slotsNamed l.sources l.targets) s3)
  let s5 := { s4 with liveCount := s4.liveCount + 1 }
  if s5.liveCount = s5.settings.tableHigh then raise .tableHigh s5 else s5

/-- The number at the head of the free list (R26). -/
def headNumber (s : State) : Nat :=
  Sparse.get resetRingEntry s.freeList.ring s.freeList.head.toNat

/-- Stages 5 to 7 of a DEFINE, and the record it creates (R41 to R43). -/
def defineChecked (f : Frame) (r : DefineReq) (c : RecordClass) (e : Option Edge) (s : State) : State :=
  let look := lookup r.key s
  match look.1.hit with
  | some n =>
    let s1 := (requestRead n [.generation] [] look.2).2
    reply f .define .existing (nameBytes n (shownGeneration s1 n)) s1
  | none => match look.1.unreadable, look.1.empty with
    | false, some w =>
      if Config.tableSize ≤ look.2.liveCount then reply f .define .tableFull [] look.2
      else
        let hd := readWord (.freeEntry look.2.freeList.head.toNat) look.2
        if !hd.1 then reply f .define .tableFull [] hd.2
        else
          let n := headNumber hd.2
          let rd := readFields n [.state, .generation] hd.2
          let g := if rd.1 ≠ [] then 0 else generationAt rd.2 n
          let s1 := createRecord n g (newLive r c f.src w rd.2.queueSeq) rd.2
          reply f .define .ok (nameBytes n g) (setWatch n (watchFor r.watcher f.src e) s1)
    | _, _ => reply f .define .indexFull [] (raise .indexFull look.2)

/-- DEFINE with its operands readable and its sender the holder: the code checks of R182, then the ordered checks of R40. -/
def applyDefine (f : Frame) (r : DefineReq) (s : State) : State :=
  match classOfCode r.cls, edgeOfCode r.edge with
  | some c, some e =>
    if badLength r.length then reply f .define .badLength [] s
    else if badDefineList r then reply f .define .badList [] s
    else if badDefineSlot s r then reply f .define .badSlot [] s
    else defineChecked f r c e s
  | _, _ => reply f .define .malformed [] s

/-- A DEFINE frame. -/
def onDefine (f : Frame) (s : State) : State :=
  request .define true f (parseDefine f.body) (applyDefine f) s

/-- DEFINE (R40 to R43). -/
def execDefine (f : Frame) (mem : List Damage) (s : State) : Host.Outcome State Fault Refusal :=
  commit s (onDefine f (strike mem s))

/-! ### CLASS and URGENT (R46, R47) -/

/-- The class field of record `n`, which holds `l`, becomes `c`; a WAITING record of the other class moves to the tail of the other queue with a new
stamp (R46, R47). -/
def changeClass (n : Nat) (l : Live) (c : RecordClass) (s : State) : State :=
  if l.cls = c then s
  else match l.state with
    | .waiting =>
      joinQueue n c (writeFields n [.cls, .stamp] (setLive n { l with cls := c, stamp := s.queueSeq } (leaveHolder n l s)))
    | _ => writeFields n [.cls] (setLive n { l with cls := c } s)

/-- CLASS of the record found. -/
def applyClass (f : Frame) (n : Nat) (c : RecordClass) (l : Live) (s : State) : State :=
  let s1 := changeClass n l c s
  reply f .cls .ok (stateReport s1 n) s1

/-- A CLASS frame: the class code is judged after the authority (R182). -/
def onClass (f : Frame) (s : State) : State :=
  request .cls true f (parseNameCode f.body) (fun r s => match classOfCode r.2 with
    | none => reply f .cls .malformed [] s
    | some c => onRecord f .cls r.1 (applyClass f r.1.number c) s) s

/-- CLASS (R47). -/
def execSetClass (f : Frame) (mem : List Damage) (s : State) : Host.Outcome State Fault Refusal :=
  commit s (onClass f (strike mem s))

/-! ### LOCATE (R44 to R46) -/

/-- Whether a record is HELD with cause MEMORY, so that its work words are not read (R31). -/
def memoryHeld (l : Live) : Bool :=
  l.state == .held .memory

/-- A field of a fixed record as the report shows it: 0 when it was in a lost word (R32). -/
def shown (l : Live) (fd : RecField) (v : Nat) : Nat :=
  if l.lostFields.contains fd then 0 else v

/-- A target entry of the report, with the destination's address as it stands (R186). -/
def reportTarget (s : State) (e : Target × Nat) : List Byte :=
  [BitVec.ofNat 8 e.2, e.1.frag, statusCode e.1.status] ++ reserved 1 ++ be 2 e.1.placed ++ be 2 e.1.dest
    ++ be 6 (nodeAt s e.1.dest).addr.toNat ++ reserved 2

/-- A source entry of the report (R186). -/
def reportSource (e : Source × Nat) : List Byte :=
  [BitVec.ofNat 8 e.2, e.1.frag] ++ be 2 e.1.slot

/-- The targets that the report shows: the one of the fragment index named, or all; none under MEMORY (R45). -/
def reportedTargets (l : Live) (frag : Option Byte) : List (Target × Nat) :=
  if memoryHeld l then []
  else match frag with
    | none => l.targets.zipIdx
    | some x => l.targets.zipIdx.filter (fun e => e.1.frag == x)

/-- The sources that the report shows (R45). -/
def reportedSources (l : Live) : List (Source × Nat) :=
  if memoryHeld l then [] else l.sources.zipIdx

/-- The report of a LOCATE (R45, R186). -/
def locateReport (s : State) (n : Nat) (frag : Option Byte) (l : Live) : List Byte :=
  let ts := reportedTargets l frag
  let ss := reportedSources l
  be 2 n ++ be 2 (shownGeneration s n).toNat
    ++ [stateCode (some l.state), BitVec.ofNat 8 (shown l .cls (classCode l.cls).toNat)] ++ causeBytes (some l.state)
    ++ be 2 (shown l .stallNode (stallField (some l.state)))
    ++ [BitVec.ofNat 8 ts.length, BitVec.ofNat 8 ss.length]
    ++ be 4 (if memoryHeld l then 0 else l.length) ++ be 2 (if memoryHeld l then 0 else l.segTotal)
    ++ [if l.watch.isSome then 1 else 0] ++ reserved 1 ++ be 4 (shown l .stamp l.stamp.toNat)
    ++ be 6 (shown l .definer l.definer.toNat) ++ reserved 2
    ++ (ts.map (reportTarget s)).flatten ++ (ss.map reportSource).flatten

/-- A fragment index is given and no target of the record has it (R44). -/
def notTarget (l : Live) (frag : Option Byte) : Bool :=
  match frag with
  | none => false
  | some x => !memoryHeld l && !(l.targets.any (fun t => t.frag == x))

/-- The LOCATE is answered OK: the raise of R46, then the report of R45. -/
def locateOk (f : Frame) (n : Nat) (frag : Option Byte) (s : State) : State :=
  match liveAt s n with
  | none => reply f .locate .notFound [] s
  | some l =>
    let s1 := if f.flags.getLsbD 0 && !l.fixed then changeClass n l .foreground s else s
    match liveAt s1 n with
    | none => reply f .locate .notFound [] s1
    | some l1 => reply f .locate .ok (locateReport s1 n frag l1) s1

/-- The record found by a LOCATE: its identity words are read, then the fragment indices where one is named, then the rest of the report. -/
def locateFound (f : Frame) (n : Nat) (frag : Option Byte) (s : State) : State :=
  let s1 := (requestRead n identityFields (if frag.isSome then [.frags] else []) s).2
  match liveAt s1 n with
  | none => reply f .locate .notFound [] s1
  | some l =>
    if notTarget l frag then reply f .locate .notTarget (nameBytes n (shownGeneration s1 n)) s1
    else locateOk f n frag (readWork n [.length, .segTotal, .frags, .placed, .status] s1).2

/-- LOCATE with its operands readable. -/
def applyLocate (f : Frame) (r : LocateReq) (s : State) : State :=
  let look := lookup r.key s
  match look.1.hit with
  | none => reply f .locate .notFound [] look.2
  | some n => locateFound f n r.frag look.2

/-- A LOCATE frame. -/
def onLocate (f : Frame) (s : State) : State :=
  request .locate false f (parseLocate f.body) (applyLocate f) s

/-- LOCATE (R44 to R46). -/
def execLocate (f : Frame) (mem : List Damage) (s : State) : Host.Outcome State Fault Refusal :=
  commit s (onLocate f (strike mem s))

/-! ### REVISE (R48, R49) -/

/-- The record re-enters WAITING when it was ACTIVE or STALLED (R49). -/
def requeueRevised (n : Nat) (l : Live) (s : State) : State :=
  match l.state with
  | .active => enterWaiting n s
  | .stalled _ => enterWaiting n s
  | _ => s

/-- The new source list replaces the old one, and the reference counts follow (R49). -/
def replaceSources (n : Nat) (l : Live) (sources : List Source) (s : State) : State :=
  adjustRefs (slotsNamed l.sources l.targets) (slotsNamed sources l.targets)
    (writeFields n [.counts, .slots, .frags, .coefs] (setLive n { l with sources := sources } s))

/-- REVISE of the record found: stages 3 and 4 of R48, then R49. -/
def applyRevise (f : Frame) (r : ReviseReq) (l : Live) (s : State) : State :=
  let n := r.name.number
  if l.state = .placed ∨ memoryHeld l = true then reply f .revise .wrongState [] s
  else
    let rd := readWork n [.frags] s
    if !rd.1 then reply f .revise .wrongState [] rd.2
    else if decide (r.coefCount ≠ l.targets.length) || badSources r.sources (l.targets.map (fun t => t.frag)) then
      reply f .revise .badList [] rd.2
    else if r.sources.any (fun e => badSlot rd.2 e.slot) then reply f .revise .badSlot [] rd.2
    else applied f .revise n (requeueRevised n l (replaceSources n l r.sources rd.2))

/-- A REVISE frame. -/
def onRevise (f : Frame) (s : State) : State :=
  request .revise true f (parseRevise f.body) (fun r s => onRecord f .revise r.name (applyRevise f r) s) s

/-- REVISE (R48, R49). -/
def execRevise (f : Frame) (mem : List Damage) (s : State) : Host.Outcome State Fault Refusal :=
  commit s (onRevise f (strike mem s))

/-! ### REDIRECT (R50, R51) -/

/-- The target list with position `q` sent to `dest`, OPEN with placed count 0 (R51). -/
def redirected (ts : List Target) (q dest : Nat) : List Target :=
  ts.modify q (fun t => { t with dest := dest, placed := 0, status := .opened })

/-- The record re-enters WAITING when it was ACTIVE or PLACED (R51). -/
def requeueRedirected (n : Nat) (l : Live) (s : State) : State :=
  match l.state with
  | .active => enterWaiting n s
  | .placed => enterWaiting n s
  | _ => s

/-- The target's new destination, and the reference counts (R51). -/
def replaceTargets (n : Nat) (l : Live) (ts : List Target) (s : State) : State :=
  adjustRefs (slotsNamed l.sources l.targets) (slotsNamed l.sources ts)
    (writeFields n [.slots, .placed, .status] (setLive n { l with targets := ts } s))

/-- REDIRECT of the record found: the checks of R50 in order, then R51. -/
def applyRedirect (f : Frame) (r : RedirectReq) (l : Live) (s : State) : State :=
  let n := r.name.number
  if memoryHeld l then reply f .redirect .wrongState [] s
  else match l.targets[r.position]? with
    | none => reply f .redirect .notTarget [] s
    | some t =>
      let rd := readWork n [.frags, .placed, .status] s
      if !rd.1 then reply f .redirect .wrongState [] rd.2
      else if l.state = .stalled t.dest then reply f .redirect .wrongState [] rd.2
      else if badSlot rd.2 r.dest then reply f .redirect .badSlot [] rd.2
      else applied f .redirect n
        (requeueRedirected n l (replaceTargets n l (redirected l.targets r.position r.dest) rd.2))

/-- A REDIRECT frame. -/
def onRedirect (f : Frame) (s : State) : State :=
  request .redirect true f (parseRedirect f.body) (fun r s => onRecord f .redirect r.name (applyRedirect f r) s) s

/-- REDIRECT (R50, R51). -/
def execRedirect (f : Frame) (mem : List Damage) (s : State) : Host.Outcome State Fault Refusal :=
  commit s (onRedirect f (strike mem s))

/-! ### HOLD and RESUME (R52, R53) -/

/-- HOLD of the record found. -/
def applyHold (f : Frame) (n : Nat) (l : Live) (s : State) : State :=
  match l.state with
  | .held _ => reply f .hold .wrongState [] s
  | .placed => reply f .hold .wrongState [] s
  | _ => applied f .hold n (enterHeld n .operator s)

/-- A HOLD frame. -/
def onHold (f : Frame) (s : State) : State :=
  request .hold true f (parseName f.body) (fun r s => onRecord f .hold r (applyHold f r.number) s) s

/-- HOLD (R52). -/
def execHold (f : Frame) (mem : List Damage) (s : State) : Host.Outcome State Fault Refusal :=
  commit s (onHold f (strike mem s))

/-- RESUME of the record found. -/
def applyResume (f : Frame) (n : Nat) (l : Live) (s : State) : State :=
  match l.state with
  | .held .memory => reply f .resume .wrongState [] s
  | .held _ =>
    let rd := readWork n [.status] s
    if !rd.1 then reply f .resume .wrongState [] rd.2
    else if l.targets.any (fun t => t.status == .lost) then reply f .resume .wrongState [] rd.2
    else
      let s1 := enterWaiting n rd.2
      reply f .resume .ok (stateReport s1 n) s1
  | _ => reply f .resume .wrongState [] s

/-- A RESUME frame. -/
def onResume (f : Frame) (s : State) : State :=
  request .resume true f (parseName f.body) (fun r s => onRecord f .resume r (applyResume f r.number) s) s

/-- RESUME (R53). -/
def execResume (f : Frame) (mem : List Damage) (s : State) : Host.Outcome State Fault Refusal :=
  commit s (onResume f (strike mem s))

/-! ### CANCEL and RETIRE (R54, R55) -/

/-- The target part of CANCEL's result (R185): empty under MEMORY (R54). -/
def cancelledTargets (l : Live) : List Target :=
  if memoryHeld l then [] else l.targets

/-- CANCEL's result (R185). -/
def cancelResult (n : Nat) (g : Generation) (ts : List Target) : List Byte :=
  nameBytes n g ++ [BitVec.ofNat 8 ts.length] ++ reserved 3
    ++ (ts.map (fun t => be 2 t.placed ++ [statusCode t.status] ++ reserved 1)).flatten

/-- CANCEL of the record found. -/
def applyCancel (f : Frame) (n : Nat) (s : State) : State :=
  let s1 := (readWork n [.placed, .status] s).2
  match liveAt s1 n with
  | none => reply f .cancel .wrongState [] s1
  | some l => finish f .cancel .ok (cancelResult n (generationAt s1 n) (cancelledTargets l)) (enterFree n s1)

/-- A CANCEL frame. -/
def onCancel (f : Frame) (s : State) : State :=
  request .cancel true f (parseName f.body) (fun r s => onRecord f .cancel r (fun _ s => applyCancel f r.number s) s) s

/-- CANCEL (R54). -/
def execCancel (f : Frame) (mem : List Damage) (s : State) : Host.Outcome State Fault Refusal :=
  commit s (onCancel f (strike mem s))

/-- RETIRE of the record found. -/
def applyRetire (f : Frame) (n : Nat) (l : Live) (s : State) : State :=
  if l.state = .placed then finish f .retire .ok (nameBytes n (generationAt s n)) (enterFree n s)
  else reply f .retire .wrongState [] s

/-- A RETIRE frame. -/
def onRetire (f : Frame) (s : State) : State :=
  request .retire true f (parseName f.body) (fun r s => onRecord f .retire r (applyRetire f r.number) s) s

/-- RETIRE (R55). -/
def execRetire (f : Frame) (mem : List Damage) (s : State) : Host.Outcome State Fault Refusal :=
  commit s (onRetire f (strike mem s))

/-! ### WATCH (R56) -/

/-- WATCH of the record found: the flag REPLACED says whether it had a watch (R56, R180). -/
def applyWatch (f : Frame) (n : Nat) (e : Option Edge) (l : Live) (s : State) : State :=
  answer (askerOf f) Kind.watch.code .ok (if l.watch.isSome then 4 else 0) ([stateCode (some l.state)] ++ reserved 3)
    (setWatch n (e.map (fun e => { watcher := f.src, edge := e })) s)

/-- A WATCH frame: it needs no lease, and the edge code is judged first (R182). -/
def onWatch (f : Frame) (s : State) : State :=
  request .watch false f (parseNameCode f.body) (fun r s => match edgeOfCode r.2 with
    | none => reply f .watch .malformed [] s
    | some e => onRecord f .watch r.1 (applyWatch f r.1.number e) s) s

/-- WATCH (R56). -/
def execWatch (f : Frame) (mem : List Damage) (s : State) : Host.Outcome State Fault Refusal :=
  commit s (onWatch f (strike mem s))

end Sys2Proof.Machine
end

