-- ==== Sys2Proof/Machine/Modes.lean ====
section
/-! DEFINITION. The Mode Controller (Chapter 7): MODE, MODE_WRITE, DRAIN_END, PORT_WRITE, the address and EtherType writes, LINK_UP, LINK_DOWN, WAKE. -/

namespace Sys2Proof.Machine

/-- A window write is ignored and counted (R190). -/
def ignoreWrite (s : State) : State :=
  count .windowWriteIgnored s

/-! ### Mode changes (R156 to R159, R162) -/

/-- Whether a party holds the lease and a port is able to send, as an entry into REBUILD needs (R156). -/
def rebuildAllowed (s : State) : Bool :=
  s.lease.grant.isSome && portsAllowed s .rebuild

/-- Whether the table of R156 takes a change to `m` from the present mode. -/
def modeChangeTaken (s : State) (m : Mode) : Bool :=
  match s.mode, m with
  | .dormant, .ready => true
  | .ready, .rebuild => rebuildAllowed s
  | .ready, .dormant => true
  | .rebuild, .drain => true
  | .drain, .rebuild => rebuildAllowed s
  | .drain, .ready => true
  | .dormant, .dormant => true
  | .ready, .ready => true
  | .rebuild, .rebuild => true
  | .drain, .drain => true
  | _, _ => false

/-- The port's state is set to its resume state (R162). -/
def resumePort (p : PortRegs) : PortRegs :=
  { p with state := p.resume }

/-- The port's state is recorded as its resume state, and ON becomes LISTEN (R159). -/
def parkPort (p : PortRegs) : PortRegs :=
  { p with resume := p.state, state := if p.state = .on then .listen else p.state }

/-- The mode leaves DORMANT (R162). -/
def leaveDormant (s : State) : State :=
  setMode .ready { s with portA := resumePort s.portA, portB := resumePort s.portB }

/-- The mode enters DORMANT (R159 steps 2 to 4). -/
def enterDormant (s : State) : State :=
  setMode .dormant { s with portA := parkPort s.portA, portB := parkPort s.portB }

/-- The drain is cut short (R158). -/
def cutDrain (s : State) : State :=
  setMode .ready (returnAllLanes s)

/-- A change to mode `m` that the table of R156 takes. -/
def changeMode (m : Mode) (s : State) : State :=
  match s.mode, m with
  | .dormant, .ready => leaveDormant s
  | .ready, .rebuild => setMode .rebuild s
  | .ready, .dormant => enterDormant s
  | .rebuild, .drain => enterDrain s
  | .drain, .rebuild => setMode .rebuild s
  | .drain, .ready => cutDrain s
  | _, _ => s

/-- The result of a MODE request, for mode `m` (R185). -/
def modeReport (s : State) (m : Mode) : List Byte :=
  [modeCode m, portStateCode s.portA.state, linkCode s.portA.linkUp, portStateCode s.portB.state, linkCode s.portB.linkUp] ++ reserved 3

/-- MODE with its operands readable and its sender the holder. Entry into DORMANT answers first (R156, R159 step 1; log entry 11). -/
def applyMode (f : Frame) (code : Byte) (s : State) : State :=
  match modeOfCode code with
  | none => reply f .mode .malformed [] s
  | some m =>
    if !modeChangeTaken s m then reply f .mode .modeRefused (modeReport s s.mode) (raise .modeRefused s)
    else if m = .dormant then changeMode m (reply f .mode .ok (modeReport s m) s)
    else
      let s1 := changeMode m s
      reply f .mode .ok (modeReport s1 s1.mode) s1

/-- A MODE frame. -/
def onMode (f : Frame) (s : State) : State :=
  request .mode true f (parseMode f.body) (applyMode f) s

/-- MODE (R156). -/
def execModeRequest (f : Frame) (s : State) : Host.Outcome State Fault Refusal :=
  commit s (onMode f s)

/-- A write of the mode field (R156). -/
def writeMode (code : Byte) (s : State) : State :=
  match modeOfCode code with
  | none => ignoreWrite s
  | some m => if modeChangeTaken s m then changeMode m s else raise .modeRefused s

/-- MODE_WRITE (R156). -/
def execModeWrite (code : BitVec 8) (s : State) : Host.Outcome State Fault Refusal :=
  commit s (writeMode code s)

/-- DRAIN_END: in DRAIN with every lane IDLE the mode becomes READY (R157). -/
def execDrainEnd (s : State) : Host.Outcome State Fault Refusal :=
  commit s (endDrain s)

/-! ### WAKE (R161, R163) -/

/-- The wake filter (R161). -/
def wakeMatches (s : State) (f : Frame) : Bool :=
  f.cluster == s.wakeCluster && (f.wakeUnit == s.wakeUnit || f.wakeUnit == 0xFFFF)

/-- A WAKE that its port has taken. -/
def takenWake (f : Frame) (s : State) : State :=
  if s.mode = .dormant then
    if wakeMatches s f then raise .wake (leaveDormant s) else count .dormantDrop s
  else if wakeMatches s f then reply f .wake .ok ([modeCode s.mode] ++ reserved 3) s
  else s

/-- A WAKE frame. -/
def onWake (f : Frame) (s : State) : State :=
  if taken s f then takenWake f s else s

/-- WAKE (R161, R163). -/
def execWake (f : Frame) (s : State) : Host.Outcome State Fault Refusal :=
  commit s (onWake f s)

/-! ### Port and address writes (R160, R192) -/

def portStateOfCode (c : BitVec 2) : Option PortState :=
  if c = 0 then some .off else if c = 1 then some .listen else if c = 2 then some .on else none

/-- The state after port `p` is written to `v`. -/
def withPortState (p : Port) (v : PortState) (s : State) : State :=
  setPort p { portAt s p with state := v } s

/-- Whether a port write is taken (R160). -/
def portWriteTaken (p : Port) (v : PortState) (s : State) : Bool :=
  portsAllowed (withPortState p v s) s.mode && !(v == .on && (portAt s p).addr == 0)

/-- A write of a port's control field (R160). -/
def writePort (p : Port) (c : BitVec 2) (s : State) : State :=
  match portStateOfCode c with
  | none => ignoreWrite s
  | some v => if portWriteTaken p v s then withPortState p v s else raise .portRefused s

/-- PORT_WRITE (R160). -/
def execPortWrite (p : Port) (code : BitVec 2) (s : State) : Host.Outcome State Fault Refusal :=
  commit s (writePort p code s)

/-- A write of the low address register goes to the staging half (R192). -/
def writeAddressLow (p : Port) (low : BitVec 32) (s : State) : State :=
  setPort p { portAt s p with staging := low } s

/-- ADDRESS_LOW_WRITE (R192). -/
def execAddressLowWrite (p : Port) (low : BitVec 32) (s : State) : Host.Outcome State Fault Refusal :=
  commit s (writeAddressLow p low s)

/-- A zero address is refused for a port that is ON, and in DORMANT for a port whose resume state is ON (R160). -/
def zeroAddressRefused (p : Port) (s : State) : Bool :=
  (portAt s p).state == .on || (s.mode == .dormant && (portAt s p).resume == .on)

/-- A write of the high address register asks for the address it forms with the staging half (R160, R192). -/
def writeAddressHigh (p : Port) (high : BitVec 16) (s : State) : State :=
  let a : EthAddr := high ++ (portAt s p).staging
  if a = 0 ∧ zeroAddressRefused p s = true then raise .portRefused s
  else setPort p { portAt s p with addr := a } s

/-- ADDRESS_HIGH_WRITE (R192). -/
def execAddressHighWrite (p : Port) (high : BitVec 16) (s : State) : Host.Outcome State Fault Refusal :=
  commit s (writeAddressHigh p high s)

/-- A write of the EtherType (R191). -/
def writeEtherType (v : BitVec 16) (s : State) : State :=
  if v.toNat < 0x0600 then ignoreWrite s else { s with etherType := v }

/-- ETHERTYPE_WRITE (R191). -/
def execEtherTypeWrite (value : BitVec 16) (s : State) : Host.Outcome State Fault Refusal :=
  commit s (writeEtherType value s)

/-! ### Links (R164, R165) -/

/-- A port's link goes up; a link that is up does not go up (log entry 16). -/
def linkGoesUp (p : Port) (s : State) : State :=
  if (portAt s p).linkUp then s else raise .linkUp (setPort p { portAt s p with linkUp := true } s)

/-- LINK_UP (R164). -/
def execLinkUp (p : Port) (s : State) : Host.Outcome State Fault Refusal :=
  commit s (linkGoesUp p s)

/-- The port whose link went down was the last working one, in REBUILD or DRAIN (R164). -/
def lastLinkLost (p : Port) (s : State) : Bool :=
  (portAt s p).state == .on && (s.mode == .rebuild || s.mode == .drain) && !ableToSend s (otherPort p)

/-- A port's link goes down; a link that is down does not go down (log entry 16). -/
def linkGoesDown (p : Port) (s : State) : State :=
  if (portAt s p).linkUp then
    let s1 := raise .linkDown (setPort p { portAt s p with linkUp := false } s)
    if lastLinkLost p s1 then setMode .ready (returnAllLanes s1) else s1
  else s

/-- LINK_DOWN (R164, R165). -/
def execLinkDown (p : Port) (s : State) : Host.Outcome State Fault Refusal :=
  commit s (linkGoesDown p s)

end Sys2Proof.Machine
end

