-- ==== Sys2Proof/Machine/Lease.lean ====
section
/-! DEFINITION. The authority lease (Chapter 8): LEASE_TAKE, LEASE_RENEW, LEASE_RELEASE, LEASE_LAPSE, LEASE_SETTING_WRITE. -/

namespace Sys2Proof.Machine

/-- A lease request is answered with its lease report, whatever the status (R169, R185). -/
def leaseReply (f : Frame) (k : Kind) (st : Status) (s : State) : State :=
  reply f k st (leaseReport s) s

/-- The lease is granted to `src` (R170). -/
def grantLease (src : EthAddr) (s : State) : State :=
  { s with lease := { grant := some { holder := src, elapsed := 0 }, epoch := s.lease.epoch + 1 } }

/-- LEASE_TAKE with its operands readable (R170). -/
def applyLeaseTake (f : Frame) (s : State) : State :=
  match s.lease.grant with
  | some _ => leaseReply f .leaseTake .leaseHeld s
  | none => leaseReply f .leaseTake .ok (grantLease f.src s)

/-- A LEASE_TAKE frame. -/
def onLeaseTake (f : Frame) (s : State) : State :=
  request .leaseTake false f (parseEmpty f.body) (fun _ s => applyLeaseTake f s) s

/-- LEASE_TAKE (R170). -/
def execLeaseTake (f : Frame) (s : State) : Host.Outcome State Fault Refusal :=
  commit s (onLeaseTake f s)

/-- The checks of R171 steps 1 and 2: the grant that the sender may act on, or the refusal. -/
def leaseNamed (f : Frame) (epoch : BitVec 32) (s : State) : Except Status Grant :=
  match s.lease.grant with
  | none => .error .notHolder
  | some g => if g.holder ≠ f.src then .error .notHolder else if s.lease.epoch ≠ epoch then .error .staleEpoch else .ok g

/-- The window restarts (R171, R176). -/
def restartWindow (g : Grant) (s : State) : State :=
  { s with lease := { s.lease with grant := some { g with elapsed := 0 } } }

/-- LEASE_RENEW with its operands readable (R171). -/
def applyLeaseRenew (f : Frame) (epoch : BitVec 32) (s : State) : State :=
  match leaseNamed f epoch s with
  | .error st => leaseReply f .leaseRenew st s
  | .ok g =>
    if g.elapsed < s.settings.tMin * Config.msUnits then leaseReply f .leaseRenew .tooEarly s
    else leaseReply f .leaseRenew .ok (restartWindow g s)

/-- A LEASE_RENEW frame. -/
def onLeaseRenew (f : Frame) (s : State) : State :=
  request .leaseRenew false f (parseEpoch f.body) (applyLeaseRenew f) s

/-- LEASE_RENEW (R171). -/
def execLeaseRenew (f : Frame) (s : State) : Host.Outcome State Fault Refusal :=
  commit s (onLeaseRenew f s)

/-- The lease ends: the holder becomes absent, `e` is set, and REBUILD becomes DRAIN (R172, R173, R174). -/
def endLease (e : Event) (s : State) : State :=
  let s1 := raise e { s with lease := { s.lease with grant := none } }
  if s1.mode = .rebuild then enterDrain s1 else s1

/-- LEASE_RELEASE with its operands readable (R172). -/
def applyLeaseRelease (f : Frame) (epoch : BitVec 32) (s : State) : State :=
  match leaseNamed f epoch s with
  | .error st => leaseReply f .leaseRelease st s
  | .ok _ => leaseReply f .leaseRelease .ok (endLease .leaseReleased s)

/-- A LEASE_RELEASE frame. -/
def onLeaseRelease (f : Frame) (s : State) : State :=
  request .leaseRelease false f (parseEpoch f.body) (applyLeaseRelease f) s

/-- LEASE_RELEASE (R172). -/
def execLeaseRelease (f : Frame) (s : State) : Host.Outcome State Fault Refusal :=
  commit s (onLeaseRelease f s)

/-- The lapse, taken when elapsed has reached T_max; otherwise nothing happens (R173; log entries 16 and 26). -/
def lapseLease (s : State) : State :=
  match s.lease.grant with
  | none => s
  | some g => if s.settings.tMax * Config.msUnits ≤ g.elapsed then endLease .leaseLapsed s else s

/-- LEASE_LAPSE (R173). -/
def execLeaseLapse (s : State) : Host.Outcome State Fault Refusal :=
  commit s (lapseLease s)

/-! ### The lease settings (R176) -/

/-- Whether a write of a lease setting is taken (R176). -/
def leaseSettingTaken (which : LeaseSetting) (v : Nat) (s : State) : Bool :=
  match which with
  | .tMin => decide (v ≤ s.settings.tMax)
  | .tMax => decide (100 ≤ v) && decide (v ≤ 60000) && decide (s.settings.tMin ≤ v)

/-- The settings with one lease setting changed. -/
def withLeaseSetting (which : LeaseSetting) (v : Nat) (st : Settings) : Settings :=
  match which with
  | .tMin => { st with tMin := v }
  | .tMax => { st with tMax := v }

/-- A write of a lease setting (R176). -/
def writeLeaseSetting (which : LeaseSetting) (v : Nat) (s : State) : State :=
  if leaseSettingTaken which v s then
    let s1 := clearFlags Event.leaseLapsed.mask { s with settings := withLeaseSetting which v s.settings }
    match s1.lease.grant with
    | none => s1
    | some g => restartWindow g s1
  else ignoreWrite s

/-- LEASE_SETTING_WRITE (R176). -/
def execLeaseSettingWrite (which : LeaseSetting) (value : BitVec 17) (s : State) : Host.Outcome State Fault Refusal :=
  commit s (writeLeaseSetting which value.toNat s)

end Sys2Proof.Machine
end

