-- ==== Sys2Proof/Machine/Place.lean ====
section
/-! DEFINITION. The Placement Unit (Chapter 6): STORE_ACK, STORE_TIMER_EXPIRY, SEND_COMPLETION, STORE_CHUNK_SENT, STORE_ATTEMPT_BEGIN. -/

namespace Sys2Proof.Machine

/-! ### The chunks of an attempt (R139) -/

/-- The store of target `q` of lane `i` that is SENDING attempt `a`. -/
def sendingStore (s : State) (i : Fin 8) (q a : Nat) : Option (Job × Store) :=
  match storeAt s i q with
  | none => none
  | some (j, st) => if st.state = .sending ∧ st.attempt = a then some (j, st) else none

/-- A chunk that is not the last has left its port, and the next is sent (R139; log entry 27). -/
def chunkLeft (i : Fin 8) (q a : Nat) (s : State) : State :=
  match sendingStore s i q a with
  | none => s
  | some (j, st) =>
    if st.chunksSent + 1 < chunkCount j.segLength then
      sendChunk i q (st.chunksSent + 1) (setStore i q { st with chunksSent := st.chunksSent + 1 } s)
    else s

/-- STORE_CHUNK_SENT (R139). -/
def execStoreChunkSent (lane : Fin 8) (target : Fin 4) (attempt : Nat) (s : State) : Host.Outcome State Fault Refusal :=
  commit s (chunkLeft lane target.val attempt s)

/-- The last chunk has left its port: the store awaits its receipt and its timer starts (R139, R140). -/
def sendCompleted (i : Fin 8) (q a : Nat) (s : State) : State :=
  match sendingStore s i q a with
  | none => s
  | some (j, st) =>
    if st.chunksSent + 1 = chunkCount j.segLength then
      setStore i q { st with state := .awaiting, chunksSent := st.chunksSent + 1, timer := some (s.settings.tStore * Config.msUnits) } s
    else s

/-- SEND_COMPLETION (R139). -/
def execSendCompletion (lane : Fin 8) (target : Fin 4) (attempt : Nat) (s : State) : Host.Outcome State Fault Refusal :=
  commit s (sendCompleted lane target.val attempt s)

/-- STORE_ATTEMPT_BEGIN: the wait list is taken from its head (R138). -/
def execStoreAttemptBegin (s : State) : Host.Outcome State Fault Refusal :=
  commit s (handRoom s)

/-! ### The failure of an attempt (R144) -/

/-- Target `q` of record `n` becomes LOST, its placed count kept (R12, R144); only a target that needs the segment does (log entry 33). -/
def loseTarget (n q seg : Nat) (s : State) : State :=
  match liveAt s n with
  | none => s
  | some l =>
    writeFields n [.status] (setLive n
      { l with targets := l.targets.modify q (fun t => if needsSegment t seg then { t with status := .lost } else t) } s)

/-- The attempt in flight of store `st` of lane `i` has failed: a second attempt from the same accumulator, or the target LOST and the record
HELD (R144). -/
def failAttempt (i : Fin 8) (j : Job) (st : Store) (s : State) : State :=
  if st.attempt = 1 then
    beginAttempt i st.target (setStore i st.target { st with attempt := 2, state := .queued, timer := none } (lowerOutstanding st.dest s))
  else enterHeld j.record (.destLost st.target) (loseTarget j.record st.target j.segment s)

/-! ### Receipts (R142, R143) -/

/-- The store record that a receipt answers, by the tests of R142. -/
def receiptStore (s : State) (src : EthAddr) (r : Receipt) : Option (Fin 8 × Job × Store) :=
  if h : r.lane < 8 then
    match laneAt s ⟨r.lane, h⟩ with
    | none => none
    | some j =>
      if j.generation = r.generation ∧ j.segment = r.segment then
        match (storesOf j).find? (fun st => st.frag == r.frag) with
        | none => none
        | some st =>
          if inFlight st = true ∧ st.attempt = r.attempt ∧ src = (nodeAt s st.dest).addr then some (⟨r.lane, h⟩, j, st) else none
      else none
  else none

/-- The target after a good receipt for segment `seg` (R12, R143); only a target that needs the segment changes (log entry 33). -/
def advancedTarget (total seg : Nat) (t : Target) : Target :=
  if needsSegment t seg then { t with placed := t.placed + 1, status := if t.placed + 1 = total then .done else t.status } else t

/-- The placed count of target `q` of record `n` rises (R143 step 2). The placed-count word and the status word are written each time, also where the
target stays OPEN (log entry 36). -/
def advanceTarget (n q seg : Nat) (s : State) : State :=
  match liveAt s n with
  | none => s
  | some l =>
    writeFields n [.placed, .status] (setLive n { l with targets := l.targets.modify q (advancedTarget l.segTotal seg) } s)

/-- Every store record of lane `i` is STORED (R122, R147). -/
def allStored (s : State) (i : Fin 8) : Bool :=
  match laneAt s i with
  | none => false
  | some j => (storesOf j).all (fun st => st.state == .stored)

/-- A good receipt is applied (R143, R145). -/
def goodReceipt (i : Fin 8) (j : Job) (st : Store) (s : State) : State :=
  let s1 := setStore i st.target { st with state := .stored, timer := none } (lowerOutstanding st.dest (clearConsecutive st.dest s))
  let rd := readRecord j.record [.placed, .segTotal] s1
  if rd.1 then
    let s2 := advanceTarget j.record st.target j.segment rd.2
    if allStored s2 i then turnEnd i s2 else s2
  else rd.2

/-- A readable STORE_ACK that passed the fence test: R142 to R144. -/
def applyStoreAck (f : Frame) (r : Receipt) (s : State) : State :=
  match receiptStore s f.src r with
  | none => count .late s
  | some (i, j, st) =>
    if r.status = 0 then
      if r.crc = st.crc then settle (goodReceipt i j st s) else settle (failAttempt i j st s)
    else if r.status = 1 then settle (failAttempt i j st s)
    else count .malformed s

/-- A STORE_ACK frame. -/
def onStoreAck (f : Frame) (s : State) : State :=
  nodeAnswer f (parseStoreAck f.body) (applyStoreAck f) s

/-- STORE_ACK (R142 to R145). -/
def execStoreAck (f : Frame) (mem : List Damage) (s : State) : Host.Outcome State Fault Refusal :=
  commit s (onStoreAck f (strike mem s))

/-! ### The store timer (R140, R141) -/

/-- The store timer of target `q` of lane `i` expires; where it does not run, or has time left, nothing happens (log entries 16 and 26). -/
def storeExpiry (i : Fin 8) (q : Nat) (s : State) : State :=
  match storeAt s i q with
  | none => s
  | some (j, st) =>
    if st.timer = some 0 then
      if timeoutMutes s st.dest then settle (muteNode st.dest (raiseConsecutive st.dest s))
      else settle (failAttempt i j st (raiseConsecutive st.dest s))
    else s

/-- STORE_TIMER_EXPIRY (R141). -/
def execStoreTimerExpiry (lane : Fin 8) (target : Fin 4) (s : State) : Host.Outcome State Fault Refusal :=
  commit s (storeExpiry lane target.val s)

end Sys2Proof.Machine
end

