-- ==== Sys2Proof/Machine/Roster.lean ====
section
/-! DEFINITION. The Node Roster's requests and events (Chapter 3): ROSTER_SET, ROSTER_CLEAR, FENCE, UNFENCE, PROBE_ACK, PROBE_TIMER_EXPIRY. -/

namespace Sys2Proof.Machine

/-- The slot report (R185). -/
def slotReport (s : State) (k : Nat) : List Byte :=
  let v := nodeAt s k
  [nodeStateCode v.state, BitVec.ofNat 8 v.rack, prefCode v.pref, BitVec.ofNat 8 v.limit] ++ be 6 v.addr.toNat ++ reserved 2
    ++ [BitVec.ofNat 8 v.outstanding, BitVec.ofNat 8 v.consecutive] ++ reserved 2 ++ be 4 v.refs ++ be 4 v.stallList.length

/-- The result of a refusal with IN_USE (R185). -/
def inUseReport (s : State) (k other : Nat) : List Byte :=
  be 4 (nodeAt s k).refs ++ [BitVec.ofNat 8 (nodeAt s k).outstanding] ++ reserved 1 ++ be 2 other

/-! ### ROSTER_SET (R69, R70) -/

/-- The values of a ROSTER_SET that R69 refuses with MALFORMED. -/
def badRosterValues (r : RosterReq) : Bool :=
  r.limit == 0 || decide (16 < r.limit) || decide (63 < r.rack) || (prefOfCode r.pref).isNone || r.addr == 0 || r.addr.getLsbD 40

/-- Another slot, not ABSENT, that holds the address (R69). -/
def addressHolder (s : State) (k : Nat) (a : EthAddr) : Option Nat :=
  (s.nodes.find? (fun e => e.1 != k && e.2.state != .absent && e.2.addr == a)).map (fun e => e.1)

/-- The slot's change of address or rack is refused while live records name it (R69, check 5). -/
def moveRefused (v : Node) (r : RosterReq) : Bool :=
  v.state != .absent && (v.addr != r.addr || v.rack != r.rack) && v.refs != 0

/-- The slot after a ROSTER_SET (R70). -/
def nodeAfterSet (v : Node) (r : RosterReq) (p : Preference) : Node :=
  if v.state = .absent then
    { v with state := .serving, addr := r.addr, rack := r.rack, pref := p, limit := r.limit, outstanding := 0, consecutive := 0, refs := 0,
             stallList := [] }
  else { v with addr := r.addr, rack := r.rack, pref := p, limit := r.limit }

/-- A ROSTER_SET answered OK: a raised limit makes room for waiting stores before the report is made (R138; log entry 12). -/
def rosterSetOk (f : Frame) (r : RosterReq) (p : Preference) (s : State) : State :=
  let s1 := settle (setNode r.slot (nodeAfterSet (nodeAt s r.slot) r p) s)
  reply f .rosterSet .ok (slotReport s1 r.slot) s1

/-- ROSTER_SET with its operands readable and its sender the holder: the checks of R69 in order. -/
def applyRosterSet (f : Frame) (r : RosterReq) (s : State) : State :=
  if Config.nodeSlots ≤ r.slot then reply f .rosterSet .badSlot [] s
  else if badRosterValues r then reply f .rosterSet .malformed [] s
  else match addressHolder s r.slot r.addr with
    | some k => reply f .rosterSet .inUse (inUseReport s r.slot k) s
    | none =>
      if moveRefused (nodeAt s r.slot) r then reply f .rosterSet .inUse (inUseReport s r.slot 0xFFFF) s
      else match prefOfCode r.pref with
        | some p => rosterSetOk f r p s
        | none => reply f .rosterSet .malformed [] s

/-- A ROSTER_SET frame. -/
def onRosterSet (f : Frame) (s : State) : State :=
  request .rosterSet true f (parseRosterSet f.body) (applyRosterSet f) s

/-- ROSTER_SET (R69, R70). -/
def execRosterSet (f : Frame) (s : State) : Host.Outcome State Fault Refusal :=
  commit s (onRosterSet f s)

/-! ### ROSTER_CLEAR (R71) -/

/-- The slot after a ROSTER_CLEAR (R71). -/
def clearedNode (v : Node) : Node :=
  if v.state = .absent then v
  else { v with state := .absent, addr := 0, rack := 0, pref := .either, limit := 4, consecutive := 0 }

/-- A ROSTER_CLEAR answered OK. -/
def rosterClearOk (f : Frame) (k : Nat) (s : State) : State :=
  let s1 := setNode k (clearedNode (nodeAt s k)) s
  reply f .rosterClear .ok (slotReport s1 k) s1

/-- ROSTER_CLEAR with its operands readable and its sender the holder. -/
def applyRosterClear (f : Frame) (k : Nat) (s : State) : State :=
  if Config.nodeSlots ≤ k then reply f .rosterClear .badSlot [] s
  else if (nodeAt s k).refs ≠ 0 ∨ (nodeAt s k).outstanding ≠ 0 then reply f .rosterClear .inUse (inUseReport s k 0xFFFF) s
  else rosterClearOk f k s

/-- A ROSTER_CLEAR frame. -/
def onRosterClear (f : Frame) (s : State) : State :=
  request .rosterClear true f (parseRosterClear f.body) (applyRosterClear f) s

/-- ROSTER_CLEAR (R71). -/
def execRosterClear (f : Frame) (s : State) : Host.Outcome State Fault Refusal :=
  commit s (onRosterClear f s)

/-! ### FENCE and UNFENCE (R80 to R82) -/

/-- What a selector selects: the slots, or the status that refuses it (R80, R182). -/
def selectSlots (s : State) (r : SelectorReq) : Except Status (List Nat) :=
  if r.kind = 0 then
    if 63 < r.number then .error .malformed
    else .ok (Sparse.keys (s.nodes.filter (fun e => e.2.state != .absent && e.2.rack == r.number)))
  else if r.kind = 1 then
    if Config.nodeSlots ≤ r.number then .error .badSlot
    else if (nodeAt s r.number).state = .absent then .ok []
    else .ok [r.number]
  else .error .malformed

/-- Node slot `k` takes the state `v`. -/
def setNodeState (v : NodeState) (s : State) (k : Nat) : State :=
  setNode k { nodeAt s k with state := v } s

/-- The SERVING and MUTED slots of a list: those that a FENCE of it makes FENCED (R80). -/
def fenceable (s : State) (ks : List Nat) : List Nat :=
  ks.filter (fun k => (nodeAt s k).state == .serving || (nodeAt s k).state == .muted)

/-- The record of lane `i` is held by the fence (R81 step 1); its next segment is the lane's (R75). -/
def fenceLane (s : State) (i : Fin 8) : State :=
  match laneAt s i with
  | none => s
  | some j => match liveAt s j.record with
    | none => s
    | some l => enterHeld j.record (fenceCause s l j.segment) s

/-- A record of a fenced slot's stall list is held (R81 step 2). -/
def fenceStalled (s : State) (n : Nat) : State :=
  match liveAt s n with
  | none => s
  | some l => enterHeld n (fenceCause s l (nextSegment l)) s

/-- The lanes that a fence of the slots `ks` reaches (R81 step 1). -/
def fencedLanes (s : State) (ks : List Nat) : List (Fin 8) :=
  laneNumbers.filter (fun i => laneHasWork s i ks)

/-- The stalled records that a fence of the slots `ks` reaches, in order (R81 step 2). -/
def fencedStalled (s : State) (ks : List Nat) : List Nat :=
  (ks.map (fun k => (nodeAt s k).stallList)).flatten

/-- The slots `ks` become FENCED and the records that they reach are held (R80, R81). -/
def fenceSlots (ks : List Nat) (s : State) : State :=
  let s1 := ks.foldl (setNodeState .fenced) s
  (fencedStalled s ks).foldl fenceStalled ((fencedLanes s1 ks).foldl fenceLane s1)

/-- FENCE with its operands readable and its sender the holder. -/
def applyFence (f : Frame) (r : SelectorReq) (s : State) : State :=
  match selectSlots s r with
  | .error st => reply f .fence st [] s
  | .ok ks =>
    let newly := fenceable s ks
    finish f .fence .ok (be 2 newly.length ++ reserved 2 ++ be 4 ((fencedLanes s newly).length + (fencedStalled s newly).length))
      (fenceSlots newly s)

/-- A FENCE frame. -/
def onFence (f : Frame) (s : State) : State :=
  request .fence true f (parseSelector f.body) (applyFence f) s

/-- FENCE (R80, R81). -/
def execFence (f : Frame) (s : State) : Host.Outcome State Fault Refusal :=
  commit s (onFence f s)

/-- A FENCED slot becomes SERVING with consecutive count 0 (R82). -/
def unfenceSlot (s : State) (k : Nat) : State :=
  setNode k { nodeAt s k with state := .serving, consecutive := 0 } s

/-- UNFENCE with its operands readable and its sender the holder. -/
def applyUnfence (f : Frame) (r : SelectorReq) (s : State) : State :=
  match selectSlots s r with
  | .error st => reply f .unfence st [] s
  | .ok ks =>
    let fenced := ks.filter (fun k => (nodeAt s k).state == .fenced)
    reply f .unfence .ok (be 2 fenced.length ++ reserved 2) (fenced.foldl unfenceSlot s)

/-- An UNFENCE frame. -/
def onUnfence (f : Frame) (s : State) : State :=
  request .unfence true f (parseSelector f.body) (applyUnfence f) s

/-- UNFENCE (R82). -/
def execUnfence (f : Frame) (s : State) : Host.Outcome State Fault Refusal :=
  commit s (onUnfence f s)

/-! ### Probing (R78, R79) -/

/-- A PROBE with a new probe sequence to slot `k`, if a port is found (R78). -/
def sendProbe (s : State) (k : Nat) : State :=
  match nodePort s (nodeAt s k).pref with
  | none => s
  | some p =>
    let seq := (nodeAt s k).probeSeq + 1
    sendFrame p (nodeAt s k).addr .probe 0 0 (be 2 k ++ [seq] ++ reserved 1) (setNode k { nodeAt s k with probeSeq := seq } s)

/-- The MUTED slots, ascending. -/
def mutedSlots (s : State) : List Nat :=
  Sparse.keys (s.nodes.filter (fun e => e.2.state == .muted))

/-- The probe timer starts with its period, which the register counts in steps of 10 ms (R78). -/
def startProbeTimer (s : State) : State :=
  { s with probeTimer := 10 * s.settings.probePeriod * Config.msUnits }

/-- The probe timer's expiry; an expiry that is not due does nothing (log entries 16 and 26). -/
def probeExpiry (s : State) : State :=
  if s.probeTimer = 0 then (mutedSlots s).foldl sendProbe (startProbeTimer s) else s

/-- PROBE_TIMER_EXPIRY (R78). -/
def execProbeTimerExpiry (s : State) : Host.Outcome State Fault Refusal :=
  commit s (probeExpiry s)

/-- A MUTED node is restored (R79): its stall list is released to WAITING in list order. -/
def restoreNode (k : Nat) (s : State) : State :=
  raise .nodeRestored ((nodeAt s k).stallList.foldl (fun s n => enterWaiting n s)
    (setNode k { nodeAt s k with state := .serving, consecutive := 0 } s))

/-- The tests of R79 on a readable PROBE_ACK, made before the status is read. -/
def probeMatches (s : State) (src : EthAddr) (a : ProbeAnswer) : Bool :=
  decide (a.slot < Config.nodeSlots) && (nodeAt s a.slot).state == .muted && a.sequence == (nodeAt s a.slot).probeSeq
    && src == (nodeAt s a.slot).addr

/-- A readable PROBE_ACK that passed the fence test (R79). -/
def applyProbeAck (f : Frame) (a : ProbeAnswer) (s : State) : State :=
  if !probeMatches s f.src a then count .late s
  else if a.status = 0 then settle (restoreNode a.slot s)
  else if a.status = 1 then s
  else count .malformed s

/-- A PROBE_ACK frame. -/
def onProbeAck (f : Frame) (s : State) : State :=
  nodeAnswer f (parseProbeAck f.body) (applyProbeAck f) s

/-- PROBE_ACK (R79). -/
def execProbeAck (f : Frame) (s : State) : Host.Outcome State Fault Refusal :=
  commit s (onProbeAck f s)

end Sys2Proof.Machine
end

