-- ==== Sys2Proof/Machine/Frames.lean ====
section
/-! DEFINITION. UNREADABLE_FRAME (R181): a frame given as bytes. Bytes that do spell a frame of a kind with a row of its own are taken as that row
takes them (log entry 24). -/

namespace Sys2Proof.Machine

/-- A frame of kind `k` outside DORMANT, with a readable header (R181). -/
def routeKind (k : Kind) (f : Frame) (s : State) : State :=
  match k with
  | .define => onDefine f s
  | .locate => onLocate f s
  | .cls => onClass f s
  | .revise => onRevise f s
  | .redirect => onRedirect f s
  | .hold => onHold f s
  | .resume => onResume f s
  | .cancel => onCancel f s
  | .retire => onRetire f s
  | .watch => onWatch f s
  | .fence => onFence f s
  | .unfence => onUnfence f s
  | .rosterSet => onRosterSet f s
  | .rosterClear => onRosterClear f s
  | .mode => onMode f s
  | .leaseTake => onLeaseTake f s
  | .leaseRenew => onLeaseRenew f s
  | .leaseRelease => onLeaseRelease f s
  | .wake => onWake f s
  | .fetchData => onFetchData f s
  | .fetchFail => onFetchFail f s
  | .storeAck => onStoreAck f s
  | .probeAck => onProbeAck f s
  | .reply => count .malformed s
  | .notice => count .malformed s
  | .fetch => count .malformed s
  | .store => count .malformed s
  | .probe => count .malformed s

/-- A frame taken in DORMANT: the wake filter (R161). -/
def dormantFrame (f : RawFrame) (s : State) : State :=
  if headerReadable f.payload ∧ kindOfCode (rawKind f) = some .wake then takenWake (rawParse f) s else count .dormantDrop s

/-- A frame taken outside DORMANT, by its header (R181). -/
def awakeFrame (f : RawFrame) (s : State) : State :=
  if headerReadable f.payload then
    match kindOfCode (rawKind f) with
    | some k => routeKind k (rawParse f) s
    | none => answer (askerOf (rawParse f)) (rawKind f) .malformed 0 [] s
  else count .malformed s

/-- A frame given as bytes. -/
def onRawFrame (f : RawFrame) (s : State) : State :=
  if rawTaken s f then (if s.mode = .dormant then dormantFrame f s else awakeFrame f s) else s

/-- UNREADABLE_FRAME (R181). -/
def execUnreadableFrame (f : RawFrame) (s : State) : Host.Outcome State Fault Refusal :=
  commit s (onRawFrame f s)

end Sys2Proof.Machine
end

