-- ==== Sys2Proof/Machine/Resets.lean ====
section
/-! DEFINITION. COLD_RESET (R34, R84, R110, R132, R150, R167, R178) and WARM_RESET (R35, R85, R111, R133, R150, R168, R178, R197, R198). -/

namespace Sys2Proof.Machine

/-- The state after a cold reset: the commands that wait, what has been sent and the count of free values used are not the part's (log entry 17). -/
def coldReset (s : State) : State :=
  { State.reset with pending := s.pending, outputs := s.outputs, fresh := s.fresh }

/-- COLD_RESET. -/
def execColdReset (s : State) : Host.Outcome State Fault Refusal :=
  commit s (coldReset s)

/-- Node slot `k` keeps everything but its outstanding and consecutive counts, which become 0 (R85). -/
def calmNode (s : State) (k : Nat) : State :=
  setNode k { nodeAt s k with outstanding := 0, consecutive := 0 } s

/-- The mode after a warm reset (R168). -/
def warmMode : Mode → Mode
  | .dormant => .dormant
  | .ready => .ready
  | .rebuild => .ready
  | .drain => .ready

/-- The peek engine after a warm reset: a busy peek is abandoned (R198); an idle engine keeps its image (log entry 39). -/
def warmPeek (p : Peek) : Peek :=
  if p.busy then { p with busy := false, image := List.replicate 32 0 } else p

/-- What a warm reset does once the lanes are given up. -/
def warmBlocks (s : State) : State :=
  let s1 := (Sparse.keys s.nodes).foldl calmNode s
  let s2 := startProbeTimer (reloadPacing s1)
  { s2 with
    waitList := []
    pacing := { s2.pacing with fgPtr := 7, bgPtr := 7 }
    mode := warmMode s2.mode
    lease := { s2.lease with grant := none }
    events := { s2.events with flags := 0, pendingUrgent := false, pendingRoutine := false }
    peek := warmPeek s2.peek }

/-- A warm reset: every busy lane's record returns to WAITING in lane-number order (R35, R133), then each block's own effects. -/
def warmReset (s : State) : State :=
  warmBlocks (returnAllLanes s)

/-- WARM_RESET (R197). -/
def execWarmReset (s : State) : Host.Outcome State Fault Refusal :=
  commit s (warmReset s)

end Sys2Proof.Machine
end

