-- ==== Sys2Proof/Machine/Window.lean ====
section
/-! DEFINITION. The Local Control Window (Chapter 10): the settings, events and counters, the peek engine, WINDOW_WRITE, and what each register reads. -/

namespace Sys2Proof.Machine

/-! ### Settings (R191) -/

/-- The settings change by `upd` when `ok`, and the write is ignored and counted otherwise (R191). -/
def writeSetting (ok : Bool) (upd : Settings → Settings) (s : State) : State :=
  if ok then { s with settings := upd s.settings } else ignoreWrite s

/-- The range of a pacing setting (R191). -/
def pacingRange (which : PacingSetting) (v : Nat) : Bool :=
  match which with
  | .period => decide (1 ≤ v) && decide (v ≤ 65535)
  | .granule => decide (v ≤ 3)
  | .multiplier => decide (v ≤ 16)

def withPacingSetting (which : PacingSetting) (v : Nat) (st : Settings) : Settings :=
  match which with
  | .period => { st with pacingN := v }
  | .granule => { st with granule := v }
  | .multiplier => { st with multiplier := v }

/-- A write of a pacing setting restarts the timer and reloads the budget (R97). -/
def writePacing (which : PacingSetting) (v : Nat) (s : State) : State :=
  if pacingRange which v then reloadPacing { s with settings := withPacingSetting which v s.settings } else ignoreWrite s

/-- PACING_SETTING_WRITE (R97, R191). -/
def execPacingSettingWrite (which : PacingSetting) (value : BitVec 17) (s : State) : Host.Outcome State Fault Refusal :=
  commit s (writePacing which value.toNat s)

/-- A write of the probe period restarts the probe timer (R78, R191). -/
def writeProbePeriod (v : Nat) (s : State) : State :=
  if 1 ≤ v ∧ v ≤ 255 then startProbeTimer { s with settings := { s.settings with probePeriod := v } } else ignoreWrite s

/-- PROBE_PERIOD_WRITE (R78, R191). -/
def execProbePeriodWrite (value : BitVec 17) (s : State) : Host.Outcome State Fault Refusal :=
  commit s (writeProbePeriod value.toNat s)

/-- A write of the reserve is taken in DORMANT and READY (R117). -/
def writeReserve (v : Nat) (s : State) : State :=
  writeSetting ((s.mode == .dormant || s.mode == .ready) && decide (v ≤ 7)) (fun st => { st with reserve := v }) s

/-- RESERVE_WRITE (R117, R191). -/
def execReserveWrite (value : BitVec 17) (s : State) : Host.Outcome State Fault Refusal :=
  commit s (writeReserve value.toNat s)

/-! ### Events and interrupt messages (R193 to R195) -/

/-- EVENT_FLAGS_WRITE (R193). -/
def execEventFlagsWrite (mask : BitVec 15) (s : State) : Host.Outcome State Fault Refusal :=
  commit s (clearFlags mask s)

/-- The event enables are written (R194). -/
def writeEnables (mask : BitVec 15) (s : State) : State :=
  { s with events := { s.events with enables := mask } }

/-- EVENT_ENABLES_WRITE (R194). -/
def execEventEnablesWrite (mask : BitVec 15) (s : State) : Host.Outcome State Fault Refusal :=
  commit s (writeEnables mask s)

/-- The event classes are written (R194). -/
def writeClasses (mask : BitVec 15) (s : State) : State :=
  { s with events := { s.events with classes := mask } }

/-- EVENT_CLASSES_WRITE (R194). -/
def execEventClassesWrite (mask : BitVec 15) (s : State) : Host.Outcome State Fault Refusal :=
  commit s (writeClasses mask s)

/-- The global enable is written (R194). -/
def writeGlobalEnable (b : Bool) (s : State) : State :=
  { s with events := { s.events with globalEnable := b } }

/-- GLOBAL_ENABLE_WRITE (R194). -/
def execGlobalEnableWrite (enable : Bool) (s : State) : Host.Outcome State Fault Refusal :=
  commit s (writeGlobalEnable enable s)

/-- The urgent message held pending is sent, if its condition still stands (R195). -/
def sendPendingUrgent (s : State) : State :=
  if s.events.msiEnable && s.events.pendingUrgent && urgentCondition s.events then
    emit .urgentMessage { s with events := { s.events with pendingUrgent := false } }
  else s

/-- The routine message held pending is sent, if its condition still stands (R195). -/
def sendPendingRoutine (s : State) : State :=
  if s.events.msiEnable && s.events.pendingRoutine && routineCondition s.events then
    emit .routineMessage { s with events := { s.events with pendingRoutine := false } }
  else s

/-- The message signalling enable changes (R195). -/
def changeMsiEnable (b : Bool) (s : State) : State :=
  sendPendingRoutine (sendPendingUrgent { s with events := { s.events with msiEnable := b } })

/-- MSI_ENABLE_CHANGE (R195). -/
def execMsiEnableChange (enable : Bool) (s : State) : Host.Outcome State Fault Refusal :=
  commit s (changeMsiEnable enable s)

/-- COUNTER_CLEAR (R196). -/
def execCounterClear (c : Counter) (s : State) : Host.Outcome State Fault Refusal :=
  commit s (clearCounter c s)

/-! ### The peek engine (R198, R199) -/

/-- A write of the peek control register with GO 0 (R198). -/
def writePeek (number : BitVec 16) (cnt : BitVec 6) (s : State) : State :=
  if s.peek.busy then ignoreWrite s else { s with peek := { s.peek with number := number, count := cnt } }

/-- PEEK_SET (R198). -/
def execPeekSet (number : BitVec 16) (cnt : BitVec 6) (s : State) : Host.Outcome State Fault Refusal :=
  commit s (writePeek number cnt s)

/-- A write of the peek control register with GO 1 (R198). -/
def startPeek (number : BitVec 16) (cnt : BitVec 6) (s : State) : State :=
  if s.peek.busy then ignoreWrite s
  else if 1 ≤ cnt.toNat ∧ cnt.toNat ≤ 32 then
    { s with peek := { busy := true, number := number, count := cnt, image := List.replicate 32 0 } }
  else count .peekRefused { s with peek := { s.peek with number := number, count := cnt } }

/-- PEEK_GO (R198). -/
def execPeekGo (number : BitVec 16) (cnt : BitVec 6) (s : State) : Host.Outcome State Fault Refusal :=
  commit s (startPeek number cnt s)

/-- The identity fields that the first `c` image words show (R199). -/
def peekIdentity (c : Nat) : List RecField :=
  [.state, .generation, .cls, .counts] ++ (if 1 < c then [.key] else []) ++ (if 2 < c then [.stamp] else [])
    ++ (if 3 < c then [.holdCause, .stallNode, .watch] else []) ++ (if 4 < c then [.slots] else []) ++ (if 24 < c then [.definer] else [])

/-- The work fields that the first `c` image words show (R199). -/
def peekWork (c : Nat) : List RecField :=
  [.segTotal] ++ (if 2 < c then [.length] else []) ++ (if 4 < c then [.frags, .placed, .status] else []) ++ (if 8 < c then [.coefs] else [])

/-- Bytes packed from bit 0 up. -/
def packBytes (bs : List Byte) : Nat :=
  bs.foldr (fun b acc => b.toNat + 256 * acc) 0

/-- The image word of a target entry (R199). -/
def targetWord (t : Target) : Nat :=
  t.frag.toNat + 256 * (statusCode t.status).toNat + 65536 * t.placed + 2 ^ 32 * t.dest

/-- The image word of a source entry; a coefficient at or beyond the target count reads 0 (R199). -/
def sourceWord (nTargets : Nat) (e : Source) : Nat :=
  e.slot + 65536 * e.frag.toNat + 2 ^ 32 * packBytes (e.coefs.take nTargets)

/-- Image word `k` of live record `n` (R199); what a fixed or MEMORY-held record shows is R31's and R32's. -/
def liveWord (s : State) (n : Nat) (l : Live) (k : Nat) : Nat :=
  let mem := memoryHeld l
  if k = 0 then
    (stateCode (some l.state)).toNat + 256 * shown l .cls (classCode l.cls).toNat + 65536 * (shownGeneration s n).toNat
      + (if mem then 0 else 2 ^ 32 * l.segTotal + 2 ^ 48 * l.sources.length + 2 ^ 56 * l.targets.length)
  else if k = 1 then shown l .key l.key.toNat
  else if k = 2 then (if mem then 0 else l.length) + 2 ^ 32 * shown l .stamp l.stamp.toNat
  else if k = 3 then
    packBytes (causeBytes (some l.state)) + 65536 * shown l .stallNode (stallField (some l.state))
      + 2 ^ 32 * (if l.watch.isSome then 1 else 0) + 2 ^ 33 * (if l.fixed then 1 else 0)
  else if k < 8 then
    if mem then 0 else match l.targets[k - 4]? with
      | some t => targetWord t
      | none => 0
  else if k < 24 then
    if mem then 0 else match l.sources[k - 8]? with
      | some e => sourceWord l.targets.length e
      | none => 0
  else if k = 24 then shown l .definer l.definer.toNat
  else 0

/-- Image word `k` of record `n`, whose generation reads `g` while it is FREE (R198). -/
def imageWord (s : State) (n : Nat) (g : Generation) (k : Nat) : BitVec 64 :=
  match liveAt s n with
  | some l => BitVec.ofNat 64 (liveWord s n l k)
  | none => if k = 0 then BitVec.ofNat 64 (65536 * g.toNat) else 0

/-- The image of record `n` in the first `c` words (R198). -/
def peekImage (s : State) (n : Nat) (g : Generation) (c : Nat) : List (BitVec 64) :=
  (List.range 32).map (fun k => if k < c then imageWord s n g k else 0)

/-- The peek engine's reads: the state after them, and the generation that a FREE record shows (R31, R198). Of a FREE record the state and the
generation are read, whatever the word count (log entry 35). -/
def peekReads (n c : Nat) (s : State) : State × Generation :=
  match liveAt s n with
  | some _ => ((readRecordFields n (peekIdentity c) (peekWork c) s).2, 0)
  | none =>
    let rd := readFields n [.state, .generation] s
    (rd.2, if rd.1 ≠ [] then 0 else generationAt s n)

/-- The peek ends; there is no end where none is under way (R198; log entry 16). -/
def completePeek (s : State) : State :=
  if s.peek.busy then
    let n := s.peek.number.toNat
    let c := s.peek.count.toNat
    let rd := peekReads n c s
    let image := peekImage rd.1 n rd.2 c
    raise .peekDone (settle { rd.1 with peek := { rd.1.peek with busy := false, image := image } })
  else s

/-- PEEK_COMPLETION (R198). -/
def execPeekCompletion (mem : List Damage) (s : State) : Host.Outcome State Fault Refusal :=
  commit s (completePeek (strike mem s))

/-! ### What the window reads (R190; log entry 19) -/

/-- A port register. -/
def portRegister (p : PortRegs) : Nat :=
  (portStateCode p.state).toNat + 16 * (portStateCode p.resume).toNat + 256 * (linkCode p.linkUp).toNat

/-- The low 32 bits of an address: bytes 2 to 5 (R190; log entry 10). -/
def addressLow (a : EthAddr) : BitVec 32 :=
  a.setWidth 32

/-- The high 16 bits of an address: bytes 0 and 1 (R190; log entry 10). -/
def addressHigh (a : EthAddr) : BitVec 32 :=
  (a >>> 32).setWidth 32

/-- The settings registers from 0x040 on, in order (R191). -/
def settingsRegisters (st : Settings) : List Nat :=
  [st.tFirst, st.tStream, st.tStore, st.probePeriod, st.pacingN, st.granule, st.multiplier, st.quantum, st.reserve, st.threshold, st.tMin,
    st.tMax, st.tableHigh]

/-- The peek control register (R190). -/
def peekRegister (p : Peek) : Nat :=
  p.number.toNat + 65536 * p.count.toNat + (if p.busy then 2 ^ 31 else 0)

/-- The registers below 0x040 (R190). -/
def readControl (o : Nat) (s : State) : BitVec 32 :=
  if o = 0x000 then 0x0B272440#32
  else if o = 0x004 then 1
  else if o = 0x010 then (modeCode s.mode).setWidth 32
  else if o = 0x014 then BitVec.ofNat 32 (portRegister s.portA)
  else if o = 0x018 then BitVec.ofNat 32 (portRegister s.portB)
  else if o = 0x020 then addressLow s.portA.addr
  else if o = 0x024 then addressHigh s.portA.addr
  else if o = 0x028 then addressLow s.portB.addr
  else if o = 0x02C then addressHigh s.portB.addr
  else if o = 0x030 then s.wakeCluster ++ s.wakeUnit
  else if o = 0x034 then s.etherType.setWidth 32
  else 0

/-- The registers from 0x080 to 0x0FF (R190). -/
def readStatus (o : Nat) (s : State) : BitVec 32 :=
  if o = 0x080 then s.events.flags.setWidth 32
  else if o = 0x084 then s.events.enables.setWidth 32
  else if o = 0x088 then s.events.classes.setWidth 32
  else if o = 0x08C then (if s.events.globalEnable then 1 else 0)
  else if o = 0x0A0 then addressLow (leaseHolder s)
  else if o = 0x0A4 then addressHigh (leaseHolder s)
  else if o = 0x0A8 then s.lease.epoch
  else if o = 0x0AC then BitVec.ofNat 32 (leaseTimeLeft s)
  else if o = 0x0B0 then BitVec.ofNat 32 s.liveCount
  else 0

/-- A read of 8 bytes of the peek image, at image word `k` (R190, R199). -/
def imageRead (k : Nat) (s : State) : BitVec 64 :=
  s.peek.image.getD k 0

/-- A read of 4 bytes at offset `o` (R190): 0 where no register stands. Of an image word, bits 31 to 0 stand at the lower offset (log
entry 34). -/
def windowRead (o : Nat) (s : State) : BitVec 32 :=
  if o % 4 ≠ 0 then 0
  else if o < 0x040 then readControl o s
  else if o < 0x080 then BitVec.ofNat 32 ((settingsRegisters s.settings).getD ((o - 0x040) / 4) 0)
  else if o < 0x100 then readStatus o s
  else if o < 0x130 then s.counters.toList.getD ((o - 0x100) / 4) 0
  else if o = 0x200 then BitVec.ofNat 32 (peekRegister s.peek)
  else if 0x800 ≤ o ∧ o < 0x900 then
    (if o % 8 = 0 then (imageRead ((o - 0x800) / 8) s).setWidth 32 else ((imageRead ((o - 0x800) / 8) s) >>> 32).setWidth 32)
  else 0

/-! ### WINDOW_WRITE (R190, R191) -/

/-- The value field of a settings register: bits 16 to 0 (R190; log entry 18). -/
def settingField (v : BitVec 32) : Nat :=
  (v.setWidth 17).toNat

/-- A write of a register below 0x040. -/
def writeControl (o : Nat) (v : BitVec 32) (s : State) : State :=
  if o = 0x010 then writeMode (v.setWidth 8) s
  else if o = 0x014 then writePort .a (v.setWidth 2) s
  else if o = 0x018 then writePort .b (v.setWidth 2) s
  else if o = 0x020 then writeAddressLow .a v s
  else if o = 0x024 then writeAddressHigh .a (v.setWidth 16) s
  else if o = 0x028 then writeAddressLow .b v s
  else if o = 0x02C then writeAddressHigh .b (v.setWidth 16) s
  else if o = 0x030 then { s with wakeCluster := (v >>> 16).setWidth 16, wakeUnit := v.setWidth 16 }
  else if o = 0x034 then writeEtherType (v.setWidth 16) s
  else ignoreWrite s

/-- A write of a settings register (R191). -/
def writeSettings (o v : Nat) (s : State) : State :=
  if o = 0x040 then writeSetting (decide (1 ≤ v) && decide (v ≤ 255)) (fun st => { st with tFirst := v }) s
  else if o = 0x044 then writeSetting (decide (1 ≤ v) && decide (v ≤ 255)) (fun st => { st with tStream := v }) s
  else if o = 0x048 then writeSetting (decide (1 ≤ v) && decide (v ≤ 255)) (fun st => { st with tStore := v }) s
  else if o = 0x04C then writeProbePeriod v s
  else if o = 0x050 then writePacing .period v s
  else if o = 0x054 then writePacing .granule v s
  else if o = 0x058 then writePacing .multiplier v s
  else if o = 0x05C then writeSetting (decide (1 ≤ v) && decide (v ≤ 64)) (fun st => { st with quantum := v }) s
  else if o = 0x060 then writeReserve v s
  else if o = 0x064 then writeSetting (decide (1 ≤ v) && decide (v ≤ 15)) (fun st => { st with threshold := v }) s
  else if o = 0x068 then writeLeaseSetting .tMin v s
  else if o = 0x06C then writeLeaseSetting .tMax v s
  else if o = 0x070 then writeSetting (decide (v ≤ 65536)) (fun st => { st with tableHigh := v }) s
  else ignoreWrite s

/-- The counter at a place in register order (R196). -/
def counterAt (k : Nat) : Option Counter :=
  [Counter.dormantDrop, .malformed, .late, .duplicate, .replyDropped, .noticeDropped, .staleGen, .segmentRestart, .fencedDiscard,
    .eccCorrected, .peekRefused, .windowWriteIgnored][k]?

/-- A write of an event, reset, counter or peek register, or of none. -/
def writeOther (o : Nat) (v : BitVec 32) (s : State) : State :=
  if o = 0x080 then clearFlags (v.setWidth 15) s
  else if o = 0x084 then writeEnables (v.setWidth 15) s
  else if o = 0x088 then writeClasses (v.setWidth 15) s
  else if o = 0x08C then writeGlobalEnable (v.getLsbD 0) s
  else if o = 0x090 then (if v.getLsbD 0 then warmReset s else s)
  else if 0x100 ≤ o ∧ o % 4 = 0 then
    match counterAt ((o - 0x100) / 4) with
    | some c => clearCounter c s
    | none =>
      if o = 0x200 then
        if v.getLsbD 24 then startPeek (v.setWidth 16) ((v >>> 16).setWidth 6) s
        else writePeek (v.setWidth 16) ((v >>> 16).setWidth 6) s
      else ignoreWrite s
  else ignoreWrite s

/-- A write of 4 bytes at offset `o`; a register with a row of its own takes it as that row does (log entry 24). -/
def writeWindow (o : Nat) (v : BitVec 32) (s : State) : State :=
  if o < 0x040 then writeControl o v s
  else if o < 0x080 then writeSettings o (settingField v) s
  else writeOther o v s

/-- WINDOW_WRITE (R190, R191). -/
def execWindowWrite (offset : BitVec 12) (value : BitVec 32) (s : State) : Host.Outcome State Fault Refusal :=
  commit s (writeWindow offset.toNat value s)

end Sys2Proof.Machine
end

