-- ==== Sys2Proof/Machine/Dispatch.lean ====
section
/-! DEFINITION. The meaning of every command: one arm for each row of spec/opcode_table.json. -/

namespace Sys2Proof.Machine

def exec (i : Instr) (s : State) : Host.Outcome State Fault Refusal :=
  match i with
  | .coldReset => Sys2Proof.Machine.execColdReset s
  | .warmReset => Sys2Proof.Machine.execWarmReset s
  | .define f mem => Sys2Proof.Machine.execDefine f mem s
  | .locate f mem => Sys2Proof.Machine.execLocate f mem s
  | .setClass f mem => Sys2Proof.Machine.execSetClass f mem s
  | .revise f mem => Sys2Proof.Machine.execRevise f mem s
  | .redirect f mem => Sys2Proof.Machine.execRedirect f mem s
  | .hold f mem => Sys2Proof.Machine.execHold f mem s
  | .resume f mem => Sys2Proof.Machine.execResume f mem s
  | .cancel f mem => Sys2Proof.Machine.execCancel f mem s
  | .retire f mem => Sys2Proof.Machine.execRetire f mem s
  | .watch f mem => Sys2Proof.Machine.execWatch f mem s
  | .fence f => Sys2Proof.Machine.execFence f s
  | .unfence f => Sys2Proof.Machine.execUnfence f s
  | .rosterSet f => Sys2Proof.Machine.execRosterSet f s
  | .rosterClear f => Sys2Proof.Machine.execRosterClear f s
  | .modeRequest f => Sys2Proof.Machine.execModeRequest f s
  | .leaseTake f => Sys2Proof.Machine.execLeaseTake f s
  | .leaseRenew f => Sys2Proof.Machine.execLeaseRenew f s
  | .leaseRelease f => Sys2Proof.Machine.execLeaseRelease f s
  | .wake f => Sys2Proof.Machine.execWake f s
  | .unreadableFrame f => Sys2Proof.Machine.execUnreadableFrame f s
  | .fetchData f mem => Sys2Proof.Machine.execFetchData f mem s
  | .fetchFail f => Sys2Proof.Machine.execFetchFail f s
  | .storeAck f mem => Sys2Proof.Machine.execStoreAck f mem s
  | .probeAck f => Sys2Proof.Machine.execProbeAck f s
  | .firstChunkTimerExpiry slot => Sys2Proof.Machine.execFirstChunkTimerExpiry slot s
  | .streamTimerExpiry slot => Sys2Proof.Machine.execStreamTimerExpiry slot s
  | .storeTimerExpiry lane target => Sys2Proof.Machine.execStoreTimerExpiry lane target s
  | .probeTimerExpiry => Sys2Proof.Machine.execProbeTimerExpiry s
  | .pacingTimerExpiry => Sys2Proof.Machine.execPacingTimerExpiry s
  | .leaseLapse => Sys2Proof.Machine.execLeaseLapse s
  | .sendCompletion lane target attempt => Sys2Proof.Machine.execSendCompletion lane target attempt s
  | .fetchIssue mem => Sys2Proof.Machine.execFetchIssue mem s
  | .storeAttemptBegin => Sys2Proof.Machine.execStoreAttemptBegin s
  | .admission mem => Sys2Proof.Machine.execAdmission mem s
  | .drainEnd => Sys2Proof.Machine.execDrainEnd s
  | .linkUp p => Sys2Proof.Machine.execLinkUp p s
  | .linkDown p => Sys2Proof.Machine.execLinkDown p s
  | .msiEnableChange enable => Sys2Proof.Machine.execMsiEnableChange enable s
  | .modeWrite code => Sys2Proof.Machine.execModeWrite code s
  | .portWrite p code => Sys2Proof.Machine.execPortWrite p code s
  | .addressLowWrite p low => Sys2Proof.Machine.execAddressLowWrite p low s
  | .addressHighWrite p high => Sys2Proof.Machine.execAddressHighWrite p high s
  | .etherTypeWrite value => Sys2Proof.Machine.execEtherTypeWrite value s
  | .pacingSettingWrite which value => Sys2Proof.Machine.execPacingSettingWrite which value s
  | .probePeriodWrite value => Sys2Proof.Machine.execProbePeriodWrite value s
  | .reserveWrite value => Sys2Proof.Machine.execReserveWrite value s
  | .leaseSettingWrite which value => Sys2Proof.Machine.execLeaseSettingWrite which value s
  | .eventFlagsWrite mask => Sys2Proof.Machine.execEventFlagsWrite mask s
  | .eventEnablesWrite mask => Sys2Proof.Machine.execEventEnablesWrite mask s
  | .eventClassesWrite mask => Sys2Proof.Machine.execEventClassesWrite mask s
  | .globalEnableWrite enable => Sys2Proof.Machine.execGlobalEnableWrite enable s
  | .counterClear c => Sys2Proof.Machine.execCounterClear c s
  | .peekSet number cnt => Sys2Proof.Machine.execPeekSet number cnt s
  | .peekGo number cnt => Sys2Proof.Machine.execPeekGo number cnt s
  | .peekCompletion mem => Sys2Proof.Machine.execPeekCompletion mem s
  | .windowWrite offset value => Sys2Proof.Machine.execWindowWrite offset value s
  | .storeChunkSent lane target attempt => Sys2Proof.Machine.execStoreChunkSent lane target attempt s

end Sys2Proof.Machine
end

