-- ==== Sys2Proof/Safety.lean ====
section
/-! DEFINITION. What holds of a safe state, and the words that statements use: the laws of R12, R26 to R29, R65, R66, R72, R73, R95, R113, R114, R117,
R131, R134, R135, R151, R155 and the canonical form of the tables, as predicates of one state; what a step leaves alone; what a reply or a notice looks
like; what becomes of abandoned lanes and of the records that they held. -/

namespace Sys2Proof.Machine

/-! ### Laws of one state -/

/-- The mode is REBUILD only while a lease is held (R151), and the ports are in a combination that the mode allows (R155). -/
def AuthorityLaw (s : State) : Prop :=
  (s.mode = .rebuild → s.lease.grant.isSome = true) ∧ portsAllowed s s.mode = true

/-- The remaining pacing budget never exceeds granule times multiplier (R95). -/
def BudgetLaw (s : State) : Prop :=
  s.pacing.budget ≤ refillValue s.settings

/-- Every lane is IDLE in DORMANT and READY (R131), and some lane is busy in DRAIN (R157). -/
def LaneModeLaw (s : State) : Prop :=
  ((s.mode = .dormant ∨ s.mode = .ready) → allIdle s = true) ∧ (s.mode = .drain → allIdle s = false)

/-- A record whose placed counts are within its segment total, whose targets are DONE exactly when their counts equal it, and which is PLACED only
when every target is DONE (R12). -/
def PlacedCounts (l : Live) : Prop :=
  1 ≤ l.segTotal ∧ (∀ t ∈ l.targets, t.placed ≤ l.segTotal ∧ (t.status = .done ↔ t.placed = l.segTotal))
    ∧ (l.state = .placed → ∀ t ∈ l.targets, t.status = .done)

/-- Every live record has its placed counts in order (R12). The model keeps the counts of a record HELD with MEMORY, so the law holds of it too. -/
def PlacedLaw (s : State) : Prop :=
  ∀ n l, liveAt s n = some l → PlacedCounts l

/-- Every sparse table is in its canonical form (log entry 14). -/
def CanonicalTables (s : State) : Prop :=
  Sparse.wf freeRecord s.records ∧ Sparse.wf resetRingEntry s.freeList.ring ∧ Sparse.wf emptyWay s.index ∧ Sparse.wf soundWord s.dram
    ∧ Sparse.wf absentNode s.nodes ∧ Sparse.wf freeSlot s.fetch

/-- No more lanes hold records admitted as BACKGROUND than 8 less the reserve (R117). -/
def ReserveLaw (s : State) : Prop :=
  backgroundLanes s ≤ 8 - s.settings.reserve

/-! ### The laws of the table's collections (R26 to R29) -/

/-- The numbers of the live records: each once, in rising order, where the table of records is in its canonical form. -/
def liveNumbers (s : State) : List Nat :=
  (s.records.filter (fun e => e.2.live.isSome)).map (fun e => e.1)

/-- The numbers on the free list, head first: as many as records are not live (R26, R27). -/
def freeNumbers (s : State) : List Nat :=
  (List.range (65536 - s.liveCount)).map (fun k => Sparse.get resetRingEntry s.freeList.ring (s.freeList.head + BitVec.ofNat 16 k).toNat)

/-- Every record number below 65,536 is either on the free list exactly once or the number of a live record, and never both (R26); the live count is the
number of live records, and the tail follows the last entry (R27). -/
def FreeListLaw (s : State) : Prop :=
  s.liveCount = (liveNumbers s).length ∧ (∀ n l, liveAt s n = some l → n < 65536)
    ∧ s.freeList.tail = s.freeList.head + BitVec.ofNat 16 (65536 - s.liveCount)
    ∧ (freeNumbers s).Nodup ∧ ∀ n, n ∈ freeNumbers s ↔ n < 65536 ∧ liveAt s n = none

/-- A bucket holds an entry for a record exactly when the record is live and its key folds to that bucket (R28); no two live records have the same key
(R29). -/
def IndexLaw (s : State) : Prop :=
  (∀ n l, liveAt s n = some l → l.way < 8 ∧ Sparse.get emptyWay s.index (8 * bucketOf l.key + l.way) = some { record := n, key := l.key })
    ∧ (∀ b w e, w < 8 → Sparse.get emptyWay s.index (8 * b + w) = some e →
        ∃ l, liveAt s e.record = some l ∧ l.key = e.key ∧ bucketOf l.key = b ∧ l.way = w)
    ∧ ∀ n m l l', liveAt s n = some l → liveAt s m = some l' → l.key = l'.key → n = m

/-! ### The laws of the work (R12, R65, R66, R72, R73, R86, R90, R113, R114, R134, R135) -/

/-- The record names node slot `k`, as a source or as a destination (R72). -/
def namesSlot (l : Live) (k : Nat) : Bool :=
  l.sources.any (fun e => e.slot == k) || l.targets.any (fun x => x.dest == k)

/-- A record whose work words can be read is PLACED when every target is DONE, and has a LOST target only in HELD; a fixed record is HELD with MEMORY
(R12, R32). With `PlacedLaw` this is R12's "exactly when". -/
def RecordLaw (s : State) : Prop :=
  ∀ n l, liveAt s n = some l → l.targets ≠ [] ∧ (l.fixed = true → l.state = .held .memory)
    ∧ (l.state ≠ .held .memory → (∀ x ∈ l.targets, x.status = .done) → l.state = .placed)
    ∧ (l.state ≠ .held .memory → (∃ x ∈ l.targets, x.status = .lost) → ∃ c, l.state = .held c)

/-- Every WAITING record is once on the queue of its class, and no other record is on a queue (R114). -/
def QueueLaw (s : State) : Prop :=
  s.fgQueue.Nodup ∧ s.bgQueue.Nodup
    ∧ (∀ n, n ∈ s.fgQueue ↔ ∃ l, liveAt s n = some l ∧ l.state = .waiting ∧ l.cls = .foreground)
    ∧ ∀ n, n ∈ s.bgQueue ↔ ∃ l, liveAt s n = some l ∧ l.state = .waiting ∧ l.cls = .background

/-- Every STALLED record is once on the stall list of its stall node, and no other record is on a stall list (R73). -/
def StallsHold (s : State) : Prop :=
  (∀ k, (nodeAt s k).stallList.Nodup) ∧ ∀ k n, n ∈ (nodeAt s k).stallList ↔ ∃ l, liveAt s n = some l ∧ l.state = .stalled k

/-- The stall lists hold the STALLED records; a stall node is MUTED, and the record names it (R73). -/
def StallLaw (s : State) : Prop :=
  StallsHold s ∧ ∀ n l k, liveAt s n = some l → l.state = .stalled k → (nodeAt s k).state = .muted ∧ namesSlot l k = true

/-- A busy lane holds an ACTIVE record, and no two lanes hold one record (R113). -/
def LanesHold (s : State) : Prop :=
  (∀ i j, laneAt s i = some j → ∃ l, liveAt s j.record = some l ∧ l.state = .active)
    ∧ ∀ i i' j j', laneAt s i = some j → laneAt s i' = some j' → j.record = j'.record → i = i'

/-- The lanes hold ACTIVE records of the generations that they note, and every ACTIVE record is held by a lane (R112, R113). -/
def LaneLaw (s : State) : Prop :=
  LanesHold s ∧ (∀ i j, laneAt s i = some j → generationAt s j.record = j.generation)
    ∧ ∀ n l, liveAt s n = some l → l.state = .active → ∃ i j, laneAt s i = some j ∧ j.record = n

/-- The source positions of the fetches in flight for lane `i`, in slot order (R86). -/
def fetchedPositions (s : State) (i : Fin 8) : List Nat :=
  (List.range 96).filterMap (fun k => match (slotAt s k).use with
    | some ft => if ft.lane = i then some ft.source else none
    | none => none)

/-- A slot in use is one of the 96 and works for a busy lane: it notes the lane's record, generation, segment and segment length and the node of its
source (R86). Each source of a lane's record is pending, in flight or complete, and only one of the three (R90); in PLACE all are complete (R121). -/
def FetchLaw (s : State) : Prop :=
  (∀ k ft, (slotAt s k).use = some ft → k < 96 ∧ ∃ j l src, laneAt s ft.lane = some j ∧ j.record = ft.record ∧ j.generation = ft.generation
      ∧ j.segment = ft.segment ∧ j.segLength = ft.length ∧ liveAt s ft.record = some l ∧ l.sources[ft.source]? = some src ∧ src.slot = ft.node)
    ∧ ∀ i j l, laneAt s i = some j → liveAt s j.record = some l →
      let positions := j.pendingFetches.map (fun e => e.source) ++ fetchedPositions s i ++ j.complete
      positions.Nodup ∧ (∀ p, p ∈ positions ↔ p < l.sources.length) ∧ ∀ ss, j.phase = .place ss → j.complete.length = l.sources.length

/-- A lane needs at least one target, each of which needs its segment until its store is STORED; in PLACE the stores are those of the needed targets,
one of them not STORED (R119, R134); the wait list holds each QUEUED store once, and nothing else (R135). -/
def StoreLaw (s : State) : Prop :=
  (∀ i j l, laneAt s i = some j → liveAt s j.record = some l → j.needed.Nodup ∧ j.needed ≠ [] ∧ match j.phase with
      | .gather => ∀ q ∈ j.needed, ∃ x, l.targets[q]? = some x ∧ x.status = .opened ∧ x.placed = j.segment
      | .place ss => ss.map (fun st => st.target) = j.needed ∧ (∃ st ∈ ss, st.state ≠ .stored)
          ∧ ∀ st ∈ ss, ∃ x, l.targets[st.target]? = some x ∧ x.dest = st.dest ∧ x.frag = st.frag
            ∧ (st.state ≠ .stored → x.status = .opened ∧ x.placed = j.segment))
    ∧ s.waitList.Nodup ∧ ∀ i q, (i, q) ∈ s.waitList ↔ ∃ j st, storeAt s i q = some (j, st) ∧ st.state = .queued

/-- Each slot's reference count is the number of live records that name it, and a slot that a live record names is one of the 1,024 and not ABSENT
(R72). -/
def RefLaw (s : State) : Prop :=
  (∀ k, (nodeAt s k).refs = (liveNumbers s).countP (fun n => match liveAt s n with
      | some l => namesSlot l k
      | none => false))
    ∧ ∀ n l k, liveAt s n = some l → namesSlot l k = true → k < 1024 ∧ (nodeAt s k).state ≠ .absent

/-- How many fetches to node `k` are in flight for the lanes `ls` (R65). -/
def fetchesOn (s : State) (ls : List (Fin 8)) (k : Nat) : Nat :=
  (List.range 96).countP (fun x => match (slotAt s x).use with
    | some ft => ls.contains ft.lane && ft.node == k
    | none => false)

/-- How many store attempts to node `k` are in flight for the lanes `ls` (R65, R134). -/
def storesOn (s : State) (ls : List (Fin 8)) (k : Nat) : Nat :=
  (ls.map (fun i => match laneAt s i with
    | some j => (storesOf j).countP (fun st => inFlight st && st.dest == k)
    | none => 0)).sum

/-- Each node's outstanding count is the number of its fetches and stores in flight (R65), and a node that is not SERVING has none (R66). -/
def OutstandingLaw (s : State) : Prop :=
  ∀ k, (nodeAt s k).outstanding = fetchesOn s laneNumbers k + storesOn s laneNumbers k
    ∧ ((nodeAt s k).state ≠ .serving → (nodeAt s k).outstanding = 0)

/-- The laws of records, queues, stall lists, lanes, fetches, stores and counts. -/
structure WorkLaws (s : State) : Prop where
  record : RecordLaw s
  queue : QueueLaw s
  stall : StallLaw s
  lane : LaneLaw s
  fetch : FetchLaw s
  store : StoreLaw s
  refs : RefLaw s
  outstanding : OutstandingLaw s

/-! ### What is left alone -/

/-- Everything but the Rebuild Table, the roster, the lanes, the slots, the queues, the mode, the budget, the notice counter, the events, the
counters and what was sent. -/
def SameControl (s t : State) : Prop :=
  t.pending = s.pending ∧ t.probeTimer = s.probeTimer ∧ t.pacing = s.pacing ∧ t.portA = s.portA ∧ t.portB = s.portB
    ∧ t.wakeCluster = s.wakeCluster ∧ t.wakeUnit = s.wakeUnit ∧ t.etherType = s.etherType ∧ t.lease = s.lease
    ∧ t.settings = s.settings ∧ t.peek = s.peek

/-- The Rebuild Table, with the health of its words (Chapter 1). -/
def SameTable (s t : State) : Prop :=
  t.records = s.records ∧ t.freeList = s.freeList ∧ t.liveCount = s.liveCount ∧ t.index = s.index ∧ t.dram = s.dram
    ∧ t.queueSeq = s.queueSeq

/-- The rebuild work: queues, lanes, fetch slots, stores that wait, node slots (Chapters 3 to 6). -/
def SameWork (s t : State) : Prop :=
  t.fgQueue = s.fgQueue ∧ t.bgQueue = s.bgQueue ∧ t.lanes = s.lanes ∧ t.fetch = s.fetch ∧ t.waitList = s.waitList ∧ t.nodes = s.nodes

/-- Nothing has changed but what was sent, the counters, the flags and pending messages, and the notice counter. -/
def Quiet (s t : State) : Prop :=
  SameControl s t ∧ SameTable s t ∧ SameWork s t ∧ t.mode = s.mode ∧ t.fresh = s.fresh

/-! ### What was sent -/

/-- What the part has sent between two states. -/
def sentBetween (s t : State) : List Output :=
  t.outputs.drop s.outputs.length

/-- The REPLY of R185 to a frame, by port `p`. -/
def replyFrame (s : State) (p : Port) (f : Frame) (kind : Byte) (st : Status) (flags : Byte) (result : List Byte) : SentFrame :=
  { port := p, dst := f.src, src := (portAt s p).addr, etherType := s.etherType, kind := Kind.reply.code, flags := flags, tag := f.tag,
    body := [kind, st.code] ++ be 2 result.length ++ result }

/-- The request of frame `f` was answered: its REPLY was sent by the port selection of R154, or dropped and counted. -/
def Answered (s t : State) (f : Frame) (k : Kind) (st : Status) (flags : Byte) (result : List Byte) : Prop :=
  match choosePort s f.port with
  | some p => Output.frame (replyFrame s p f k.code st flags result) ∈ sentBetween s t
  | none => counterValue .replyDropped t = saturatingSucc (counterValue .replyDropped s)

/-- The frame is taken by its port outside DORMANT (R153, R181). -/
def Arrives (s : State) (f : Frame) : Prop :=
  taken s f = true ∧ s.mode ≠ .dormant

/-- No copy of any table word is damaged, before the command and by it (R30). -/
def Healthy (s : State) (mem : List Damage) : Prop :=
  s.dram = [] ∧ mem = []

/-! ### Requests and node answers as commands -/

/-- The command that a frame of kind `k` is, for the kinds that the part acts on (R181). -/
def frameCommand (k : Kind) (f : Frame) (mem : List Damage) : Option Instr :=
  match k with
  | .define => some (.define f mem)
  | .locate => some (.locate f mem)
  | .cls => some (.setClass f mem)
  | .revise => some (.revise f mem)
  | .redirect => some (.redirect f mem)
  | .hold => some (.hold f mem)
  | .resume => some (.resume f mem)
  | .cancel => some (.cancel f mem)
  | .retire => some (.retire f mem)
  | .watch => some (.watch f mem)
  | .fence => some (.fence f)
  | .unfence => some (.unfence f)
  | .rosterSet => some (.rosterSet f)
  | .rosterClear => some (.rosterClear f)
  | .mode => some (.modeRequest f)
  | .leaseTake => some (.leaseTake f)
  | .leaseRenew => some (.leaseRenew f)
  | .leaseRelease => some (.leaseRelease f)
  | .wake => some (.wake f)
  | .fetchData => some (.fetchData f mem)
  | .fetchFail => some (.fetchFail f)
  | .storeAck => some (.storeAck f mem)
  | .probeAck => some (.probeAck f)
  | .reply | .notice | .fetch | .store | .probe => none

/-- Whether a body is readable as one of kind `k` (R182 to R184, R188). -/
def bodyReadable (k : Kind) (body : List Byte) : Bool :=
  match k with
  | .define => (parseDefine body).isSome
  | .locate => (parseLocate body).isSome
  | .cls | .watch => (parseNameCode body).isSome
  | .revise => (parseRevise body).isSome
  | .redirect => (parseRedirect body).isSome
  | .hold | .resume | .cancel | .retire => (parseName body).isSome
  | .fence | .unfence => (parseSelector body).isSome
  | .rosterSet => (parseRosterSet body).isSome
  | .rosterClear => (parseRosterClear body).isSome
  | .mode => (parseMode body).isSome
  | .leaseTake => (parseEmpty body).isSome
  | .leaseRenew | .leaseRelease => (parseEpoch body).isSome
  | .fetchData => (parseFetchData body).isSome
  | .fetchFail => (parseFetchFail body).isSome
  | .storeAck => (parseStoreAck body).isSome
  | .probeAck => (parseProbeAck body).isSome
  | .wake | .reply | .notice | .fetch | .store | .probe => true

/-- The requests that need the lease (R37, R175). -/
def needsLease (k : Kind) : Bool :=
  match k with
  | .define | .cls | .revise | .redirect | .hold | .resume | .cancel | .retire | .fence | .unfence | .rosterSet | .rosterClear | .mode => true
  | _ => false

/-- The record that a request names by number and generation (R6, R184), with the code it carries defined (R182). -/
def namedBy (k : Kind) (body : List Byte) : Option RecordName :=
  match k with
  | .cls => (parseNameCode body).bind (fun r => (classOfCode r.2).map (fun _ => r.1))
  | .watch => (parseNameCode body).bind (fun r => (edgeOfCode r.2).map (fun _ => r.1))
  | .revise => (parseRevise body).map (fun r => r.name)
  | .redirect => (parseRedirect body).map (fun r => r.name)
  | .hold | .resume | .cancel | .retire => parseName body
  | _ => none

/-- The frame comes from the lease holder (R37). -/
def FromHolder (s : State) (f : Frame) : Prop :=
  holdsLease s f.src = true

/-- A frame that arrives names a live record, not fixed, by its generation, and no table word is damaged: stages 1 and 2 of R38 pass. -/
def Reaches (s : State) (f : Frame) (r : RecordName) (l : Live) : Prop :=
  Arrives s f ∧ s.dram = [] ∧ liveAt s r.number = some l ∧ l.fixed = false ∧ generationAt s r.number = r.generation

/-- No record but `n` has changed. -/
def OtherRecords (s t : State) (n : Nat) : Prop :=
  ∀ m, m ≠ n → recordAt t m = recordAt s m

/-- Way `w` of bucket `b` (R28). -/
def wayAt (s : State) (b w : Nat) : Option IndexEntry :=
  Sparse.get emptyWay s.index (8 * b + w)

/-- A lookup of `key` finds record `n`, which holds `l` (R29). -/
def KeyFinds (s : State) (key : StripeKey) (n : Nat) (l : Live) : Prop :=
  liveAt s n = some l ∧ (∃ w, w < 8 ∧ wayAt s (bucketOf key) w = some { record := n, key := key })
    ∧ ∀ w e, w < 8 → wayAt s (bucketOf key) w = some e → e.key = key → e.record = n

/-- A lookup of `key` finds nothing (R29). -/
def KeyAbsent (s : State) (key : StripeKey) : Prop :=
  ∀ w e, w < 8 → wayAt s (bucketOf key) w = some e → e.key ≠ key

/-- The reference counts after a record that named the slots `old` names the slots `new` (R72). -/
def RefsFollow (s t : State) (old new : List Nat) : Prop :=
  ∀ k, (nodeAt t k).refs =
    if k ∈ new ∧ k ∉ old then (nodeAt s k).refs + 1 else if k ∈ old ∧ k ∉ new then (nodeAt s k).refs - 1 else (nodeAt s k).refs

/-- Record `n` has joined the tail of the queue of class `c`, and the other queue is as it was (R17, R114). -/
def JoinedQueue (s t : State) (n : Nat) (c : RecordClass) : Prop :=
  t.queueSeq = s.queueSeq + 1 ∧ match c with
    | .foreground => t.fgQueue = s.fgQueue ++ [n] ∧ t.bgQueue = s.bgQueue
    | .background => t.bgQueue = s.bgQueue ++ [n] ∧ t.fgQueue = s.fgQueue

/-- The queues and the queue sequence counter are as they were. -/
def SameQueues (s t : State) : Prop :=
  t.queueSeq = s.queueSeq ∧ t.fgQueue = s.fgQueue ∧ t.bgQueue = s.bgQueue

/-- The free list, the live count and the key index are as they were. -/
def SameCollections (s t : State) : Prop :=
  t.freeList = s.freeList ∧ t.liveCount = s.liveCount ∧ t.index = s.index

/-- Nothing waits for room and the mode is not DRAIN, so a change that makes room or an IDLE lane has no further effect (R138, R157). -/
def NothingWaits (s : State) : Prop :=
  s.waitList = [] ∧ s.mode ≠ .drain

/-- Lane `i`, busy with `j`, works on a live record that holds `l`, and is the lane that holds it (R113). -/
def WorksOn (s : State) (i : Fin 8) (j : Job) (l : Live) : Prop :=
  laneAt s i = some j ∧ liveAt s j.record = some l ∧ l.fixed = false ∧ l.lostFields = [] ∧ l.state = .active
    ∧ laneHolding s j.record = some i

/-! ### Lanes given up, and where their records go (R75, R77, R89, R128, R133) -/

/-- The lanes `ls` have been abandoned: each is IDLE with no entry on the store wait list, and the fetch slots in use for it are free, their generations
kept; the other slots are as they were (R89, R128, R135). -/
def LanesAbandoned (s t : State) (ls : List (Fin 8)) : Prop :=
  (∀ i ∈ ls, laneAt t i = none ∧ ∀ q, (i, q) ∉ t.waitList)
    ∧ ∀ k, slotAt t k = match (slotAt s k).use with
      | some ft => if k < 96 ∧ ft.lane ∈ ls then { generation := (slotAt s k).generation, use := none } else slotAt s k
      | none => slotAt s k

/-- With the lanes `ls` abandoned, each node's outstanding count has fallen by the fetches and store attempts that they had in flight on it, and the other
lanes are as they were; said where no other lane's store waits, so that the room is handed to none (R65, R89, R128, R138). -/
def CountsFall (s t : State) (ls : List (Fin 8)) : Prop :=
  (∀ e ∈ s.waitList, e.1 ∈ ls) → (∀ i, i ∉ ls → laneAt t i = laneAt s i)
    ∧ ∀ k, (nodeAt t k).outstanding = (nodeAt s k).outstanding - (fetchesOn s ls k + storesOn s ls k)

/-- Lane `i` has been abandoned and its nodes' counts have fallen (R128). -/
def LaneDropped (s t : State) (i : Fin 8) : Prop :=
  LanesAbandoned s t [i] ∧ CountsFall s t [i]

/-- The records of the lanes `ls`, in the order of `ls`. -/
def recordsOf (s : State) (ls : List (Fin 8)) : List Nat :=
  ls.filterMap (fun i => (laneAt s i).map (fun j => j.record))

/-- The busy lanes, in lane-number order. -/
def busyLanes (s : State) : List (Fin 8) :=
  laneNumbers.filter (fun i => (laneAt s i).isSome)

/-- The record of lane `i` has work on one of the nodes `ks`: one is the node of a source, or the destination of a target that needs the current segment and
whose store has not been acknowledged (R75). -/
def HasWorkOn (s : State) (i : Fin 8) (ks : List Nat) : Prop :=
  ∃ j l, laneAt s i = some j ∧ liveAt s j.record = some l
    ∧ ((∃ e ∈ l.sources, e.slot ∈ ks)
      ∨ ∃ q x, q ∈ j.needed ∧ l.targets[q]? = some x ∧ x.dest ∈ ks ∧ ∀ st ∈ storesOf j, st.target = q → st.state ≠ .stored)

/-- `ls` are the lanes whose records have work on one of the nodes, in lane-number order (R77, R81). -/
def LanesOn (s : State) (ks : List Nat) (ls : List (Fin 8)) : Prop :=
  ls.Sublist laneNumbers ∧ ∀ i, i ∈ ls ↔ HasWorkOn s i ks

/-- The records `ns`, in turn, have entered WAITING at the tails of the queues of their classes, with rising stamps, and no other record has changed (R17,
R19). -/
def EnteredWaiting (s t : State) (ns : List Nat) : Prop :=
  (∀ p n l, ns[p]? = some n → liveAt s n = some l → liveAt t n = some { l with state := .waiting, stamp := s.queueSeq + BitVec.ofNat 32 p })
    ∧ t.queueSeq = s.queueSeq + BitVec.ofNat 32 ns.length
    ∧ t.fgQueue = s.fgQueue ++ ns.filter (fun n => (liveAt s n).any (fun l => l.cls == .foreground))
    ∧ t.bgQueue = s.bgQueue ++ ns.filter (fun n => (liveAt s n).any (fun l => l.cls == .background))
    ∧ (∀ n, n ∉ ns → recordAt t n = recordAt s n) ∧ ∀ n, generationAt t n = generationAt s n

/-- Every busy lane has been abandoned and its record has returned to WAITING, in lane-number order (R129, R133, R158, R164). -/
def ReturnedInOrder (s t : State) : Prop :=
  LanesAbandoned s t (busyLanes s) ∧ (LanesHold s → EnteredWaiting s t (recordsOf s laneNumbers) ∧ ∀ k, (nodeAt t k).stallList = (nodeAt s k).stallList)

/-- The record of lane `i` holds `l` and the lane is IDLE (R128). -/
def LaneGivenUp (t : State) (i : Fin 8) (n : Nat) (l : Live) : Prop :=
  liveAt t n = some l ∧ laneAt t i = none

/-- The record has entered WAITING at the tail of the queue of its class, with a new stamp (R19). -/
def Requeued (s t : State) (n : Nat) (l : Live) : Prop :=
  liveAt t n = some { l with state := .waiting, stamp := s.queueSeq } ∧ JoinedQueue s t n l.cls

/-- The node has been muted with consecutive count `c`, and record `n` is STALLED on it. Every lane whose record has work on the node is abandoned, and the
records join the stall list in lane-number order (R77). -/
def MutedWith (s t : State) (k c n : Nat) (l : Live) : Prop :=
  (nodeAt t k).state = .muted ∧ (nodeAt t k).consecutive = c ∧ flagSet .nodeMuted t = true
    ∧ liveAt t n = some { l with state := .stalled k } ∧ n ∈ (nodeAt t k).stallList
    ∧ (LanesHold s → ∀ ls, LanesOn s [k] ls → LanesAbandoned s t ls ∧ CountsFall s t ls
        ∧ (nodeAt t k).stallList = (nodeAt s k).stallList ++ recordsOf s ls
        ∧ ∀ m v, m ∈ recordsOf s ls → liveAt s m = some v → liveAt t m = some { v with state := .stalled k })

/-! ### Fetches that can be issued (R91, R95) -/

/-- The pacing budget allows a fetch of `n` bytes (R95). -/
def BudgetAllows (s : State) (n : Nat) : Prop :=
  let refill := 4096 * 16 ^ s.settings.granule * s.settings.multiplier
  s.settings.multiplier = 0 ∨ (n ≤ refill ∧ n ≤ s.pacing.budget) ∨ (refill < n ∧ s.pacing.budget = refill)

/-- Lane `i`, of class `c`, has the pending fetch `e`, whose node has room and whose length the budget allows: it is issuable where a slot is free (R91). -/
def IssuableAt (s : State) (c : RecordClass) (i : Fin 8) (e : PendingFetch) : Prop :=
  ∃ j l src, laneAt s i = some j ∧ j.cls = c ∧ e ∈ j.pendingFetches ∧ liveAt s j.record = some l ∧ l.sources[e.source]? = some src
    ∧ (nodeAt s src.slot).state = .serving ∧ (nodeAt s src.slot).outstanding < (nodeAt s src.slot).limit ∧ BudgetAllows s j.segLength

/-- The arbiter's pointer of a class (R92). -/
def pointerOf (s : State) : RecordClass → Fin 8
  | .foreground => s.pacing.fgPtr
  | .background => s.pacing.bgPtr

/-- Lane `i` of class `c` wins the next grant: it has an issuable fetch, no lane of its class before it in the turn from the pointer has one, and for
BACKGROUND no FOREGROUND lane has one (R92 steps 1 and 2). -/
def WinsGrant (s : State) (c : RecordClass) (i : Fin 8) : Prop :=
  (∃ e, IssuableAt s c i e) ∧ (∃ d, i = pointerOf s c + 1 + d ∧ ∀ d', d' < d → ∀ e, ¬ IssuableAt s c (pointerOf s c + 1 + d') e)
    ∧ (c = .background → ∀ i' e, ¬ IssuableAt s .foreground i' e)

/-! ### Notices (R57, R58, R187) -/

/-- The watch asks for a NOTICE of a change into `new` (`none` is FREE): edge ANY of every change, PLACED of an entry into PLACED, HELD of one into HELD
(R57). -/
def EdgeAsks (w : Watch) (new : Option RecState) : Prop :=
  w.edge = .any ∨ (w.edge = .placed ∧ new = some .placed) ∨ (w.edge = .held ∧ ∃ c, new = some (.held c))

/-- The change of record `n`, whose watch is `w`, from `old` to `new` has had its NOTICE: where the edge set asks for one the notice counter has risen
and the NOTICE is sent, or dropped and counted; where it does not no NOTICE is sent (R57, R58, R187). -/
def NoticeMade (s t : State) (w : Watch) (n : Nat) (g : Generation) (old new : Option RecState) : Prop :=
  (EdgeAsks w new → t.noticeCounter = s.noticeCounter + 1 ∧ match choosePort s .a with
      | some p => Output.frame { port := p, dst := w.watcher, src := (portAt s p).addr, etherType := s.etherType, kind := 0x21, flags := 0
                                 tag := s.noticeCounter
                                 body := be 2 n ++ be 2 g.toNat ++ [stateCode old, stateCode new] ++ causeBytes new ++ be 2 (stallField new) ++ [0, 0] }
          ∈ sentBetween s t
      | none => counterValue .noticeDropped t = saturatingSucc (counterValue .noticeDropped s))
    ∧ (¬ EdgeAsks w new → t.noticeCounter = s.noticeCounter ∧ counterValue .noticeDropped t = counterValue .noticeDropped s
        ∧ ∀ x, Output.frame x ∈ sentBetween s t → x.kind ≠ 0x21)

/-! ### The next admission, and a receipt that is taken as good -/

/-- Record `n`, which holds `l`, is the next that a lane admits, and lane `i` is the lane: the mode is REBUILD, `i` is the lowest IDLE lane, and the record
heads the Foreground Queue, or the Background Queue within the reserve, with `fg` and `bg` behind it (R116, R117). No table word is damaged. -/
def AdmitsNext (s : State) (i : Fin 8) (n : Nat) (fg bg : List Nat) (l : Live) : Prop :=
  s.mode = .rebuild ∧ s.dram = [] ∧ laneAt s i = none ∧ (∀ x, x < i → laneAt s x ≠ none) ∧ liveAt s n = some l ∧ l.fixed = false
    ∧ l.lostFields = [] ∧ l.state = .waiting
    ∧ ((s.fgQueue = n :: fg ∧ s.bgQueue = bg)
      ∨ (s.fgQueue = [] ∧ fg = [] ∧ s.bgQueue = n :: bg ∧ backgroundLanes s < 8 - s.settings.reserve))

/-- The frame is a good receipt for the store `st` of lane `i`, which works on the record that holds `l` and whose target entry is `x`: it passes the tests of
R142, its status is OK and its CRC the store's (R143). -/
def GoodReceiptFor (s : State) (f : Frame) (i : Fin 8) (j : Job) (st : Store) (l : Live) (x : Target) : Prop :=
  Arrives s f ∧ s.dram = [] ∧ fromFenced s f.src = false ∧ WorksOn s i j l
    ∧ (∃ r, parseStoreAck f.body = some r ∧ r.lane = i.val ∧ j.generation = r.generation ∧ j.segment = r.segment
        ∧ (storesOf j).find? (fun y => y.frag == r.frag) = some st ∧ st.attempt = r.attempt ∧ r.status = 0 ∧ r.crc = st.crc)
    ∧ findStore j st.target = some st ∧ inFlight st = true ∧ f.src = (nodeAt s st.dest).addr
    ∧ l.targets[st.target]? = some x ∧ x.status = .opened ∧ x.placed = j.segment

/-- The target list after a good receipt of segment for the target of `st` (R12, R143 step 2). -/
def targetsAfter (l : Live) (st : Store) (x : Target) : List Target :=
  l.targets.set st.target { x with placed := x.placed + 1, status := if x.placed + 1 = l.segTotal then .done else .opened }

/-- Nothing but the events, the counters and what was sent has changed, and no notice was made. -/
def OnlyEvents (s t : State) : Prop :=
  Quiet s t ∧ t.noticeCounter = s.noticeCounter

/-- What the interrupt condition of one class, true or not before and after a change, does to its message: sent or held pending when it becomes true,
dropped when it is false, nothing when it stays true (R194, R195). -/
def MessageFollows (before after msi : Bool) (pendingBefore pendingAfter sent : Prop) : Prop :=
  (after = false → ¬ pendingAfter ∧ ¬ sent)
    ∧ (after = true → before = true → (pendingAfter ↔ pendingBefore) ∧ ¬ sent)
    ∧ (after = true → before = false → msi = true → sent)
    ∧ (after = true → before = false → msi = false → pendingAfter ∧ ¬ sent)

end Sys2Proof.Machine
end

