-- ==== Sys2Proof/Certificates/Slice0/Obligations.lean ====
section
/-! DEFINITION. The statements for the provers: what the rules of spec/ say the commands do, what a step keeps, and where each command completes.
Where a clause rests on the model's own choice its docstring names the log entry. -/

open Sys2Proof Sys2Proof.Machine

/-! ### Steps, resets -/

/-- A step takes the command at the front of the queue and is that command's meaning on the queue's rest (log entry 1). A step on an empty queue is 10
microseconds of time (log entry 2): every running timer (of the probes, the pacing, the fetches and the stores) has one unit less left, one at 0 stays
there (log entry 26), the lease window has one more elapsed up to T_max, and nothing else changes. -/
def Obligations.StepRunsTheFrontCommand : Prop :=
  (∀ (c : Instr) (rest : List Instr) (s : State), s.pending = c :: rest → step s = exec c { s with pending := rest })
  ∧ ∀ s : State, s.pending = [] → ∃ t, step s = .next t
    ∧ t.probeTimer = s.probeTimer - 1
    ∧ t.pacing = { s.pacing with timer := s.pacing.timer - 1 }
    ∧ (∀ k, (slotAt t k).generation = (slotAt s k).generation)
    ∧ (∀ k ft, (slotAt s k).use = some ft → (slotAt t k).use =
        some { ft with firstTimer := ft.firstTimer.map (fun n => n - 1), streamTimer := ft.streamTimer.map (fun n => n - 1) })
    ∧ (∀ k, (slotAt s k).use = none → (slotAt t k).use = none)
    ∧ (∀ i, laneAt s i = none → laneAt t i = none)
    ∧ (∀ i j, laneAt s i = some j → j.phase = .gather → laneAt t i = some j)
    ∧ (∀ i j ss, laneAt s i = some j → j.phase = .place ss →
        laneAt t i = some { j with phase := .place (ss.map (fun st => { st with timer := st.timer.map (fun n => n - 1) })) })
    ∧ (∀ g, s.lease.grant = some g → t.lease.grant =
        some { g with elapsed := if g.elapsed < s.settings.tMax * 100 then g.elapsed + 1 else g.elapsed })
    ∧ (s.lease.grant = none → t.lease.grant = none)
    ∧ t.pending = [] ∧ t.lease.epoch = s.lease.epoch ∧ SameTable s t ∧ t.nodes = s.nodes ∧ SameQueues s t ∧ t.waitList = s.waitList
    ∧ t.mode = s.mode ∧ t.portA = s.portA ∧ t.portB = s.portB ∧ t.wakeCluster = s.wakeCluster ∧ t.wakeUnit = s.wakeUnit
    ∧ t.etherType = s.etherType ∧ t.noticeCounter = s.noticeCounter ∧ t.settings = s.settings ∧ t.events = s.events
    ∧ t.counters = s.counters ∧ t.peek = s.peek ∧ t.outputs = s.outputs ∧ t.fresh = s.fresh

/-- Every command ends in a next state, and leaves the queue of waiting commands to the step. That there is one queue, left to the step, is the model's
choice (log entry 1), and so is that COLD_RESET keeps it (log entry 17). -/
def Obligations.EveryCommandEndsInANextState : Prop :=
  ∀ (c : Instr) (s : State), ∃ t, exec c s = .next t ∧ t.pending = s.pending

/-- COLD_RESET leaves the Rebuild Table as R34 says. That the free list's ring holds number p at place p, with head and tail at place 0, is the model's
choice (log entry 14): R26 and R34 give the order and what is at the head. -/
def Obligations.ColdResetClearsTheTable : Prop :=
  ∀ s : State, ∃ t, exec .coldReset s = .next t
    ∧ (∀ n, recordAt t n = { generation := 0, live := none })
    ∧ (∀ p, p < 65536 → Sparse.get resetRingEntry t.freeList.ring p = p) ∧ t.freeList.head = 0 ∧ t.freeList.tail = 0
    ∧ (∀ b w, wayAt t b w = none)
    ∧ t.queueSeq = 0 ∧ t.liveCount = 0
    ∧ (∀ w, healthOf t w = { first := .clean, second := .clean })
    ∧ t.fgQueue = [] ∧ t.bgQueue = [] ∧ (∀ k, (nodeAt t k).stallList = [])

/-- COLD_RESET leaves the other blocks as R84, R110, R132, R150, R167, R178 and R191 to R198 say. The unit of the two timers is the model's (log entry
2); the message signalling enable is an input whose value after reset is the model's choice (log entry 13) and is not stated. -/
def Obligations.ColdResetClearsTheOtherBlocks : Prop :=
  ∀ s : State, ∃ t, exec .coldReset s = .next t
    ∧ (∀ k, nodeAt t k = { state := .absent, addr := 0, rack := 0, pref := .either, limit := 4, outstanding := 0, consecutive := 0, refs := 0,
                           probeSeq := 0, stallList := [] })
    ∧ t.probeTimer = 10000
    ∧ (∀ k, slotAt t k = { generation := 0, use := none })
    ∧ t.pacing = { budget := 1048576, timer := 10, fgPtr := 7, bgPtr := 7 }
    ∧ (∀ i, laneAt t i = none) ∧ t.waitList = []
    ∧ t.mode = .dormant ∧ (∀ p, portAt t p = { state := .listen, resume := .listen, linkUp := false, addr := 0, staging := 0 })
    ∧ t.wakeCluster = 0 ∧ t.wakeUnit = 0 ∧ t.etherType = 0x88B6
    ∧ t.lease = { grant := none, epoch := 0 } ∧ t.noticeCounter = 0
    ∧ t.settings = { tFirst := 20, tStream := 50, tStore := 50, probePeriod := 10, pacingN := 10, granule := 1, multiplier := 16, quantum := 8,
                     reserve := 2, threshold := 3, tMin := 500, tMax := 2000, tableHigh := 61440 }
    ∧ t.events.flags = 0 ∧ t.events.enables = 0 ∧ t.events.classes = 0 ∧ t.events.globalEnable = false
    ∧ t.events.pendingUrgent = false ∧ t.events.pendingRoutine = false
    ∧ (∀ c, counterValue c t = 0)
    ∧ t.peek.busy = false ∧ t.peek.number = 0 ∧ t.peek.count = 0 ∧ (∀ k, imageRead k t = 0)

/-- WARM_RESET clears flags, lease, counts of nodes, lanes and stores, restarts the timers, and keeps the settings, the ports, the generations and the
collections of the table, the stall lists and the counters; the records of busy lanes return to WAITING at their queues' tails in lane order (R35, R85, R111,
R133, R150, R168, R178, R197, R198). The unit of the two timers is the model's (log entry 2), and that an idle peek engine keeps its image is its choice
(log entry 39). NOTICE_DROPPED may rise by the NOTICEs of the records that return. -/
def Obligations.WarmResetClearsAndKeeps : Prop :=
  ∀ s : State, ∃ t, exec .warmReset s = .next t
    ∧ t.mode = (if s.mode = .dormant then .dormant else .ready)
    ∧ t.lease = { grant := none, epoch := s.lease.epoch }
    ∧ t.events = { s.events with flags := 0, pendingUrgent := false, pendingRoutine := false }
    ∧ (∀ i, laneAt t i = none) ∧ t.waitList = []
    ∧ t.pacing = { budget := refillValue s.settings, timer := s.settings.pacingN, fgPtr := 7, bgPtr := 7 }
    ∧ t.probeTimer = 10 * s.settings.probePeriod * 100
    ∧ (∀ k, (nodeAt t k).outstanding = 0 ∧ (nodeAt t k).consecutive = 0 ∧ (nodeAt t k).state = (nodeAt s k).state
        ∧ (nodeAt t k).addr = (nodeAt s k).addr ∧ (nodeAt t k).rack = (nodeAt s k).rack ∧ (nodeAt t k).pref = (nodeAt s k).pref
        ∧ (nodeAt t k).limit = (nodeAt s k).limit ∧ (nodeAt t k).refs = (nodeAt s k).refs ∧ (nodeAt t k).probeSeq = (nodeAt s k).probeSeq)
    ∧ SameCollections s t ∧ (∀ n, generationAt t n = generationAt s n ∧ (liveAt t n).isSome = (liveAt s n).isSome)
    ∧ ReturnedInOrder s t ∧ (∀ k, (slotAt t k).generation = (slotAt s k).generation)
    ∧ (∀ c, c ≠ .noticeDropped → counterValue c t = counterValue c s)
    ∧ t.settings = s.settings ∧ t.portA = s.portA ∧ t.portB = s.portB ∧ t.wakeCluster = s.wakeCluster ∧ t.wakeUnit = s.wakeUnit
    ∧ t.etherType = s.etherType
    ∧ t.peek.busy = false ∧ t.peek.number = s.peek.number ∧ t.peek.count = s.peek.count
    ∧ (s.peek.busy = true → ∀ k, imageRead k t = 0) ∧ (s.peek.busy = false → t.peek.image = s.peek.image)

/-! ### Frames -/

/-- A frame that its port does not take changes nothing and is not counted (R153, R179); a taken frame in DORMANT that is no WAKE is dropped and counted in
DORMANT_DROP, and reaches no unit (R161). -/
def Obligations.FramesThatReachNoUnit : Prop :=
  ∀ (k : Kind) (f : Frame) (c : Instr) (s : State), frameCommand k f [] = some c →
    (taken s f = false → ∃ t, exec c s = .next t ∧ Quiet s t ∧ t.outputs = s.outputs ∧ t.counters = s.counters
      ∧ t.events.flags = s.events.flags ∧ t.noticeCounter = s.noticeCounter)
    ∧ (taken s f = true → s.mode = .dormant → k ≠ .wake → ∃ t, exec c s = .next t ∧ Quiet s t ∧ t.outputs = s.outputs
      ∧ counterValue .dormantDrop t = saturatingSucc (counterValue .dormantDrop s) ∧ t.events.flags = s.events.flags
      ∧ ∀ d, d ≠ .dormantDrop → counterValue d t = counterValue d s)

/-- The first two checks of a request: a body not as long as its kind requires is answered MALFORMED, before every other check, and counted; a request that
needs the lease, from a party that does not hold it, is refused with NO_LEASE; neither changes anything (R37, R175, R181, R182). A node answer (FETCH_DATA,
FETCH_FAIL, STORE_ACK, PROBE_ACK) is put to the fence test first and counted FENCED_DISCARD there; one that passes it with a body not as long as its kind
requires is discarded and counted MALFORMED, and not answered (R68, R181, R188). -/
def Obligations.MalformedAndUnauthorisedRequests : Prop :=
  (∀ (k : Kind) (f : Frame) (c : Instr) (s : State), frameCommand k f [] = some c → k.route = .nodeAnswer → Arrives s f →
    (fromFenced s f.src = true → ∃ t, exec c s = .next t ∧ OnlyEvents s t ∧ t.outputs = s.outputs ∧ t.events.flags = s.events.flags
      ∧ counterValue .fencedDiscard t = saturatingSucc (counterValue .fencedDiscard s)
      ∧ ∀ d, d ≠ .fencedDiscard → counterValue d t = counterValue d s)
    ∧ (fromFenced s f.src = false → bodyReadable k f.body = false → ∃ t, exec c s = .next t ∧ OnlyEvents s t ∧ t.outputs = s.outputs
      ∧ t.events.flags = s.events.flags ∧ counterValue .malformed t = saturatingSucc (counterValue .malformed s)
      ∧ ∀ d, d ≠ .malformed → counterValue d t = counterValue d s))
  ∧ ∀ (k : Kind) (f : Frame) (c : Instr) (s : State), frameCommand k f [] = some c → k.route = .request → Arrives s f →
    (bodyReadable k f.body = false → ∃ t, exec c s = .next t ∧ Quiet s t ∧ Answered s t f k .malformed 0 (refusalResult k s)
      ∧ counterValue .malformed t = saturatingSucc (counterValue .malformed s))
    ∧ (bodyReadable k f.body = true → needsLease k = true → holdsLease s f.src = false →
      ∃ t, exec c s = .next t ∧ Quiet s t ∧ Answered s t f k .noLease 0 [] ∧ t.counters.toList.take 4 = s.counters.toList.take 4)

/-- The outcomes of R6 for the eight requests that name a record. -/
def Obligations.IdentityCheckRefuses : Prop :=
  ∀ (k : Kind) (f : Frame) (c : Instr) (r : RecordName) (s : State), frameCommand k f [] = some c → namedBy k f.body = some r →
    Arrives s f → s.dram = [] → (needsLease k = true → FromHolder s f) →
    (∀ l, liveAt s r.number = some l → l.fixed = true →
      ∃ t, exec c s = .next t ∧ Quiet s t ∧ Answered s t f k .wrongState 0 [] ∧ counterValue .staleGen t = counterValue .staleGen s)
    ∧ ((∀ l, liveAt s r.number = some l → l.fixed = false) → generationAt s r.number ≠ r.generation →
      ∃ t, exec c s = .next t ∧ Quiet s t ∧ Answered s t f k .staleGen 0 []
        ∧ counterValue .staleGen t = saturatingSucc (counterValue .staleGen s))
    ∧ (liveAt s r.number = none → generationAt s r.number = r.generation →
      ∃ t, exec c s = .next t ∧ Quiet s t ∧ Answered s t f k .wrongState 0 [] ∧ counterValue .staleGen t = counterValue .staleGen s)

/-! ### DEFINE and LOCATE -/

/-- What R40 refuses, in its own words: lengths, lists and slots. -/
def Obligations.DefineListChecks : Prop :=
  (∀ len, badLength len = true ↔ len = 0 ∨ len % 4096 ≠ 0 ∨ 67108864 < len)
  ∧ (∀ (body : List Byte) (r : DefineReq), parseDefine body = some r → (badDefineList r = true ↔
      (r.sources.length = 0 ∨ 16 < r.sources.length ∨ r.targets.length = 0 ∨ 4 < r.targets.length
        ∨ (∃ x ∈ r.sources.map (fun e => e.frag) ++ r.targets.map (fun t => t.1), 19 < x.toNat)
        ∨ ¬ (r.sources.map (fun e => e.frag) ++ r.targets.map (fun t => t.1)).Nodup
        ∨ (∃ e ∈ r.sources, ∀ x ∈ e.coefs, x = 0)
        ∨ ∃ q, q < r.targets.length ∧ ∀ e ∈ r.sources, e.coefs.getD q 0 = 0)))
  ∧ (∀ (s : State) (k : Nat), badSlot s k = true ↔ 1023 < k ∨ (nodeAt s k).state = .absent)
  ∧ ∀ (s : State) (r : DefineReq), badDefineSlot s r = true ↔
      (∃ e ∈ r.sources, 1023 < e.slot ∨ (nodeAt s e.slot).state = .absent)
        ∨ ∃ x ∈ r.targets, 1023 < x.2 ∨ (nodeAt s x.2).state = .absent

/-- The refusals of a DEFINE from the holder: MALFORMED for a class code over 1 or an edge code over 3, and then in order BAD_LENGTH, BAD_LIST, BAD_SLOT,
EXISTS, INDEX_FULL, TABLE_FULL, none of which changes the table (R40, R41, R182, R189). -/
def Obligations.DefineOrderedRefusals : Prop :=
  (∀ (f : Frame) (r : DefineReq) (s : State), Arrives s f → FromHolder s f → parseDefine f.body = some r →
    (1 < r.cls.toNat ∨ 3 < r.edge.toNat) → ∃ t, exec (.define f []) s = .next t ∧ Quiet s t ∧ Answered s t f .define .malformed 0 []
      ∧ counterValue .malformed t = saturatingSucc (counterValue .malformed s))
  ∧ ∀ (f : Frame) (r : DefineReq) (c : RecordClass) (e : Option Edge) (s : State), Arrives s f → s.dram = [] → FromHolder s f →
    parseDefine f.body = some r → classOfCode r.cls = some c → edgeOfCode r.edge = some e →
    let refused := fun (st : Status) (result : List Byte) => ∃ t, exec (.define f []) s = .next t ∧ Quiet s t ∧ Answered s t f .define st 0 result
    (badLength r.length = true → refused .badLength [])
    ∧ (badLength r.length = false → badDefineList r = true → refused .badList [])
    ∧ (badLength r.length = false → badDefineList r = false → badDefineSlot s r = true → refused .badSlot [])
    ∧ (badLength r.length = false → badDefineList r = false → badDefineSlot s r = false →
        (∀ n l, KeyFinds s r.key n l → refused .existing (be 2 n ++ be 2 (shownGeneration s n).toNat))
        ∧ (KeyAbsent s r.key → (∀ w, w < 8 → wayAt s (bucketOf r.key) w ≠ none) →
            refused .indexFull [] ∧ ∃ t, exec (.define f []) s = .next t ∧ flagSet .indexFull t = true)
        ∧ (KeyAbsent s r.key → (∃ w, w < 8 ∧ wayAt s (bucketOf r.key) w = none) → 65536 ≤ s.liveCount → refused .tableFull []))

/-- A DEFINE that passes its checks creates the record at the free-list head, in WAITING at the tail of its queue, with its watch, its index entry and
its reference counts (R42, R43). -/
def Obligations.DefineCreatesTheRecord : Prop :=
  ∀ (f : Frame) (r : DefineReq) (c : RecordClass) (e : Option Edge) (w : Nat) (s : State), Arrives s f → s.dram = [] → FromHolder s f →
    parseDefine f.body = some r → classOfCode r.cls = some c → edgeOfCode r.edge = some e →
    badLength r.length = false → badDefineList r = false → badDefineSlot s r = false → KeyAbsent s r.key → w < 8 →
    wayAt s (bucketOf r.key) w = none → (∀ v, v < w → wayAt s (bucketOf r.key) v ≠ none) → s.liveCount < 65536 →
    ∃ t, exec (.define f []) s = .next t
      ∧ recordAt t (headNumber s) =
          { generation := generationAt s (headNumber s)
            live := some { key := r.key, length := r.length, segTotal := segmentTotal r.length, cls := c, sources := r.sources
                           targets := r.targets.map (fun x => { frag := x.1, dest := x.2, placed := 0, status := .opened })
                           state := .waiting, watch := watchFor r.watcher f.src e, stamp := s.queueSeq, definer := f.src, way := w
                           fixed := false, lostFields := [] } }
      ∧ OtherRecords s t (headNumber s)
      ∧ wayAt t (bucketOf r.key) w = some { record := headNumber s, key := r.key }
      ∧ (∀ x, x ≠ 8 * bucketOf r.key + w → Sparse.get emptyWay t.index x = Sparse.get emptyWay s.index x)
      ∧ t.freeList = { s.freeList with head := s.freeList.head + 1 } ∧ t.liveCount = s.liveCount + 1
      ∧ RefsFollow s t [] (slotsNamed r.sources (newTargets r)) ∧ JoinedQueue s t (headNumber s) c
      ∧ flagSet .tableHigh t = (flagSet .tableHigh s || decide (s.liveCount + 1 = s.settings.tableHigh))
      ∧ Answered s t f .define .ok 0 (be 2 (headNumber s) ++ be 2 (generationAt s (headNumber s)).toNat)
      ∧ SameControl s t ∧ t.mode = s.mode ∧ t.lanes = s.lanes ∧ t.fetch = s.fetch ∧ t.noticeCounter = s.noticeCounter

/-- A LOCATE that raises nothing is answered by the table of R44, with the report of R45, and changes nothing. The report's bytes are those of R186: a
record held with MEMORY shows length, segment total and counts 0 and no entries, and a field in a fixed record's lost word shows 0 (R31, R32). -/
def Obligations.LocateAnswers : Prop :=
  (∀ (s : State) (n : Nat) (frag : Option Byte) (l : Live), liveAt s n = some l →
    let lost := fun (fd : RecField) (v : Nat) => if fd ∈ l.lostFields then 0 else v
    let work := fun (v : Nat) => if l.state = .held .memory then 0 else v
    let targets := if l.state = .held .memory then [] else l.targets.zipIdx.filter (fun e => decide (frag = none ∨ frag = some e.1.frag))
    let sources := if l.state = .held .memory then [] else l.sources.zipIdx
    locateReport s n frag l =
      be 2 n ++ be 2 (lost .generation (generationAt s n).toNat)
        ++ [stateCode (some l.state), BitVec.ofNat 8 (lost .cls (classCode l.cls).toNat)] ++ causeBytes (some l.state)
        ++ be 2 (lost .stallNode (stallField (some l.state))) ++ [BitVec.ofNat 8 targets.length, BitVec.ofNat 8 sources.length]
        ++ be 4 (work l.length) ++ be 2 (work l.segTotal) ++ [if l.watch.isSome then 1 else 0, 0] ++ be 4 (lost .stamp l.stamp.toNat)
        ++ be 6 (lost .definer l.definer.toNat) ++ [0, 0]
        ++ (targets.map (fun e => [BitVec.ofNat 8 e.2, e.1.frag, statusCode e.1.status, 0] ++ be 2 e.1.placed ++ be 2 e.1.dest
              ++ be 6 (nodeAt s e.1.dest).addr.toNat ++ [0, 0])).flatten
        ++ (sources.map (fun e => [BitVec.ofNat 8 e.2, e.1.frag] ++ be 2 e.1.slot)).flatten)
  ∧ ∀ (f : Frame) (r : LocateReq) (s : State), Arrives s f → s.dram = [] → parseLocate f.body = some r →
    let answers := fun (st : Status) (result : List Byte) => ∃ t, exec (.locate f []) s = .next t ∧ Quiet s t ∧ Answered s t f .locate st 0 result
    (KeyAbsent s r.key → answers .notFound [])
    ∧ ∀ n l, KeyFinds s r.key n l →
      (∀ x, r.frag = some x → memoryHeld l = false → (∀ t ∈ l.targets, t.frag ≠ x) →
        answers .notTarget (be 2 n ++ be 2 (shownGeneration s n).toNat))
      ∧ ((r.frag = none ∨ memoryHeld l = true ∨ ∃ x, r.frag = some x ∧ ∃ t ∈ l.targets, t.frag = x) →
          (f.flags.getLsbD 0 = false ∨ l.fixed = true ∨ l.cls = .foreground) → answers .ok (locateReport s n r.frag l))

/-- LOCATE with URGENT raises a BACKGROUND record to FOREGROUND: a WAITING one moves to the Foreground Queue's tail with a new stamp, any other keeps its
place (R46). The lane keeps its class of admission (R14). -/
def Obligations.LocateUrgentRaises : Prop :=
  ∀ (f : Frame) (r : LocateReq) (n : Nat) (l : Live) (s : State), Arrives s f → s.dram = [] → parseLocate f.body = some r →
    KeyFinds s r.key n l → (r.frag = none ∨ memoryHeld l = true ∨ ∃ x, r.frag = some x ∧ ∃ t ∈ l.targets, t.frag = x) →
    f.flags.getLsbD 0 = true → l.fixed = false → l.cls = .background →
    ∃ t, exec (.locate f []) s = .next t
      ∧ (l.state = .waiting → liveAt t n = some { l with cls := .foreground, stamp := s.queueSeq } ∧ t.queueSeq = s.queueSeq + 1
          ∧ t.fgQueue = s.fgQueue.erase n ++ [n] ∧ t.bgQueue = s.bgQueue.erase n)
      ∧ (l.state ≠ .waiting → liveAt t n = some { l with cls := .foreground } ∧ SameQueues s t)
      ∧ (∀ m, liveAt t n = some m → Answered s t f .locate .ok 0 (locateReport t n r.frag m))
      ∧ OtherRecords s t n ∧ generationAt t n = generationAt s n ∧ SameCollections s t ∧ SameControl s t ∧ t.mode = s.mode
      ∧ t.lanes = s.lanes ∧ t.nodes = s.nodes ∧ t.fetch = s.fetch ∧ t.waitList = s.waitList ∧ t.noticeCounter = s.noticeCounter

/-! ### Requests that change a record -/

/-- CLASS sets the class; a WAITING record whose class changes moves to the other queue's tail with a new stamp, any other keeps its place (R47). A class
code over 1 is MALFORMED, whatever record the CLASS names (R182, R189). -/
def Obligations.ClassSetsTheClass : Prop :=
  (∀ (f : Frame) (r : RecordName) (code : Byte) (s : State), Arrives s f → FromHolder s f → parseNameCode f.body = some (r, code) →
    1 < code.toNat → ∃ t, exec (.setClass f []) s = .next t ∧ Quiet s t ∧ Answered s t f .cls .malformed 0 []
      ∧ counterValue .malformed t = saturatingSucc (counterValue .malformed s))
  ∧ ∀ (f : Frame) (r : RecordName) (code : Byte) (c : RecordClass) (l : Live) (s : State), Reaches s f r l → FromHolder s f →
    parseNameCode f.body = some (r, code) → classOfCode code = some c →
    ∃ t, exec (.setClass f []) s = .next t
      ∧ (l.cls = c → liveAt t r.number = some l ∧ SameQueues s t)
      ∧ (l.cls ≠ c → l.state = .waiting → liveAt t r.number = some { l with cls := c, stamp := s.queueSeq } ∧ t.queueSeq = s.queueSeq + 1
          ∧ (c = .foreground → t.fgQueue = s.fgQueue.erase r.number ++ [r.number] ∧ t.bgQueue = s.bgQueue.erase r.number)
          ∧ (c = .background → t.bgQueue = s.bgQueue.erase r.number ++ [r.number] ∧ t.fgQueue = s.fgQueue.erase r.number))
      ∧ (l.cls ≠ c → l.state ≠ .waiting → liveAt t r.number = some { l with cls := c } ∧ SameQueues s t)
      ∧ Answered s t f .cls .ok 0 ([stateCode (some l.state), classCode c] ++ causeBytes (some l.state))
      ∧ OtherRecords s t r.number ∧ generationAt t r.number = generationAt s r.number ∧ SameCollections s t ∧ SameControl s t
      ∧ t.mode = s.mode ∧ t.lanes = s.lanes ∧ t.nodes = s.nodes ∧ t.fetch = s.fetch ∧ t.waitList = s.waitList
      ∧ t.noticeCounter = s.noticeCounter

/-- REVISE replaces the source list and adjusts the reference counts; an ACTIVE or STALLED record enters WAITING, its lane abandoned; a WAITING or HELD one
stays as it is (R49). An abandoned lane's fetches and stores end and its nodes' counts fall (R89, R128). -/
def Obligations.ReviseReplacesTheSources : Prop :=
  ∀ (f : Frame) (r : ReviseReq) (l : Live) (s : State), Reaches s f r.name l → FromHolder s f → parseRevise f.body = some r →
    l.state ≠ .placed → memoryHeld l = false → r.coefCount = l.targets.length →
    badSources r.sources (l.targets.map (fun t => t.frag)) = false → r.sources.any (fun e => badSlot s e.slot) = false →
    let n := r.name.number
    ∃ t, exec (.revise f []) s = .next t
      ∧ ((l.state = .active ∨ ∃ k, l.state = .stalled k) →
          liveAt t n = some { l with sources := r.sources, state := .waiting, stamp := s.queueSeq } ∧ JoinedQueue s t n l.cls
          ∧ (∀ i, l.state = .active → laneHolding s n = some i → LaneDropped s t i)
          ∧ (∀ k, l.state = .stalled k → (nodeAt t k).stallList = (nodeAt s k).stallList.erase n)
          ∧ Answered s t f .revise .ok 0 [1, classCode l.cls, 0, 0])
      ∧ ((l.state = .waiting ∨ ∃ c, l.state = .held c) → liveAt t n = some { l with sources := r.sources } ∧ SameQueues s t
          ∧ Answered s t f .revise .ok 0 ([stateCode (some l.state), classCode l.cls] ++ causeBytes (some l.state)))
      ∧ RefsFollow s t (slotsNamed l.sources l.targets) (slotsNamed r.sources l.targets)
      ∧ OtherRecords s t n ∧ generationAt t n = generationAt s n ∧ SameCollections s t ∧ SameControl s t

/-- REDIRECT sends one target to a new destination, OPEN with placed count 0, and adjusts the reference counts; an ACTIVE or PLACED record enters WAITING;
any other stays where it is (R51). An abandoned lane's fetches and stores end and its nodes' counts fall (R89, R128). -/
def Obligations.RedirectReopensTheTarget : Prop :=
  ∀ (f : Frame) (r : RedirectReq) (l : Live) (x : Target) (s : State), Reaches s f r.name l → FromHolder s f → parseRedirect f.body = some r →
    memoryHeld l = false → l.targets[r.position]? = some x → l.state ≠ .stalled x.dest → badSlot s r.dest = false →
    let n := r.name.number
    let ts := l.targets.set r.position { x with dest := r.dest, placed := 0, status := .opened }
    ∃ t, exec (.redirect f []) s = .next t
      ∧ ((l.state = .active ∨ l.state = .placed) →
          liveAt t n = some { l with targets := ts, state := .waiting, stamp := s.queueSeq } ∧ JoinedQueue s t n l.cls
          ∧ (∀ i, l.state = .active → laneHolding s n = some i → LaneDropped s t i)
          ∧ Answered s t f .redirect .ok 0 [1, classCode l.cls, 0, 0])
      ∧ ((l.state ≠ .active ∧ l.state ≠ .placed) → liveAt t n = some { l with targets := ts } ∧ SameQueues s t
          ∧ (∀ k, (nodeAt t k).stallList = (nodeAt s k).stallList)
          ∧ Answered s t f .redirect .ok 0 ([stateCode (some l.state), classCode l.cls] ++ causeBytes (some l.state)))
      ∧ RefsFollow s t (slotsNamed l.sources l.targets) (slotsNamed l.sources ts)
      ∧ OtherRecords s t n ∧ generationAt t n = generationAt s n ∧ SameCollections s t ∧ SameControl s t

/-- HOLD places a WAITING, ACTIVE or STALLED record in HELD with OPERATOR, taking it off its queue, lane or stall list, the lane's fetches and stores
ended and its nodes' counts fallen (R22, R52, R89, R128). RESUME returns a HELD
record, its cause not MEMORY and no target LOST, to the tail of its class queue (R53). -/
def Obligations.HoldAndResumeMoveTheRecord : Prop :=
  ∀ (f : Frame) (r : RecordName) (l : Live) (s : State), Reaches s f r l → FromHolder s f → parseName f.body = some r →
    ((l.state = .waiting ∨ l.state = .active ∨ ∃ k, l.state = .stalled k) →
      ∃ t, exec (.hold f []) s = .next t
        ∧ liveAt t r.number = some { l with state := .held .operator } ∧ flagSet .recordHeld t = true
        ∧ (l.state = .waiting → t.fgQueue = s.fgQueue.erase r.number ∧ t.bgQueue = s.bgQueue.erase r.number)
        ∧ (l.state ≠ .waiting → t.fgQueue = s.fgQueue ∧ t.bgQueue = s.bgQueue)
        ∧ (∀ k, l.state = .stalled k → (nodeAt t k).stallList = (nodeAt s k).stallList.erase r.number)
        ∧ (∀ i, l.state = .active → laneHolding s r.number = some i → LaneDropped s t i)
        ∧ (∀ k, (nodeAt t k).refs = (nodeAt s k).refs)
        ∧ Answered s t f .hold .ok 0 [4, classCode l.cls, 1, 0]
        ∧ OtherRecords s t r.number ∧ generationAt t r.number = generationAt s r.number ∧ SameCollections s t ∧ t.queueSeq = s.queueSeq
        ∧ SameControl s t)
    ∧ ∀ cause, l.state = .held cause → cause ≠ .memory → (∀ t ∈ l.targets, t.status ≠ .lost) →
      ∃ t, exec (.resume f []) s = .next t ∧ Requeued s t r.number l
        ∧ Answered s t f .resume .ok 0 [1, classCode l.cls, 0, 0]
        ∧ OtherRecords s t r.number ∧ generationAt t r.number = generationAt s r.number ∧ SameCollections s t ∧ SameControl s t
        ∧ t.mode = s.mode ∧ t.lanes = s.lanes ∧ t.nodes = s.nodes ∧ t.fetch = s.fetch ∧ t.waitList = s.waitList

/-- The refusals by state and by parameters of REVISE, REDIRECT, HOLD, RESUME and RETIRE change nothing (R48, R50, R52, R53, R55). -/
def Obligations.StateAndParameterRefusals : Prop :=
  ∀ (f : Frame) (l : Live) (s : State), FromHolder s f →
    (∀ r, Reaches s f r.name l → parseRevise f.body = some r →
      let refused := fun st => ∃ t, exec (.revise f []) s = .next t ∧ Quiet s t ∧ Answered s t f .revise st 0 []
      ((l.state = .placed ∨ memoryHeld l = true) → refused .wrongState)
      ∧ (l.state ≠ .placed → memoryHeld l = false →
          ((r.coefCount ≠ l.targets.length ∨ badSources r.sources (l.targets.map (fun t => t.frag)) = true) → refused .badList)
          ∧ (r.coefCount = l.targets.length → badSources r.sources (l.targets.map (fun t => t.frag)) = false →
              r.sources.any (fun e => badSlot s e.slot) = true → refused .badSlot)))
    ∧ (∀ r, Reaches s f r.name l → parseRedirect f.body = some r →
      let refused := fun st => ∃ t, exec (.redirect f []) s = .next t ∧ Quiet s t ∧ Answered s t f .redirect st 0 []
      (memoryHeld l = true → refused .wrongState)
      ∧ (memoryHeld l = false → l.targets.length ≤ r.position → refused .notTarget)
      ∧ (∀ x, l.targets[r.position]? = some x → l.state = .stalled x.dest → refused .wrongState)
      ∧ (∀ x, memoryHeld l = false → l.targets[r.position]? = some x → l.state ≠ .stalled x.dest → badSlot s r.dest = true → refused .badSlot))
    ∧ (∀ r, Reaches s f r l → parseName f.body = some r →
      (((∃ c, l.state = .held c) ∨ l.state = .placed) →
        ∃ t, exec (.hold f []) s = .next t ∧ Quiet s t ∧ Answered s t f .hold .wrongState 0 [])
      ∧ (((∀ c, l.state ≠ .held c) ∨ memoryHeld l = true ∨ ∃ t ∈ l.targets, t.status = .lost) →
        ∃ t, exec (.resume f []) s = .next t ∧ Quiet s t ∧ Answered s t f .resume .wrongState 0 [])
      ∧ (l.state ≠ .placed → ∃ t, exec (.retire f []) s = .next t ∧ Quiet s t ∧ Answered s t f .retire .wrongState 0 []))

/-- CANCEL frees a record in any live state and RETIRE frees a PLACED one: the generation rises by 1, the index way is emptied, the reference counts fall,
the number joins the free list's tail, and the REPLY carries the generation before and for CANCEL what was placed; a lane that held the record is
abandoned, its fetches and stores ended (R24, R54, R55, R89, R128, R185). -/
def Obligations.CancelAndRetireFreeTheRecord : Prop :=
  ∀ (f : Frame) (r : RecordName) (l : Live) (s : State), Reaches s f r l → FromHolder s f → parseName f.body = some r →
    let freed := fun (t : State) =>
      recordAt t r.number = { generation := r.generation + 1, live := none } ∧ OtherRecords s t r.number
        ∧ wayAt t (bucketOf l.key) l.way = none
        ∧ (∀ x, x ≠ 8 * bucketOf l.key + l.way → Sparse.get emptyWay t.index x = Sparse.get emptyWay s.index x)
        ∧ Sparse.get resetRingEntry t.freeList.ring s.freeList.tail.toNat = r.number
        ∧ (∀ p, p ≠ s.freeList.tail.toNat → Sparse.get resetRingEntry t.freeList.ring p = Sparse.get resetRingEntry s.freeList.ring p)
        ∧ t.freeList.head = s.freeList.head ∧ t.freeList.tail = s.freeList.tail + 1 ∧ t.liveCount = s.liveCount - 1
        ∧ RefsFollow s t (slotsNamed l.sources l.targets) [] ∧ t.queueSeq = s.queueSeq
        ∧ (l.state = .waiting → t.fgQueue = s.fgQueue.erase r.number ∧ t.bgQueue = s.bgQueue.erase r.number)
        ∧ (l.state ≠ .waiting → t.fgQueue = s.fgQueue ∧ t.bgQueue = s.bgQueue)
        ∧ (∀ k, l.state = .stalled k → (nodeAt t k).stallList = (nodeAt s k).stallList.erase r.number)
        ∧ (∀ i, l.state = .active → laneHolding s r.number = some i → LaneDropped s t i)
        ∧ SameControl s t
    let ts := if l.state = .held .memory then [] else l.targets
    (∃ t, exec (.cancel f []) s = .next t ∧ freed t
      ∧ Answered s t f .cancel .ok 0 (be 2 r.number ++ be 2 r.generation.toNat ++ [BitVec.ofNat 8 ts.length, 0, 0, 0]
          ++ (ts.map (fun x => be 2 x.placed ++ [statusCode x.status, 0])).flatten))
    ∧ (l.state = .placed → ∃ t, exec (.retire f []) s = .next t ∧ freed t
      ∧ Answered s t f .retire .ok 0 (be 2 r.number ++ be 2 r.generation.toNat))

/-- WATCH sets, replaces or removes the record's watch, and its REPLY says whether there was one (R56). An edge code over 3 is MALFORMED, whatever record
the WATCH names and whoever sends it (R182, R189). -/
def Obligations.WatchSetsTheWatch : Prop :=
  (∀ (f : Frame) (r : RecordName) (code : Byte) (s : State), Arrives s f → parseNameCode f.body = some (r, code) →
    3 < code.toNat → ∃ t, exec (.watch f []) s = .next t ∧ Quiet s t ∧ Answered s t f .watch .malformed 0 []
      ∧ counterValue .malformed t = saturatingSucc (counterValue .malformed s))
  ∧ ∀ (f : Frame) (r : RecordName) (code : Byte) (e : Option Edge) (l : Live) (s : State), Reaches s f r l →
    parseNameCode f.body = some (r, code) → edgeOfCode code = some e →
    ∃ t, exec (.watch f []) s = .next t
      ∧ liveAt t r.number = some { l with watch := e.map (fun x => { watcher := f.src, edge := x }) }
      ∧ Answered s t f .watch .ok (if l.watch.isSome then 4 else 0) [stateCode (some l.state), 0, 0, 0]
      ∧ OtherRecords s t r.number ∧ generationAt t r.number = generationAt s r.number ∧ SameCollections s t ∧ SameQueues s t
      ∧ SameControl s t ∧ SameWork s t ∧ t.mode = s.mode ∧ t.noticeCounter = s.noticeCounter

/-- A change of a watched record's state that the edge set asks for makes one NOTICE, tagged with the notice counter, which rises; one that it does not ask
for makes none (R57, R58, R187). Said of HOLD, RESUME, CANCEL, RETIRE, ADMISSION with each outcome of its check and the good receipt that makes the record
PLACED, and of the operations by which every event enters a record into a state. -/
def Obligations.NoticeFollowsTheWatch : Prop :=
  (∀ (f : Frame) (r : RecordName) (l : Live) (w : Watch) (s : State), Reaches s f r l → FromHolder s f → parseName f.body = some r →
    l.watch = some w →
    let makes := fun (c : Instr) (new : Option RecState) => ∃ t, exec c s = .next t ∧ NoticeMade s t w r.number r.generation (some l.state) new
    ((l.state = .waiting ∨ l.state = .active ∨ ∃ k, l.state = .stalled k) → makes (.hold f []) (some (.held .operator)))
    ∧ (∀ cause, l.state = .held cause → cause ≠ .memory → (∀ x ∈ l.targets, x.status ≠ .lost) → makes (.resume f []) (some .waiting))
    ∧ makes (.cancel f []) none
    ∧ (l.state = .placed → makes (.retire f []) none))
  ∧ (∀ (i : Fin 8) (n : Nat) (fg bg : List Nat) (l : Live) (w : Watch) (s : State), AdmitsNext s i n fg bg l → l.watch = some w →
    let seg := nextSegment l
    let makes := fun (new : RecState) => ∃ t, exec (.admission []) s = .next t
      ∧ NoticeMade s t w n (generationAt s n) (some .waiting) (some new)
    ((∀ e ∈ checkList l seg, (nodeAt s e.1).state = .serving) → makes .active)
    ∧ ∀ pre k c post, checkList l seg = pre ++ (k, c) :: post → (∀ e ∈ pre, (nodeAt s e.1).state = .serving) →
        ((nodeAt s k).state = .muted → makes (.stalled k)) ∧ ((nodeAt s k).state = .fenced → makes (.held c)))
  ∧ (∀ (f : Frame) (i : Fin 8) (j : Job) (st : Store) (l : Live) (x : Target) (w : Watch) (s : State), GoodReceiptFor s f i j st l x →
    l.watch = some w → (∀ y ∈ storesOf j, y.target = st.target ∨ y.state = .stored) → (∀ y ∈ targetsAfter l st x, y.status = .done) →
    ∃ t, exec (.storeAck f []) s = .next t ∧ NoticeMade s t w j.record (generationAt s j.record) (some .active) (some .placed))
  ∧ ∀ (n k : Nat) (c : HoldCause) (l : Live) (w : Watch) (s : State), liveAt s n = some l → l.watch = some w →
    ∀ e ∈ [(enterWaiting n s, some RecState.waiting), (enterActive n s, some .active), (enterStalled n k s, some (.stalled k)),
           (enterHeld n c s, some (.held c)), (enterPlaced n s, some .placed), (enterFree n s, none)],
      NoticeMade s e.1 w n (generationAt s n) (some l.state) e.2

/-! ### Memory protection -/

/-- The outcomes of a read of a table word (R30). -/
def Obligations.ReadsOfTwoCopies : Prop :=
  ∀ (w : TableWord) (s : State),
    ((healthOf s w).first = .clean → readWord w s = (true, s))
    ∧ ((healthOf s w).first = .correctable →
        (readWord w s).1 = true ∧ healthOf (readWord w s).2 w = { first := .clean, second := (healthOf s w).second }
          ∧ counterValue .eccCorrected (readWord w s).2 = saturatingSucc (counterValue .eccCorrected s))
    ∧ ((healthOf s w).first = .uncorrectable → (healthOf s w).second ≠ .uncorrectable →
        (readWord w s).1 = true ∧ healthOf (readWord w s).2 w = { first := .clean, second := .clean }
          ∧ counterValue .eccCorrected (readWord w s).2 = saturatingSucc (counterValue .eccCorrected s))
    ∧ ((healthOf s w).first = .uncorrectable → (healthOf s w).second = .uncorrectable →
        (readWord w s).1 = false ∧ flagSet .memoryError (readWord w s).2 = true)
    ∧ healthOf (writeWord w s) w = { first := .clean, second := .clean }

/-- Uncorrectable errors on both copies of a word. A work word of a live record holds it with MEMORY, and an identity word makes it fixed (R31, R32): said of
RESUME, which is then refused with WRONG_STATE, of LOCATE, which reports the record HELD with MEMORY, and of CANCEL, which frees a record HELD with
MEMORY without its target part and refuses a fixed one (R53, R54). A FREE record whose state or generation is lost stays FREE, and a request that names it
by any generation is refused with WRONG_STATE (R31). An index way that is lost matches no key and refuses every DEFINE of its bucket with INDEX_FULL; a
free-list head that is lost refuses DEFINE with TABLE_FULL (R33). That the damage comes with the command is the model's choice (log entry 5), and so are
which words RESUME, LOCATE and CANCEL read (log entry 6) and the WRONG_STATE of a request that meets a lost identity word (log entry 31); that a DEFINE
reads the rest of the bucket is log entry 32. -/
def Obligations.UncorrectableReadHoldsTheRecord : Prop :=
  let lose := fun (w : TableWord) => [({ word := w, second := false, health := .uncorrectable } : Damage),
                                      { word := w, second := true, health := .uncorrectable }]
  let fixedBy := fun (l : Live) (fd : RecField) => { l with state := .held .memory, fixed := true, lostFields := [fd]
                                                            watch := if fd = .watch then none else l.watch }
  let noticed := fun (s t : State) (n : Nat) => flagSet .memoryError t = true ∧ flagSet .recordHeld t = true ∧ OtherRecords s t n
    ∧ SameCollections s t
  (∀ (f : Frame) (r : RecordName) (l : Live) (cause : HoldCause) (s : State), Arrives s f → FromHolder s f → parseName f.body = some r →
    liveAt s r.number = some l → l.fixed = false → l.lostFields = [] → generationAt s r.number = r.generation → l.state = .held cause →
    s.dram = [] →
    (cause ≠ .memory → ∃ t, exec (.resume f (lose (.record r.number .status))) s = .next t
      ∧ liveAt t r.number = some { l with state := .held .memory } ∧ noticed s t r.number ∧ Answered s t f .resume .wrongState 0 []
      ∧ SameQueues s t)
    ∧ (∀ fd ∈ identityFields, ∃ t, exec (.resume f (lose (.record r.number fd))) s = .next t
      ∧ liveAt t r.number = some (fixedBy l fd) ∧ noticed s t r.number ∧ Answered s t f .resume .wrongState 0 [] ∧ SameQueues s t))
  ∧ (∀ (f : Frame) (r : LocateReq) (n : Nat) (l : Live) (s : State), Arrives s f → parseLocate f.body = some r → KeyFinds s r.key n l →
    (r.frag = none ∨ ∃ x ∈ l.targets, r.frag = some x.frag) → f.flags.getLsbD 0 = false → l.fixed = false → l.lostFields = [] → s.dram = [] →
    (∀ fd ∈ [RecField.length, .segTotal, .frags, .placed, .status], memoryHeld l = false →
      ∃ t, exec (.locate f (lose (.record n fd))) s = .next t ∧ liveAt t n = some { l with state := .held .memory } ∧ noticed s t n
        ∧ Answered s t f .locate .ok 0 (locateReport t n r.frag { l with state := .held .memory }))
    ∧ ∀ fd ∈ identityFields, ∃ t, exec (.locate f (lose (.record n fd))) s = .next t ∧ liveAt t n = some (fixedBy l fd) ∧ noticed s t n
        ∧ Answered s t f .locate .ok 0 (locateReport t n r.frag (fixedBy l fd)))
  ∧ (∀ (f : Frame) (r : RecordName) (l : Live) (s : State), Reaches s f r l → FromHolder s f → parseName f.body = some r → l.lostFields = [] →
    (∀ fd ∈ [RecField.placed, .status], memoryHeld l = false → ∃ t, exec (.cancel f (lose (.record r.number fd))) s = .next t
      ∧ recordAt t r.number = { generation := r.generation + 1, live := none } ∧ flagSet .memoryError t = true ∧ flagSet .recordHeld t = true
      ∧ healthOf t (.record r.number fd) = { first := .clean, second := .clean }
      ∧ Answered s t f .cancel .ok 0 (be 2 r.number ++ be 2 r.generation.toNat ++ [0, 0, 0, 0]))
    ∧ ∀ fd ∈ identityFields, ∃ t, exec (.cancel f (lose (.record r.number fd))) s = .next t ∧ liveAt t r.number = some (fixedBy l fd)
      ∧ noticed s t r.number ∧ Answered s t f .cancel .wrongState 0 [])
  ∧ (∀ (f : Frame) (r : RecordName) (s : State), Arrives s f → FromHolder s f → parseName f.body = some r → liveAt s r.number = none → s.dram = [] →
    ∀ fd ∈ [RecField.state, .generation], ∀ c ∈ [Instr.hold f (lose (.record r.number fd)), .resume f (lose (.record r.number fd)),
        .cancel f (lose (.record r.number fd)), .retire f (lose (.record r.number fd))],
      ∃ t k, exec c s = .next t ∧ frameCommand k f (lose (.record r.number fd)) = some c ∧ Answered s t f k .wrongState 0 []
        ∧ flagSet .memoryError t = true ∧ counterValue .staleGen t = counterValue .staleGen s ∧ t.records = s.records ∧ SameCollections s t
        ∧ SameQueues s t ∧ SameWork s t)
  ∧ (∀ (f : Frame) (r : LocateReq) (n : Nat) (l : Live) (w : Nat) (s : State), Arrives s f → parseLocate f.body = some r → KeyFinds s r.key n l →
    s.dram = [] → w < 8 → wayAt s (bucketOf r.key) w = some { record := n, key := r.key } →
    (∀ v, v < 8 → v ≠ w → wayAt s (bucketOf r.key) v ≠ some { record := n, key := r.key }) →
    ∃ t, exec (.locate f (lose (.way (bucketOf r.key) w))) s = .next t ∧ Answered s t f .locate .notFound 0 []
      ∧ flagSet .memoryError t = true ∧ t.records = s.records ∧ SameCollections s t ∧ SameQueues s t ∧ SameWork s t)
  ∧ ∀ (f : Frame) (r : DefineReq) (c : RecordClass) (e : Option Edge) (s : State), Arrives s f → s.dram = [] → FromHolder s f →
    parseDefine f.body = some r → classOfCode r.cls = some c → edgeOfCode r.edge = some e →
    badLength r.length = false → badDefineList r = false → badDefineSlot s r = false → KeyAbsent s r.key →
    (∀ w, w < 8 → ∃ t, exec (.define f (lose (.way (bucketOf r.key) w))) s = .next t ∧ Answered s t f .define .indexFull 0 []
      ∧ flagSet .memoryError t = true ∧ flagSet .indexFull t = true ∧ t.records = s.records ∧ SameCollections s t ∧ SameQueues s t
      ∧ SameWork s t)
    ∧ ((∃ w, w < 8 ∧ wayAt s (bucketOf r.key) w = none) → s.liveCount < 65536 →
      ∃ t, exec (.define f (lose (.freeEntry s.freeList.head.toNat))) s = .next t ∧ Answered s t f .define .tableFull 0 []
        ∧ flagSet .memoryError t = true ∧ t.records = s.records ∧ SameCollections s t ∧ SameQueues s t ∧ SameWork s t)

/-! ### The Node Roster -/

/-- FENCE makes the SERVING and MUTED slots it selects FENCED; it abandons every lane whose record has work on one of them and holds that record, and holds
the records of their stall lists, by the fence cause rule, for which an ACTIVE record's next segment is its lane's; UNFENCE makes the FENCED slots it selects
SERVING with consecutive count 0; both leave the other slots' states (R75, R80 to R82). -/
def Obligations.FenceAndUnfenceTheSelectedSlots : Prop :=
  ∀ (f : Frame) (r : SelectorReq) (ks : List Nat) (s : State), Arrives s f → FromHolder s f → parseSelector f.body = some r →
    selectSlots s r = .ok ks →
    (∃ t, exec (.fence f) s = .next t
      ∧ (∀ k, k ∈ ks → ((nodeAt s k).state = .serving ∨ (nodeAt s k).state = .muted) →
          (nodeAt t k).state = .fenced ∧ (nodeAt t k).consecutive = (nodeAt s k).consecutive ∧ (nodeAt t k).probeSeq = (nodeAt s k).probeSeq)
      ∧ (∀ k, (k ∉ ks ∨ (nodeAt s k).state = .fenced) → (nodeAt t k).state = (nodeAt s k).state)
      ∧ (∀ n l, n ∈ fencedStalled s (fenceable s ks) → liveAt s n = some l → liveAt t n =
          some { l with state := .held (fenceCause ((fenceable s ks).foldl (setNodeState .fenced) s) l (nextSegment l)) })
      ∧ (∀ k, k ∈ fenceable s ks ↔ k ∈ ks ∧ ((nodeAt s k).state = .serving ∨ (nodeAt s k).state = .muted))
      ∧ (LanesHold s → StallsHold s → ∀ ls, LanesOn s (fenceable s ks) ls → LanesAbandoned s t ls ∧ CountsFall s t ls
          ∧ (ls ≠ [] → flagSet .recordHeld t = true)
          ∧ ∀ i ∈ ls, ∀ j l, laneAt s i = some j → liveAt s j.record = some l → liveAt t j.record =
              some { l with state := .held (fenceCause ((fenceable s ks).foldl (setNodeState .fenced) s) l j.segment) })
      ∧ Answered s t f .fence .ok 0 (be 2 (fenceable s ks).length ++ [0, 0]
          ++ be 4 ((fencedLanes ((fenceable s ks).foldl (setNodeState .fenced) s) (fenceable s ks)).length
            + (fencedStalled s (fenceable s ks)).length))
      ∧ SameCollections s t ∧ SameControl s t ∧ (∀ n, generationAt t n = generationAt s n ∧ (liveAt t n).isSome = (liveAt s n).isSome))
    ∧ (∃ t, exec (.unfence f) s = .next t
      ∧ (∀ k, k ∈ ks → (nodeAt s k).state = .fenced → nodeAt t k = { nodeAt s k with state := .serving, consecutive := 0 })
      ∧ (∀ k, (k ∉ ks ∨ (nodeAt s k).state ≠ .fenced) → nodeAt t k = nodeAt s k)
      ∧ Answered s t f .unfence .ok 0 (be 2 (ks.filter (fun k => (nodeAt s k).state == .fenced)).length ++ [0, 0])
      ∧ SameTable s t ∧ SameControl s t ∧ t.mode = s.mode ∧ t.lanes = s.lanes ∧ t.fgQueue = s.fgQueue ∧ t.bgQueue = s.bgQueue)

/-- What a selector selects and what refuses it (R80, R182): a rack over 63 and an undefined selector type are MALFORMED, a slot over 1,023 is BAD_SLOT. -/
def Obligations.SelectorChecks : Prop :=
  ∀ (f : Frame) (r : SelectorReq) (s : State), Arrives s f → FromHolder s f → parseSelector f.body = some r →
    (r.kind = 0 → r.number ≤ 63 → ∃ ks, selectSlots s r = .ok ks ∧ ∀ k, k ∈ ks ↔
      ∃ v, (k, v) ∈ s.nodes ∧ v.state ≠ .absent ∧ v.rack = r.number)
    ∧ (r.kind = 1 → r.number ≤ 1023 → selectSlots s r = .ok (if (nodeAt s r.number).state = .absent then [] else [r.number]))
    ∧ (((r.kind = 0 ∧ 63 < r.number) ∨ (r.kind ≠ 0 ∧ r.kind ≠ 1)) → ∃ t, exec (.fence f) s = .next t ∧ Quiet s t
        ∧ Answered s t f .fence .malformed 0 [])
    ∧ (((r.kind = 0 ∧ 63 < r.number) ∨ (r.kind ≠ 0 ∧ r.kind ≠ 1)) → ∃ t, exec (.unfence f) s = .next t ∧ Quiet s t
        ∧ Answered s t f .unfence .malformed 0 [])
    ∧ (r.kind = 1 → 1023 < r.number → ∃ t, exec (.fence f) s = .next t ∧ Quiet s t ∧ Answered s t f .fence .badSlot 0 [])
    ∧ (r.kind = 1 → 1023 < r.number → ∃ t, exec (.unfence f) s = .next t ∧ Quiet s t ∧ Answered s t f .unfence .badSlot 0 [])

/-- ROSTER_SET that passes its checks sets the slot's fields, making an ABSENT slot SERVING with its counts at 0 and keeping the state, counts and stall
list of any other; a refused one changes nothing (R69, R70). The bytes of the slot report and of the IN_USE report are R185's. That the room a raised limit makes is handed on before the report is made is the model's
choice (log entry 12); the statement says the report where nothing waits. -/
def Obligations.RosterSetSetsTheSlot : Prop :=
  (∀ (s : State) (k other : Nat),
    slotReport s k = [nodeStateCode (nodeAt s k).state, BitVec.ofNat 8 (nodeAt s k).rack, prefCode (nodeAt s k).pref,
        BitVec.ofNat 8 (nodeAt s k).limit] ++ be 6 (nodeAt s k).addr.toNat ++ [0, 0] ++ [BitVec.ofNat 8 (nodeAt s k).outstanding,
        BitVec.ofNat 8 (nodeAt s k).consecutive, 0, 0] ++ be 4 (nodeAt s k).refs ++ be 4 (nodeAt s k).stallList.length
    ∧ inUseReport s k other = be 4 (nodeAt s k).refs ++ [BitVec.ofNat 8 (nodeAt s k).outstanding, 0] ++ be 2 other)
  ∧ ∀ (f : Frame) (r : RosterReq) (s : State), Arrives s f → FromHolder s f → parseRosterSet f.body = some r →
    (1023 < r.slot → ∃ t, exec (.rosterSet f) s = .next t ∧ Quiet s t ∧ Answered s t f .rosterSet .badSlot 0 [])
    ∧ (r.slot ≤ 1023 → (r.limit = 0 ∨ 16 < r.limit ∨ 63 < r.rack ∨ prefOfCode r.pref = none ∨ r.addr = 0 ∨ r.addr.getLsbD 40 = true) →
        ∃ t, exec (.rosterSet f) s = .next t ∧ Quiet s t ∧ Answered s t f .rosterSet .malformed 0 [])
    ∧ (r.slot ≤ 1023 → badRosterValues r = false → (∃ k, addressHolder s r.slot r.addr = some k ∧
        ∃ t, exec (.rosterSet f) s = .next t ∧ Quiet s t ∧ Answered s t f .rosterSet .inUse 0 (inUseReport s r.slot k))
      ∨ (addressHolder s r.slot r.addr = none ∧ moveRefused (nodeAt s r.slot) r = true ∧
        ∃ t, exec (.rosterSet f) s = .next t ∧ Quiet s t ∧ Answered s t f .rosterSet .inUse 0 (inUseReport s r.slot 0xFFFF))
      ∨ (addressHolder s r.slot r.addr = none ∧ moveRefused (nodeAt s r.slot) r = false ∧
        ∀ p, prefOfCode r.pref = some p → NothingWaits s → ∃ t, exec (.rosterSet f) s = .next t
          ∧ ((nodeAt s r.slot).state = .absent → nodeAt t r.slot =
              { state := .serving, addr := r.addr, rack := r.rack, pref := p, limit := r.limit, outstanding := 0, consecutive := 0, refs := 0
                probeSeq := (nodeAt s r.slot).probeSeq, stallList := [] })
          ∧ ((nodeAt s r.slot).state ≠ .absent → nodeAt t r.slot =
              { nodeAt s r.slot with addr := r.addr, rack := r.rack, pref := p, limit := r.limit })
          ∧ (∀ k, k ≠ r.slot → nodeAt t k = nodeAt s k)
          ∧ Answered s t f .rosterSet .ok 0 (slotReport t r.slot)
          ∧ SameTable s t ∧ SameControl s t ∧ t.mode = s.mode ∧ t.lanes = s.lanes ∧ t.fetch = s.fetch ∧ SameQueues s t))

/-- ROSTER_CLEAR makes a slot with no reference and no work ABSENT, keeping its probe sequence; it is refused with NO_LEASE, with BAD_SLOT over 1,023 and
with IN_USE where either count is above 0, in that order (R71). -/
def Obligations.RosterClearClearsTheSlot : Prop :=
  ∀ (f : Frame) (k : Nat) (s : State), Arrives s f → parseRosterClear f.body = some k →
    (holdsLease s f.src = false → ∃ t, exec (.rosterClear f) s = .next t ∧ Quiet s t ∧ Answered s t f .rosterClear .noLease 0 [])
    ∧ (holdsLease s f.src = true →
      (1023 < k → ∃ t, exec (.rosterClear f) s = .next t ∧ Quiet s t ∧ Answered s t f .rosterClear .badSlot 0 [])
      ∧ (k ≤ 1023 → ((nodeAt s k).refs ≠ 0 ∨ (nodeAt s k).outstanding ≠ 0) →
          ∃ t, exec (.rosterClear f) s = .next t ∧ Quiet s t ∧ Answered s t f .rosterClear .inUse 0
              (be 4 (nodeAt s k).refs ++ [BitVec.ofNat 8 (nodeAt s k).outstanding, 0] ++ be 2 0xFFFF))
      ∧ (k ≤ 1023 → (nodeAt s k).refs = 0 → (nodeAt s k).outstanding = 0 → ∃ t, exec (.rosterClear f) s = .next t
          ∧ ((nodeAt s k).state ≠ .absent → nodeAt t k =
              { nodeAt s k with state := .absent, addr := 0, rack := 0, pref := .either, limit := 4, consecutive := 0 })
          ∧ ((nodeAt s k).state = .absent → nodeAt t k = nodeAt s k)
          ∧ (∀ x, x ≠ k → nodeAt t x = nodeAt s x)
          ∧ Answered s t f .rosterClear .ok 0 (slotReport t k)
          ∧ SameTable s t ∧ SameControl s t ∧ t.mode = s.mode ∧ t.lanes = s.lanes ∧ t.fetch = s.fetch ∧ SameQueues s t))

/-- PROBE_TIMER_EXPIRY, due, restarts the timer; each MUTED slot for which a port is found gets a new probe sequence and a PROBE, and no other slot changes
(R78). A PROBE_ACK that fails a test of R79 is counted LATE; BUSY changes nothing; IDLE restores the node: SERVING, consecutive count 0, its
stall list released to WAITING in list order, NODE_RESTORED set (R68, R79). The unit of the timer is the model's (log entry 2). -/
def Obligations.ProbesAndTheirAnswers : Prop :=
  (∀ s : State, s.probeTimer = 0 → Sparse.wf absentNode s.nodes → ∃ t, exec .probeTimerExpiry s = .next t
      ∧ t.probeTimer = 10 * s.settings.probePeriod * 100
      ∧ (∀ k p, (nodeAt s k).state = .muted → nodePort s (nodeAt s k).pref = some p →
          nodeAt t k = { nodeAt s k with probeSeq := (nodeAt s k).probeSeq + 1 }
          ∧ Output.frame { port := p, dst := (nodeAt s k).addr, src := (portAt s p).addr, etherType := s.etherType, kind := 0x35, flags := 0
                           tag := 0, body := be 2 k ++ [(nodeAt s k).probeSeq + 1, 0] } ∈ sentBetween s t)
      ∧ (∀ k, ((nodeAt s k).state ≠ .muted ∨ nodePort s (nodeAt s k).pref = none) → nodeAt t k = nodeAt s k)
      ∧ SameTable s t ∧ t.mode = s.mode ∧ t.lanes = s.lanes ∧ t.fetch = s.fetch ∧ SameQueues s t ∧ t.settings = s.settings)
  ∧ ∀ (f : Frame) (a : ProbeAnswer) (s : State), Arrives s f → parseProbeAck f.body = some a →
      (fromFenced s f.src = true → ∃ t, exec (.probeAck f) s = .next t ∧ Quiet s t ∧ t.outputs = s.outputs
        ∧ counterValue .fencedDiscard t = saturatingSucc (counterValue .fencedDiscard s))
      ∧ (fromFenced s f.src = false →
          ¬ (a.slot ≤ 1023 ∧ (nodeAt s a.slot).state = .muted ∧ a.sequence = (nodeAt s a.slot).probeSeq ∧ f.src = (nodeAt s a.slot).addr) →
          ∃ t, exec (.probeAck f) s = .next t ∧ Quiet s t ∧ counterValue .late t = saturatingSucc (counterValue .late s))
      ∧ (fromFenced s f.src = false → a.slot ≤ 1023 → (nodeAt s a.slot).state = .muted → a.sequence = (nodeAt s a.slot).probeSeq →
          f.src = (nodeAt s a.slot).addr →
          (a.status = 0 → ∃ t, exec (.probeAck f) s = .next t ∧ (nodeAt t a.slot).state = .serving ∧ (nodeAt t a.slot).consecutive = 0
            ∧ ((nodeAt s a.slot).stallList.Nodup → (∀ n ∈ (nodeAt s a.slot).stallList, ∃ l, liveAt s n = some l ∧ l.state = .stalled a.slot) →
                EnteredWaiting s t (nodeAt s a.slot).stallList ∧ (nodeAt t a.slot).stallList = [])
            ∧ flagSet .nodeRestored t = true ∧ SameCollections s t ∧ SameControl s t)
          ∧ (a.status = 1 → ∃ t, exec (.probeAck f) s = .next t ∧ Quiet s t ∧ t.counters = s.counters ∧ t.outputs = s.outputs)
          ∧ (a.status ≠ 0 → a.status ≠ 1 → ∃ t, exec (.probeAck f) s = .next t ∧ Quiet s t
              ∧ counterValue .malformed t = saturatingSucc (counterValue .malformed s)))

/-! ### Modes, ports, links, wake -/

/-- The mode table of R156, for a write of the mode field: which changes are refused, and which mode a taken one leaves. A code that stands for no
mode is ignored and counted. DRAIN cut short to READY abandons every busy lane and returns its record to WAITING, in lane-number order (R158). -/
def Obligations.ModeWriteFollowsTheTable : Prop :=
  (∀ (s : State) (code : BitVec 8), 3 < code.toNat → ∃ t, exec (.modeWrite code) s = .next t ∧ Quiet s t
    ∧ counterValue .windowWriteIgnored t = saturatingSucc (counterValue .windowWriteIgnored s) ∧ t.events.flags = s.events.flags)
  ∧ ∀ (s : State) (m : Mode), ∃ t, exec (.modeWrite (modeCode m)) s = .next t ∧
    (s.mode = m → Quiet s t ∧ t.events.flags = s.events.flags)
    ∧ (((s.mode = .dormant ∧ (m = .rebuild ∨ m = .drain)) ∨ (s.mode = .ready ∧ m = .drain)
          ∨ (s.mode = .rebuild ∧ (m = .ready ∨ m = .dormant)) ∨ (s.mode = .drain ∧ m = .dormant)
          ∨ ((s.mode = .ready ∨ s.mode = .drain) ∧ m = .rebuild ∧ ¬ (s.lease.grant.isSome = true ∧ portsAllowed s .rebuild = true))) →
        Quiet s t ∧ flagSet .modeRefused t = true)
    ∧ (((s.mode = .ready ∨ s.mode = .drain) ∧ m = .rebuild ∧ s.lease.grant.isSome = true ∧ portsAllowed s .rebuild = true) →
        t.mode = .rebuild ∧ flagSet .modeChanged t = true ∧ SameTable s t ∧ SameWork s t ∧ SameControl s t)
    ∧ (s.mode = .dormant → m = .ready → t.mode = .ready ∧ flagSet .modeChanged t = true ∧ SameTable s t ∧ SameWork s t
        ∧ ∀ p, portAt t p = { portAt s p with state := (portAt s p).resume })
    ∧ (s.mode = .ready → m = .dormant → t.mode = .dormant ∧ flagSet .modeChanged t = true ∧ SameTable s t ∧ SameWork s t
        ∧ ∀ p, portAt t p = { portAt s p with resume := (portAt s p).state
                                              state := if (portAt s p).state = .on then .listen else (portAt s p).state })
    ∧ (s.mode = .rebuild → m = .drain → t.mode = (if allIdle s then .ready else .drain) ∧ flagSet .modeChanged t = true ∧ SameTable s t
        ∧ SameWork s t ∧ SameControl s t)
    ∧ (s.mode = .drain → m = .ready → t.mode = .ready ∧ flagSet .modeChanged t = true ∧ allIdle t = true ∧ SameControl s t
        ∧ SameCollections s t ∧ ReturnedInOrder s t ∧ CountsFall s t (busyLanes s))

/-- A MODE request from the holder is judged by the same table as a write of the mode field, and answered with the mode and the ports; an undefined target
is MALFORMED (R156, R185). What the REPLY to MODE DORMANT shows of the ports is the model's choice (log entry 11) and is not stated. -/
def Obligations.ModeRequestFollowsTheTable : Prop :=
  (∀ (s : State) (m : Mode), modeReport s m = [modeCode m, portStateCode s.portA.state, if s.portA.linkUp then 1 else 0,
      portStateCode s.portB.state, if s.portB.linkUp then 1 else 0, 0, 0, 0])
  ∧ ∀ (f : Frame) (code : Byte) (s : State), Arrives s f → FromHolder s f → parseMode f.body = some code →
    (3 < code.toNat → ∃ t, exec (.modeRequest f) s = .next t ∧ Quiet s t ∧ Answered s t f .mode .malformed 0 [])
    ∧ ∀ m, code = modeCode m →
      (modeChangeTaken s m = false → ∃ t, exec (.modeRequest f) s = .next t ∧ Quiet s t ∧ flagSet .modeRefused t = true
        ∧ Answered s t f .mode .modeRefused 0 (modeReport s s.mode))
      ∧ (modeChangeTaken s m = true → m ≠ .dormant → ∃ t u, exec (.modeRequest f) s = .next t ∧ exec (.modeWrite code) s = .next u
        ∧ t.mode = u.mode ∧ SameTable u t ∧ SameWork u t ∧ t.portA = u.portA ∧ t.portB = u.portB ∧ t.lease = u.lease
        ∧ Answered s t f .mode .ok 0 (modeReport t t.mode))
      ∧ (s.mode = .ready → m = .dormant → ∃ t, exec (.modeRequest f) s = .next t ∧ t.mode = .dormant
        ∧ t.portA.state ≠ .on ∧ t.portB.state ≠ .on ∧ SameTable s t ∧ SameWork s t)

/-- In DRAIN with every lane IDLE the drain ends: READY, with MODE_CHANGED; otherwise DRAIN_END finds nothing to end (R157). -/
def Obligations.DrainEndsWhenEveryLaneIsIdle : Prop :=
  ∀ s : State, ∃ t, exec .drainEnd s = .next t ∧ SameTable s t ∧ SameWork s t ∧ SameControl s t
    ∧ (s.mode = .drain → allIdle s = true → t.mode = .ready ∧ flagSet .modeChanged t = true)
    ∧ ((s.mode ≠ .drain ∨ allIdle s = false) → t.mode = s.mode ∧ t.events.flags = s.events.flags)

/-- LINK_UP sets its flag and the link state and nothing else. LINK_DOWN does the same, and when the link lost was the last working one in REBUILD or DRAIN
every busy lane is abandoned, its record returned to WAITING in lane-number order, and the mode becomes READY (R164, R165). -/
def Obligations.LinkChanges : Prop :=
  ∀ (p : Port) (s : State),
    ((portAt s p).linkUp = false → ∃ t, exec (.linkUp p) s = .next t ∧ portAt t p = { portAt s p with linkUp := true }
      ∧ portAt t (otherPort p) = portAt s (otherPort p) ∧ flagSet .linkUp t = true ∧ t.mode = s.mode ∧ SameTable s t ∧ SameWork s t
      ∧ t.lease = s.lease ∧ t.settings = s.settings)
    ∧ ((portAt s p).linkUp = true → ∃ t, exec (.linkDown p) s = .next t ∧ portAt t p = { portAt s p with linkUp := false }
      ∧ portAt t (otherPort p) = portAt s (otherPort p) ∧ flagSet .linkDown t = true ∧ t.lease = s.lease ∧ t.settings = s.settings
      ∧ SameCollections s t
      ∧ (((portAt s p).state = .on ∧ (s.mode = .rebuild ∨ s.mode = .drain) ∧ ableToSend s (otherPort p) = false) →
          t.mode = .ready ∧ allIdle t = true ∧ flagSet .modeChanged t = true ∧ ReturnedInOrder s t ∧ CountsFall s t (busyLanes s))
      ∧ (¬ ((portAt s p).state = .on ∧ (s.mode = .rebuild ∨ s.mode = .drain) ∧ ableToSend s (otherPort p) = false) →
          t.mode = s.mode ∧ SameTable s t ∧ SameWork s t))

/-- A port write is refused with PORT_REFUSED where the mode does not allow the ports it would leave, or ON meets a zero address; code 3 is ignored and
counted; any other is taken at once (R155, R160). -/
def Obligations.PortWriteIsJudged : Prop :=
  ∀ (p : Port) (code : BitVec 2) (s : State), ∃ t, exec (.portWrite p code) s = .next t
    ∧ portAt t (otherPort p) = portAt s (otherPort p) ∧ t.mode = s.mode ∧ SameTable s t ∧ SameWork s t ∧ t.lease = s.lease
    ∧ (code = 3 → t.portA = s.portA ∧ t.portB = s.portB
        ∧ counterValue .windowWriteIgnored t = saturatingSucc (counterValue .windowWriteIgnored s))
    ∧ ∀ v, portStateOfCode code = some v →
      ((portsAllowed (withPortState p v s) s.mode = true ∧ ¬ (v = .on ∧ (portAt s p).addr = 0)) →
        portAt t p = { portAt s p with state := v } ∧ t.events.flags = s.events.flags)
      ∧ (¬ (portsAllowed (withPortState p v s) s.mode = true ∧ ¬ (v = .on ∧ (portAt s p).addr = 0)) →
        portAt t p = portAt s p ∧ flagSet .portRefused t = true)

/-- The two halves of an address write: the low half goes to the staging half; the high half forms the address, and a zero one is refused for a port that
is ON, or in DORMANT for one whose resume state is ON (R160, R192). That the high half is the address's first two bytes and the staging half its last four is the
model's choice (log entry 10). -/
def Obligations.AddressWrites : Prop :=
  ∀ (p : Port) (low : BitVec 32) (high : BitVec 16) (s : State),
    (∃ t, exec (.addressLowWrite p low) s = .next t ∧ portAt t p = { portAt s p with staging := low }
      ∧ portAt t (otherPort p) = portAt s (otherPort p) ∧ t.mode = s.mode ∧ SameTable s t ∧ SameWork s t ∧ t.events.flags = s.events.flags)
    ∧ ∃ t, exec (.addressHighWrite p high) s = .next t ∧ portAt t (otherPort p) = portAt s (otherPort p) ∧ t.mode = s.mode
      ∧ SameTable s t ∧ SameWork s t
      ∧ ((high ++ (portAt s p).staging = 0 ∧ ((portAt s p).state = .on ∨ (s.mode = .dormant ∧ (portAt s p).resume = .on))) →
          portAt t p = portAt s p ∧ flagSet .portRefused t = true)
      ∧ (¬ (high ++ (portAt s p).staging = 0 ∧ ((portAt s p).state = .on ∨ (s.mode = .dormant ∧ (portAt s p).resume = .on))) →
          portAt t p = { portAt s p with addr := high ++ (portAt s p).staging } ∧ t.events.flags = s.events.flags)

/-- A WAKE that a port takes: in DORMANT a matching one restores the ports and makes the mode READY with WAKE set and no REPLY, and any other is counted;
elsewhere a matching one is answered with the mode, and any other is discarded (R161 to R163). In DORMANT no frame is sent at all. -/
def Obligations.WakeFilter : Prop :=
  ∀ (f : Frame) (s : State), taken s f = true →
    let hit := f.cluster = s.wakeCluster ∧ (f.wakeUnit = s.wakeUnit ∨ f.wakeUnit = 0xFFFF)
    ∃ t, exec (.wake f) s = .next t ∧ SameTable s t ∧ SameWork s t ∧ t.lease = s.lease
      ∧ (s.mode = .dormant → hit → t.mode = .ready ∧ flagSet .wake t = true ∧ flagSet .modeChanged t = true ∧ t.counters = s.counters
          ∧ t.noticeCounter = s.noticeCounter ∧ (∀ x, Output.frame x ∉ sentBetween s t)
          ∧ ∀ p, portAt t p = { portAt s p with state := (portAt s p).resume })
      ∧ (s.mode = .dormant → ¬ hit → Quiet s t ∧ t.outputs = s.outputs
          ∧ counterValue .dormantDrop t = saturatingSucc (counterValue .dormantDrop s))
      ∧ (s.mode ≠ .dormant → hit → Quiet s t ∧ Answered s t f .wake .ok 0 [modeCode s.mode, 0, 0, 0] ∧ t.events.flags = s.events.flags)
      ∧ (s.mode ≠ .dormant → ¬ hit → Quiet s t ∧ t.outputs = s.outputs ∧ t.counters = s.counters)

/-! ### The lease -/

/-- LEASE_TAKE grants when no lease is held and is refused with LEASE_HELD otherwise; LEASE_RENEW restarts the window unless NOT_HOLDER, STALE_EPOCH or
TOO_EARLY; LEASE_RELEASE ends the lease, and REBUILD with it; every REPLY carries the lease report, its bytes as R185 lays them out (R169 to R172, R174). Elapsed time is in the model's
unit (log entry 2). -/
def Obligations.LeaseRequests : Prop :=
  (∀ s : State, leaseReport s =
      match s.lease.grant with
      | some g => be 6 g.holder.toNat ++ [0, 0] ++ be 4 s.lease.epoch.toNat ++ be 2 s.settings.tMax ++ be 2 s.settings.tMin
          ++ be 2 ((s.settings.tMax * 100 - g.elapsed) / 100) ++ [modeCode s.mode, 0]
      | none => [0, 0, 0, 0, 0, 0, 0, 0] ++ be 4 s.lease.epoch.toNat ++ be 2 s.settings.tMax ++ be 2 s.settings.tMin ++ [0, 0]
          ++ [modeCode s.mode, 0])
  ∧ ∀ (f : Frame) (epoch : BitVec 32) (s : State), Arrives s f →
    (f.body = [] →
      (s.lease.grant = none → ∃ t, exec (.leaseTake f) s = .next t
        ∧ t.lease = { grant := some { holder := f.src, elapsed := 0 }, epoch := s.lease.epoch + 1 } ∧ t.mode = s.mode
        ∧ SameTable s t ∧ SameWork s t ∧ Answered s t f .leaseTake .ok 0 (leaseReport t))
      ∧ (s.lease.grant ≠ none → ∃ t, exec (.leaseTake f) s = .next t ∧ Quiet s t ∧ Answered s t f .leaseTake .leaseHeld 0 (leaseReport s)))
    ∧ (parseEpoch f.body = some epoch →
      ((∀ g, s.lease.grant = some g → g.holder ≠ f.src) →
        (∃ t, exec (.leaseRenew f) s = .next t ∧ Quiet s t ∧ Answered s t f .leaseRenew .notHolder 0 (leaseReport s))
        ∧ ∃ t, exec (.leaseRelease f) s = .next t ∧ Quiet s t ∧ Answered s t f .leaseRelease .notHolder 0 (leaseReport s))
      ∧ ∀ g, s.lease.grant = some g → g.holder = f.src →
        (s.lease.epoch ≠ epoch →
          (∃ t, exec (.leaseRenew f) s = .next t ∧ Quiet s t ∧ Answered s t f .leaseRenew .staleEpoch 0 (leaseReport s))
          ∧ ∃ t, exec (.leaseRelease f) s = .next t ∧ Quiet s t ∧ Answered s t f .leaseRelease .staleEpoch 0 (leaseReport s))
        ∧ (s.lease.epoch = epoch → g.elapsed < s.settings.tMin * 100 →
          ∃ t, exec (.leaseRenew f) s = .next t ∧ Quiet s t ∧ Answered s t f .leaseRenew .tooEarly 0 (leaseReport s))
        ∧ (s.lease.epoch = epoch → s.settings.tMin * 100 ≤ g.elapsed →
          ∃ t, exec (.leaseRenew f) s = .next t ∧ t.lease = { grant := some { g with elapsed := 0 }, epoch := epoch } ∧ t.mode = s.mode
            ∧ SameTable s t ∧ SameWork s t ∧ Answered s t f .leaseRenew .ok 0 (leaseReport t))
        ∧ (s.lease.epoch = epoch →
          ∃ t, exec (.leaseRelease f) s = .next t ∧ t.lease = { grant := none, epoch := epoch } ∧ flagSet .leaseReleased t = true
            ∧ t.mode = (if s.mode = .rebuild then (if allIdle s then .ready else .drain) else s.mode)
            ∧ SameTable s t ∧ SameWork s t ∧ Answered s t f .leaseRelease .ok 0 (leaseReport t)))

/-- LEASE_LAPSE, due, ends the lease, sets LEASE_LAPSED, keeps the epoch, and turns REBUILD into DRAIN, or READY when no lane is busy; work in flight is left
alone (R173, R174). One that is not due does nothing (log entry 16); the window waits at T_max for this command (log entry 26), and the unit of its elapsed
time is the model's (log entry 2). -/
def Obligations.LeaseLapses : Prop :=
  ∀ (g : Grant) (s : State), s.lease.grant = some g →
    (s.settings.tMax * 100 ≤ g.elapsed → ∃ t, exec .leaseLapse s = .next t ∧ t.lease = { grant := none, epoch := s.lease.epoch }
      ∧ flagSet .leaseLapsed t = true ∧ t.mode = (if s.mode = .rebuild then (if allIdle s then .ready else .drain) else s.mode)
      ∧ SameTable s t ∧ SameWork s t ∧ t.portA = s.portA ∧ t.portB = s.portB ∧ t.settings = s.settings)
    ∧ (g.elapsed < s.settings.tMax * 100 → ∃ t, exec .leaseLapse s = .next t ∧ Quiet s t ∧ t.events.flags = s.events.flags)

/-- A lease setting written within R176's bounds is set, restarts a held window and clears LEASE_LAPSED; any other write is ignored and counted. -/
def Obligations.LeaseSettingWrites : Prop :=
  ∀ (which : LeaseSetting) (v : BitVec 17) (s : State), ∃ t, exec (.leaseSettingWrite which v) s = .next t
    ∧ t.mode = s.mode ∧ SameTable s t ∧ SameWork s t ∧ t.lease.epoch = s.lease.epoch ∧
    (let ok := match which with
        | .tMin => v.toNat ≤ s.settings.tMax
        | .tMax => 100 ≤ v.toNat ∧ v.toNat ≤ 60000 ∧ s.settings.tMin ≤ v.toNat
     (ok → t.settings = (match which with
            | .tMin => { s.settings with tMin := v.toNat }
            | .tMax => { s.settings with tMax := v.toNat })
          ∧ flagSet .leaseLapsed t = false ∧ t.lease.grant = s.lease.grant.map (fun g => { g with elapsed := 0 }))
      ∧ (¬ ok → t.settings = s.settings ∧ t.lease = s.lease ∧ t.events.flags = s.events.flags
          ∧ counterValue .windowWriteIgnored t = saturatingSucc (counterValue .windowWriteIgnored s)))

/-! ### Fetching -/

/-- FETCH_ISSUE, where a slot is free and a pending fetch issuable, and no table word is damaged: the first lane of its class after the class's pointer that
has an issuable fetch, FOREGROUND before BACKGROUND, gives its first issuable entry in list order; the lowest free slot is allocated with the next slot
generation, the budget charged, the node's count raised, the class's pointer moved, the entry taken off the lane's list and the FETCH sent (R87, R92, R93,
R95). The unit of the timer that it starts is the model's (log entry 2), and so is that one command makes one grant (log entry 3). -/
def Obligations.FetchIssueGrants : Prop :=
  ∀ (k : Nat) (c : RecordClass) (i : Fin 8) (e : PendingFetch) (pre post : List PendingFetch) (j : Job) (l : Live) (src : Source) (s : State),
    s.dram = [] → k < 96 → (slotAt s k).use = none → (∀ x, x < k → (slotAt s x).use ≠ none) → WinsGrant s c i → laneAt s i = some j →
    j.pendingFetches = pre ++ e :: post → IssuableAt s c i e → (∀ x ∈ pre, ¬ IssuableAt s c i x) → liveAt s j.record = some l →
    l.sources[e.source]? = some src →
    let refill := 4096 * 16 ^ s.settings.granule * s.settings.multiplier
    ∃ t, exec (.fetchIssue []) s = .next t
      ∧ slotAt t k = { generation := (slotAt s k).generation + 1
                       use := some { lane := i, record := j.record, generation := j.generation, segment := j.segment, length := j.segLength
                                     source := e.source, node := src.slot, attempt := e.attempt, blocks := [], announced := none
                                     conflict := false, firstTimer := some (s.settings.tFirst * 100), streamTimer := none } }
      ∧ (∀ x, x ≠ k → slotAt t x = slotAt s x)
      ∧ nodeAt t src.slot = { nodeAt s src.slot with outstanding := (nodeAt s src.slot).outstanding + 1 }
      ∧ (∀ x, x ≠ src.slot → nodeAt t x = nodeAt s x)
      ∧ t.pacing = { s.pacing with budget := if s.settings.multiplier = 0 then s.pacing.budget
                                             else if j.segLength ≤ refill then s.pacing.budget - j.segLength else 0
                                   fgPtr := if c = .foreground then i else s.pacing.fgPtr
                                   bgPtr := if c = .background then i else s.pacing.bgPtr }
      ∧ laneAt t i = some { j with pendingFetches := j.pendingFetches.filter (fun x => !(x == e)) }
      ∧ (∀ x, x ≠ i → laneAt t x = laneAt s x)
      ∧ (∀ p, nodePort s (nodeAt s src.slot).pref = some p →
          Output.frame { port := p, dst := (nodeAt s src.slot).addr, src := (portAt s p).addr, etherType := s.etherType, kind := 0x30
                         flags := 0, tag := 0
                         body := be 8 l.key.toNat ++ [src.frag, 0] ++ be 2 j.segment ++ be 4 j.segLength
                           ++ [BitVec.ofNat 8 k, (slotAt s k).generation + 1, 0, 0] } ∈ sentBetween s t)
      ∧ SameTable s t ∧ t.mode = s.mode ∧ SameQueues s t ∧ t.settings = s.settings ∧ t.waitList = s.waitList

/-- What makes a pending fetch issuable (R91, R95); FETCH_ISSUE does nothing where no slot is free or no pending fetch is issuable, and where a slot is free
and one is issuable the arbiter has a winner, which takes the lowest free slot; a BACKGROUND lane is served only where no FOREGROUND lane has an issuable
fetch (R87, R92). -/
def Obligations.FetchIssueConditions : Prop :=
  (∀ (s : State) (l : Live) (j : Job) (e : PendingFetch) (src : Source), l.sources[e.source]? = some src →
    (issuable s l j e = true ↔ (nodeAt s src.slot).state = .serving ∧ (nodeAt s src.slot).outstanding < (nodeAt s src.slot).limit
      ∧ (s.settings.multiplier = 0 ∨ (j.segLength ≤ refillValue s.settings ∧ j.segLength ≤ s.pacing.budget)
        ∨ (refillValue s.settings < j.segLength ∧ s.pacing.budget = refillValue s.settings))))
  ∧ (∀ s : State, ((∀ k, k < 96 → (slotAt s k).use ≠ none) ∨ ∀ c i e, ¬ IssuableAt s c i e) → ∃ t, exec (.fetchIssue []) s = .next t
      ∧ Quiet s t ∧ t.outputs = s.outputs)
  ∧ (∀ s : State, ∀ k, k < 96 → (slotAt s k).use = none → (∃ c i e, IssuableAt s c i e) → ∃ x c i e, freeSlotNumber s = some x
      ∧ nextGrant s = some (c, i, e) ∧ x ≤ k ∧ (slotAt s x).use = none ∧ (∀ y, y < x → (slotAt s y).use ≠ none) ∧ WinsGrant s c i
      ∧ IssuableAt s c i e)
  ∧ ∀ (s : State) (w : RecordClass × Fin 8 × PendingFetch), nextGrant s = some w → w.1 = .background → classWinner s .foreground = none

/-- A FETCH_DATA from no fenced node: one that fails R98 is LATE, one that fails the form checks of R99 is MALFORMED or DUPLICATE, and none of these changes
its slot; one from a fenced node is FENCED_DISCARD (R68, R98, R99). -/
def Obligations.FetchDataDiscards : Prop :=
  ∀ (f : Frame) (c : DataChunk) (s : State), Arrives s f → parseFetchData f.body = some c →
    let discards := fun (d : Counter) => ∃ t, exec (.fetchData f []) s = .next t ∧ Quiet s t ∧ t.outputs = s.outputs
      ∧ counterValue d t = saturatingSucc (counterValue d s)
    (fromFenced s f.src = true → discards .fencedDiscard)
    ∧ (fromFenced s f.src = false →
      ((95 < c.slot ∨ (slotAt s c.slot).use = none ∨ (slotAt s c.slot).generation ≠ c.generation
          ∨ ∃ ft, (slotAt s c.slot).use = some ft ∧ f.src ≠ (nodeAt s ft.node).addr) → discards .late)
      ∧ ∀ ft, c.slot ≤ 95 → (slotAt s c.slot).use = some ft → (slotAt s c.slot).generation = c.generation →
          f.src = (nodeAt s ft.node).addr →
        (((c.length ≠ 4096 ∧ c.length ≠ 8192) ∨ c.offset % 4096 ≠ 0 ∨ ft.length < c.offset + c.length) → discards .malformed)
        ∧ ((c.length = 4096 ∨ c.length = 8192) → c.offset % 4096 = 0 → c.offset + c.length ≤ ft.length →
            (∃ b, b ∈ ft.blocks.map (fun x => x.1) ∧ (b = c.offset / 4096 ∨ (c.length = 8192 ∧ b = c.offset / 4096 + 1))) →
            discards .duplicate))

/-- An accepted FETCH_DATA chunk that does not complete its segment joins the slot's blocks, each 4 KiB block with its bytes, sets or checks the announced
CRC, and at the first starts the stream timer (R100, R103, R105). The timer's unit is the model's (log entry 2). -/
def Obligations.FetchDataAccepted : Prop :=
  ∀ (f : Frame) (c : DataChunk) (ft : Fetch) (s : State), Arrives s f → fromFenced s f.src = false → parseFetchData f.body = some c →
    c.slot ≤ 95 → (slotAt s c.slot).use = some ft → (slotAt s c.slot).generation = c.generation → f.src = (nodeAt s ft.node).addr →
    chunkForm ft c = .accepted → bytesReceived (fetchAfterChunk s.settings ft c) ≠ ft.length →
    ∃ t ft', exec (.fetchData f []) s = .next t
      ∧ slotAt t c.slot = { generation := c.generation, use := some ft' }
      ∧ (∀ b, b ∈ ft'.blocks.map (fun x => x.1) ↔
          b ∈ ft.blocks.map (fun x => x.1) ∨ b = c.offset / 4096 ∨ (c.length = 8192 ∧ b = c.offset / 4096 + 1))
      ∧ (∀ b bytes, (b, bytes) ∈ ft'.blocks ↔ (b, bytes) ∈ ft.blocks ∨ (b = c.offset / 4096 ∧ bytes = c.data.take 4096)
          ∨ (c.length = 8192 ∧ b = c.offset / 4096 + 1 ∧ bytes = (c.data.drop 4096).take 4096))
      ∧ ft'.announced = some (ft.announced.getD c.crc)
      ∧ (ft'.conflict = true ↔ ft.conflict = true ∨ ∃ a, ft.announced = some a ∧ a ≠ c.crc)
      ∧ ft'.firstTimer = none ∧ (ft.blocks = [] → ft'.streamTimer = some (s.settings.tStream * 100))
      ∧ (ft.blocks ≠ [] → ft'.streamTimer = ft.streamTimer)
      ∧ (∀ x, x ≠ c.slot → slotAt t x = slotAt s x)
      ∧ SameTable s t ∧ t.nodes = s.nodes ∧ t.lanes = s.lanes ∧ t.mode = s.mode ∧ SameQueues s t ∧ SameControl s t
      ∧ t.outputs = s.outputs ∧ t.counters = s.counters

/-- The chunk that completes a segment, no table word being damaged: with a good CRC the node's consecutive count is cleared, the source is complete and the
lane's accumulators have its data added, where another source is still missing; where it was the last, the lane enters PLACE with a store of attempt 1 for each
needed target, in target-list order, with the target's fragment index and destination and the CRC of its result, which begins or waits (R121, R134 to R137); with
a mismatch attempt 1 is put back as attempt 2 and attempt 2 holds the
record with SOURCE_CORRUPT, its lane abandoned (R101, R102, R120, R128). In each case the slot is freed. -/
def Obligations.FetchDataCompletes : Prop :=
  ∀ (f : Frame) (c : DataChunk) (ft : Fetch) (j : Job) (l : Live) (src : Source) (s : State), Arrives s f → s.dram = [] →
    fromFenced s f.src = false → parseFetchData f.body = some c → c.slot ≤ 95 → (slotAt s c.slot).use = some ft →
    (slotAt s c.slot).generation = c.generation → f.src = (nodeAt s ft.node).addr → chunkForm ft c = .accepted →
    laneAt s ft.lane = some j → j.record = ft.record → liveAt s ft.record = some l → l.fixed = false → l.state = .active →
    l.sources[ft.source]? = some src → laneHolding s ft.record = some ft.lane → NothingWaits s →
    let ft' := fetchAfterChunk s.settings ft c
    bytesReceived ft' = ft.length →
    ∃ t, exec (.fetchData f []) s = .next t ∧ slotAt t c.slot = { generation := c.generation, use := none }
      ∧ (goodSegment ft' = true → (insertPosition ft.source j.complete).length ≠ l.sources.length →
          (nodeAt t ft.node).consecutive = 0 ∧ (nodeAt t ft.node).outstanding = (nodeAt s ft.node).outstanding - 1
          ∧ laneAt t ft.lane = some { j with complete := insertPosition ft.source j.complete
                                             accs := j.accs.map (fun a => if a.1 ∈ j.needed then
                                               (a.1, gfAddScaled (src.coefs.getD a.1 0) a.2 (receiveBuffer ft')) else a) }
          ∧ t.records = s.records)
      ∧ (goodSegment ft' = true → (insertPosition ft.source j.complete).length = l.sources.length →
          let accs := j.accs.map (fun a => if a.1 ∈ j.needed then
            (a.1, gfAddScaled (src.coefs.getD a.1 0) a.2 (receiveBuffer ft')) else a)
          (nodeAt t ft.node).consecutive = 0
          ∧ (∃ j' ss, laneAt t ft.lane = some j' ∧ j' = { j with complete := insertPosition ft.source j.complete, accs := accs, phase := .place ss }
            ∧ ss.map (fun st => st.target) = (j.needed.filter (fun q => decide (q < l.targets.length)))
            ∧ (j.needed.Nodup → ∀ st ∈ ss, ∃ x, l.targets[st.target]? = some x ∧ st.frag = x.frag ∧ st.dest = x.dest ∧ st.attempt = 1
                ∧ st.chunksSent = 0 ∧ st.timer = none ∧ st.crc = segmentCrc ((Sparse.get noBytes accs st.target).take j.segLength)
                ∧ ((st.state = .sending ∧ (ft.lane, st.target) ∉ t.waitList) ∨ (st.state = .queued ∧ (ft.lane, st.target) ∈ t.waitList
                    ∧ ((nodeAt t st.dest).state ≠ .serving ∨ (nodeAt t st.dest).limit ≤ (nodeAt t st.dest).outstanding)))
                ∧ (st.dest ≠ ft.node → (∀ y ∈ ss, y.dest = st.dest → y = st) →
                    (st.state = .sending ↔ (nodeAt s st.dest).state = .serving ∧ (nodeAt s st.dest).outstanding < (nodeAt s st.dest).limit))))
          ∧ t.records = s.records)
      ∧ (goodSegment ft' = false → ft.attempt = 1 →
          laneAt t ft.lane = some { j with pendingFetches := insertPending { source := ft.source, attempt := 2 } j.pendingFetches }
          ∧ (nodeAt t ft.node).consecutive = (nodeAt s ft.node).consecutive ∧ t.records = s.records)
      ∧ (goodSegment ft' = false → ft.attempt ≠ 1 →
          liveAt t ft.record = some { l with state := .held (.sourceCorrupt ft.source) } ∧ LaneDropped s t ft.lane
          ∧ flagSet .recordHeld t = true)
      ∧ SameCollections s t ∧ SameControl s t ∧ t.mode = s.mode


/-- FETCH_FAIL: FENCED_DISCARD from a fenced node, LATE where R98's tests fail, MALFORMED for an undefined status; NO_FRAGMENT and READ_ERROR hold the
record with SOURCE_LOST; BUSY puts attempt 1 back as attempt 2, and restarts the segment after attempt 2 (R68, R106, R107). Where the record
leaves its lane, the lane's fetches and stores end and its nodes' counts fall (R89, R128). -/
def Obligations.FetchFailOutcomes : Prop :=
  ∀ (f : Frame) (r : FailReport) (s : State), Arrives s f → parseFetchFail f.body = some r →
    let discards := fun (d : Counter) => ∃ t, exec (.fetchFail f) s = .next t ∧ Quiet s t ∧ t.outputs = s.outputs
      ∧ counterValue d t = saturatingSucc (counterValue d s)
    (fromFenced s f.src = true → discards .fencedDiscard)
    ∧ (fromFenced s f.src = false →
      ((95 < r.slot ∨ (slotAt s r.slot).use = none ∨ (slotAt s r.slot).generation ≠ r.generation
          ∨ ∃ ft, (slotAt s r.slot).use = some ft ∧ f.src ≠ (nodeAt s ft.node).addr) → discards .late)
      ∧ ∀ ft, r.slot ≤ 95 → (slotAt s r.slot).use = some ft → (slotAt s r.slot).generation = r.generation → f.src = (nodeAt s ft.node).addr →
        (r.status ≠ 1 → r.status ≠ 2 → r.status ≠ 3 → discards .malformed)
        ∧ ∀ j l, WorksOn s ft.lane j l → j.record = ft.record →
          ((r.status = 1 ∨ r.status = 2) → ∃ t, exec (.fetchFail f) s = .next t
            ∧ LaneGivenUp t ft.lane ft.record { l with state := .held (.sourceLost ft.source) } ∧ LaneDropped s t ft.lane ∧ flagSet .recordHeld t = true
            ∧ slotAt t r.slot = { generation := r.generation, use := none } ∧ OtherRecords s t ft.record
            ∧ SameCollections s t ∧ SameControl s t)
          ∧ (r.status = 3 → ft.attempt = 1 → NothingWaits s → ∃ t, exec (.fetchFail f) s = .next t
            ∧ slotAt t r.slot = { generation := r.generation, use := none }
            ∧ laneAt t ft.lane = some { j with pendingFetches := insertPending { source := ft.source, attempt := 2 } j.pendingFetches }
            ∧ nodeAt t ft.node = { nodeAt s ft.node with outstanding := (nodeAt s ft.node).outstanding - 1 }
            ∧ (∀ k, k ≠ ft.node → nodeAt t k = nodeAt s k) ∧ SameTable s t ∧ SameQueues s t ∧ SameControl s t ∧ t.mode = s.mode)
          ∧ (r.status = 3 → ft.attempt ≠ 1 → ∃ t, exec (.fetchFail f) s = .next t
            ∧ Requeued s t ft.record l ∧ LaneDropped s t ft.lane ∧ slotAt t r.slot = { generation := r.generation, use := none }
            ∧ counterValue .segmentRestart t = saturatingSucc (counterValue .segmentRestart s)
            ∧ (∀ k, (nodeAt t k).consecutive = (nodeAt s k).consecutive) ∧ OtherRecords s t ft.record
            ∧ SameCollections s t ∧ SameControl s t))

/-- A fetch timer that has run out. The first-chunk timer raises the node's consecutive count; at the threshold the node is muted and the record STALLED on
it, below it attempt 1 is put back as attempt 2 and attempt 2 restarts the segment. The stream timer mutes the node at once, its count kept
(R76, R77, R104, R105). Muting abandons every lane with work on the node, and a restart the record's lane (R89, R128). A timer that does not run or has time left does nothing (log entries 16 and 26). -/
def Obligations.FetchTimersExpire : Prop :=
  ∀ (k : Fin 96) (ft : Fetch) (s : State), (slotAt s k.val).use = some ft →
    (ft.firstTimer ≠ some 0 → ∃ t, exec (.firstChunkTimerExpiry k) s = .next t ∧ Quiet s t ∧ t.outputs = s.outputs)
    ∧ (ft.streamTimer ≠ some 0 → ∃ t, exec (.streamTimerExpiry k) s = .next t ∧ Quiet s t ∧ t.outputs = s.outputs)
    ∧ ∀ j l src, WorksOn s ft.lane j l → j.record = ft.record → l.sources[ft.source]? = some src → src.slot = ft.node →
      let v := nodeAt s ft.node
      (ft.firstTimer = some 0 → v.state = .serving → s.settings.threshold ≤ v.consecutive + 1 →
        ∃ t, exec (.firstChunkTimerExpiry k) s = .next t ∧ MutedWith s t ft.node (v.consecutive + 1) ft.record l
          ∧ laneAt t ft.lane = none ∧ (slotAt t k.val).use = none ∧ SameCollections s t ∧ SameControl s t)
      ∧ (ft.firstTimer = some 0 → v.consecutive + 1 < s.settings.threshold → ft.attempt = 1 → NothingWaits s →
        ∃ t, exec (.firstChunkTimerExpiry k) s = .next t ∧ (slotAt t k.val).use = none
          ∧ laneAt t ft.lane = some { j with pendingFetches := insertPending { source := ft.source, attempt := 2 } j.pendingFetches }
          ∧ nodeAt t ft.node = { v with outstanding := v.outstanding - 1, consecutive := v.consecutive + 1 }
          ∧ (∀ x, x ≠ ft.node → nodeAt t x = nodeAt s x) ∧ SameTable s t ∧ SameQueues s t ∧ SameControl s t ∧ t.mode = s.mode)
      ∧ (ft.firstTimer = some 0 → v.consecutive + 1 < s.settings.threshold → ft.attempt ≠ 1 →
        ∃ t, exec (.firstChunkTimerExpiry k) s = .next t ∧ Requeued s t ft.record l ∧ LaneDropped s t ft.lane
          ∧ (slotAt t k.val).use = none ∧ (nodeAt t ft.node).consecutive = v.consecutive + 1
          ∧ counterValue .segmentRestart t = saturatingSucc (counterValue .segmentRestart s) ∧ SameCollections s t ∧ SameControl s t)
      ∧ (ft.streamTimer = some 0 → v.state = .serving →
        ∃ t, exec (.streamTimerExpiry k) s = .next t ∧ MutedWith s t ft.node v.consecutive ft.record l
          ∧ laneAt t ft.lane = none ∧ (slotAt t k.val).use = none ∧ SameCollections s t ∧ SameControl s t)

/-- PACING_TIMER_EXPIRY, due, sets the budget to the refill value and restarts the timer. A pacing setting written within its range is set, restarts the
timer and sets the budget to the new refill value; any other write is ignored and counted (R95 to R97, R191). The unit of the timer is the model's (log
entry 2), and so is that an expiry does nothing where the timer has time left (log entries 16 and 26). -/
def Obligations.PacingReloads : Prop :=
  ∀ s : State,
    let refill := fun (st : Settings) => 4096 * 16 ^ st.granule * st.multiplier
    (s.pacing.timer = 0 → ∃ t, exec .pacingTimerExpiry s = .next t
      ∧ t.pacing = { s.pacing with budget := refill s.settings, timer := s.settings.pacingN }
      ∧ SameTable s t ∧ SameWork s t ∧ t.mode = s.mode ∧ t.settings = s.settings ∧ t.lease = s.lease ∧ t.events.flags = s.events.flags)
    ∧ (s.pacing.timer ≠ 0 → ∃ t, exec .pacingTimerExpiry s = .next t ∧ Quiet s t ∧ t.events.flags = s.events.flags)
    ∧ ∀ (which : PacingSetting) (v : BitVec 17),
      let ok := match which with
        | .period => 1 ≤ v.toNat ∧ v.toNat ≤ 65535
        | .granule => v.toNat ≤ 3
        | .multiplier => v.toNat ≤ 16
      let st := match which with
        | .period => { s.settings with pacingN := v.toNat }
        | .granule => { s.settings with granule := v.toNat }
        | .multiplier => { s.settings with multiplier := v.toNat }
      ∃ t, exec (.pacingSettingWrite which v) s = .next t
        ∧ SameTable s t ∧ SameWork s t ∧ t.mode = s.mode ∧ t.lease = s.lease ∧ t.events.flags = s.events.flags
        ∧ (ok → t.settings = st ∧ t.pacing = { s.pacing with budget := refill st, timer := st.pacingN })
        ∧ (¬ ok → t.settings = s.settings ∧ t.pacing = s.pacing
            ∧ counterValue .windowWriteIgnored t = saturatingSucc (counterValue .windowWriteIgnored s))

/-! ### Admission, stores, turn end -/

/-- ADMISSION hands the head of the Foreground Queue, or of the Background Queue within the reserve, to the lowest IDLE lane, in REBUILD only; the
segment-start check makes it ACTIVE with its next segment begun, STALLED on the first node that is MUTED, or HELD for the first that is neither
(R13, R74, R116 to R119). That one command makes one admission is the model's reading (log entry 3); that an ABSENT node, which R72 excludes, gives HELD
(log entry 15) and that an accumulator is kept for each needed target alone, over the segment length (log entry 30), are its choices. -/
def Obligations.AdmissionAdmits : Prop :=
  ∀ s : State,
    (s.mode ≠ .rebuild → ∃ t, exec (.admission []) s = .next t ∧ Quiet s t ∧ t.outputs = s.outputs)
    ∧ ((∀ i, laneAt s i ≠ none) → ∃ t, exec (.admission []) s = .next t ∧ Quiet s t ∧ t.outputs = s.outputs)
    ∧ ((s.fgQueue = [] ∧ (s.bgQueue = [] ∨ 8 - s.settings.reserve ≤ backgroundLanes s)) →
        ∃ t, exec (.admission []) s = .next t ∧ Quiet s t ∧ t.outputs = s.outputs)
    ∧ ∀ (i : Fin 8) (n : Nat) (fg bg : List Nat) (l : Live), AdmitsNext s i n fg bg l →
      let seg := nextSegment l
      let needed := neededTargets l seg
      let len := segmentLength l.length seg
      ∃ t, exec (.admission []) s = .next t
        ∧ ((∀ e ∈ checkList l seg, (nodeAt s e.1).state = .serving) →
            liveAt t n = some { l with state := .active } ∧ t.fgQueue = fg ∧ t.bgQueue = bg ∧ t.nodes = s.nodes
            ∧ laneAt t i = some { record := n, generation := generationAt s n, cls := l.cls, segment := seg, segLength := len
                                  needed := needed, complete := [], accs := needed.map (fun q => (q, List.replicate len 0)), turnCount := 0
                                  pendingFetches := (List.range l.sources.length).map (fun p => { source := p, attempt := 1 })
                                  phase := .gather })
        ∧ (∀ pre k c post, checkList l seg = pre ++ (k, c) :: post → (∀ e ∈ pre, (nodeAt s e.1).state = .serving) →
            ((nodeAt s k).state = .muted → liveAt t n = some { l with state := .stalled k } ∧ laneAt t i = none
              ∧ nodeAt t k = { nodeAt s k with stallList := (nodeAt s k).stallList ++ [n] })
            ∧ (((nodeAt s k).state = .fenced ∨ (nodeAt s k).state = .absent) →
              liveAt t n = some { l with state := .held c } ∧ laneAt t i = none ∧ t.nodes = s.nodes ∧ flagSet .recordHeld t = true))
        ∧ (∀ x, x ≠ i → laneAt t x = laneAt s x) ∧ OtherRecords s t n ∧ generationAt t n = generationAt s n ∧ SameCollections s t
        ∧ SameControl s t ∧ t.mode = s.mode ∧ t.fetch = s.fetch ∧ t.waitList = s.waitList ∧ t.queueSeq = s.queueSeq

/-- STORE_CHUNK_SENT sends the next chunk of the attempt, with LAST on the last one; SEND_COMPLETION makes the store AWAITING and starts its timer; either
does nothing for an attempt that is not SENDING or is at another chunk: STORE_CHUNK_SENT at the last chunk, SEND_COMPLETION at any other (R139, R140). What
chunks sent counts is the model's reading (log entry 27), the timer's unit its choice (log entry 2), and so is that a command for another attempt, which its
operands name, or for a store that is not SENDING does nothing (log entries 16 and 25). -/
def Obligations.StoreChunksAreSent : Prop :=
  ∀ (i : Fin 8) (q : Fin 4) (a : Nat) (s : State),
    (∀ j st, storeAt s i q.val = some (j, st) → st.state = .sending → st.attempt = a →
      (st.chunksSent + 1 < chunkCount j.segLength →
        ∃ t j', exec (.storeChunkSent i q a) s = .next t ∧ storeAt t i q.val = some (j', { st with chunksSent := st.chunksSent + 1 })
          ∧ (∀ x, x ≠ i → laneAt t x = laneAt s x) ∧ (∀ x, x ≠ q.val → (findStore j' x) = findStore j x)
          ∧ SameTable s t ∧ t.nodes = s.nodes ∧ t.fetch = s.fetch ∧ SameQueues s t ∧ t.waitList = s.waitList ∧ t.mode = s.mode
          ∧ SameControl s t
          ∧ ∀ l p, liveAt s j.record = some l → nodePort s (nodeAt s st.dest).pref = some p →
            Output.frame { port := p, dst := (nodeAt s st.dest).addr, src := (portAt s p).addr, etherType := s.etherType, kind := 0x33
                           flags := if st.chunksSent + 2 = chunkCount j.segLength then 2 else 0, tag := 0
                           body := storeBody i j st l.key (st.chunksSent + 1) } ∈ sentBetween s t)
      ∧ (st.chunksSent + 1 = chunkCount j.segLength →
        ∃ t j', exec (.sendCompletion i q a) s = .next t
          ∧ storeAt t i q.val = some (j', { st with state := .awaiting, chunksSent := st.chunksSent + 1
                                                    timer := some (s.settings.tStore * 100) })
          ∧ (∀ x, x ≠ i → laneAt t x = laneAt s x) ∧ (∀ x, x ≠ q.val → (findStore j' x) = findStore j x)
          ∧ SameTable s t ∧ t.nodes = s.nodes ∧ t.fetch = s.fetch ∧ SameQueues s t ∧ t.waitList = s.waitList ∧ t.mode = s.mode
          ∧ SameControl s t ∧ t.outputs = s.outputs)
      ∧ (chunkCount j.segLength ≤ st.chunksSent + 1 → ∃ t, exec (.storeChunkSent i q a) s = .next t ∧ Quiet s t ∧ t.outputs = s.outputs)
      ∧ (st.chunksSent + 1 ≠ chunkCount j.segLength → ∃ t, exec (.sendCompletion i q a) s = .next t ∧ Quiet s t ∧ t.outputs = s.outputs))
    ∧ ((∀ j st, storeAt s i q.val = some (j, st) → st.state = .sending → st.attempt ≠ a) →
        (∃ t, exec (.storeChunkSent i q a) s = .next t ∧ Quiet s t ∧ t.outputs = s.outputs)
        ∧ ∃ t, exec (.sendCompletion i q a) s = .next t ∧ Quiet s t ∧ t.outputs = s.outputs)

/-- STORE_ATTEMPT_BEGIN takes the wait list from its head: the first entry whose node is SERVING with room begins, SENDING with chunk 0 and its node's
count raised; entries before it keep their places; where none has room nothing changes (R137, R138). -/
def Obligations.WaitingStoresBegin : Prop :=
  ∀ s : State,
    let room := fun (k : Nat) => (nodeAt s k).state = .serving ∧ (nodeAt s k).outstanding < (nodeAt s k).limit
    ((∀ e ∈ s.waitList, ∀ j st, storeAt s e.1 e.2 = some (j, st) → ¬ room st.dest) →
      ∃ t, exec .storeAttemptBegin s = .next t ∧ Quiet s t ∧ t.outputs = s.outputs)
    ∧ ∀ pre i q post j st, s.waitList = pre ++ (i, q) :: post →
      (∀ e ∈ pre, ∀ j st, storeAt s e.1 e.2 = some (j, st) → ¬ room st.dest) → storeAt s i q = some (j, st) → room st.dest →
      ∃ t j', exec .storeAttemptBegin s = .next t
        ∧ storeAt t i q = some (j', { st with state := .sending, chunksSent := 0, timer := none })
        ∧ (nodeAt s st.dest).outstanding < (nodeAt t st.dest).outstanding ∧ (nodeAt t st.dest).outstanding ≤ (nodeAt t st.dest).limit
        ∧ (∀ e ∈ pre, e ∈ t.waitList)
        ∧ (post = [] → t.waitList = pre
            ∧ nodeAt t st.dest = { nodeAt s st.dest with outstanding := (nodeAt s st.dest).outstanding + 1 }
            ∧ (∀ k, k ≠ st.dest → nodeAt t k = nodeAt s k) ∧ ∀ x, x ≠ i → laneAt t x = laneAt s x)
        ∧ (∀ l p, liveAt s j.record = some l → nodePort s (nodeAt s st.dest).pref = some p →
            Output.frame { port := p, dst := (nodeAt s st.dest).addr, src := (portAt s p).addr, etherType := s.etherType, kind := 0x33
                           flags := if 1 = chunkCount j.segLength then 2 else 0, tag := 0, body := storeBody i j st l.key 0 }
              ∈ sentBetween s t)
        ∧ SameTable s t ∧ SameControl s t ∧ t.mode = s.mode ∧ t.fetch = s.fetch ∧ SameQueues s t

/-- A STORE_ACK from a fenced node is FENCED_DISCARD; one that answers no store attempt in flight is LATE; one with an undefined status is MALFORMED
(R68, R142). A failed attempt, by a receipt or by the store timer, begins again as attempt 2 or waits for room; a second failure makes the target LOST and
holds the record with DEST_LOST, its lane abandoned; a store timer that brings the node to the threshold mutes it (R76, R77, R89, R128, R141, R144). A store
timer that does not run, or has time left, does nothing (log entries 16 and 26). -/
def Obligations.StoreAttemptsFail : Prop :=
  let fails := fun (c : Instr) (i : Fin 8) (j : Job) (st : Store) (l : Live) (x : Target) (count : Nat) (s : State) =>
    let v := nodeAt s st.dest
    (st.attempt = 1 → v.state = .serving → v.outstanding - 1 < v.limit → NothingWaits s → ∃ t j', exec c s = .next t
      ∧ storeAt t i st.target = some (j', { st with attempt := 2, state := .sending, chunksSent := 0, timer := none })
      ∧ nodeAt t st.dest = { v with outstanding := v.outstanding - 1 + 1, consecutive := count }
      ∧ (∀ k, k ≠ st.dest → nodeAt t k = nodeAt s k) ∧ SameTable s t ∧ t.waitList = [] ∧ SameControl s t)
    ∧ (st.attempt = 1 → v.limit ≤ v.outstanding - 1 → NothingWaits s → ∃ t j', exec c s = .next t
      ∧ storeAt t i st.target = some (j', { st with attempt := 2, state := .queued, chunksSent := 0, timer := none })
      ∧ nodeAt t st.dest = { v with outstanding := v.outstanding - 1, consecutive := count }
      ∧ t.waitList = [(i, st.target)] ∧ SameTable s t ∧ SameControl s t)
    ∧ (st.attempt ≠ 1 → ∃ t, exec c s = .next t
      ∧ LaneGivenUp t i j.record { l with targets := l.targets.set st.target { x with status := .lost }, state := .held (.destLost st.target) }
      ∧ LaneDropped s t i ∧ flagSet .recordHeld t = true ∧ (nodeAt t st.dest).consecutive = count ∧ OtherRecords s t j.record
      ∧ SameCollections s t ∧ SameControl s t)
  let attemptOf := fun (s : State) (i : Fin 8) (j : Job) (st : Store) (l : Live) (x : Target) => WorksOn s i j l
    ∧ findStore j st.target = some st ∧ inFlight st = true ∧ l.targets[st.target]? = some x ∧ x.status = .opened ∧ x.placed = j.segment
    ∧ x.dest = st.dest ∧ st.target ∈ j.needed ∧ storeDone j st.target = false
  (∀ (f : Frame) (r : Receipt) (s : State), Arrives s f → parseStoreAck f.body = some r →
    let discards := fun (d : Counter) => ∃ t, exec (.storeAck f []) s = .next t ∧ Quiet s t ∧ t.outputs = s.outputs
      ∧ counterValue d t = saturatingSucc (counterValue d s)
    let answers := fun (i : Fin 8) (j : Job) (st : Store) => r.lane = i.val ∧ laneAt s i = some j ∧ j.generation = r.generation
      ∧ j.segment = r.segment ∧ (storesOf j).find? (fun y => y.frag == r.frag) = some st ∧ inFlight st = true ∧ st.attempt = r.attempt
      ∧ f.src = (nodeAt s st.dest).addr
    (fromFenced s f.src = true → discards .fencedDiscard)
    ∧ (fromFenced s f.src = false → (∀ i j st, ¬ answers i j st) → discards .late)
    ∧ ∀ i j st, answers i j st → fromFenced s f.src = false →
      (r.status ≠ 0 → r.status ≠ 1 → discards .malformed)
      ∧ ∀ (l : Live) (x : Target), attemptOf s i j st l x → (r.status = 1 ∨ (r.status = 0 ∧ r.crc ≠ st.crc)) →
          fails (.storeAck f []) i j st l x (nodeAt s st.dest).consecutive s)
  ∧ ∀ (i : Fin 8) (q : Fin 4) (s : State),
    (storeAt s i q.val = none → ∃ t, exec (.storeTimerExpiry i q) s = .next t ∧ Quiet s t ∧ t.outputs = s.outputs)
    ∧ ∀ j st, storeAt s i q.val = some (j, st) →
      (st.timer ≠ some 0 → ∃ t, exec (.storeTimerExpiry i q) s = .next t ∧ Quiet s t ∧ t.outputs = s.outputs)
      ∧ ∀ (l : Live) (x : Target), attemptOf s i j st l x → st.timer = some 0 →
        let v := nodeAt s st.dest
        (v.consecutive + 1 < s.settings.threshold → fails (.storeTimerExpiry i q) i j st l x (v.consecutive + 1) s)
        ∧ (v.state = .serving → s.settings.threshold ≤ v.consecutive + 1 →
          ∃ t, exec (.storeTimerExpiry i q) s = .next t ∧ MutedWith s t st.dest (v.consecutive + 1) j.record l ∧ laneAt t i = none
            ∧ SameCollections s t ∧ SameControl s t)

/-- A good receipt clears the node's consecutive count, lowers its outstanding count, raises the target's placed count, DONE at the segment total, and makes
the store STORED; after the last one the lane's turn ends: PLACED when every target is DONE, WAITING outside REBUILD or when the quantum is used and others
wait, and otherwise, by the segment-start check, the next segment of the same record where every node that it needs is SERVING, STALLED on the first node that
is MUTED, or HELD for the first that is neither (R12, R13, R74, R122 to R127, R143). Where the record leaves, the lane is abandoned (R128). HELD for an ABSENT
node is the model's choice (log entry 15). -/
def Obligations.GoodReceiptsAndTurnEnd : Prop :=
  ∀ (f : Frame) (i : Fin 8) (j : Job) (st : Store) (l : Live) (x : Target) (s : State), GoodReceiptFor s f i j st l x →
    let l' := { l with targets := targetsAfter l st x }
    let last := ∀ y ∈ storesOf j, y.target = st.target ∨ y.state = .stored
    let placed := ∀ t ∈ l'.targets, t.status = .done
    let goesOn := last ∧ ¬ placed ∧ s.mode = .rebuild
      ∧ (j.turnCount + 1 < s.settings.quantum ∨ (s.fgQueue = [] ∧ (j.cls = .foreground ∨ s.bgQueue = [])))
    ∃ t, exec (.storeAck f []) s = .next t ∧ (nodeAt t st.dest).consecutive = 0 ∧ OtherRecords s t j.record ∧ SameCollections s t
      ∧ SameControl s t
      ∧ (¬ last → NothingWaits s → liveAt t j.record = some l'
          ∧ (∃ j', storeAt t i st.target = some (j', { st with state := .stored, timer := none }))
          ∧ nodeAt t st.dest = { nodeAt s st.dest with consecutive := 0, outstanding := (nodeAt s st.dest).outstanding - 1 }
          ∧ (∀ k, k ≠ st.dest → nodeAt t k = nodeAt s k))
      ∧ (last → placed → LaneGivenUp t i j.record { l' with state := .placed } ∧ LanesAbandoned s t [i])
      ∧ (last → ¬ placed → s.mode ≠ .rebuild → Requeued s t j.record l' ∧ LanesAbandoned s t [i])
      ∧ (last → ¬ placed → s.mode = .rebuild → s.settings.quantum ≤ j.turnCount + 1 →
          (s.fgQueue ≠ [] ∨ (j.cls = .background ∧ s.bgQueue ≠ [])) → Requeued s t j.record l' ∧ LanesAbandoned s t [i])
      ∧ (goesOn → (∀ e ∈ checkList l' (nextSegment l'), (nodeAt s e.1).state = .serving) →
          liveAt t j.record = some l' ∧ ∃ j', laneAt t i = some j' ∧ j'.record = j.record ∧ j'.generation = generationAt s j.record
            ∧ j'.cls = j.cls ∧ j'.segment = nextSegment l' ∧ j'.segLength = segmentLength l.length (nextSegment l')
            ∧ j'.needed = neededTargets l' (nextSegment l') ∧ j'.complete = [] ∧ j'.turnCount = j.turnCount + 1 ∧ j'.phase = .gather)
      ∧ (goesOn → ∀ pre k c post, checkList l' (nextSegment l') = pre ++ (k, c) :: post → (∀ e ∈ pre, (nodeAt s e.1).state = .serving) →
          ((nodeAt s k).state = .muted → LaneGivenUp t i j.record { l' with state := .stalled k } ∧ LanesAbandoned s t [i]
            ∧ (nodeAt t k).stallList = (nodeAt s k).stallList ++ [j.record])
          ∧ (((nodeAt s k).state = .fenced ∨ (nodeAt s k).state = .absent) → LaneGivenUp t i j.record { l' with state := .held c }
            ∧ LanesAbandoned s t [i] ∧ flagSet .recordHeld t = true))

/-! ### Frames that are no readable request or answer -/

/-- UNREADABLE_FRAME: not taken, nothing; in DORMANT dropped and counted; with an unreadable header, or of a kind that the part only sends, counted MALFORMED
and not answered; of an undefined kind, answered MALFORMED with its own code and counted (R153, R161, R180, R181). -/
def Obligations.UnreadableFrameOutcomes : Prop :=
  ∀ (f : RawFrame) (s : State),
    let counts := fun (d : Counter) => ∃ t, exec (.unreadableFrame f) s = .next t ∧ OnlyEvents s t ∧ t.outputs = s.outputs
      ∧ t.events.flags = s.events.flags ∧ counterValue d t = saturatingSucc (counterValue d s)
    let kind := kindOfCode (byteAt f.payload 1)
    (rawTaken s f = false → ∃ t, exec (.unreadableFrame f) s = .next t ∧ OnlyEvents s t ∧ t.outputs = s.outputs ∧ t.counters = s.counters)
    ∧ (rawTaken s f = true → s.mode = .dormant → (headerReadable f.payload = false ∨ kind ≠ some .wake) → counts .dormantDrop)
    ∧ (rawTaken s f = true → s.mode ≠ .dormant → headerReadable f.payload = false → counts .malformed)
    ∧ (rawTaken s f = true → s.mode ≠ .dormant → headerReadable f.payload = true →
        (∀ k, kind = some k → k ∈ [Kind.reply, .notice, .fetch, .store, .probe] → counts .malformed)
        ∧ (kind = none → ∃ t, exec (.unreadableFrame f) s = .next t ∧ OnlyEvents s t
            ∧ counterValue .malformed t = saturatingSucc (counterValue .malformed s)
            ∧ match choosePort s f.port with
              | some p => Output.frame (replyFrame s p (rawParse f) (byteAt f.payload 1) .malformed 0 []) ∈ sentBetween s t
              | none => counterValue .replyDropped t = saturatingSucc (counterValue .replyDropped s)))

/-! ### The Local Control Window -/

/-- Writes of the event flags, enables, classes and global enable, with the interrupt messages that follow; MSI_ENABLE_CHANGE, which sends a message held
pending whose condition still stands; COUNTER_CLEAR (R193 to R196). -/
def Obligations.EventAndCounterWrites : Prop :=
  ∀ s : State,
    (∀ (m : BitVec 15) (b : Bool) (w : Instr × Events),
      w ∈ [(.eventFlagsWrite m, { s.events with flags := s.events.flags &&& ~~~m }), (.eventEnablesWrite m, { s.events with enables := m }),
           (.eventClassesWrite m, { s.events with classes := m }), (.globalEnableWrite b, { s.events with globalEnable := b })] →
      ∃ t, exec w.1 s = .next t ∧ OnlyEvents s t ∧ t.counters = s.counters
        ∧ t.events = { w.2 with pendingUrgent := t.events.pendingUrgent, pendingRoutine := t.events.pendingRoutine }
        ∧ MessageFollows (urgentCondition s.events) (urgentCondition w.2) s.events.msiEnable (s.events.pendingUrgent = true)
            (t.events.pendingUrgent = true) (Output.urgentMessage ∈ sentBetween s t)
        ∧ MessageFollows (routineCondition s.events) (routineCondition w.2) s.events.msiEnable (s.events.pendingRoutine = true)
            (t.events.pendingRoutine = true) (Output.routineMessage ∈ sentBetween s t))
    ∧ (∀ b : Bool, ∃ t, exec (.msiEnableChange b) s = .next t ∧ OnlyEvents s t ∧ t.counters = s.counters ∧ t.events.msiEnable = b
        ∧ t.events.flags = s.events.flags ∧ t.events.enables = s.events.enables ∧ t.events.classes = s.events.classes
        ∧ t.events.globalEnable = s.events.globalEnable
        ∧ (b = false → t.outputs = s.outputs)
        ∧ (b = true → (Output.urgentMessage ∈ sentBetween s t ↔ s.events.pendingUrgent = true ∧ urgentCondition s.events = true)
            ∧ (Output.routineMessage ∈ sentBetween s t ↔ s.events.pendingRoutine = true ∧ routineCondition s.events = true)
            ∧ t.events.pendingUrgent = false ∧ t.events.pendingRoutine = false))
    ∧ ∀ c : Counter, ∃ t, exec (.counterClear c) s = .next t ∧ OnlyEvents s t ∧ t.outputs = s.outputs ∧ t.events.flags = s.events.flags
        ∧ counterValue c t = 0 ∧ ∀ d, d ≠ c → counterValue d t = counterValue d s

/-- The peek engine: PEEK_SET sets number and count; PEEK_GO with a count of 1 to 32 begins a peek and clears the image, with another count is counted
PEEK_REFUSED; either is ignored and counted while a peek is under way; PEEK_COMPLETION, under way, ends it with PEEK_DONE and the image words of
R199 that the count shows, the others 0; the work words of a record HELD with MEMORY, and the fields in a fixed record's lost words, show 0 (R31, R32, R198,
R199). A PEEK_COMPLETION with no peek under way does nothing (log entry 16). -/
def Obligations.PeekEngine : Prop :=
  ∀ (n : BitVec 16) (c : BitVec 6) (s : State),
    (s.peek.busy = true → ∀ w, w ∈ [Instr.peekSet n c, .peekGo n c] → ∃ t, exec w s = .next t ∧ OnlyEvents s t ∧ t.peek = s.peek
      ∧ counterValue .windowWriteIgnored t = saturatingSucc (counterValue .windowWriteIgnored s))
    ∧ (s.peek.busy = false →
      (∃ t, exec (.peekSet n c) s = .next t ∧ t.peek = { s.peek with number := n, count := c } ∧ SameTable s t ∧ SameWork s t
        ∧ t.mode = s.mode ∧ t.counters = s.counters ∧ t.events.flags = s.events.flags)
      ∧ (1 ≤ c.toNat → c.toNat ≤ 32 → ∃ t, exec (.peekGo n c) s = .next t ∧ t.peek.busy = true ∧ t.peek.number = n ∧ t.peek.count = c
          ∧ (∀ k, imageRead k t = 0) ∧ SameTable s t ∧ SameWork s t ∧ t.mode = s.mode ∧ t.counters = s.counters
          ∧ t.events.flags = s.events.flags)
      ∧ ((c.toNat = 0 ∨ 32 < c.toNat) → ∃ t, exec (.peekGo n c) s = .next t ∧ t.peek = { s.peek with number := n, count := c }
          ∧ SameTable s t ∧ SameWork s t ∧ t.mode = s.mode
          ∧ counterValue .peekRefused t = saturatingSucc (counterValue .peekRefused s)))
    ∧ (s.peek.busy = false → ∃ t, exec (.peekCompletion []) s = .next t ∧ OnlyEvents s t ∧ t.peek = s.peek ∧ t.events.flags = s.events.flags)
    ∧ (s.peek.busy = true → s.dram = [] → ∃ t, exec (.peekCompletion []) s = .next t
        ∧ t.peek.busy = false ∧ t.peek.number = s.peek.number ∧ t.peek.count = s.peek.count ∧ flagSet .peekDone t = true ∧ SameTable s t
        ∧ (∀ k, s.peek.count.toNat ≤ k → imageRead k t = 0)
        ∧ (liveAt s s.peek.number.toNat = none → ∀ k, k < 32 → k < s.peek.count.toNat →
            imageRead k t = if k = 0 then BitVec.ofNat 64 (65536 * (generationAt s s.peek.number.toNat).toNat) else 0)
        ∧ ∀ l, liveAt s s.peek.number.toNat = some l →
            let ident := fun (fd : RecField) (v : Nat) => if fd ∈ l.lostFields then 0 else v
            let work := fun (v : Nat) => if l.state = .held .memory then 0 else v
            let shows := fun (k v : Nat) => k < s.peek.count.toNat → imageRead k t = BitVec.ofNat 64 v
            let targets := if l.state = .held .memory then [] else l.targets
            let sources := if l.state = .held .memory then [] else l.sources
            shows 0 ((stateCode (some l.state)).toNat + 2 ^ 8 * ident .cls (classCode l.cls).toNat
              + 2 ^ 16 * ident .generation (generationAt s s.peek.number.toNat).toNat + 2 ^ 32 * work l.segTotal
              + 2 ^ 48 * work l.sources.length + 2 ^ 56 * work l.targets.length)
            ∧ shows 1 (ident .key l.key.toNat)
            ∧ shows 2 (work l.length + 2 ^ 32 * ident .stamp l.stamp.toNat)
            ∧ (∀ b0 b1, causeBytes (some l.state) = [b0, b1] → shows 3 (b0.toNat + 2 ^ 8 * b1.toNat
                + 2 ^ 16 * ident .stallNode (stallField (some l.state)) + 2 ^ 32 * (if l.watch.isSome then 1 else 0)
                + 2 ^ 33 * (if l.fixed then 1 else 0)))
            ∧ (∀ q, q < 4 → shows (4 + q) (match targets[q]? with
                | some x => x.frag.toNat + 2 ^ 8 * (statusCode x.status).toNat + 2 ^ 16 * x.placed + 2 ^ 32 * x.dest
                | none => 0))
            ∧ (∀ p, p < 16 → ∀ e, sources[p]? = some e → l.targets.length ≤ 4 → e.coefs.length = l.targets.length →
                shows (8 + p) (e.slot + 2 ^ 16 * e.frag.toNat + 2 ^ 32 * (e.coefs.getD 0 0).toNat + 2 ^ 40 * (e.coefs.getD 1 0).toNat
                  + 2 ^ 48 * (e.coefs.getD 2 0).toNat + 2 ^ 56 * (e.coefs.getD 3 0).toNat))
            ∧ (∀ p, p < 16 → sources[p]? = none → shows (8 + p) 0)
            ∧ shows 24 (ident .definer l.definer.toNat)
            ∧ ∀ k, 25 ≤ k → k < 32 → shows k 0)

/-- Writes of the other settings: within its range a setting is set, read back, and the other registers are unchanged; out of range, or at an offset that has
no writable register, the write is ignored and counted; the wake register holds cluster and unit; the EtherType, probe period and reserve writes by their
own rules (R78, R117, R190, R191). The value field of a settings register is its low 17 bits (log entry 18), and the probe timer's unit is
the model's (log entry 2). -/
def Obligations.WindowWrites : Prop :=
  ∀ (s : State),
    let ignored := fun (c : Instr) => ∃ t, exec c s = .next t ∧ OnlyEvents s t ∧ t.events.flags = s.events.flags
      ∧ counterValue .windowWriteIgnored t = saturatingSucc (counterValue .windowWriteIgnored s)
    let sets := fun (c : Instr) (o : Nat) (v : BitVec 32) => ∃ t, exec c s = .next t ∧ windowRead o t = v
      ∧ (∀ x, x ≠ o → windowRead x t = windowRead x s) ∧ SameTable s t ∧ SameWork s t ∧ t.mode = s.mode ∧ t.lease = s.lease
      ∧ t.pacing = s.pacing ∧ t.portA = s.portA ∧ t.portB = s.portB ∧ t.counters = s.counters
    (∀ (v : BitVec 32) (row : BitVec 12 × Nat × Nat),
      row ∈ [(0x040, 1, 255), (0x044, 1, 255), (0x048, 1, 255), (0x05C, 1, 64), (0x064, 1, 15), (0x070, 0, 65536)] →
      let n := v.toNat % 131072
      ((row.2.1 ≤ n ∧ n ≤ row.2.2) → sets (.windowWrite row.1 v) row.1.toNat (BitVec.ofNat 32 n))
      ∧ (¬ (row.2.1 ≤ n ∧ n ≤ row.2.2) → ignored (.windowWrite row.1 v)))
    ∧ (∀ v : BitVec 32, sets (.windowWrite 0x030 v) 0x030 v)
    ∧ (∀ v : BitVec 32, v.getLsbD 0 = false → ∃ t, exec (.windowWrite 0x090 v) s = .next t ∧ OnlyEvents s t ∧ t.counters = s.counters
        ∧ t.events.flags = s.events.flags)
    ∧ (∀ (o : BitVec 12) (v : BitVec 32), o.toNat ∉ [0x010, 0x014, 0x018, 0x020, 0x024, 0x028, 0x02C, 0x030, 0x034, 0x040, 0x044, 0x048, 0x04C,
        0x050, 0x054, 0x058, 0x05C, 0x060, 0x064, 0x068, 0x06C, 0x070, 0x080, 0x084, 0x088, 0x08C, 0x090, 0x100, 0x104, 0x108, 0x10C, 0x110,
        0x114, 0x118, 0x11C, 0x120, 0x124, 0x128, 0x12C, 0x200] → ignored (.windowWrite o v))
    ∧ (∀ v : BitVec 16, (0x0600 ≤ v.toNat → sets (.etherTypeWrite v) 0x034 (v.setWidth 32))
        ∧ (v.toNat < 0x0600 → ignored (.etherTypeWrite v)))
    ∧ (∀ v : BitVec 17, ((1 ≤ v.toNat ∧ v.toNat ≤ 255) → sets (.probePeriodWrite v) 0x04C (v.setWidth 32)
          ∧ ∃ t, exec (.probePeriodWrite v) s = .next t ∧ t.probeTimer = 10 * v.toNat * 100)
        ∧ (¬ (1 ≤ v.toNat ∧ v.toNat ≤ 255) → ignored (.probePeriodWrite v)))
    ∧ (∀ v : BitVec 17, (((s.mode = .dormant ∨ s.mode = .ready) ∧ v.toNat ≤ 7) → sets (.reserveWrite v) 0x060 (v.setWidth 32))
        ∧ (¬ ((s.mode = .dormant ∨ s.mode = .ready) ∧ v.toNat ≤ 7) → ignored (.reserveWrite v)))

/-! ### Laws that every step keeps -/

/-- The laws hold at reset. -/
def Obligations.LawsHoldAtReset : Prop :=
  AuthorityLaw State.reset ∧ BudgetLaw State.reset ∧ LaneModeLaw State.reset ∧ PlacedLaw State.reset ∧ CanonicalTables State.reset
    ∧ ReserveLaw State.reset ∧ FreeListLaw State.reset ∧ IndexLaw State.reset ∧ WorkLaws State.reset

/-- Every step keeps R151's law (REBUILD only while a lease is held) with R155's (the port states are in a combination that the mode allows), R95's (the
budget never exceeds granule times multiplier), R131's with R157's (every lane IDLE in DORMANT and READY, some lane busy in DRAIN), and with it and R114's law
of the queues R117's (no more lanes admitted as BACKGROUND than 8 less the reserve). -/
def Obligations.ControlLawsAreKept : Prop :=
  ∀ s t : State, step s = .next t →
    (AuthorityLaw s → AuthorityLaw t) ∧ (BudgetLaw s → BudgetLaw t) ∧ (LaneModeLaw s → LaneModeLaw t)
      ∧ (LaneModeLaw s → QueueLaw s → ReserveLaw s → ReserveLaw t)

/-- Every step keeps R12's law: no live record's placed count passes its segment total, a target is DONE exactly when its count equals the total, and a
record is PLACED only when every target is DONE; that it is PLACED then is among the laws of the work. -/
def Obligations.PlacedCountsAreKept : Prop :=
  ∀ s t : State, step s = .next t → PlacedLaw s → PlacedLaw t

/-- Every step keeps the canonical form of the model's sparse tables, so that equal tables are equal data (log entry 14), and over it the laws of the free
list (R26, R27) and of the key index (R28, R29). -/
def Obligations.CanonicalTablesAreKept : Prop :=
  ∀ s t : State, step s = .next t → (CanonicalTables s → CanonicalTables t)
    ∧ (CanonicalTables s → FreeListLaw s → IndexLaw s → FreeListLaw t ∧ IndexLaw t)

/-- Every step keeps the laws of the work: of records and their targets (R12), of the two queues (R114), of the stall lists (R73), of the lanes (R113), of the
fetches (R86, R90), of the stores and their wait list (R134, R135), of the reference counts (R72) and of the outstanding counts (R65, R66). They are kept
together, over the canonical tables, the placed counts and the free list. A step that raises a node's outstanding count leaves it within the node's limit
(R65). -/
def Obligations.WorkLawsAreKept : Prop :=
  ∀ s t : State, step s = .next t →
    (CanonicalTables s → PlacedLaw s → FreeListLaw s → WorkLaws s → WorkLaws t)
      ∧ ∀ k, (nodeAt s k).outstanding < (nodeAt t k).outstanding → (nodeAt t k).outstanding ≤ (nodeAt t k).limit
end

