-- ==== Sys2Proof/Laws/State.lean ====
section
/-! SUPPORT. What each update of State leaves alone: one lemma per field per update, each true by rfl, so that no proof unfolds a record update. -/

namespace Sys2Proof.Machine

variable (s : State)

/-! ### raise -/

@[simp] theorem raise_pending (e : Event) : (raise e s).pending = s.pending := rfl
@[simp] theorem raise_records (e : Event) : (raise e s).records = s.records := rfl
@[simp] theorem raise_freeList (e : Event) : (raise e s).freeList = s.freeList := rfl
@[simp] theorem raise_liveCount (e : Event) : (raise e s).liveCount = s.liveCount := rfl
@[simp] theorem raise_index (e : Event) : (raise e s).index = s.index := rfl
@[simp] theorem raise_dram (e : Event) : (raise e s).dram = s.dram := rfl
@[simp] theorem raise_queueSeq (e : Event) : (raise e s).queueSeq = s.queueSeq := rfl
@[simp] theorem raise_fgQueue (e : Event) : (raise e s).fgQueue = s.fgQueue := rfl
@[simp] theorem raise_bgQueue (e : Event) : (raise e s).bgQueue = s.bgQueue := rfl
@[simp] theorem raise_lanes (e : Event) : (raise e s).lanes = s.lanes := rfl
@[simp] theorem raise_nodes (e : Event) : (raise e s).nodes = s.nodes := rfl
@[simp] theorem raise_probeTimer (e : Event) : (raise e s).probeTimer = s.probeTimer := rfl
@[simp] theorem raise_fetch (e : Event) : (raise e s).fetch = s.fetch := rfl
@[simp] theorem raise_pacing (e : Event) : (raise e s).pacing = s.pacing := rfl
@[simp] theorem raise_waitList (e : Event) : (raise e s).waitList = s.waitList := rfl
@[simp] theorem raise_mode (e : Event) : (raise e s).mode = s.mode := rfl
@[simp] theorem raise_portA (e : Event) : (raise e s).portA = s.portA := rfl
@[simp] theorem raise_portB (e : Event) : (raise e s).portB = s.portB := rfl
@[simp] theorem raise_wakeCluster (e : Event) : (raise e s).wakeCluster = s.wakeCluster := rfl
@[simp] theorem raise_wakeUnit (e : Event) : (raise e s).wakeUnit = s.wakeUnit := rfl
@[simp] theorem raise_etherType (e : Event) : (raise e s).etherType = s.etherType := rfl
@[simp] theorem raise_lease (e : Event) : (raise e s).lease = s.lease := rfl
@[simp] theorem raise_noticeCounter (e : Event) : (raise e s).noticeCounter = s.noticeCounter := rfl
@[simp] theorem raise_settings (e : Event) : (raise e s).settings = s.settings := rfl
@[simp] theorem raise_counters (e : Event) : (raise e s).counters = s.counters := rfl
@[simp] theorem raise_peek (e : Event) : (raise e s).peek = s.peek := rfl
@[simp] theorem raise_outputs (e : Event) : (raise e s).outputs = s.outputs := rfl
@[simp] theorem raise_fresh (e : Event) : (raise e s).fresh = s.fresh := rfl

/-! ### clearFlags -/

@[simp] theorem clearFlags_pending (m : BitVec 15) : (clearFlags m s).pending = s.pending := rfl
@[simp] theorem clearFlags_records (m : BitVec 15) : (clearFlags m s).records = s.records := rfl
@[simp] theorem clearFlags_freeList (m : BitVec 15) : (clearFlags m s).freeList = s.freeList := rfl
@[simp] theorem clearFlags_liveCount (m : BitVec 15) : (clearFlags m s).liveCount = s.liveCount := rfl
@[simp] theorem clearFlags_index (m : BitVec 15) : (clearFlags m s).index = s.index := rfl
@[simp] theorem clearFlags_dram (m : BitVec 15) : (clearFlags m s).dram = s.dram := rfl
@[simp] theorem clearFlags_queueSeq (m : BitVec 15) : (clearFlags m s).queueSeq = s.queueSeq := rfl
@[simp] theorem clearFlags_fgQueue (m : BitVec 15) : (clearFlags m s).fgQueue = s.fgQueue := rfl
@[simp] theorem clearFlags_bgQueue (m : BitVec 15) : (clearFlags m s).bgQueue = s.bgQueue := rfl
@[simp] theorem clearFlags_lanes (m : BitVec 15) : (clearFlags m s).lanes = s.lanes := rfl
@[simp] theorem clearFlags_nodes (m : BitVec 15) : (clearFlags m s).nodes = s.nodes := rfl
@[simp] theorem clearFlags_probeTimer (m : BitVec 15) : (clearFlags m s).probeTimer = s.probeTimer := rfl
@[simp] theorem clearFlags_fetch (m : BitVec 15) : (clearFlags m s).fetch = s.fetch := rfl
@[simp] theorem clearFlags_pacing (m : BitVec 15) : (clearFlags m s).pacing = s.pacing := rfl
@[simp] theorem clearFlags_waitList (m : BitVec 15) : (clearFlags m s).waitList = s.waitList := rfl
@[simp] theorem clearFlags_mode (m : BitVec 15) : (clearFlags m s).mode = s.mode := rfl
@[simp] theorem clearFlags_portA (m : BitVec 15) : (clearFlags m s).portA = s.portA := rfl
@[simp] theorem clearFlags_portB (m : BitVec 15) : (clearFlags m s).portB = s.portB := rfl
@[simp] theorem clearFlags_wakeCluster (m : BitVec 15) : (clearFlags m s).wakeCluster = s.wakeCluster := rfl
@[simp] theorem clearFlags_wakeUnit (m : BitVec 15) : (clearFlags m s).wakeUnit = s.wakeUnit := rfl
@[simp] theorem clearFlags_etherType (m : BitVec 15) : (clearFlags m s).etherType = s.etherType := rfl
@[simp] theorem clearFlags_lease (m : BitVec 15) : (clearFlags m s).lease = s.lease := rfl
@[simp] theorem clearFlags_noticeCounter (m : BitVec 15) : (clearFlags m s).noticeCounter = s.noticeCounter := rfl
@[simp] theorem clearFlags_settings (m : BitVec 15) : (clearFlags m s).settings = s.settings := rfl
@[simp] theorem clearFlags_counters (m : BitVec 15) : (clearFlags m s).counters = s.counters := rfl
@[simp] theorem clearFlags_peek (m : BitVec 15) : (clearFlags m s).peek = s.peek := rfl
@[simp] theorem clearFlags_outputs (m : BitVec 15) : (clearFlags m s).outputs = s.outputs := rfl
@[simp] theorem clearFlags_fresh (m : BitVec 15) : (clearFlags m s).fresh = s.fresh := rfl

/-! ### count -/

@[simp] theorem count_pending (c : Counter) : (count c s).pending = s.pending := rfl
@[simp] theorem count_records (c : Counter) : (count c s).records = s.records := rfl
@[simp] theorem count_freeList (c : Counter) : (count c s).freeList = s.freeList := rfl
@[simp] theorem count_liveCount (c : Counter) : (count c s).liveCount = s.liveCount := rfl
@[simp] theorem count_index (c : Counter) : (count c s).index = s.index := rfl
@[simp] theorem count_dram (c : Counter) : (count c s).dram = s.dram := rfl
@[simp] theorem count_queueSeq (c : Counter) : (count c s).queueSeq = s.queueSeq := rfl
@[simp] theorem count_fgQueue (c : Counter) : (count c s).fgQueue = s.fgQueue := rfl
@[simp] theorem count_bgQueue (c : Counter) : (count c s).bgQueue = s.bgQueue := rfl
@[simp] theorem count_lanes (c : Counter) : (count c s).lanes = s.lanes := rfl
@[simp] theorem count_nodes (c : Counter) : (count c s).nodes = s.nodes := rfl
@[simp] theorem count_probeTimer (c : Counter) : (count c s).probeTimer = s.probeTimer := rfl
@[simp] theorem count_fetch (c : Counter) : (count c s).fetch = s.fetch := rfl
@[simp] theorem count_pacing (c : Counter) : (count c s).pacing = s.pacing := rfl
@[simp] theorem count_waitList (c : Counter) : (count c s).waitList = s.waitList := rfl
@[simp] theorem count_mode (c : Counter) : (count c s).mode = s.mode := rfl
@[simp] theorem count_portA (c : Counter) : (count c s).portA = s.portA := rfl
@[simp] theorem count_portB (c : Counter) : (count c s).portB = s.portB := rfl
@[simp] theorem count_wakeCluster (c : Counter) : (count c s).wakeCluster = s.wakeCluster := rfl
@[simp] theorem count_wakeUnit (c : Counter) : (count c s).wakeUnit = s.wakeUnit := rfl
@[simp] theorem count_etherType (c : Counter) : (count c s).etherType = s.etherType := rfl
@[simp] theorem count_lease (c : Counter) : (count c s).lease = s.lease := rfl
@[simp] theorem count_noticeCounter (c : Counter) : (count c s).noticeCounter = s.noticeCounter := rfl
@[simp] theorem count_settings (c : Counter) : (count c s).settings = s.settings := rfl
@[simp] theorem count_events (c : Counter) : (count c s).events = s.events := rfl
@[simp] theorem count_peek (c : Counter) : (count c s).peek = s.peek := rfl
@[simp] theorem count_outputs (c : Counter) : (count c s).outputs = s.outputs := rfl
@[simp] theorem count_fresh (c : Counter) : (count c s).fresh = s.fresh := rfl

/-! ### clearCounter -/

@[simp] theorem clearCounter_pending (c : Counter) : (clearCounter c s).pending = s.pending := rfl
@[simp] theorem clearCounter_records (c : Counter) : (clearCounter c s).records = s.records := rfl
@[simp] theorem clearCounter_freeList (c : Counter) : (clearCounter c s).freeList = s.freeList := rfl
@[simp] theorem clearCounter_liveCount (c : Counter) : (clearCounter c s).liveCount = s.liveCount := rfl
@[simp] theorem clearCounter_index (c : Counter) : (clearCounter c s).index = s.index := rfl
@[simp] theorem clearCounter_dram (c : Counter) : (clearCounter c s).dram = s.dram := rfl
@[simp] theorem clearCounter_queueSeq (c : Counter) : (clearCounter c s).queueSeq = s.queueSeq := rfl
@[simp] theorem clearCounter_fgQueue (c : Counter) : (clearCounter c s).fgQueue = s.fgQueue := rfl
@[simp] theorem clearCounter_bgQueue (c : Counter) : (clearCounter c s).bgQueue = s.bgQueue := rfl
@[simp] theorem clearCounter_lanes (c : Counter) : (clearCounter c s).lanes = s.lanes := rfl
@[simp] theorem clearCounter_nodes (c : Counter) : (clearCounter c s).nodes = s.nodes := rfl
@[simp] theorem clearCounter_probeTimer (c : Counter) : (clearCounter c s).probeTimer = s.probeTimer := rfl
@[simp] theorem clearCounter_fetch (c : Counter) : (clearCounter c s).fetch = s.fetch := rfl
@[simp] theorem clearCounter_pacing (c : Counter) : (clearCounter c s).pacing = s.pacing := rfl
@[simp] theorem clearCounter_waitList (c : Counter) : (clearCounter c s).waitList = s.waitList := rfl
@[simp] theorem clearCounter_mode (c : Counter) : (clearCounter c s).mode = s.mode := rfl
@[simp] theorem clearCounter_portA (c : Counter) : (clearCounter c s).portA = s.portA := rfl
@[simp] theorem clearCounter_portB (c : Counter) : (clearCounter c s).portB = s.portB := rfl
@[simp] theorem clearCounter_wakeCluster (c : Counter) : (clearCounter c s).wakeCluster = s.wakeCluster := rfl
@[simp] theorem clearCounter_wakeUnit (c : Counter) : (clearCounter c s).wakeUnit = s.wakeUnit := rfl
@[simp] theorem clearCounter_etherType (c : Counter) : (clearCounter c s).etherType = s.etherType := rfl
@[simp] theorem clearCounter_lease (c : Counter) : (clearCounter c s).lease = s.lease := rfl
@[simp] theorem clearCounter_noticeCounter (c : Counter) : (clearCounter c s).noticeCounter = s.noticeCounter := rfl
@[simp] theorem clearCounter_settings (c : Counter) : (clearCounter c s).settings = s.settings := rfl
@[simp] theorem clearCounter_events (c : Counter) : (clearCounter c s).events = s.events := rfl
@[simp] theorem clearCounter_peek (c : Counter) : (clearCounter c s).peek = s.peek := rfl
@[simp] theorem clearCounter_outputs (c : Counter) : (clearCounter c s).outputs = s.outputs := rfl
@[simp] theorem clearCounter_fresh (c : Counter) : (clearCounter c s).fresh = s.fresh := rfl

/-! ### emit -/

@[simp] theorem emit_pending (o : Output) : (emit o s).pending = s.pending := rfl
@[simp] theorem emit_records (o : Output) : (emit o s).records = s.records := rfl
@[simp] theorem emit_freeList (o : Output) : (emit o s).freeList = s.freeList := rfl
@[simp] theorem emit_liveCount (o : Output) : (emit o s).liveCount = s.liveCount := rfl
@[simp] theorem emit_index (o : Output) : (emit o s).index = s.index := rfl
@[simp] theorem emit_dram (o : Output) : (emit o s).dram = s.dram := rfl
@[simp] theorem emit_queueSeq (o : Output) : (emit o s).queueSeq = s.queueSeq := rfl
@[simp] theorem emit_fgQueue (o : Output) : (emit o s).fgQueue = s.fgQueue := rfl
@[simp] theorem emit_bgQueue (o : Output) : (emit o s).bgQueue = s.bgQueue := rfl
@[simp] theorem emit_lanes (o : Output) : (emit o s).lanes = s.lanes := rfl
@[simp] theorem emit_nodes (o : Output) : (emit o s).nodes = s.nodes := rfl
@[simp] theorem emit_probeTimer (o : Output) : (emit o s).probeTimer = s.probeTimer := rfl
@[simp] theorem emit_fetch (o : Output) : (emit o s).fetch = s.fetch := rfl
@[simp] theorem emit_pacing (o : Output) : (emit o s).pacing = s.pacing := rfl
@[simp] theorem emit_waitList (o : Output) : (emit o s).waitList = s.waitList := rfl
@[simp] theorem emit_mode (o : Output) : (emit o s).mode = s.mode := rfl
@[simp] theorem emit_portA (o : Output) : (emit o s).portA = s.portA := rfl
@[simp] theorem emit_portB (o : Output) : (emit o s).portB = s.portB := rfl
@[simp] theorem emit_wakeCluster (o : Output) : (emit o s).wakeCluster = s.wakeCluster := rfl
@[simp] theorem emit_wakeUnit (o : Output) : (emit o s).wakeUnit = s.wakeUnit := rfl
@[simp] theorem emit_etherType (o : Output) : (emit o s).etherType = s.etherType := rfl
@[simp] theorem emit_lease (o : Output) : (emit o s).lease = s.lease := rfl
@[simp] theorem emit_noticeCounter (o : Output) : (emit o s).noticeCounter = s.noticeCounter := rfl
@[simp] theorem emit_settings (o : Output) : (emit o s).settings = s.settings := rfl
@[simp] theorem emit_events (o : Output) : (emit o s).events = s.events := rfl
@[simp] theorem emit_counters (o : Output) : (emit o s).counters = s.counters := rfl
@[simp] theorem emit_peek (o : Output) : (emit o s).peek = s.peek := rfl
@[simp] theorem emit_fresh (o : Output) : (emit o s).fresh = s.fresh := rfl

/-! ### setRecord -/

@[simp] theorem setRecord_pending (n : Nat) (r : Record) : (setRecord n r s).pending = s.pending := rfl
@[simp] theorem setRecord_freeList (n : Nat) (r : Record) : (setRecord n r s).freeList = s.freeList := rfl
@[simp] theorem setRecord_liveCount (n : Nat) (r : Record) : (setRecord n r s).liveCount = s.liveCount := rfl
@[simp] theorem setRecord_index (n : Nat) (r : Record) : (setRecord n r s).index = s.index := rfl
@[simp] theorem setRecord_dram (n : Nat) (r : Record) : (setRecord n r s).dram = s.dram := rfl
@[simp] theorem setRecord_queueSeq (n : Nat) (r : Record) : (setRecord n r s).queueSeq = s.queueSeq := rfl
@[simp] theorem setRecord_fgQueue (n : Nat) (r : Record) : (setRecord n r s).fgQueue = s.fgQueue := rfl
@[simp] theorem setRecord_bgQueue (n : Nat) (r : Record) : (setRecord n r s).bgQueue = s.bgQueue := rfl
@[simp] theorem setRecord_lanes (n : Nat) (r : Record) : (setRecord n r s).lanes = s.lanes := rfl
@[simp] theorem setRecord_nodes (n : Nat) (r : Record) : (setRecord n r s).nodes = s.nodes := rfl
@[simp] theorem setRecord_probeTimer (n : Nat) (r : Record) : (setRecord n r s).probeTimer = s.probeTimer := rfl
@[simp] theorem setRecord_fetch (n : Nat) (r : Record) : (setRecord n r s).fetch = s.fetch := rfl
@[simp] theorem setRecord_pacing (n : Nat) (r : Record) : (setRecord n r s).pacing = s.pacing := rfl
@[simp] theorem setRecord_waitList (n : Nat) (r : Record) : (setRecord n r s).waitList = s.waitList := rfl
@[simp] theorem setRecord_mode (n : Nat) (r : Record) : (setRecord n r s).mode = s.mode := rfl
@[simp] theorem setRecord_portA (n : Nat) (r : Record) : (setRecord n r s).portA = s.portA := rfl
@[simp] theorem setRecord_portB (n : Nat) (r : Record) : (setRecord n r s).portB = s.portB := rfl
@[simp] theorem setRecord_wakeCluster (n : Nat) (r : Record) : (setRecord n r s).wakeCluster = s.wakeCluster := rfl
@[simp] theorem setRecord_wakeUnit (n : Nat) (r : Record) : (setRecord n r s).wakeUnit = s.wakeUnit := rfl
@[simp] theorem setRecord_etherType (n : Nat) (r : Record) : (setRecord n r s).etherType = s.etherType := rfl
@[simp] theorem setRecord_lease (n : Nat) (r : Record) : (setRecord n r s).lease = s.lease := rfl
@[simp] theorem setRecord_noticeCounter (n : Nat) (r : Record) : (setRecord n r s).noticeCounter = s.noticeCounter := rfl
@[simp] theorem setRecord_settings (n : Nat) (r : Record) : (setRecord n r s).settings = s.settings := rfl
@[simp] theorem setRecord_events (n : Nat) (r : Record) : (setRecord n r s).events = s.events := rfl
@[simp] theorem setRecord_counters (n : Nat) (r : Record) : (setRecord n r s).counters = s.counters := rfl
@[simp] theorem setRecord_peek (n : Nat) (r : Record) : (setRecord n r s).peek = s.peek := rfl
@[simp] theorem setRecord_outputs (n : Nat) (r : Record) : (setRecord n r s).outputs = s.outputs := rfl
@[simp] theorem setRecord_fresh (n : Nat) (r : Record) : (setRecord n r s).fresh = s.fresh := rfl

/-! ### setLive -/

@[simp] theorem setLive_pending (n : Nat) (l : Live) : (setLive n l s).pending = s.pending := rfl
@[simp] theorem setLive_freeList (n : Nat) (l : Live) : (setLive n l s).freeList = s.freeList := rfl
@[simp] theorem setLive_liveCount (n : Nat) (l : Live) : (setLive n l s).liveCount = s.liveCount := rfl
@[simp] theorem setLive_index (n : Nat) (l : Live) : (setLive n l s).index = s.index := rfl
@[simp] theorem setLive_dram (n : Nat) (l : Live) : (setLive n l s).dram = s.dram := rfl
@[simp] theorem setLive_queueSeq (n : Nat) (l : Live) : (setLive n l s).queueSeq = s.queueSeq := rfl
@[simp] theorem setLive_fgQueue (n : Nat) (l : Live) : (setLive n l s).fgQueue = s.fgQueue := rfl
@[simp] theorem setLive_bgQueue (n : Nat) (l : Live) : (setLive n l s).bgQueue = s.bgQueue := rfl
@[simp] theorem setLive_lanes (n : Nat) (l : Live) : (setLive n l s).lanes = s.lanes := rfl
@[simp] theorem setLive_nodes (n : Nat) (l : Live) : (setLive n l s).nodes = s.nodes := rfl
@[simp] theorem setLive_probeTimer (n : Nat) (l : Live) : (setLive n l s).probeTimer = s.probeTimer := rfl
@[simp] theorem setLive_fetch (n : Nat) (l : Live) : (setLive n l s).fetch = s.fetch := rfl
@[simp] theorem setLive_pacing (n : Nat) (l : Live) : (setLive n l s).pacing = s.pacing := rfl
@[simp] theorem setLive_waitList (n : Nat) (l : Live) : (setLive n l s).waitList = s.waitList := rfl
@[simp] theorem setLive_mode (n : Nat) (l : Live) : (setLive n l s).mode = s.mode := rfl
@[simp] theorem setLive_portA (n : Nat) (l : Live) : (setLive n l s).portA = s.portA := rfl
@[simp] theorem setLive_portB (n : Nat) (l : Live) : (setLive n l s).portB = s.portB := rfl
@[simp] theorem setLive_wakeCluster (n : Nat) (l : Live) : (setLive n l s).wakeCluster = s.wakeCluster := rfl
@[simp] theorem setLive_wakeUnit (n : Nat) (l : Live) : (setLive n l s).wakeUnit = s.wakeUnit := rfl
@[simp] theorem setLive_etherType (n : Nat) (l : Live) : (setLive n l s).etherType = s.etherType := rfl
@[simp] theorem setLive_lease (n : Nat) (l : Live) : (setLive n l s).lease = s.lease := rfl
@[simp] theorem setLive_noticeCounter (n : Nat) (l : Live) : (setLive n l s).noticeCounter = s.noticeCounter := rfl
@[simp] theorem setLive_settings (n : Nat) (l : Live) : (setLive n l s).settings = s.settings := rfl
@[simp] theorem setLive_events (n : Nat) (l : Live) : (setLive n l s).events = s.events := rfl
@[simp] theorem setLive_counters (n : Nat) (l : Live) : (setLive n l s).counters = s.counters := rfl
@[simp] theorem setLive_peek (n : Nat) (l : Live) : (setLive n l s).peek = s.peek := rfl
@[simp] theorem setLive_outputs (n : Nat) (l : Live) : (setLive n l s).outputs = s.outputs := rfl
@[simp] theorem setLive_fresh (n : Nat) (l : Live) : (setLive n l s).fresh = s.fresh := rfl

/-! ### setNode -/

@[simp] theorem setNode_pending (k : Nat) (v : Node) : (setNode k v s).pending = s.pending := rfl
@[simp] theorem setNode_records (k : Nat) (v : Node) : (setNode k v s).records = s.records := rfl
@[simp] theorem setNode_freeList (k : Nat) (v : Node) : (setNode k v s).freeList = s.freeList := rfl
@[simp] theorem setNode_liveCount (k : Nat) (v : Node) : (setNode k v s).liveCount = s.liveCount := rfl
@[simp] theorem setNode_index (k : Nat) (v : Node) : (setNode k v s).index = s.index := rfl
@[simp] theorem setNode_dram (k : Nat) (v : Node) : (setNode k v s).dram = s.dram := rfl
@[simp] theorem setNode_queueSeq (k : Nat) (v : Node) : (setNode k v s).queueSeq = s.queueSeq := rfl
@[simp] theorem setNode_fgQueue (k : Nat) (v : Node) : (setNode k v s).fgQueue = s.fgQueue := rfl
@[simp] theorem setNode_bgQueue (k : Nat) (v : Node) : (setNode k v s).bgQueue = s.bgQueue := rfl
@[simp] theorem setNode_lanes (k : Nat) (v : Node) : (setNode k v s).lanes = s.lanes := rfl
@[simp] theorem setNode_probeTimer (k : Nat) (v : Node) : (setNode k v s).probeTimer = s.probeTimer := rfl
@[simp] theorem setNode_fetch (k : Nat) (v : Node) : (setNode k v s).fetch = s.fetch := rfl
@[simp] theorem setNode_pacing (k : Nat) (v : Node) : (setNode k v s).pacing = s.pacing := rfl
@[simp] theorem setNode_waitList (k : Nat) (v : Node) : (setNode k v s).waitList = s.waitList := rfl
@[simp] theorem setNode_mode (k : Nat) (v : Node) : (setNode k v s).mode = s.mode := rfl
@[simp] theorem setNode_portA (k : Nat) (v : Node) : (setNode k v s).portA = s.portA := rfl
@[simp] theorem setNode_portB (k : Nat) (v : Node) : (setNode k v s).portB = s.portB := rfl
@[simp] theorem setNode_wakeCluster (k : Nat) (v : Node) : (setNode k v s).wakeCluster = s.wakeCluster := rfl
@[simp] theorem setNode_wakeUnit (k : Nat) (v : Node) : (setNode k v s).wakeUnit = s.wakeUnit := rfl
@[simp] theorem setNode_etherType (k : Nat) (v : Node) : (setNode k v s).etherType = s.etherType := rfl
@[simp] theorem setNode_lease (k : Nat) (v : Node) : (setNode k v s).lease = s.lease := rfl
@[simp] theorem setNode_noticeCounter (k : Nat) (v : Node) : (setNode k v s).noticeCounter = s.noticeCounter := rfl
@[simp] theorem setNode_settings (k : Nat) (v : Node) : (setNode k v s).settings = s.settings := rfl
@[simp] theorem setNode_events (k : Nat) (v : Node) : (setNode k v s).events = s.events := rfl
@[simp] theorem setNode_counters (k : Nat) (v : Node) : (setNode k v s).counters = s.counters := rfl
@[simp] theorem setNode_peek (k : Nat) (v : Node) : (setNode k v s).peek = s.peek := rfl
@[simp] theorem setNode_outputs (k : Nat) (v : Node) : (setNode k v s).outputs = s.outputs := rfl
@[simp] theorem setNode_fresh (k : Nat) (v : Node) : (setNode k v s).fresh = s.fresh := rfl

/-! ### setSlot -/

@[simp] theorem setSlot_pending (k : Nat) (v : FetchSlot) : (setSlot k v s).pending = s.pending := rfl
@[simp] theorem setSlot_records (k : Nat) (v : FetchSlot) : (setSlot k v s).records = s.records := rfl
@[simp] theorem setSlot_freeList (k : Nat) (v : FetchSlot) : (setSlot k v s).freeList = s.freeList := rfl
@[simp] theorem setSlot_liveCount (k : Nat) (v : FetchSlot) : (setSlot k v s).liveCount = s.liveCount := rfl
@[simp] theorem setSlot_index (k : Nat) (v : FetchSlot) : (setSlot k v s).index = s.index := rfl
@[simp] theorem setSlot_dram (k : Nat) (v : FetchSlot) : (setSlot k v s).dram = s.dram := rfl
@[simp] theorem setSlot_queueSeq (k : Nat) (v : FetchSlot) : (setSlot k v s).queueSeq = s.queueSeq := rfl
@[simp] theorem setSlot_fgQueue (k : Nat) (v : FetchSlot) : (setSlot k v s).fgQueue = s.fgQueue := rfl
@[simp] theorem setSlot_bgQueue (k : Nat) (v : FetchSlot) : (setSlot k v s).bgQueue = s.bgQueue := rfl
@[simp] theorem setSlot_lanes (k : Nat) (v : FetchSlot) : (setSlot k v s).lanes = s.lanes := rfl
@[simp] theorem setSlot_nodes (k : Nat) (v : FetchSlot) : (setSlot k v s).nodes = s.nodes := rfl
@[simp] theorem setSlot_probeTimer (k : Nat) (v : FetchSlot) : (setSlot k v s).probeTimer = s.probeTimer := rfl
@[simp] theorem setSlot_pacing (k : Nat) (v : FetchSlot) : (setSlot k v s).pacing = s.pacing := rfl
@[simp] theorem setSlot_waitList (k : Nat) (v : FetchSlot) : (setSlot k v s).waitList = s.waitList := rfl
@[simp] theorem setSlot_mode (k : Nat) (v : FetchSlot) : (setSlot k v s).mode = s.mode := rfl
@[simp] theorem setSlot_portA (k : Nat) (v : FetchSlot) : (setSlot k v s).portA = s.portA := rfl
@[simp] theorem setSlot_portB (k : Nat) (v : FetchSlot) : (setSlot k v s).portB = s.portB := rfl
@[simp] theorem setSlot_wakeCluster (k : Nat) (v : FetchSlot) : (setSlot k v s).wakeCluster = s.wakeCluster := rfl
@[simp] theorem setSlot_wakeUnit (k : Nat) (v : FetchSlot) : (setSlot k v s).wakeUnit = s.wakeUnit := rfl
@[simp] theorem setSlot_etherType (k : Nat) (v : FetchSlot) : (setSlot k v s).etherType = s.etherType := rfl
@[simp] theorem setSlot_lease (k : Nat) (v : FetchSlot) : (setSlot k v s).lease = s.lease := rfl
@[simp] theorem setSlot_noticeCounter (k : Nat) (v : FetchSlot) : (setSlot k v s).noticeCounter = s.noticeCounter := rfl
@[simp] theorem setSlot_settings (k : Nat) (v : FetchSlot) : (setSlot k v s).settings = s.settings := rfl
@[simp] theorem setSlot_events (k : Nat) (v : FetchSlot) : (setSlot k v s).events = s.events := rfl
@[simp] theorem setSlot_counters (k : Nat) (v : FetchSlot) : (setSlot k v s).counters = s.counters := rfl
@[simp] theorem setSlot_peek (k : Nat) (v : FetchSlot) : (setSlot k v s).peek = s.peek := rfl
@[simp] theorem setSlot_outputs (k : Nat) (v : FetchSlot) : (setSlot k v s).outputs = s.outputs := rfl
@[simp] theorem setSlot_fresh (k : Nat) (v : FetchSlot) : (setSlot k v s).fresh = s.fresh := rfl

/-! ### setLane -/

@[simp] theorem setLane_pending (i : Fin 8) (j : Option Job) : (setLane i j s).pending = s.pending := rfl
@[simp] theorem setLane_records (i : Fin 8) (j : Option Job) : (setLane i j s).records = s.records := rfl
@[simp] theorem setLane_freeList (i : Fin 8) (j : Option Job) : (setLane i j s).freeList = s.freeList := rfl
@[simp] theorem setLane_liveCount (i : Fin 8) (j : Option Job) : (setLane i j s).liveCount = s.liveCount := rfl
@[simp] theorem setLane_index (i : Fin 8) (j : Option Job) : (setLane i j s).index = s.index := rfl
@[simp] theorem setLane_dram (i : Fin 8) (j : Option Job) : (setLane i j s).dram = s.dram := rfl
@[simp] theorem setLane_queueSeq (i : Fin 8) (j : Option Job) : (setLane i j s).queueSeq = s.queueSeq := rfl
@[simp] theorem setLane_fgQueue (i : Fin 8) (j : Option Job) : (setLane i j s).fgQueue = s.fgQueue := rfl
@[simp] theorem setLane_bgQueue (i : Fin 8) (j : Option Job) : (setLane i j s).bgQueue = s.bgQueue := rfl
@[simp] theorem setLane_nodes (i : Fin 8) (j : Option Job) : (setLane i j s).nodes = s.nodes := rfl
@[simp] theorem setLane_probeTimer (i : Fin 8) (j : Option Job) : (setLane i j s).probeTimer = s.probeTimer := rfl
@[simp] theorem setLane_fetch (i : Fin 8) (j : Option Job) : (setLane i j s).fetch = s.fetch := rfl
@[simp] theorem setLane_pacing (i : Fin 8) (j : Option Job) : (setLane i j s).pacing = s.pacing := rfl
@[simp] theorem setLane_waitList (i : Fin 8) (j : Option Job) : (setLane i j s).waitList = s.waitList := rfl
@[simp] theorem setLane_mode (i : Fin 8) (j : Option Job) : (setLane i j s).mode = s.mode := rfl
@[simp] theorem setLane_portA (i : Fin 8) (j : Option Job) : (setLane i j s).portA = s.portA := rfl
@[simp] theorem setLane_portB (i : Fin 8) (j : Option Job) : (setLane i j s).portB = s.portB := rfl
@[simp] theorem setLane_wakeCluster (i : Fin 8) (j : Option Job) : (setLane i j s).wakeCluster = s.wakeCluster := rfl
@[simp] theorem setLane_wakeUnit (i : Fin 8) (j : Option Job) : (setLane i j s).wakeUnit = s.wakeUnit := rfl
@[simp] theorem setLane_etherType (i : Fin 8) (j : Option Job) : (setLane i j s).etherType = s.etherType := rfl
@[simp] theorem setLane_lease (i : Fin 8) (j : Option Job) : (setLane i j s).lease = s.lease := rfl
@[simp] theorem setLane_noticeCounter (i : Fin 8) (j : Option Job) : (setLane i j s).noticeCounter = s.noticeCounter := rfl
@[simp] theorem setLane_settings (i : Fin 8) (j : Option Job) : (setLane i j s).settings = s.settings := rfl
@[simp] theorem setLane_events (i : Fin 8) (j : Option Job) : (setLane i j s).events = s.events := rfl
@[simp] theorem setLane_counters (i : Fin 8) (j : Option Job) : (setLane i j s).counters = s.counters := rfl
@[simp] theorem setLane_peek (i : Fin 8) (j : Option Job) : (setLane i j s).peek = s.peek := rfl
@[simp] theorem setLane_outputs (i : Fin 8) (j : Option Job) : (setLane i j s).outputs = s.outputs := rfl
@[simp] theorem setLane_fresh (i : Fin 8) (j : Option Job) : (setLane i j s).fresh = s.fresh := rfl

/-! ### setHealth -/

@[simp] theorem setHealth_pending (w : TableWord) (h : WordHealth) : (setHealth w h s).pending = s.pending := rfl
@[simp] theorem setHealth_records (w : TableWord) (h : WordHealth) : (setHealth w h s).records = s.records := rfl
@[simp] theorem setHealth_freeList (w : TableWord) (h : WordHealth) : (setHealth w h s).freeList = s.freeList := rfl
@[simp] theorem setHealth_liveCount (w : TableWord) (h : WordHealth) : (setHealth w h s).liveCount = s.liveCount := rfl
@[simp] theorem setHealth_index (w : TableWord) (h : WordHealth) : (setHealth w h s).index = s.index := rfl
@[simp] theorem setHealth_queueSeq (w : TableWord) (h : WordHealth) : (setHealth w h s).queueSeq = s.queueSeq := rfl
@[simp] theorem setHealth_fgQueue (w : TableWord) (h : WordHealth) : (setHealth w h s).fgQueue = s.fgQueue := rfl
@[simp] theorem setHealth_bgQueue (w : TableWord) (h : WordHealth) : (setHealth w h s).bgQueue = s.bgQueue := rfl
@[simp] theorem setHealth_lanes (w : TableWord) (h : WordHealth) : (setHealth w h s).lanes = s.lanes := rfl
@[simp] theorem setHealth_nodes (w : TableWord) (h : WordHealth) : (setHealth w h s).nodes = s.nodes := rfl
@[simp] theorem setHealth_probeTimer (w : TableWord) (h : WordHealth) : (setHealth w h s).probeTimer = s.probeTimer := rfl
@[simp] theorem setHealth_fetch (w : TableWord) (h : WordHealth) : (setHealth w h s).fetch = s.fetch := rfl
@[simp] theorem setHealth_pacing (w : TableWord) (h : WordHealth) : (setHealth w h s).pacing = s.pacing := rfl
@[simp] theorem setHealth_waitList (w : TableWord) (h : WordHealth) : (setHealth w h s).waitList = s.waitList := rfl
@[simp] theorem setHealth_mode (w : TableWord) (h : WordHealth) : (setHealth w h s).mode = s.mode := rfl
@[simp] theorem setHealth_portA (w : TableWord) (h : WordHealth) : (setHealth w h s).portA = s.portA := rfl
@[simp] theorem setHealth_portB (w : TableWord) (h : WordHealth) : (setHealth w h s).portB = s.portB := rfl
@[simp] theorem setHealth_wakeCluster (w : TableWord) (h : WordHealth) : (setHealth w h s).wakeCluster = s.wakeCluster := rfl
@[simp] theorem setHealth_wakeUnit (w : TableWord) (h : WordHealth) : (setHealth w h s).wakeUnit = s.wakeUnit := rfl
@[simp] theorem setHealth_etherType (w : TableWord) (h : WordHealth) : (setHealth w h s).etherType = s.etherType := rfl
@[simp] theorem setHealth_lease (w : TableWord) (h : WordHealth) : (setHealth w h s).lease = s.lease := rfl
@[simp] theorem setHealth_noticeCounter (w : TableWord) (h : WordHealth) : (setHealth w h s).noticeCounter = s.noticeCounter := rfl
@[simp] theorem setHealth_settings (w : TableWord) (h : WordHealth) : (setHealth w h s).settings = s.settings := rfl
@[simp] theorem setHealth_events (w : TableWord) (h : WordHealth) : (setHealth w h s).events = s.events := rfl
@[simp] theorem setHealth_counters (w : TableWord) (h : WordHealth) : (setHealth w h s).counters = s.counters := rfl
@[simp] theorem setHealth_peek (w : TableWord) (h : WordHealth) : (setHealth w h s).peek = s.peek := rfl
@[simp] theorem setHealth_outputs (w : TableWord) (h : WordHealth) : (setHealth w h s).outputs = s.outputs := rfl
@[simp] theorem setHealth_fresh (w : TableWord) (h : WordHealth) : (setHealth w h s).fresh = s.fresh := rfl

/-! ### writeWord -/

@[simp] theorem writeWord_pending (w : TableWord) : (writeWord w s).pending = s.pending := rfl
@[simp] theorem writeWord_records (w : TableWord) : (writeWord w s).records = s.records := rfl
@[simp] theorem writeWord_freeList (w : TableWord) : (writeWord w s).freeList = s.freeList := rfl
@[simp] theorem writeWord_liveCount (w : TableWord) : (writeWord w s).liveCount = s.liveCount := rfl
@[simp] theorem writeWord_index (w : TableWord) : (writeWord w s).index = s.index := rfl
@[simp] theorem writeWord_queueSeq (w : TableWord) : (writeWord w s).queueSeq = s.queueSeq := rfl
@[simp] theorem writeWord_fgQueue (w : TableWord) : (writeWord w s).fgQueue = s.fgQueue := rfl
@[simp] theorem writeWord_bgQueue (w : TableWord) : (writeWord w s).bgQueue = s.bgQueue := rfl
@[simp] theorem writeWord_lanes (w : TableWord) : (writeWord w s).lanes = s.lanes := rfl
@[simp] theorem writeWord_nodes (w : TableWord) : (writeWord w s).nodes = s.nodes := rfl
@[simp] theorem writeWord_probeTimer (w : TableWord) : (writeWord w s).probeTimer = s.probeTimer := rfl
@[simp] theorem writeWord_fetch (w : TableWord) : (writeWord w s).fetch = s.fetch := rfl
@[simp] theorem writeWord_pacing (w : TableWord) : (writeWord w s).pacing = s.pacing := rfl
@[simp] theorem writeWord_waitList (w : TableWord) : (writeWord w s).waitList = s.waitList := rfl
@[simp] theorem writeWord_mode (w : TableWord) : (writeWord w s).mode = s.mode := rfl
@[simp] theorem writeWord_portA (w : TableWord) : (writeWord w s).portA = s.portA := rfl
@[simp] theorem writeWord_portB (w : TableWord) : (writeWord w s).portB = s.portB := rfl
@[simp] theorem writeWord_wakeCluster (w : TableWord) : (writeWord w s).wakeCluster = s.wakeCluster := rfl
@[simp] theorem writeWord_wakeUnit (w : TableWord) : (writeWord w s).wakeUnit = s.wakeUnit := rfl
@[simp] theorem writeWord_etherType (w : TableWord) : (writeWord w s).etherType = s.etherType := rfl
@[simp] theorem writeWord_lease (w : TableWord) : (writeWord w s).lease = s.lease := rfl
@[simp] theorem writeWord_noticeCounter (w : TableWord) : (writeWord w s).noticeCounter = s.noticeCounter := rfl
@[simp] theorem writeWord_settings (w : TableWord) : (writeWord w s).settings = s.settings := rfl
@[simp] theorem writeWord_events (w : TableWord) : (writeWord w s).events = s.events := rfl
@[simp] theorem writeWord_counters (w : TableWord) : (writeWord w s).counters = s.counters := rfl
@[simp] theorem writeWord_peek (w : TableWord) : (writeWord w s).peek = s.peek := rfl
@[simp] theorem writeWord_outputs (w : TableWord) : (writeWord w s).outputs = s.outputs := rfl
@[simp] theorem writeWord_fresh (w : TableWord) : (writeWord w s).fresh = s.fresh := rfl

/-! ### startProbeTimer -/

@[simp] theorem startProbeTimer_pending : (startProbeTimer s).pending = s.pending := rfl
@[simp] theorem startProbeTimer_records : (startProbeTimer s).records = s.records := rfl
@[simp] theorem startProbeTimer_freeList : (startProbeTimer s).freeList = s.freeList := rfl
@[simp] theorem startProbeTimer_liveCount : (startProbeTimer s).liveCount = s.liveCount := rfl
@[simp] theorem startProbeTimer_index : (startProbeTimer s).index = s.index := rfl
@[simp] theorem startProbeTimer_dram : (startProbeTimer s).dram = s.dram := rfl
@[simp] theorem startProbeTimer_queueSeq : (startProbeTimer s).queueSeq = s.queueSeq := rfl
@[simp] theorem startProbeTimer_fgQueue : (startProbeTimer s).fgQueue = s.fgQueue := rfl
@[simp] theorem startProbeTimer_bgQueue : (startProbeTimer s).bgQueue = s.bgQueue := rfl
@[simp] theorem startProbeTimer_lanes : (startProbeTimer s).lanes = s.lanes := rfl
@[simp] theorem startProbeTimer_nodes : (startProbeTimer s).nodes = s.nodes := rfl
@[simp] theorem startProbeTimer_fetch : (startProbeTimer s).fetch = s.fetch := rfl
@[simp] theorem startProbeTimer_pacing : (startProbeTimer s).pacing = s.pacing := rfl
@[simp] theorem startProbeTimer_waitList : (startProbeTimer s).waitList = s.waitList := rfl
@[simp] theorem startProbeTimer_mode : (startProbeTimer s).mode = s.mode := rfl
@[simp] theorem startProbeTimer_portA : (startProbeTimer s).portA = s.portA := rfl
@[simp] theorem startProbeTimer_portB : (startProbeTimer s).portB = s.portB := rfl
@[simp] theorem startProbeTimer_wakeCluster : (startProbeTimer s).wakeCluster = s.wakeCluster := rfl
@[simp] theorem startProbeTimer_wakeUnit : (startProbeTimer s).wakeUnit = s.wakeUnit := rfl
@[simp] theorem startProbeTimer_etherType : (startProbeTimer s).etherType = s.etherType := rfl
@[simp] theorem startProbeTimer_lease : (startProbeTimer s).lease = s.lease := rfl
@[simp] theorem startProbeTimer_noticeCounter : (startProbeTimer s).noticeCounter = s.noticeCounter := rfl
@[simp] theorem startProbeTimer_settings : (startProbeTimer s).settings = s.settings := rfl
@[simp] theorem startProbeTimer_events : (startProbeTimer s).events = s.events := rfl
@[simp] theorem startProbeTimer_counters : (startProbeTimer s).counters = s.counters := rfl
@[simp] theorem startProbeTimer_peek : (startProbeTimer s).peek = s.peek := rfl
@[simp] theorem startProbeTimer_outputs : (startProbeTimer s).outputs = s.outputs := rfl
@[simp] theorem startProbeTimer_fresh : (startProbeTimer s).fresh = s.fresh := rfl

/-! ### reloadPacing -/

@[simp] theorem reloadPacing_pending : (reloadPacing s).pending = s.pending := rfl
@[simp] theorem reloadPacing_records : (reloadPacing s).records = s.records := rfl
@[simp] theorem reloadPacing_freeList : (reloadPacing s).freeList = s.freeList := rfl
@[simp] theorem reloadPacing_liveCount : (reloadPacing s).liveCount = s.liveCount := rfl
@[simp] theorem reloadPacing_index : (reloadPacing s).index = s.index := rfl
@[simp] theorem reloadPacing_dram : (reloadPacing s).dram = s.dram := rfl
@[simp] theorem reloadPacing_queueSeq : (reloadPacing s).queueSeq = s.queueSeq := rfl
@[simp] theorem reloadPacing_fgQueue : (reloadPacing s).fgQueue = s.fgQueue := rfl
@[simp] theorem reloadPacing_bgQueue : (reloadPacing s).bgQueue = s.bgQueue := rfl
@[simp] theorem reloadPacing_lanes : (reloadPacing s).lanes = s.lanes := rfl
@[simp] theorem reloadPacing_nodes : (reloadPacing s).nodes = s.nodes := rfl
@[simp] theorem reloadPacing_probeTimer : (reloadPacing s).probeTimer = s.probeTimer := rfl
@[simp] theorem reloadPacing_fetch : (reloadPacing s).fetch = s.fetch := rfl
@[simp] theorem reloadPacing_waitList : (reloadPacing s).waitList = s.waitList := rfl
@[simp] theorem reloadPacing_mode : (reloadPacing s).mode = s.mode := rfl
@[simp] theorem reloadPacing_portA : (reloadPacing s).portA = s.portA := rfl
@[simp] theorem reloadPacing_portB : (reloadPacing s).portB = s.portB := rfl
@[simp] theorem reloadPacing_wakeCluster : (reloadPacing s).wakeCluster = s.wakeCluster := rfl
@[simp] theorem reloadPacing_wakeUnit : (reloadPacing s).wakeUnit = s.wakeUnit := rfl
@[simp] theorem reloadPacing_etherType : (reloadPacing s).etherType = s.etherType := rfl
@[simp] theorem reloadPacing_lease : (reloadPacing s).lease = s.lease := rfl
@[simp] theorem reloadPacing_noticeCounter : (reloadPacing s).noticeCounter = s.noticeCounter := rfl
@[simp] theorem reloadPacing_settings : (reloadPacing s).settings = s.settings := rfl
@[simp] theorem reloadPacing_events : (reloadPacing s).events = s.events := rfl
@[simp] theorem reloadPacing_counters : (reloadPacing s).counters = s.counters := rfl
@[simp] theorem reloadPacing_peek : (reloadPacing s).peek = s.peek := rfl
@[simp] theorem reloadPacing_outputs : (reloadPacing s).outputs = s.outputs := rfl
@[simp] theorem reloadPacing_fresh : (reloadPacing s).fresh = s.fresh := rfl

/-! ### ignoreWrite -/

@[simp] theorem ignoreWrite_pending : (ignoreWrite s).pending = s.pending := rfl
@[simp] theorem ignoreWrite_records : (ignoreWrite s).records = s.records := rfl
@[simp] theorem ignoreWrite_freeList : (ignoreWrite s).freeList = s.freeList := rfl
@[simp] theorem ignoreWrite_liveCount : (ignoreWrite s).liveCount = s.liveCount := rfl
@[simp] theorem ignoreWrite_index : (ignoreWrite s).index = s.index := rfl
@[simp] theorem ignoreWrite_dram : (ignoreWrite s).dram = s.dram := rfl
@[simp] theorem ignoreWrite_queueSeq : (ignoreWrite s).queueSeq = s.queueSeq := rfl
@[simp] theorem ignoreWrite_fgQueue : (ignoreWrite s).fgQueue = s.fgQueue := rfl
@[simp] theorem ignoreWrite_bgQueue : (ignoreWrite s).bgQueue = s.bgQueue := rfl
@[simp] theorem ignoreWrite_lanes : (ignoreWrite s).lanes = s.lanes := rfl
@[simp] theorem ignoreWrite_nodes : (ignoreWrite s).nodes = s.nodes := rfl
@[simp] theorem ignoreWrite_probeTimer : (ignoreWrite s).probeTimer = s.probeTimer := rfl
@[simp] theorem ignoreWrite_fetch : (ignoreWrite s).fetch = s.fetch := rfl
@[simp] theorem ignoreWrite_pacing : (ignoreWrite s).pacing = s.pacing := rfl
@[simp] theorem ignoreWrite_waitList : (ignoreWrite s).waitList = s.waitList := rfl
@[simp] theorem ignoreWrite_mode : (ignoreWrite s).mode = s.mode := rfl
@[simp] theorem ignoreWrite_portA : (ignoreWrite s).portA = s.portA := rfl
@[simp] theorem ignoreWrite_portB : (ignoreWrite s).portB = s.portB := rfl
@[simp] theorem ignoreWrite_wakeCluster : (ignoreWrite s).wakeCluster = s.wakeCluster := rfl
@[simp] theorem ignoreWrite_wakeUnit : (ignoreWrite s).wakeUnit = s.wakeUnit := rfl
@[simp] theorem ignoreWrite_etherType : (ignoreWrite s).etherType = s.etherType := rfl
@[simp] theorem ignoreWrite_lease : (ignoreWrite s).lease = s.lease := rfl
@[simp] theorem ignoreWrite_noticeCounter : (ignoreWrite s).noticeCounter = s.noticeCounter := rfl
@[simp] theorem ignoreWrite_settings : (ignoreWrite s).settings = s.settings := rfl
@[simp] theorem ignoreWrite_events : (ignoreWrite s).events = s.events := rfl
@[simp] theorem ignoreWrite_peek : (ignoreWrite s).peek = s.peek := rfl
@[simp] theorem ignoreWrite_outputs : (ignoreWrite s).outputs = s.outputs := rfl
@[simp] theorem ignoreWrite_fresh : (ignoreWrite s).fresh = s.fresh := rfl

/-! ### restartWindow -/

@[simp] theorem restartWindow_pending (g : Grant) : (restartWindow g s).pending = s.pending := rfl
@[simp] theorem restartWindow_records (g : Grant) : (restartWindow g s).records = s.records := rfl
@[simp] theorem restartWindow_freeList (g : Grant) : (restartWindow g s).freeList = s.freeList := rfl
@[simp] theorem restartWindow_liveCount (g : Grant) : (restartWindow g s).liveCount = s.liveCount := rfl
@[simp] theorem restartWindow_index (g : Grant) : (restartWindow g s).index = s.index := rfl
@[simp] theorem restartWindow_dram (g : Grant) : (restartWindow g s).dram = s.dram := rfl
@[simp] theorem restartWindow_queueSeq (g : Grant) : (restartWindow g s).queueSeq = s.queueSeq := rfl
@[simp] theorem restartWindow_fgQueue (g : Grant) : (restartWindow g s).fgQueue = s.fgQueue := rfl
@[simp] theorem restartWindow_bgQueue (g : Grant) : (restartWindow g s).bgQueue = s.bgQueue := rfl
@[simp] theorem restartWindow_lanes (g : Grant) : (restartWindow g s).lanes = s.lanes := rfl
@[simp] theorem restartWindow_nodes (g : Grant) : (restartWindow g s).nodes = s.nodes := rfl
@[simp] theorem restartWindow_probeTimer (g : Grant) : (restartWindow g s).probeTimer = s.probeTimer := rfl
@[simp] theorem restartWindow_fetch (g : Grant) : (restartWindow g s).fetch = s.fetch := rfl
@[simp] theorem restartWindow_pacing (g : Grant) : (restartWindow g s).pacing = s.pacing := rfl
@[simp] theorem restartWindow_waitList (g : Grant) : (restartWindow g s).waitList = s.waitList := rfl
@[simp] theorem restartWindow_mode (g : Grant) : (restartWindow g s).mode = s.mode := rfl
@[simp] theorem restartWindow_portA (g : Grant) : (restartWindow g s).portA = s.portA := rfl
@[simp] theorem restartWindow_portB (g : Grant) : (restartWindow g s).portB = s.portB := rfl
@[simp] theorem restartWindow_wakeCluster (g : Grant) : (restartWindow g s).wakeCluster = s.wakeCluster := rfl
@[simp] theorem restartWindow_wakeUnit (g : Grant) : (restartWindow g s).wakeUnit = s.wakeUnit := rfl
@[simp] theorem restartWindow_etherType (g : Grant) : (restartWindow g s).etherType = s.etherType := rfl
@[simp] theorem restartWindow_noticeCounter (g : Grant) : (restartWindow g s).noticeCounter = s.noticeCounter := rfl
@[simp] theorem restartWindow_settings (g : Grant) : (restartWindow g s).settings = s.settings := rfl
@[simp] theorem restartWindow_events (g : Grant) : (restartWindow g s).events = s.events := rfl
@[simp] theorem restartWindow_counters (g : Grant) : (restartWindow g s).counters = s.counters := rfl
@[simp] theorem restartWindow_peek (g : Grant) : (restartWindow g s).peek = s.peek := rfl
@[simp] theorem restartWindow_outputs (g : Grant) : (restartWindow g s).outputs = s.outputs := rfl
@[simp] theorem restartWindow_fresh (g : Grant) : (restartWindow g s).fresh = s.fresh := rfl

/-! ### grantLease -/

@[simp] theorem grantLease_pending (a : EthAddr) : (grantLease a s).pending = s.pending := rfl
@[simp] theorem grantLease_records (a : EthAddr) : (grantLease a s).records = s.records := rfl
@[simp] theorem grantLease_freeList (a : EthAddr) : (grantLease a s).freeList = s.freeList := rfl
@[simp] theorem grantLease_liveCount (a : EthAddr) : (grantLease a s).liveCount = s.liveCount := rfl
@[simp] theorem grantLease_index (a : EthAddr) : (grantLease a s).index = s.index := rfl
@[simp] theorem grantLease_dram (a : EthAddr) : (grantLease a s).dram = s.dram := rfl
@[simp] theorem grantLease_queueSeq (a : EthAddr) : (grantLease a s).queueSeq = s.queueSeq := rfl
@[simp] theorem grantLease_fgQueue (a : EthAddr) : (grantLease a s).fgQueue = s.fgQueue := rfl
@[simp] theorem grantLease_bgQueue (a : EthAddr) : (grantLease a s).bgQueue = s.bgQueue := rfl
@[simp] theorem grantLease_lanes (a : EthAddr) : (grantLease a s).lanes = s.lanes := rfl
@[simp] theorem grantLease_nodes (a : EthAddr) : (grantLease a s).nodes = s.nodes := rfl
@[simp] theorem grantLease_probeTimer (a : EthAddr) : (grantLease a s).probeTimer = s.probeTimer := rfl
@[simp] theorem grantLease_fetch (a : EthAddr) : (grantLease a s).fetch = s.fetch := rfl
@[simp] theorem grantLease_pacing (a : EthAddr) : (grantLease a s).pacing = s.pacing := rfl
@[simp] theorem grantLease_waitList (a : EthAddr) : (grantLease a s).waitList = s.waitList := rfl
@[simp] theorem grantLease_mode (a : EthAddr) : (grantLease a s).mode = s.mode := rfl
@[simp] theorem grantLease_portA (a : EthAddr) : (grantLease a s).portA = s.portA := rfl
@[simp] theorem grantLease_portB (a : EthAddr) : (grantLease a s).portB = s.portB := rfl
@[simp] theorem grantLease_wakeCluster (a : EthAddr) : (grantLease a s).wakeCluster = s.wakeCluster := rfl
@[simp] theorem grantLease_wakeUnit (a : EthAddr) : (grantLease a s).wakeUnit = s.wakeUnit := rfl
@[simp] theorem grantLease_etherType (a : EthAddr) : (grantLease a s).etherType = s.etherType := rfl
@[simp] theorem grantLease_noticeCounter (a : EthAddr) : (grantLease a s).noticeCounter = s.noticeCounter := rfl
@[simp] theorem grantLease_settings (a : EthAddr) : (grantLease a s).settings = s.settings := rfl
@[simp] theorem grantLease_events (a : EthAddr) : (grantLease a s).events = s.events := rfl
@[simp] theorem grantLease_counters (a : EthAddr) : (grantLease a s).counters = s.counters := rfl
@[simp] theorem grantLease_peek (a : EthAddr) : (grantLease a s).peek = s.peek := rfl
@[simp] theorem grantLease_outputs (a : EthAddr) : (grantLease a s).outputs = s.outputs := rfl
@[simp] theorem grantLease_fresh (a : EthAddr) : (grantLease a s).fresh = s.fresh := rfl

/-! ### What each update writes -/

@[simp] theorem raise_flags (e : Event) : (raise e s).events.flags = s.events.flags ||| e.mask := rfl
@[simp] theorem clearFlags_flags (m : BitVec 15) : (clearFlags m s).events.flags = s.events.flags &&& ~~~m := rfl
@[simp] theorem emit_outputs_eq (o : Output) : (emit o s).outputs = s.outputs ++ [o] := rfl
@[simp] theorem setLane_lanes_eq (i : Fin 8) (j : Option Job) : (setLane i j s).lanes = s.lanes.set i j := rfl

@[simp] theorem setPort_same (p : Port) (v : PortRegs) : portAt (setPort p v s) p = v := by
  cases p <;> rfl

@[simp] theorem setPort_other (p : Port) (v : PortRegs) : portAt (setPort p v s) (otherPort p) = portAt s (otherPort p) := by
  cases p <;> rfl

@[simp] theorem setPort_pending (p : Port) (v : PortRegs) : (setPort p v s).pending = s.pending := by
  cases p <;> rfl
@[simp] theorem setPort_records (p : Port) (v : PortRegs) : (setPort p v s).records = s.records := by
  cases p <;> rfl
@[simp] theorem setPort_freeList (p : Port) (v : PortRegs) : (setPort p v s).freeList = s.freeList := by
  cases p <;> rfl
@[simp] theorem setPort_liveCount (p : Port) (v : PortRegs) : (setPort p v s).liveCount = s.liveCount := by
  cases p <;> rfl
@[simp] theorem setPort_index (p : Port) (v : PortRegs) : (setPort p v s).index = s.index := by
  cases p <;> rfl
@[simp] theorem setPort_dram (p : Port) (v : PortRegs) : (setPort p v s).dram = s.dram := by
  cases p <;> rfl
@[simp] theorem setPort_queueSeq (p : Port) (v : PortRegs) : (setPort p v s).queueSeq = s.queueSeq := by
  cases p <;> rfl
@[simp] theorem setPort_fgQueue (p : Port) (v : PortRegs) : (setPort p v s).fgQueue = s.fgQueue := by
  cases p <;> rfl
@[simp] theorem setPort_bgQueue (p : Port) (v : PortRegs) : (setPort p v s).bgQueue = s.bgQueue := by
  cases p <;> rfl
@[simp] theorem setPort_lanes (p : Port) (v : PortRegs) : (setPort p v s).lanes = s.lanes := by
  cases p <;> rfl
@[simp] theorem setPort_nodes (p : Port) (v : PortRegs) : (setPort p v s).nodes = s.nodes := by
  cases p <;> rfl
@[simp] theorem setPort_probeTimer (p : Port) (v : PortRegs) : (setPort p v s).probeTimer = s.probeTimer := by
  cases p <;> rfl
@[simp] theorem setPort_fetch (p : Port) (v : PortRegs) : (setPort p v s).fetch = s.fetch := by
  cases p <;> rfl
@[simp] theorem setPort_pacing (p : Port) (v : PortRegs) : (setPort p v s).pacing = s.pacing := by
  cases p <;> rfl
@[simp] theorem setPort_waitList (p : Port) (v : PortRegs) : (setPort p v s).waitList = s.waitList := by
  cases p <;> rfl
@[simp] theorem setPort_mode (p : Port) (v : PortRegs) : (setPort p v s).mode = s.mode := by
  cases p <;> rfl
@[simp] theorem setPort_wakeCluster (p : Port) (v : PortRegs) : (setPort p v s).wakeCluster = s.wakeCluster := by
  cases p <;> rfl
@[simp] theorem setPort_wakeUnit (p : Port) (v : PortRegs) : (setPort p v s).wakeUnit = s.wakeUnit := by
  cases p <;> rfl
@[simp] theorem setPort_etherType (p : Port) (v : PortRegs) : (setPort p v s).etherType = s.etherType := by
  cases p <;> rfl
@[simp] theorem setPort_lease (p : Port) (v : PortRegs) : (setPort p v s).lease = s.lease := by
  cases p <;> rfl
@[simp] theorem setPort_noticeCounter (p : Port) (v : PortRegs) : (setPort p v s).noticeCounter = s.noticeCounter := by
  cases p <;> rfl
@[simp] theorem setPort_settings (p : Port) (v : PortRegs) : (setPort p v s).settings = s.settings := by
  cases p <;> rfl
@[simp] theorem setPort_events (p : Port) (v : PortRegs) : (setPort p v s).events = s.events := by
  cases p <;> rfl
@[simp] theorem setPort_counters (p : Port) (v : PortRegs) : (setPort p v s).counters = s.counters := by
  cases p <;> rfl
@[simp] theorem setPort_peek (p : Port) (v : PortRegs) : (setPort p v s).peek = s.peek := by
  cases p <;> rfl
@[simp] theorem setPort_outputs (p : Port) (v : PortRegs) : (setPort p v s).outputs = s.outputs := by
  cases p <;> rfl
@[simp] theorem setPort_fresh (p : Port) (v : PortRegs) : (setPort p v s).fresh = s.fresh := by
  cases p <;> rfl

/-! ### Lanes -/

theorem laneAt_setLane_same (i : Fin 8) (j : Option Job) : laneAt (setLane i j s) i = j := by
  simp [laneAt, setLane]

theorem laneAt_setLane_other {i k : Fin 8} (h : k ≠ i) (j : Option Job) : laneAt (setLane i j s) k = laneAt s k := by
  have hne : ¬ (i : Nat) = (k : Nat) := fun e => h (Fin.ext e.symm)
  simp [laneAt, setLane, hne]

/-! ### Counters -/

theorem counterValue_count (c : Counter) : counterValue c (count c s) = saturatingSucc (counterValue c s) := by
  simp [counterValue, count]

theorem counterValue_count_other {c d : Counter} (h : d ≠ c) : counterValue d (count c s) = counterValue d s := by
  have hne : ¬ (counterIndex c).val = (counterIndex d).val := by
    cases c <;> cases d <;> first | exact absurd rfl h | decide
  simp [counterValue, count, hne]

theorem counterValue_clear (c : Counter) : counterValue c (clearCounter c s) = 0 := by
  simp [counterValue, clearCounter]

end Sys2Proof.Machine
end

