-- ==== Sys2Proof/Laws/Table.lean ====
section
/-! SUPPORT. The sparse tables: what an entry reads after a write, and that every table operation keeps the canonical form (log entry 14). -/

namespace Sys2Proof.Machine

variable {α : Type} {d : Nat → α}

theorem Sparse.get_insert_same (m : Sparse α) (k : Nat) (v : α) : Sparse.get d (Sparse.insert m k v) k = v := by
  induction m with
  | nil => simp [Sparse.insert, Sparse.get]
  | cons e m ih =>
    unfold Sparse.insert
    split
    · simp [Sparse.get]
    · split
      · simp [Sparse.get]
      · rename_i h1 h2
        simp [Sparse.get, h2, ih]

theorem Sparse.get_insert_other (m : Sparse α) {k x : Nat} (h : x ≠ k) (v : α) :
    Sparse.get d (Sparse.insert m k v) x = Sparse.get d m x := by
  induction m with
  | nil => simp [Sparse.insert, Sparse.get, h]
  | cons e m ih =>
    unfold Sparse.insert
    split
    · simp [Sparse.get, h]
    · split
      · rename_i h1 h2
        simp only [Sparse.get]
        rw [if_neg h, if_neg (fun hx => h (hx.trans h2.symm))]
      · simp [Sparse.get, ih]

theorem Sparse.get_erase_same (m : Sparse α) (k : Nat) : Sparse.get d (Sparse.erase m k) k = d k := by
  induction m with
  | nil => simp [Sparse.erase, Sparse.get]
  | cons e m ih =>
    unfold Sparse.erase at ih ⊢
    rw [List.filter_cons]
    split
    · rename_i h
      have hne : ¬ k = e.1 := by
        intro hk
        simp [hk] at h
      simp [Sparse.get, hne, ih]
    · exact ih

theorem Sparse.get_erase_other (m : Sparse α) {k x : Nat} (h : x ≠ k) :
    Sparse.get d (Sparse.erase m k) x = Sparse.get d m x := by
  induction m with
  | nil => simp [Sparse.erase, Sparse.get]
  | cons e m ih =>
    unfold Sparse.erase at ih ⊢
    rw [List.filter_cons]
    split
    · simp [Sparse.get, ih]
    · rename_i h'
      have he : e.1 = k := by
        simpa using h'
      have hx : ¬ x = e.1 := fun hx => h (hx.trans he)
      simp [Sparse.get, hx, ih]

/-- An entry reads as it was written. -/
theorem Sparse.get_set_same [DecidableEq α] (m : Sparse α) (k : Nat) (v : α) : Sparse.get d (Sparse.set d m k v) k = v := by
  unfold Sparse.set
  split
  · rename_i h
    rw [Sparse.get_erase_same, h]
  · exact Sparse.get_insert_same m k v

/-- A write of one entry leaves every other entry. -/
theorem Sparse.get_set_other [DecidableEq α] (m : Sparse α) {k x : Nat} (h : x ≠ k) (v : α) :
    Sparse.get d (Sparse.set d m k v) x = Sparse.get d m x := by
  unfold Sparse.set
  split
  · exact Sparse.get_erase_other m h
  · exact Sparse.get_insert_other m h v

/-- An index is unlisted, or its entry is listed. -/
theorem Sparse.get_cases (m : Sparse α) (k : Nat) : Sparse.get d m k = d k ∨ (k, Sparse.get d m k) ∈ m := by
  induction m with
  | nil => exact .inl rfl
  | cons e m ih =>
    obtain ⟨j, v⟩ := e
    unfold Sparse.get
    by_cases h : k = j
    · rw [if_pos h, h]
      exact .inr (List.mem_cons_self ..)
    · rw [if_neg h]
      exact ih.imp_right (List.mem_cons_of_mem _)

/-- What holds of every listed entry and of what unlisted indices hold is true at every index. -/
theorem Sparse.forall_get {P : Nat → α → Prop} {m : Sparse α} (h : ∀ e ∈ m, P e.1 e.2) (hd : ∀ k, P k (d k)) (k : Nat) : P k (Sparse.get d m k) := by
  rcases Sparse.get_cases (d := d) m k with e | e
  · rw [e]
    exact hd k
  · exact h _ e

theorem Sparse.mem_insert {m : Sparse α} {k : Nat} {v : α} {e : Nat × α} (h : e ∈ Sparse.insert m k v) : e = (k, v) ∨ e ∈ m := by
  induction m with
  | nil =>
    left
    simpa [Sparse.insert] using h
  | cons a m ih =>
    unfold Sparse.insert at h
    split at h
    · rcases List.mem_cons.mp h with h | h
      · exact Or.inl h
      · exact Or.inr h
    · split at h
      · rcases List.mem_cons.mp h with h | h
        · exact Or.inl h
        · exact Or.inr (List.mem_cons_of_mem _ h)
      · rcases List.mem_cons.mp h with h | h
        · exact Or.inr (h ▸ List.mem_cons_self)
        · rcases ih h with h | h
          · exact Or.inl h
          · exact Or.inr (List.mem_cons_of_mem _ h)

theorem Sparse.insert_pairwise {m : Sparse α} (h : m.Pairwise (fun a b => a.1 < b.1)) (k : Nat) (v : α) :
    (Sparse.insert m k v).Pairwise (fun a b => a.1 < b.1) := by
  induction m with
  | nil => simp [Sparse.insert]
  | cons a m ih =>
    have hm := (List.pairwise_cons.mp h).2
    have ha := (List.pairwise_cons.mp h).1
    unfold Sparse.insert
    split
    · rename_i hk
      refine List.pairwise_cons.mpr ⟨fun e he => ?_, h⟩
      rcases List.mem_cons.mp he with he | he
      · exact he ▸ hk
      · exact Nat.lt_trans hk (ha e he)
    · split
      · rename_i hk
        exact List.pairwise_cons.mpr ⟨fun e he => hk ▸ ha e he, hm⟩
      · rename_i h1 h2
        refine List.pairwise_cons.mpr ⟨fun e he => ?_, ih hm⟩
        rcases Sparse.mem_insert he with he | he
        · subst he
          exact Nat.lt_of_le_of_ne (Nat.le_of_not_lt h1) (fun hx => h2 hx.symm)
        · exact ha e he

/-- A write keeps the canonical form. -/
theorem Sparse.set_wf [DecidableEq α] {m : Sparse α} (h : Sparse.wf d m) (k : Nat) (v : α) : Sparse.wf d (Sparse.set d m k v) := by
  unfold Sparse.set
  split
  · exact ⟨h.1.sublist List.filter_sublist, fun e he => h.2 e (List.mem_of_mem_filter he)⟩
  · rename_i hv
    refine ⟨Sparse.insert_pairwise h.1 k v, fun e he => ?_⟩
    rcases Sparse.mem_insert he with he | he
    · subst he
      exact hv
    · exact h.2 e he

theorem Sparse.nil_wf (d : Nat → α) : Sparse.wf d ([] : Sparse α) :=
  ⟨List.Pairwise.nil, fun _ he => absurd he List.not_mem_nil⟩

/-- A change of entries in place that never makes one the unlisted value keeps the canonical form. -/
theorem Sparse.map_wf {m : Sparse α} (h : Sparse.wf d m) (g : α → α) (hg : ∀ e ∈ m, g e.2 ≠ d e.1) :
    Sparse.wf d (m.map (fun e => (e.1, g e.2))) := by
  refine ⟨List.pairwise_map.mpr (h.1.imp (fun hab => hab)), fun e he => ?_⟩
  obtain ⟨x, hx, rfl⟩ := List.mem_map.mp he
  exact hg x hx

/-! ### The collections of State -/

variable (s : State)

theorem recordAt_setRecord_same (n : Nat) (r : Record) : recordAt (setRecord n r s) n = r :=
  Sparse.get_set_same s.records n r

theorem recordAt_setRecord_other {n k : Nat} (h : k ≠ n) (r : Record) : recordAt (setRecord n r s) k = recordAt s k :=
  Sparse.get_set_other s.records h r

theorem liveAt_setLive_same (n : Nat) (l : Live) : liveAt (setLive n l s) n = some l := by
  simp [liveAt, setLive, recordAt_setRecord_same]

theorem liveAt_setLive_other {n k : Nat} (h : k ≠ n) (l : Live) : liveAt (setLive n l s) k = liveAt s k := by
  simp [liveAt, setLive, recordAt_setRecord_other s h]

theorem generationAt_setLive (n k : Nat) (l : Live) : generationAt (setLive n l s) k = generationAt s k := by
  by_cases h : k = n
  · subst h
    simp [generationAt, setLive, recordAt_setRecord_same]
  · simp [generationAt, setLive, recordAt_setRecord_other s h]

theorem nodeAt_setNode_same (k : Nat) (v : Node) : nodeAt (setNode k v s) k = v :=
  Sparse.get_set_same s.nodes k v

theorem nodeAt_setNode_other {k x : Nat} (h : x ≠ k) (v : Node) : nodeAt (setNode k v s) x = nodeAt s x :=
  Sparse.get_set_other s.nodes h v

theorem slotAt_setSlot_same (k : Nat) (v : FetchSlot) : slotAt (setSlot k v s) k = v :=
  Sparse.get_set_same s.fetch k v

theorem slotAt_setSlot_other {k x : Nat} (h : x ≠ k) (v : FetchSlot) : slotAt (setSlot k v s) x = slotAt s x :=
  Sparse.get_set_other s.fetch h v

theorem healthOf_setHealth_same (w : TableWord) (h : WordHealth) : healthOf (setHealth w h s) w = h :=
  Sparse.get_set_same s.dram (wordCode w) h

/-- A word is sound once it has been written (R30). -/
theorem healthOf_writeWord (w : TableWord) : healthOf (writeWord w s) w = { first := .clean, second := .clean } :=
  healthOf_setHealth_same s w _

end Sys2Proof.Machine
end

