-- ==== Sys2Proof/Laws/Collections.lean ====
section
/-! SUPPORT. The laws of the free list and of the key index (R26 to R29): what they read of a state, and how a creation and a freeing keep them. -/

namespace Sys2Proof.Machine

variable {s t : State}

/-- The change keeps the laws of the free list and of the key index, over tables in their canonical form. -/
def Collected (s t : State) : Prop :=
  CanonicalTables s → FreeListLaw s → IndexLaw s → FreeListLaw t ∧ IndexLaw t

/-- The key and the way of a live record: all that the index law reads of it. -/
def keyedAt (s : State) (n : Nat) : Option (StripeKey × Nat) :=
  (liveAt s n).map (fun l => (l.key, l.way))

theorem keyedAt_some {n : Nat} {l : Live} (h : liveAt s n = some l) : keyedAt s n = some (l.key, l.way) := by
  rw [keyedAt, h]
  rfl

theorem live_of_keyed {n : Nat} {k : StripeKey} {w : Nat} (h : keyedAt s n = some (k, w)) : ∃ l, liveAt s n = some l ∧ l.key = k ∧ l.way = w := by
  cases hl : liveAt s n with
  | none => simp [keyedAt, hl] at h
  | some l =>
    simp [keyedAt, hl] at h
    exact ⟨l, rfl, h.1, h.2⟩

theorem keyedAt_none {n : Nat} : keyedAt s n = none ↔ liveAt s n = none := by
  simp [keyedAt]

theorem keyedAt_isSome {n : Nat} : (keyedAt s n).isSome = (liveAt s n).isSome := by
  simp [keyedAt]

/-- The index law, said of keys and ways. -/
theorem indexLaw_iff : IndexLaw s ↔
    (∀ n k w, keyedAt s n = some (k, w) → w < 8 ∧ wayAt s (bucketOf k) w = some { record := n, key := k })
      ∧ (∀ b w e, w < 8 → wayAt s b w = some e → bucketOf e.key = b ∧ keyedAt s e.record = some (e.key, w))
      ∧ ∀ n m k w w', keyedAt s n = some (k, w) → keyedAt s m = some (k, w') → n = m := by
  unfold IndexLaw wayAt
  constructor
  · rintro ⟨h1, h2, h3⟩
    refine ⟨fun n k w h => ?_, fun b w e hw he => ?_, fun n m k w w' h h' => ?_⟩
    · obtain ⟨l, hl, rfl, rfl⟩ := live_of_keyed h
      exact h1 n l hl
    · obtain ⟨l, hl, hk, hb, hw'⟩ := h2 b w e hw he
      exact ⟨hk ▸ hb, by rw [keyedAt_some hl, hk, hw']⟩
    · obtain ⟨l, hl, hk, -⟩ := live_of_keyed h
      obtain ⟨l', hl', hk', -⟩ := live_of_keyed h'
      exact h3 n m l l' hl hl' (hk.trans hk'.symm)
  · rintro ⟨h1, h2, h3⟩
    refine ⟨fun n l h => h1 n l.key l.way (keyedAt_some h), fun b w e hw he => ?_, fun n m l l' h h' hk => ?_⟩
    · obtain ⟨hb, hk⟩ := h2 b w e hw he
      obtain ⟨l, hl, hlk, hlw⟩ := live_of_keyed hk
      exact ⟨l, hl, hlk, by rw [hlk]; exact hb, hlw⟩
    · exact h3 n m l.key l.way l'.way (keyedAt_some h) (by rw [keyedAt_some h', hk])

/-! ### The live numbers -/

theorem Sparse.get_of_mem {α : Type} {d : Nat → α} {m : Sparse α} (h : m.Pairwise (fun a b => a.1 < b.1)) {k : Nat} {v : α} (hm : (k, v) ∈ m) :
    Sparse.get d m k = v := by
  induction m with
  | nil => cases hm
  | cons e m ih =>
    obtain ⟨j, w⟩ := e
    obtain ⟨h1, h2⟩ := List.pairwise_cons.mp h
    unfold Sparse.get
    rcases List.mem_cons.mp hm with he | he
    · cases he
      rw [if_pos rfl]
    · have : j < k := h1 _ he
      rw [if_neg (by omega)]
      exact ih h2 he

theorem mem_liveNumbers (h : Sparse.wf freeRecord s.records) {n : Nat} : n ∈ liveNumbers s ↔ (liveAt s n).isSome = true := by
  unfold liveNumbers
  rw [List.mem_map]
  constructor
  · rintro ⟨⟨k, r⟩, he, rfl⟩
    obtain ⟨he, hl⟩ := List.mem_filter.mp he
    unfold liveAt recordAt
    rw [Sparse.get_of_mem h.1 he]
    exact hl
  · intro hn
    rcases Sparse.get_cases (d := freeRecord) s.records n with e | e
    · unfold liveAt recordAt at hn
      rw [e] at hn
      cases hn
    · exact ⟨_, List.mem_filter.mpr ⟨e, hn⟩, rfl⟩

theorem liveNumbers_nodup (h : Sparse.wf freeRecord s.records) : (liveNumbers s).Nodup := by
  have h1 : (s.records.filter (fun e => e.2.live.isSome)).Pairwise (fun a b => a.1 < b.1) := h.1.filter _
  exact List.pairwise_map.mpr (h1.imp (fun hab => Nat.ne_of_lt hab))

/-- As many records are live where the same ones are. -/
theorem length_liveNumbers_congr (hs : Sparse.wf freeRecord s.records) (ht : Sparse.wf freeRecord t.records)
    (h : ∀ n, (liveAt t n).isSome = (liveAt s n).isSome) : (liveNumbers t).length = (liveNumbers s).length := by
  refine List.Perm.length_eq ((List.perm_ext_iff_of_nodup (liveNumbers_nodup ht) (liveNumbers_nodup hs)).mpr (fun n => ?_))
  rw [mem_liveNumbers ht, mem_liveNumbers hs, h]

/-- One more record is live where one has become live. -/
theorem length_liveNumbers_succ (hs : Sparse.wf freeRecord s.records) (ht : Sparse.wf freeRecord t.records) {n : Nat}
    (hn : (liveAt s n).isSome = false) (hn' : (liveAt t n).isSome = true) (h : ∀ m, m ≠ n → (liveAt t m).isSome = (liveAt s m).isSome) :
    (liveNumbers t).length = (liveNumbers s).length + 1 := by
  have hnd : (n :: liveNumbers s).Nodup := by
    refine List.nodup_cons.mpr ⟨fun hm => ?_, liveNumbers_nodup hs⟩
    rw [mem_liveNumbers hs, hn] at hm
    contradiction
  have hp : (liveNumbers t).Perm (n :: liveNumbers s) := by
    refine (List.perm_ext_iff_of_nodup (liveNumbers_nodup ht) hnd).mpr (fun m => ?_)
    rw [mem_liveNumbers ht, List.mem_cons, mem_liveNumbers hs]
    by_cases hm : m = n
    · subst hm
      simp [hn']
    · simp [hm, h m hm]
  exact hp.length_eq

/-! ### Keeping the laws -/

theorem Collected.refl (s : State) : Collected s s :=
  fun _ hf hi => ⟨hf, hi⟩

theorem Collected.trans {s t u : State} (hc : CanonicalTables s → CanonicalTables t) (h : Collected s t) (g : Collected t u) : Collected s u :=
  fun c f i => g (hc c) (h c f i).1 (h c f i).2

/-- The live records are the same, each with its key and its way, and the collections are as they were. -/
theorem Collected.of_keyed (hc : CanonicalTables s → CanonicalTables t) (hf : t.freeList = s.freeList) (hl : t.liveCount = s.liveCount)
    (hx : t.index = s.index) (hk : ∀ n, keyedAt t n = keyedAt s n) : Collected s t := by
  intro c ⟨f1, f2, f3, f4, f5⟩ hi
  have hlive : ∀ n, (liveAt t n).isSome = (liveAt s n).isSome := fun n => by rw [← keyedAt_isSome, hk, keyedAt_isSome]
  have hfree : freeNumbers t = freeNumbers s := by
    unfold freeNumbers
    rw [hf, hl]
  have hnone : ∀ n, liveAt t n = none ↔ liveAt s n = none := fun n => by rw [← keyedAt_none, hk, keyedAt_none]
  refine ⟨⟨?_, fun n l h => ?_, by rw [hf, hl, f3], by rw [hfree]; exact f4, fun n => by rw [hfree, hnone]; exact f5 n⟩, ?_⟩
  · rw [hl, f1, length_liveNumbers_congr c.1 (hc c).1 hlive]
  · have := hlive n
    rw [h] at this
    obtain ⟨l', hl'⟩ := Option.isSome_iff_exists.mp this.symm
    exact f2 n l' hl'
  · rw [indexLaw_iff] at hi ⊢
    have hw : ∀ b w, wayAt t b w = wayAt s b w := fun b w => by simp only [wayAt, hx]
    simp only [hk, hw]
    exact hi

/-- Nothing that the laws read has changed. -/
theorem Collected.of_same (hr : t.records = s.records) (hf : t.freeList = s.freeList) (hl : t.liveCount = s.liveCount)
    (hx : t.index = s.index) : Collected s t := by
  intro _ h i
  have hlive : ∀ n, liveAt t n = liveAt s n := fun n => by simp only [liveAt, recordAt, hr]
  unfold FreeListLaw IndexLaw freeNumbers liveNumbers at *
  simp only [hlive, hr, hf, hl, hx]
  exact ⟨h, i⟩

/-- The place after `k` places. -/
theorem place_succ (p : BitVec 16) (k : Nat) : p + 1 + BitVec.ofNat 16 k = p + BitVec.ofNat 16 (k + 1) := by
  have h : BitVec.ofNat 16 (k + 1) = 1 + BitVec.ofNat 16 k := by
    apply BitVec.eq_of_toNat_eq
    simp [BitVec.toNat_add, BitVec.toNat_ofNat]
    omega
  rw [h, BitVec.add_assoc]

/-- The index after one way of a bucket is written. -/
theorem wayAt_set {b w b' w' : Nat} {e : Option IndexEntry} (hx : t.index = Sparse.set emptyWay s.index (8 * b + w) e) (hw : w < 8) (hw' : w' < 8) :
    wayAt t b' w' = if b' = b ∧ w' = w then e else wayAt s b' w' := by
  unfold wayAt
  rw [hx]
  by_cases h : b' = b ∧ w' = w
  · rw [if_pos h, h.1, h.2, Sparse.get_set_same]
  · rw [if_neg h, Sparse.get_set_other]
    omega

/-- A creation keeps the laws: the head's number leaves the free list and is live with a key that the index did not hold, in a way that was empty (R42). -/
theorem Collected.created {k : StripeKey} {w : Nat} (hc : CanonicalTables s → CanonicalTables t) (hroom : s.liveCount < 65536)
    (hf : t.freeList = { s.freeList with head := s.freeList.head + 1 }) (hl : t.liveCount = s.liveCount + 1)
    (hx : t.index = Sparse.set emptyWay s.index (8 * bucketOf k + w) (some { record := headNumber s, key := k })) (hw : w < 8)
    (hempty : wayAt s (bucketOf k) w = none) (habsent : KeyAbsent s k)
    (hk : ∀ n, keyedAt t n = if n = headNumber s then some (k, w) else keyedAt s n) : Collected s t := by
  intro c ⟨f1, f2, f3, f4, f5⟩ hi
  obtain ⟨m, hm⟩ : ∃ m, 65536 - s.liveCount = m + 1 := ⟨65535 - s.liveCount, by omega⟩
  have hm' : 65536 - t.liveCount = m := by omega
  have hfree : freeNumbers s = headNumber s :: freeNumbers t := by
    unfold freeNumbers
    rw [hm, hm', List.range_succ_eq_map, List.map_cons, List.map_map, hf]
    refine congr (congrArg _ ?_) (List.map_congr_left fun x _ => ?_)
    · simp [headNumber]
    · simp only [Function.comp_apply, place_succ]
  obtain ⟨hnot, hnd⟩ := List.nodup_cons.mp (hfree ▸ f4)
  obtain ⟨hlt, hfreeHead⟩ := (f5 (headNumber s)).mp (by rw [hfree]; exact List.mem_cons_self ..)
  have hhead : keyedAt s (headNumber s) = none := keyedAt_none.mpr hfreeHead
  have hlive : ∀ n, n ≠ headNumber s → keyedAt t n = keyedAt s n := fun n hn => by rw [hk, if_neg hn]
  have hnew : keyedAt t (headNumber s) = some (k, w) := by rw [hk, if_pos rfl]
  refine ⟨⟨?_, fun n l h => ?_, ?_, hnd, fun n => ?_⟩, ?_⟩
  · rw [hl, f1, length_liveNumbers_succ c.1 (hc c).1 (n := headNumber s)]
    · rw [hfreeHead]
      rfl
    · rw [← keyedAt_isSome, hnew]
      rfl
    · exact fun n hn => by rw [← keyedAt_isSome, hlive n hn, keyedAt_isSome]
  · by_cases hn : n = headNumber s
    · rw [hn]
      exact hlt
    · have hs := keyedAt_some h
      rw [hlive n hn] at hs
      obtain ⟨l', hl', -⟩ := live_of_keyed hs
      exact f2 n l' hl'
  · rw [hm', hf]
    simp only
    rw [place_succ, f3, hm]
  · by_cases hn : n = headNumber s
    · subst hn
      refine ⟨fun h => absurd h hnot, fun ⟨_, h⟩ => ?_⟩
      rw [← keyedAt_none, hnew] at h
      cases h
    · have h1 : n ∈ freeNumbers t ↔ n ∈ freeNumbers s := by
        rw [hfree, List.mem_cons]
        exact ⟨Or.inr, fun h => h.resolve_left hn⟩
      rw [h1, f5, ← keyedAt_none, ← keyedAt_none, hlive n hn]
  · obtain ⟨i1, i2, i3⟩ := indexLaw_iff.mp hi
    have hold : ∀ n w', keyedAt s n ≠ some (k, w') := by
      intro n w' h
      obtain ⟨hw', he⟩ := i1 n k w' h
      exact habsent w' _ hw' he rfl
    refine indexLaw_iff.mpr ⟨fun n k' w' h => ?_, fun b w' e hw' he => ?_, fun n n' k' w' w'' h h' => ?_⟩
    · by_cases hn : n = headNumber s
      · subst hn
        rw [hnew] at h
        cases h
        exact ⟨hw, by rw [wayAt_set hx hw hw, if_pos ⟨rfl, rfl⟩]⟩
      · rw [hlive n hn] at h
        obtain ⟨hw', he⟩ := i1 n k' w' h
        refine ⟨hw', ?_⟩
        rw [wayAt_set hx hw hw', if_neg, he]
        rintro ⟨hb, rfl⟩
        rw [hb, hempty] at he
        cases he
    · rw [wayAt_set hx hw hw'] at he
      split at he
      · rename_i hbw
        cases he
        exact ⟨hbw.1.symm, by rw [hbw.2]; exact hnew⟩
      · obtain ⟨hb, hk'⟩ := i2 b w' e hw' he
        refine ⟨hb, ?_⟩
        rw [hlive e.record (fun hn => ?_)]
        · exact hk'
        · rw [hn, hhead] at hk'
          cases hk'
    · by_cases hn : n = headNumber s
      · by_cases hn' : n' = headNumber s
        · rw [hn, hn']
        · rw [hn, hnew] at h
          cases h
          rw [hlive n' hn'] at h'
          exact absurd h' (hold n' w'')
      · rw [hlive n hn] at h
        by_cases hn' : n' = headNumber s
        · rw [hn', hnew] at h'
          cases h'
          exact absurd h (hold n w')
        · rw [hlive n' hn'] at h'
          exact i3 n n' k' w' w'' h h'

/-- A freeing keeps the laws: the record's way is emptied and its number joins the tail of the free list (R24). -/
theorem Collected.freed {n : Nat} {k : StripeKey} {w : Nat} (hc : CanonicalTables s → CanonicalTables t) (hn : keyedAt s n = some (k, w))
    (hf : t.freeList = { s.freeList with ring := Sparse.set resetRingEntry s.freeList.ring s.freeList.tail.toNat n, tail := s.freeList.tail + 1 })
    (hl : t.liveCount = s.liveCount - 1) (hx : t.index = Sparse.set emptyWay s.index (8 * bucketOf k + w) none)
    (hk : ∀ m, keyedAt t m = if m = n then none else keyedAt s m) : Collected s t := by
  intro c ⟨f1, f2, f3, f4, f5⟩ hi
  obtain ⟨l, hln, -⟩ := live_of_keyed hn
  have hpos : 0 < s.liveCount := by
    rw [f1]
    exact List.length_pos_of_mem ((mem_liveNumbers c.1).mpr (by rw [hln]; rfl))
  have hlive : ∀ m, m ≠ n → keyedAt t m = keyedAt s m := fun m hm => by rw [hk, if_neg hm]
  have hgone : keyedAt t n = none := by rw [hk, if_pos rfl]
  have hlen : (liveNumbers s).length = (liveNumbers t).length + 1 := by
    refine length_liveNumbers_succ (hc c).1 c.1 (n := n) ?_ ?_ (fun m hm => ?_)
    · rw [← keyedAt_isSome, hgone]
      rfl
    · rw [hln]
      rfl
    · rw [← keyedAt_isSome, ← keyedAt_isSome, hlive m hm]
  have hcount : 65536 - t.liveCount = 65536 - s.liveCount + 1 := by
    have : s.liveCount ≤ 65536 := by
      rw [f1]
      have hsub : (liveNumbers s) ⊆ List.range 65536 := fun m hm => by
        obtain ⟨l', hl'⟩ := Option.isSome_iff_exists.mp ((mem_liveNumbers c.1).mp hm)
        exact List.mem_range.mpr (f2 m l' hl')
      have := (List.subperm_of_subset (liveNumbers_nodup c.1) hsub).length_le
      rwa [List.length_range] at this
    omega
  have hfree : freeNumbers t = freeNumbers s ++ [n] := by
    unfold freeNumbers
    rw [hcount, List.range_succ, List.map_append, List.map_singleton, hf]
    simp only
    refine congr (congrArg _ (List.map_congr_left fun x hx => ?_)) ?_
    · rw [Sparse.get_set_other]
      intro h
      have h1 := BitVec.eq_of_toNat_eq h
      rw [f3] at h1
      have h2 := congrArg BitVec.toNat (BitVec.add_right_inj _ |>.mp h1)
      rw [BitVec.toNat_ofNat, BitVec.toNat_ofNat] at h2
      have := List.mem_range.mp hx
      omega
    · rw [← f3, Sparse.get_set_same]
  have hmem : n ∉ freeNumbers s := fun h => by
    have := ((f5 n).mp h).2
    rw [hln] at this
    cases this
  refine ⟨⟨by omega, fun m l' h => ?_, ?_, ?_, fun m => ?_⟩, ?_⟩
  · by_cases hm : m = n
    · rw [hm]
      exact f2 n l hln
    · have hs := keyedAt_some h
      rw [hlive m hm] at hs
      obtain ⟨l'', hl'', -⟩ := live_of_keyed hs
      exact f2 m l'' hl''
  · rw [hcount, hf]
    simp only
    rw [f3, BitVec.add_assoc]
    congr 1
    apply BitVec.eq_of_toNat_eq
    simp [BitVec.toNat_add, BitVec.toNat_ofNat]
  · rw [hfree]
    exact List.nodup_append.mpr ⟨f4, List.nodup_singleton n, fun a ha b hb hab => hmem (by rw [List.mem_singleton] at hb; rw [← hb, ← hab]; exact ha)⟩
  · rw [hfree, List.mem_append, List.mem_singleton, f5]
    by_cases hm : m = n
    · subst hm
      simp only [or_true, true_iff]
      exact ⟨f2 m l hln, keyedAt_none.mp hgone⟩
    · rw [← keyedAt_none, ← keyedAt_none, hlive m hm]
      simp [hm]
  · obtain ⟨i1, i2, i3⟩ := indexLaw_iff.mp hi
    have hw := (i1 n k w hn).1
    refine indexLaw_iff.mpr ⟨fun m k' w' h => ?_, fun b w' e hw' he => ?_, fun m m' k' w' w'' h h' => ?_⟩
    · by_cases hm : m = n
      · rw [hm, hgone] at h
        cases h
      · rw [hlive m hm] at h
        obtain ⟨hw', he⟩ := i1 m k' w' h
        refine ⟨hw', ?_⟩
        rw [wayAt_set hx hw hw', if_neg, he]
        rintro ⟨hb, rfl⟩
        have hn' := (i1 n k w' hn).2
        rw [hb, hn'] at he
        cases he
        exact hm rfl
    · rw [wayAt_set hx hw hw'] at he
      split at he
      · cases he
      · rename_i hbw
        obtain ⟨hb, hk'⟩ := i2 b w' e hw' he
        refine ⟨hb, ?_⟩
        rw [hlive e.record (fun hm => hbw ?_)]
        · exact hk'
        · rw [hm, hn] at hk'
          cases hk'
          exact ⟨hb.symm, rfl⟩
    · have hm : m ≠ n := fun hm => by rw [hm, hgone] at h; cases h
      have hm' : m' ≠ n := fun hm => by rw [hm, hgone] at h'; cases h'
      rw [hlive m hm] at h
      rw [hlive m' hm'] at h'
      exact i3 m m' k' w' w'' h h'

end Sys2Proof.Machine
end

