-- ==== Sys2Proof/Laws/Steady.lean ====
section
/-! SUPPORT. What the shared operations can do, once for each: `Movement` is what every operation on records, lanes, nodes and stores keeps, `Steady`
adds that no record is created, freed or given another generation, key or way. Both compose, so a meaning is followed by composing the lemmas of its parts. -/

namespace Sys2Proof.Machine

/-- The class of admission of the record that lane `i` holds. -/
def laneClass (s : State) (i : Fin 8) : Option RecordClass :=
  (laneAt s i).map (fun j => j.cls)

/-- What every operation of the work, and every part of a creation or a freeing, keeps: the control part of the state, the mode, the canonical form and
the placed counts; and a lane's class, unless the lane becomes IDLE, so that no IDLE lane gets work. -/
structure Moved (s t : State) : Prop where
  control : SameControl s t
  mode : t.mode = s.mode
  canonical : CanonicalTables s → CanonicalTables t
  placed : PlacedLaw s → PlacedLaw t
  lanes : ∀ i, laneClass t i = none ∨ laneClass t i = laneClass s i

/-- What every operation of the work keeps: the above with the laws of the free list and of the key index. -/
structure Movement (s t : State) : Prop extends Moved s t where
  collections : Collected s t

/-- A movement that creates and frees no record and changes no generation, no key and no way. -/
structure Steady (s t : State) : Prop extends Movement s t where
  freeList : t.freeList = s.freeList
  liveCount : t.liveCount = s.liveCount
  index : t.index = s.index
  generation : ∀ n, generationAt t n = generationAt s n
  keyed : ∀ n, keyedAt t n = keyedAt s n

theorem laneClass_none {s : State} {i : Fin 8} : laneClass s i = none ↔ laneAt s i = none := by
  simp [laneClass]

/-- No IDLE lane gets work. -/
theorem Moved.idle {s t : State} (h : Moved s t) (i : Fin 8) (hi : laneAt s i = none) : laneAt t i = none := by
  rcases h.lanes i with e | e
  · exact laneClass_none.mp e
  · exact laneClass_none.mp (e.trans (laneClass_none.mpr hi))

theorem backgroundLanes_eq (s : State) : backgroundLanes s = laneNumbers.countP (fun i => laneClass s i == some .background) := by
  refine List.countP_congr fun i _ => ?_
  unfold laneClass
  cases laneAt s i with
  | none => simp
  | some j => simp

/-- No more lanes are of class BACKGROUND. -/
theorem Moved.background {s t : State} (h : Moved s t) : backgroundLanes t ≤ backgroundLanes s := by
  rw [backgroundLanes_eq, backgroundLanes_eq]
  refine List.countP_mono_left fun i _ hi => ?_
  rcases h.lanes i with e | e
  · rw [e] at hi
    contradiction
  · rw [← e]
    exact hi

theorem SameControl.refl (s : State) : SameControl s s :=
  ⟨rfl, rfl, rfl, rfl, rfl, rfl, rfl, rfl, rfl, rfl, rfl⟩

theorem SameControl.trans {s t u : State} (h : SameControl s t) (g : SameControl t u) : SameControl s u := by
  obtain ⟨h1, h2, h3, h4, h5, h6, h7, h8, h9, h10, h11⟩ := h
  obtain ⟨g1, g2, g3, g4, g5, g6, g7, g8, g9, g10, g11⟩ := g
  exact ⟨g1.trans h1, g2.trans h2, g3.trans h3, g4.trans h4, g5.trans h5, g6.trans h6, g7.trans h7, g8.trans h8, g9.trans h9,
    g10.trans h10, g11.trans h11⟩

theorem Moved.refl (s : State) : Moved s s :=
  ⟨SameControl.refl s, rfl, id, id, fun _ => .inr rfl⟩

theorem Moved.trans {s t u : State} (h : Moved s t) (g : Moved t u) : Moved s u :=
  ⟨h.control.trans g.control, g.mode.trans h.mode, fun x => g.canonical (h.canonical x), fun x => g.placed (h.placed x), fun i => by
    rcases g.lanes i with e | e
    · exact .inl e
    · rw [e]
      exact h.lanes i⟩

theorem Movement.refl (s : State) : Movement s s :=
  ⟨Moved.refl s, Collected.refl s⟩

theorem Movement.trans {s t u : State} (h : Movement s t) (g : Movement t u) : Movement s u :=
  ⟨h.toMoved.trans g.toMoved, Collected.trans h.canonical h.collections g.collections⟩

/-- A change of work alone, where the collections and every record's key and way are as they were. -/
theorem Moved.steady {s t : State} (h : Moved s t) (hf : t.freeList = s.freeList) (hl : t.liveCount = s.liveCount) (hi : t.index = s.index)
    (hg : ∀ n, generationAt t n = generationAt s n) (hk : ∀ n, keyedAt t n = keyedAt s n) : Steady s t :=
  ⟨⟨h, Collected.of_keyed h.canonical hf hl hi hk⟩, hf, hl, hi, hg, hk⟩

theorem Steady.refl (s : State) : Steady s s :=
  ⟨Movement.refl s, rfl, rfl, rfl, fun _ => rfl, fun _ => rfl⟩

theorem Steady.trans {s t u : State} (h : Steady s t) (g : Steady t u) : Steady s u :=
  ⟨h.toMovement.trans g.toMovement, g.freeList.trans h.freeList, g.liveCount.trans h.liveCount, g.index.trans h.index,
    fun n => (g.generation n).trans (h.generation n), fun n => (g.keyed n).trans (h.keyed n)⟩

theorem Steady.live {s t : State} (h : Steady s t) (n : Nat) : (liveAt t n).isSome = (liveAt s n).isSome := by
  rw [← keyedAt_isSome, h.keyed, keyedAt_isSome]

theorem Steady.foldl {β : Type} {f : State → β → State} (h : ∀ s b, Steady s (f s b)) (bs : List β) (s : State) :
    Steady s (bs.foldl f s) := by
  induction bs generalizing s with
  | nil => exact Steady.refl s
  | cons b bs ih => exact (h s b).trans (ih (f s b))

/-- A change of parts that no law reads: the events, the counters, what was sent, the notice counter, the free-value counter, the queues and the wait
list, the queue sequence counter. -/
theorem Steady.of_same {s t : State} (hc : SameControl s t) (hm : t.mode = s.mode) (hr : t.records = s.records)
    (hf : t.freeList = s.freeList) (hl : t.liveCount = s.liveCount) (hi : t.index = s.index) (hd : t.dram = s.dram)
    (hn : t.nodes = s.nodes) (hs : t.fetch = s.fetch) (hlanes : t.lanes = s.lanes) : Steady s t := by
  refine Moved.steady ⟨hc, hm, fun h => ?_, fun h => ?_, fun i => .inr ?_⟩ hf hl hi (fun n => ?_) (fun n => ?_)
  · simpa [CanonicalTables, hr, hf, hi, hd, hn, hs] using h
  · intro n l hnl
    exact h n l (by simpa [liveAt, recordAt, hr] using hnl)
  · simp [laneClass, laneAt, hlanes]
  · simp [generationAt, recordAt, hr]
  · simp [keyedAt, liveAt, recordAt, hr]

/-! ### The primitive updates -/

theorem raise_steady (e : Event) (s : State) : Steady s (raise e s) :=
  Steady.of_same (SameControl.refl s) rfl rfl rfl rfl rfl rfl rfl rfl rfl

theorem count_steady (c : Counter) (s : State) : Steady s (count c s) :=
  Steady.of_same (SameControl.refl s) rfl rfl rfl rfl rfl rfl rfl rfl rfl

theorem emit_steady (o : Output) (s : State) : Steady s (emit o s) :=
  Steady.of_same (SameControl.refl s) rfl rfl rfl rfl rfl rfl rfl rfl rfl

theorem fresh_steady (k : Nat) (s : State) : Steady s { s with fresh := k } :=
  Steady.of_same (SameControl.refl s) rfl rfl rfl rfl rfl rfl rfl rfl rfl

theorem setHealth_steady (w : TableWord) (h : WordHealth) (s : State) : Steady s (setHealth w h s) := by
  refine Moved.steady ⟨SameControl.refl s, rfl, fun hc => ?_, fun hp => hp, fun _ => .inr rfl⟩ rfl rfl rfl (fun _ => rfl) (fun _ => rfl)
  obtain ⟨h1, h2, h3, h4, h5, h6⟩ := hc
  exact ⟨h1, h2, h3, Sparse.set_wf h4 _ _, h5, h6⟩

theorem setNode_steady (k : Nat) (v : Node) (s : State) : Steady s (setNode k v s) := by
  refine Moved.steady ⟨SameControl.refl s, rfl, fun hc => ?_, fun hp => hp, fun _ => .inr rfl⟩ rfl rfl rfl (fun _ => rfl) (fun _ => rfl)
  obtain ⟨h1, h2, h3, h4, h5, h6⟩ := hc
  exact ⟨h1, h2, h3, h4, Sparse.set_wf h5 _ _, h6⟩

theorem setSlot_steady (k : Nat) (v : FetchSlot) (s : State) : Steady s (setSlot k v s) := by
  refine Moved.steady ⟨SameControl.refl s, rfl, fun hc => ?_, fun hp => hp, fun _ => .inr rfl⟩ rfl rfl rfl (fun _ => rfl) (fun _ => rfl)
  obtain ⟨h1, h2, h3, h4, h5, h6⟩ := hc
  exact ⟨h1, h2, h3, h4, h5, Sparse.set_wf h6 _ _⟩

/-- Work given to a lane that has work of its class, or a lane made IDLE. -/
theorem setLane_steady {i : Fin 8} {j : Option Job} {s : State} (h : j = none ∨ j.map (fun x => x.cls) = laneClass s i) :
    Steady s (setLane i j s) := by
  refine Moved.steady ⟨SameControl.refl s, rfl, fun hc => hc, fun hp => hp, fun k => ?_⟩ rfl rfl rfl (fun _ => rfl) (fun _ => rfl)
  by_cases hik : k = i
  · subst hik
    rw [laneClass, laneAt_setLane_same]
    rcases h with h | h
    · rw [h]
      exact .inl rfl
    · exact .inr h
  · rw [laneClass, laneAt_setLane_other s hik]
    exact .inr rfl

/-- The job of a lane that has work is changed, but not its class. -/
theorem setLane_again {i : Fin 8} {j x : Job} {s : State} (h : laneAt s i = some x) (hc : j.cls = x.cls) : Steady s (setLane i (some j) s) :=
  setLane_steady (.inr (by rw [laneClass, h]; exact congrArg some hc))

/-- A live record written with its placed counts in order, its key and its way as they were. -/
theorem setLive_steady {n : Nat} {l m : Live} {s : State} (hl : liveAt s n = some m) (hk : l.key = m.key) (hw : l.way = m.way)
    (hp : PlacedLaw s → PlacedCounts l) : Steady s (setLive n l s) := by
  refine Moved.steady ⟨SameControl.refl s, rfl, fun hc => ?_, fun hpl => ?_, fun _ => .inr rfl⟩ rfl rfl rfl
    (fun k => generationAt_setLive s n k l) (fun k => ?_)
  · obtain ⟨h1, h2, h3, h4, h5, h6⟩ := hc
    exact ⟨Sparse.set_wf h1 _ _, h2, h3, h4, h5, h6⟩
  · intro k m hk
    by_cases hkn : k = n
    · subst hkn
      rw [liveAt_setLive_same] at hk
      cases hk
      exact hp hpl
    · rw [liveAt_setLive_other s hkn] at hk
      exact hpl k m hk
  · by_cases hkn : k = n
    · subst hkn
      rw [keyedAt_some (liveAt_setLive_same ..), keyedAt_some hl, hk, hw]
    · rw [keyedAt, keyedAt, liveAt_setLive_other s hkn]

/-- The same lists and segment total, in a state other than PLACED or the same state, keep the placed counts in order. -/
theorem PlacedCounts.of_same {l m : Live} (h : PlacedCounts l) (ht : m.targets = l.targets) (hs : m.segTotal = l.segTotal)
    (hst : m.state = .placed → l.state = .placed) : PlacedCounts m := by
  obtain ⟨h1, h2, h3⟩ := h
  exact ⟨hs ▸ h1, by rw [ht, hs]; exact h2, fun hp => by rw [ht]; exact h3 (hst hp)⟩

/-! ### Frames, replies, notices, memory -/

theorem sendFrame_steady (p : Port) (dst : EthAddr) (k : Kind) (fl : Byte) (tag : BitVec 32) (body : List Byte) (s : State) :
    Steady s (sendFrame p dst k fl tag body s) :=
  emit_steady _ s

theorem sendReply_steady (a : Asker) (k : Byte) (st : Status) (fl : Byte) (r : List Byte) (s : State) :
    Steady s (sendReply a k st fl r s) := by
  unfold sendReply
  split
  · exact sendFrame_steady ..
  · exact count_steady ..

theorem answer_steady (a : Asker) (k : Byte) (st : Status) (fl : Byte) (r : List Byte) (s : State) :
    Steady s (answer a k st fl r s) := by
  unfold answer
  split
  · exact (count_steady _ s).trans (sendReply_steady ..)
  · exact sendReply_steady ..

theorem reply_steady (f : Frame) (k : Kind) (st : Status) (r : List Byte) (s : State) : Steady s (reply f k st r s) :=
  answer_steady ..

theorem makeNotice_steady (w : Watch) (b : List Byte) (s : State) : Steady s (makeNotice w b s) := by
  have h : Steady s { s with noticeCounter := s.noticeCounter + 1 } :=
    Steady.of_same (SameControl.refl s) rfl rfl rfl rfl rfl rfl rfl rfl rfl
  unfold makeNotice
  split
  · exact h.trans (sendFrame_steady ..)
  · exact h.trans (count_steady ..)

theorem notify_steady (n : Nat) (g : Generation) (w : Option Watch) (o : Byte) (new : Option RecState) (s : State) :
    Steady s (notify n g w o new s) := by
  unfold notify
  split
  · split
    · exact makeNotice_steady ..
    · exact Steady.refl s
  · exact Steady.refl s

theorem writeWord_steady (w : TableWord) (s : State) : Steady s (writeWord w s) :=
  setHealth_steady ..

theorem strike_steady (ds : List Damage) (s : State) : Steady s (strike ds s) := by
  refine Steady.foldl (fun s d => ?_) ds s
  unfold strikeOne
  split <;> exact setHealth_steady ..

theorem readWord_steady (w : TableWord) (s : State) : Steady s (readWord w s).2 := by
  unfold readWord
  split
  · exact Steady.refl s
  · exact (setHealth_steady _ _ s).trans (count_steady ..)
  · exact raise_steady ..
  · exact (writeWord_steady _ s).trans (count_steady ..)

theorem readFields_steady (n : Nat) (fs : List RecField) (s : State) : Steady s (readFields n fs s).2 := by
  induction fs generalizing s with
  | nil => exact Steady.refl s
  | cons f fs ih => exact (readWord_steady _ s).trans (ih _)

theorem writeFields_steady (n : Nat) (fs : List RecField) (s : State) : Steady s (writeFields n fs s) :=
  Steady.foldl (fun s _ => writeWord_steady _ s) fs s

/-! ### Node counts -/

theorem raiseOutstanding_steady (k : Nat) (s : State) : Steady s (raiseOutstanding k s) :=
  setNode_steady ..

theorem lowerOutstanding_steady (k : Nat) (s : State) : Steady s (lowerOutstanding k s) :=
  setNode_steady ..

theorem clearConsecutive_steady (k : Nat) (s : State) : Steady s (clearConsecutive k s) :=
  setNode_steady ..

theorem raiseConsecutive_steady (k : Nat) (s : State) : Steady s (raiseConsecutive k s) :=
  setNode_steady ..

theorem raiseRefs_steady (ks : List Nat) (s : State) : Steady s (raiseRefs ks s) :=
  Steady.foldl (fun _ _ => setNode_steady ..) ks s

theorem lowerRefs_steady (ks : List Nat) (s : State) : Steady s (lowerRefs ks s) :=
  Steady.foldl (fun _ _ => setNode_steady ..) ks s

theorem adjustRefs_steady (old new : List Nat) (s : State) : Steady s (adjustRefs old new s) :=
  (raiseRefs_steady _ s).trans (lowerRefs_steady ..)

/-! ### Giving up work -/

theorem endFetch_steady (k : Nat) (s : State) : Steady s (endFetch k s) := by
  unfold endFetch
  split
  · exact Steady.refl s
  · exact (setSlot_steady _ _ s).trans (lowerOutstanding_steady ..)

theorem forgetStores_steady (i : Fin 8) (j : Job) (s : State) : Steady s (forgetStores i j s) := by
  unfold forgetStores
  exact (Steady.foldl (fun _ _ => lowerOutstanding_steady ..) _ s).trans
    (Steady.of_same (SameControl.refl _) rfl rfl rfl rfl rfl rfl rfl rfl rfl)

theorem abandonLane_steady (i : Fin 8) (s : State) : Steady s (abandonLane i s) := by
  unfold abandonLane
  split
  · exact Steady.refl s
  · exact ((Steady.foldl (fun _ _ => endFetch_steady ..) _ s).trans (forgetStores_steady ..)).trans (setLane_steady (Or.inl rfl))

/-- Abandonment leaves the lane IDLE (R128). -/
theorem abandonLane_idle (i : Fin 8) (s : State) : laneAt (abandonLane i s) i = none := by
  unfold abandonLane
  split
  · assumption
  · exact laneAt_setLane_same ..

theorem leaveHolder_steady (n : Nat) (l : Live) (s : State) : Steady s (leaveHolder n l s) := by
  unfold leaveHolder
  split
  · exact Steady.of_same (SameControl.refl _) rfl rfl rfl rfl rfl rfl rfl rfl rfl
  · exact setNode_steady ..
  · split
    · exact abandonLane_steady ..
    · exact Steady.refl s
  · exact Steady.refl s
  · exact Steady.refl s

theorem joinQueue_steady (n : Nat) (c : RecordClass) (s : State) : Steady s (joinQueue n c s) := by
  unfold joinQueue
  split <;> exact Steady.of_same (SameControl.refl _) rfl rfl rfl rfl rfl rfl rfl rfl rfl

/-! ### Giving up work leaves the records -/

theorem foldl_records {β : Type} {f : State → β → State} (h : ∀ s b, (f s b).records = s.records) (bs : List β) (s : State) :
    (bs.foldl f s).records = s.records := by
  induction bs generalizing s with
  | nil => rfl
  | cons b bs ih => exact (ih (f s b)).trans (h s b)

theorem endFetch_records (k : Nat) (s : State) : (endFetch k s).records = s.records := by
  unfold endFetch
  split <;> rfl

theorem abandonLane_records (i : Fin 8) (s : State) : (abandonLane i s).records = s.records := by
  unfold abandonLane
  split
  · rfl
  · rename_i j _
    have h : (forgetStores i j ((slotsOfLane s i).foldl (fun s k => endFetch k s) s)).records
        = ((slotsOfLane s i).foldl (fun s k => endFetch k s) s).records :=
      foldl_records (f := fun s (st : Store) => lowerOutstanding st.dest s) (fun _ _ => rfl) _ _
    exact h.trans (foldl_records (fun s k => endFetch_records k s) _ s)

theorem leaveHolder_records (n : Nat) (l : Live) (s : State) : (leaveHolder n l s).records = s.records := by
  unfold leaveHolder
  split
  · rfl
  · rfl
  · split
    · exact abandonLane_records ..
    · rfl
  · rfl
  · rfl

theorem liveAt_leaveHolder (n k : Nat) (l : Live) (s : State) : liveAt (leaveHolder n l s) k = liveAt s k := by
  simp [liveAt, recordAt, leaveHolder_records]

/-! ### Entries into the record states -/

/-- A record that has left its holder is written in another state. -/
theorem leaveAndSet_steady {n : Nat} {l m : Live} {s : State} (hl : liveAt s n = some l) (hk : m.key = l.key) (hw : m.way = l.way)
    (hm : PlacedCounts l → PlacedCounts m) : Steady s (setLive n m (leaveHolder n l s)) := by
  have h : liveAt (leaveHolder n l s) n = some l := (liveAt_leaveHolder n n l s).trans hl
  exact (leaveHolder_steady n l s).trans (setLive_steady h hk hw (fun hp => hm (hp n l h)))

theorem enterWaiting_steady (n : Nat) (s : State) : Steady s (enterWaiting n s) := by
  unfold enterWaiting
  split
  · exact Steady.refl s
  · rename_i l hl
    refine Steady.trans ?_ (notify_steady ..)
    refine Steady.trans ?_ (joinQueue_steady ..)
    refine Steady.trans ?_ (writeFields_steady ..)
    exact leaveAndSet_steady hl rfl rfl (fun h => h.of_same rfl rfl (fun hp => by cases hp))

theorem enterActive_steady (n : Nat) (s : State) : Steady s (enterActive n s) := by
  unfold enterActive
  split
  · exact Steady.refl s
  · rename_i l hl
    refine Steady.trans ?_ (notify_steady ..)
    refine Steady.trans ?_ (writeFields_steady ..)
    exact setLive_steady hl rfl rfl (fun hp => (hp n l hl).of_same rfl rfl (fun h => by cases h))

theorem enterStalled_steady (n k : Nat) (s : State) : Steady s (enterStalled n k s) := by
  unfold enterStalled
  split
  · exact Steady.refl s
  · rename_i l hl
    refine Steady.trans ?_ (notify_steady ..)
    refine Steady.trans ?_ (setNode_steady ..)
    refine Steady.trans ?_ (writeFields_steady ..)
    exact leaveAndSet_steady hl rfl rfl (fun h => h.of_same rfl rfl (fun hp => by cases hp))

theorem enterHeld_steady (n : Nat) (c : HoldCause) (s : State) : Steady s (enterHeld n c s) := by
  unfold enterHeld
  split
  · exact Steady.refl s
  · rename_i l hl
    refine Steady.trans ?_ (notify_steady ..)
    refine Steady.trans ?_ (raise_steady ..)
    refine Steady.trans ?_ (writeFields_steady ..)
    exact leaveAndSet_steady hl rfl rfl (fun h => h.of_same rfl rfl (fun hp => by cases hp))

/-- Entry into PLACED of a record whose every target is DONE. -/
theorem enterPlaced_steady {n : Nat} {l : Live} {s : State} (hl : liveAt s n = some l)
    (hdone : ∀ t ∈ l.targets, t.status = .done) : Steady s (enterPlaced n s) := by
  unfold enterPlaced
  simp only [hl]
  refine Steady.trans ?_ (notify_steady ..)
  refine Steady.trans ?_ (writeFields_steady ..)
  exact leaveAndSet_steady hl rfl rfl (fun h => ⟨h.1, h.2.1, fun _ => hdone⟩)

theorem makeFixed_steady (n : Nat) (bad : List RecField) (s : State) : Steady s (makeFixed n bad s) := by
  unfold makeFixed
  split
  · exact Steady.refl s
  · rename_i l hl
    refine Steady.trans ?_ (notify_steady ..)
    refine Steady.trans ?_ (raise_steady ..)
    refine Steady.trans ?_ (fresh_steady ..)
    refine Steady.trans ?_ (writeFields_steady ..)
    exact leaveAndSet_steady hl rfl rfl (fun h => h.of_same rfl rfl (fun hp => by cases hp))

theorem readRecordFields_steady (n : Nat) (ids work : List RecField) (s : State) : Steady s (readRecordFields n ids work s).2 := by
  unfold readRecordFields
  split
  · exact Steady.refl s
  · rename_i l hl
    simp only
    split
    · exact (readFields_steady ..).trans (makeFixed_steady ..)
    · split
      · exact readFields_steady ..
      · split
        · exact ((readFields_steady ..).trans (readFields_steady ..)).trans (enterHeld_steady ..)
        · exact (readFields_steady ..).trans (readFields_steady ..)

theorem readRecord_steady (n : Nat) (work : List RecField) (s : State) : Steady s (readRecord n work s).2 :=
  readRecordFields_steady ..

/-! ### What the entries leave in the records -/

theorem notify_records (n : Nat) (g : Generation) (w : Option Watch) (o : Byte) (new : Option RecState) (s : State) :
    (notify n g w o new s).records = s.records := by
  unfold notify makeNotice
  repeat' split
  all_goals rfl

theorem writeFields_records (n : Nat) (fs : List RecField) (s : State) : (writeFields n fs s).records = s.records :=
  foldl_records (f := fun s f => writeWord (.record n f) s) (fun _ _ => rfl) fs s

theorem joinQueue_records (n : Nat) (c : RecordClass) (s : State) : (joinQueue n c s).records = s.records := by
  unfold joinQueue
  split <;> rfl

theorem liveAt_congr {s t : State} (h : t.records = s.records) (k : Nat) : liveAt t k = liveAt s k := by
  simp only [liveAt, recordAt, h]

theorem liveAt_setLive (n k : Nat) (m : Live) (s : State) : liveAt (setLive n m s) k = if k = n then some m else liveAt s k := by
  by_cases h : k = n
  · subst h
    rw [if_pos rfl, liveAt_setLive_same]
  · rw [if_neg h, liveAt_setLive_other _ h]

/-- The record that enters WAITING, and no other, changes in the table (R19). -/
theorem liveAt_enterWaiting {n : Nat} {l : Live} {s : State} (hl : liveAt s n = some l) (k : Nat) :
    liveAt (enterWaiting n s) k =
      if k = n then some { l with state := .waiting, stamp := (leaveHolder n l s).queueSeq } else liveAt s k := by
  unfold enterWaiting
  simp only [hl]
  rw [liveAt_congr (notify_records ..), liveAt_congr (joinQueue_records ..), liveAt_congr (writeFields_records ..), liveAt_setLive,
    liveAt_leaveHolder]

/-- The record that enters HELD, and no other, changes in the table (R22). -/
theorem liveAt_enterHeld {n : Nat} {c : HoldCause} {l : Live} {s : State} (hl : liveAt s n = some l) (k : Nat) :
    liveAt (enterHeld n c s) k = if k = n then some { l with state := .held c } else liveAt s k := by
  unfold enterHeld
  simp only [hl]
  rw [liveAt_congr (notify_records ..), show ∀ u : State, liveAt (raise .recordHeld u) k = liveAt u k from fun _ => rfl,
    liveAt_congr (writeFields_records ..), liveAt_setLive, liveAt_leaveHolder]

/-- The record that enters STALLED, and no other, changes in the table (R21). -/
theorem liveAt_enterStalled {n x : Nat} {l : Live} {s : State} (hl : liveAt s n = some l) (k : Nat) :
    liveAt (enterStalled n x s) k = if k = n then some { l with state := .stalled x } else liveAt s k := by
  unfold enterStalled
  simp only [hl]
  rw [liveAt_congr (notify_records ..), show ∀ (v : Node) (u : State), liveAt (setNode x v u) k = liveAt u k from fun _ _ => rfl,
    liveAt_congr (writeFields_records ..), liveAt_setLive, liveAt_leaveHolder]

/-- The record that enters ACTIVE, and no other, changes in the table (R20). -/
theorem liveAt_enterActive {n : Nat} {l : Live} {s : State} (hl : liveAt s n = some l) (k : Nat) :
    liveAt (enterActive n s) k = if k = n then some { l with state := .active } else liveAt s k := by
  unfold enterActive
  simp only [hl]
  rw [liveAt_congr (notify_records ..), liveAt_congr (writeFields_records ..), liveAt_setLive]

/-- The record that enters PLACED, and no other, changes in the table (R23). -/
theorem liveAt_enterPlaced {n : Nat} {l : Live} {s : State} (hl : liveAt s n = some l) (k : Nat) :
    liveAt (enterPlaced n s) k = if k = n then some { l with state := .placed } else liveAt s k := by
  unfold enterPlaced
  simp only [hl]
  rw [liveAt_congr (notify_records ..), liveAt_congr (writeFields_records ..), liveAt_setLive, liveAt_leaveHolder]

/-! ### A read that meets no uncorrectable error leaves records and lanes -/

/-- Reads of table words touch neither records nor lanes. -/
theorem readWord_parts (w : TableWord) (s : State) :
    (readWord w s).2.records = s.records ∧ (readWord w s).2.lanes = s.lanes := by
  unfold readWord
  split <;> exact ⟨rfl, rfl⟩

theorem readFields_parts (n : Nat) (fs : List RecField) (s : State) :
    (readFields n fs s).2.records = s.records ∧ (readFields n fs s).2.lanes = s.lanes := by
  induction fs generalizing s with
  | nil => exact ⟨rfl, rfl⟩
  | cons f fs ih =>
    obtain ⟨h1, h2⟩ := readWord_parts (.record n f) s
    obtain ⟨h3, h4⟩ := ih (readWord (.record n f) s).2
    exact ⟨h3.trans h1, h4.trans h2⟩

/-- A step whose reads of a record gave values finds the records and the lanes as they were. -/
theorem readRecordFields_ok {n : Nat} {ids work : List RecField} {s : State} (h : (readRecordFields n ids work s).1 = true) :
    (readRecordFields n ids work s).2.records = s.records ∧ (readRecordFields n ids work s).2.lanes = s.lanes
      ∧ (liveAt s n).isSome = true := by
  unfold readRecordFields at h ⊢
  split at h
  · cases h
  · rename_i l hl
    simp only [hl] at h ⊢
    have h1 := readFields_parts n (ids.filter (fun f => !(l.lostFields.contains f))) s
    split at h
    · cases h
    · rename_i hb
      simp only [if_neg hb]
      split at h
      · rename_i hm
        simp only [if_pos hm]
        exact ⟨h1.1, h1.2, rfl⟩
      · rename_i hm
        simp only [if_neg hm]
        split at h
        · cases h
        · rename_i hw
          simp only [if_neg hw]
          have h2 := readFields_parts n work (readFields n (ids.filter (fun f => !(l.lostFields.contains f))) s).2
          exact ⟨h2.1.trans h1.1, h2.2.trans h1.2, rfl⟩

theorem readRecord_ok {n : Nat} {work : List RecField} {s : State} (h : (readRecord n work s).1 = true) :
    (readRecord n work s).2.records = s.records ∧ (readRecord n work s).2.lanes = s.lanes ∧ (liveAt s n).isSome = true :=
  readRecordFields_ok h

/-! ### Lanes -/

theorem returnLane_steady (s : State) (i : Fin 8) : Steady s (returnLane s i) := by
  unfold returnLane
  split
  · exact Steady.refl s
  · exact (abandonLane_steady ..).trans (enterWaiting_steady ..)

theorem returnLane_idle (s : State) (i : Fin 8) : laneAt (returnLane s i) i = none := by
  unfold returnLane
  split
  · assumption
  · exact (enterWaiting_steady ..).idle i (abandonLane_idle i s)

theorem returnAllLanes_steady (s : State) : Steady s (returnAllLanes s) :=
  Steady.foldl returnLane_steady _ s

theorem foldl_returnLane_idle {i : Fin 8} (is : List (Fin 8)) (s : State) (h : i ∈ is ∨ laneAt s i = none) :
    laneAt (is.foldl returnLane s) i = none := by
  induction is generalizing s with
  | nil => exact h.resolve_left List.not_mem_nil
  | cons k is ih =>
    refine ih _ ?_
    rcases h with h | h
    · rcases List.mem_cons.mp h with h | h
      · subst h
        exact Or.inr (returnLane_idle s i)
      · exact Or.inl h
    · exact Or.inr ((returnLane_steady s k).idle i h)

theorem allIdle_iff (s : State) : allIdle s = true ↔ ∀ i, laneAt s i = none := by
  constructor
  · intro h i
    have hi : i ∈ laneNumbers := by
      revert i
      decide
    have := List.all_eq_true.mp h i hi
    simpa using this
  · intro h
    exact List.all_eq_true.mpr (fun i _ => by simp [h i])

/-- Every lane is IDLE after every lane's record has been returned (R133, R158, R164). -/
theorem returnAllLanes_idle (s : State) : allIdle (returnAllLanes s) = true := by
  refine (allIdle_iff _).mpr (fun i => foldl_returnLane_idle _ s (Or.inl ?_))
  revert i
  decide

theorem stallLane_steady (k : Nat) (s : State) (i : Fin 8) : Steady s (stallLane k s i) := by
  unfold stallLane
  split
  · split
    · exact enterStalled_steady ..
    · exact Steady.refl s
  · exact Steady.refl s

theorem muteNode_steady (k : Nat) (s : State) : Steady s (muteNode k s) := by
  unfold muteNode
  split
  · exact ((setNode_steady ..).trans (Steady.foldl (stallLane_steady k) _ _)).trans (raise_steady ..)
  · exact Steady.refl s

/-- A lane that has work of the class begins another segment (R119). -/
theorem beginSegment_steady {i : Fin 8} {n : Nat} {l : Live} {seg : Nat} {j : Job} {turns : Nat} {s : State}
    (h : laneAt s i = some j) : Steady s (beginSegment i n l seg j.cls turns s) :=
  setLane_again h rfl

/-! ### Stores -/

theorem setStore_steady (i : Fin 8) (q : Nat) (st : Store) (s : State) : Steady s (setStore i q st s) := by
  unfold setStore
  split
  · exact Steady.refl s
  · rename_i j hj
    exact setLane_again hj rfl

theorem sendChunk_steady (i : Fin 8) (q k : Nat) (s : State) : Steady s (sendChunk i q k s) := by
  unfold sendChunk
  split
  · exact Steady.refl s
  · split
    · exact sendFrame_steady ..
    · exact Steady.refl s

theorem startAttempt_steady (i : Fin 8) (q : Nat) (s : State) : Steady s (startAttempt i q s) := by
  unfold startAttempt
  split
  · exact Steady.refl s
  · exact ((setStore_steady ..).trans (raiseOutstanding_steady ..)).trans (sendChunk_steady ..)

theorem waitList_steady (w : List (Fin 8 × Nat)) (s : State) : Steady s { s with waitList := w } :=
  Steady.of_same (SameControl.refl _) rfl rfl rfl rfl rfl rfl rfl rfl rfl

theorem beginAttempt_steady (i : Fin 8) (q : Nat) (s : State) : Steady s (beginAttempt i q s) := by
  unfold beginAttempt
  split
  · exact Steady.refl s
  · split
    · exact startAttempt_steady ..
    · exact (setStore_steady ..).trans (waitList_steady ..)

theorem handRoom_steady (s : State) : Steady s (handRoom s) := by
  refine Steady.foldl (fun s e => ?_) _ s
  unfold beginIfRoom
  split
  · exact Steady.refl s
  · split
    · exact (waitList_steady _ s).trans (startAttempt_steady ..)
    · exact Steady.refl s

theorem enterPlace_steady (i : Fin 8) (s : State) : Steady s (enterPlace i s) := by
  unfold enterPlace
  split
  · exact Steady.refl s
  · rename_i j hj
    simp only
    split
    · rename_i l hr hl
      have hlane : laneAt (readRecord j.record [.frags] s).2 i = some j := by
        rw [laneAt, (readRecord_ok hr).2.1, ← laneAt, hj]
      exact ((readRecord_steady ..).trans (setLane_again hlane (by rfl))).trans (Steady.foldl (fun _ _ => beginAttempt_steady ..) _ _)
    · exact readRecord_steady ..

theorem combine_steady (i : Fin 8) (p : Nat) (buf : List Byte) (s : State) : Steady s (combine i p buf s) := by
  unfold combine
  split
  · exact Steady.refl s
  · rename_i j hj
    simp only
    split
    · rename_i l hr hl
      have hlane : laneAt (readRecord j.record [.coefs] s).2 i = some j := by
        rw [laneAt, (readRecord_ok hr).2.1, ← laneAt, hj]
      split
      · exact readRecord_steady ..
      · split
        · exact ((readRecord_steady ..).trans (setLane_again hlane (by rfl))).trans (enterPlace_steady ..)
        · exact (readRecord_steady ..).trans (setLane_again hlane (by rfl))
    · exact readRecord_steady ..

/-! ### Turn end -/

theorem continueTurn_steady {i : Fin 8} {j : Job} {turns : Nat} {s : State} (hj : laneAt s i = some j) :
    Steady s (continueTurn i j turns s) := by
  unfold continueTurn
  simp only
  split
  · rename_i l hr hl
    split
    · refine (readRecord_steady ..).trans (beginSegment_steady ?_)
      rw [laneAt, (readRecord_ok hr).2.1, ← laneAt]
      exact hj
    · exact (readRecord_steady ..).trans (enterHeld_steady ..)
    · exact (readRecord_steady ..).trans (enterStalled_steady ..)
  · exact readRecord_steady ..

theorem turnEnd_steady (i : Fin 8) (s : State) : Steady s (turnEnd i s) := by
  unfold turnEnd
  split
  · exact Steady.refl s
  · rename_i j hj
    split
    · exact Steady.refl s
    · rename_i l hl
      split
      · rename_i hall
        refine enterPlaced_steady hl (fun t ht => ?_)
        simpa using List.all_eq_true.mp hall t ht
      · split
        · split
          · exact enterWaiting_steady ..
          · exact continueTurn_steady hj
        · exact enterWaiting_steady ..

end Sys2Proof.Machine
end

