-- ==== Sys2Proof/Laws/Kept.lean ====
section
/-! SUPPORT. `Kept` collects the laws of one state that every change keeps; a change that moves no lane between IDLE and busy keeps them when it is a
`Movement`, and any `Movement` does once `settle` follows it. One lemma follows each way a frame takes to its unit. -/

namespace Sys2Proof.Machine

/-- What a change keeps of the laws of Safety.lean, a part of a creation or of a freeing included. -/
structure PartKept (s t : State) : Prop where
  authority : AuthorityLaw s → AuthorityLaw t
  budget : BudgetLaw s → BudgetLaw t
  laneMode : LaneModeLaw s → LaneModeLaw t
  placed : PlacedLaw s → PlacedLaw t
  canonical : CanonicalTables s → CanonicalTables t
  reserve : LaneModeLaw s → ReserveLaw s → ReserveLaw t

/-- What a whole change keeps: the above with the laws of the free list and of the key index. -/
structure Kept (s t : State) : Prop extends PartKept s t where
  collections : Collected s t

theorem PartKept.refl (s : State) : PartKept s s :=
  ⟨id, id, id, id, id, fun _ => id⟩

theorem PartKept.trans {s t u : State} (h : PartKept s t) (g : PartKept t u) : PartKept s u :=
  ⟨fun x => g.authority (h.authority x), fun x => g.budget (h.budget x), fun x => g.laneMode (h.laneMode x),
    fun x => g.placed (h.placed x), fun x => g.canonical (h.canonical x), fun m x => g.reserve (h.laneMode m) (h.reserve m x)⟩

theorem Kept.refl (s : State) : Kept s s :=
  ⟨PartKept.refl s, Collected.refl s⟩

theorem Kept.trans {s t u : State} (h : Kept s t) (g : Kept t u) : Kept s u :=
  ⟨h.toPartKept.trans g.toPartKept, Collected.trans h.canonical h.collections g.collections⟩

/-! ### The laws read few fields -/

theorem portAt_of_control {s t : State} (h : SameControl s t) (p : Port) : portAt t p = portAt s p := by
  obtain ⟨-, -, -, ha, hb, -⟩ := h
  cases p
  · exact ha
  · exact hb

theorem ableToSend_of_control {s t : State} (h : SameControl s t) (p : Port) : ableToSend t p = ableToSend s p := by
  simp only [ableToSend, portAt_of_control h]

theorem portsAllowed_of_control {s t : State} (h : SameControl s t) (m : Mode) : portsAllowed t m = portsAllowed s m := by
  have ha := portAt_of_control h .a
  have hb := portAt_of_control h .b
  simp only [portAt] at ha hb
  cases m <;> simp only [portsAllowed, ha, hb, ableToSend_of_control h]

theorem AuthorityLaw.of_same {s t : State} (hm : t.mode = s.mode) (hl : t.lease.grant = s.lease.grant)
    (hp : ∀ m, portsAllowed t m = portsAllowed s m) (h : AuthorityLaw s) : AuthorityLaw t := by
  unfold AuthorityLaw
  rw [hm, hl, hp]
  exact h

theorem AuthorityLaw.of_control {s t : State} (hc : SameControl s t) (hm : t.mode = s.mode) (h : AuthorityLaw s) : AuthorityLaw t :=
  h.of_same hm (by obtain ⟨-, -, -, -, -, -, -, -, hl, -⟩ := hc; rw [hl]) (portsAllowed_of_control hc)

/-- READY asks nothing of the lease and the ports (R151, R155). -/
theorem AuthorityLaw.of_ready {s : State} (h : s.mode = .ready) : AuthorityLaw s := by
  unfold AuthorityLaw
  rw [h]
  exact ⟨fun x => (Mode.noConfusion x), rfl⟩

theorem BudgetLaw.of_same {s t : State} (hp : t.pacing = s.pacing) (hs : t.settings = s.settings) (h : BudgetLaw s) : BudgetLaw t := by
  unfold BudgetLaw
  rw [hp, hs]
  exact h

theorem BudgetLaw.of_control {s t : State} (hc : SameControl s t) (h : BudgetLaw s) : BudgetLaw t := by
  obtain ⟨-, -, hp, -, -, -, -, -, -, hs, -⟩ := hc
  exact h.of_same hp hs

theorem allIdle_congr {s t : State} (h : ∀ i, (laneAt t i).isNone = (laneAt s i).isNone) : allIdle t = allIdle s := by
  simp only [allIdle, h]

theorem LaneModeLaw.of_same {s t : State} (hm : t.mode = s.mode) (hi : ∀ i, (laneAt t i).isNone = (laneAt s i).isNone)
    (h : LaneModeLaw s) : LaneModeLaw t := by
  unfold LaneModeLaw
  rw [hm, allIdle_congr hi]
  exact h

theorem LaneModeLaw.of_ready {s : State} (h : s.mode = .ready) (hi : allIdle s = true) : LaneModeLaw s := by
  unfold LaneModeLaw
  rw [h]
  exact ⟨fun _ => hi, fun x => Mode.noConfusion x⟩

/-- No more lanes are of class BACKGROUND and the reserve is as it was. -/
theorem ReserveLaw.of_le {s t : State} (hb : backgroundLanes t ≤ backgroundLanes s) (hs : t.settings.reserve = s.settings.reserve)
    (h : ReserveLaw s) : ReserveLaw t := by
  unfold ReserveLaw at *
  rw [hs]
  exact Nat.le_trans hb h

theorem backgroundLanes_of_lanes {s t : State} (h : t.lanes = s.lanes) : backgroundLanes t ≤ backgroundLanes s := by
  simp only [backgroundLanes, laneAt, h, Nat.le_refl]

/-- The law holds where every lane is IDLE. -/
theorem ReserveLaw.of_idle {s : State} (h : allIdle s = true) : ReserveLaw s := by
  have e : backgroundLanes s = 0 := by
    refine List.countP_eq_zero.mpr fun i hi => ?_
    have := List.all_eq_true.mp h i hi
    cases hj : laneAt s i with
    | none => simp
    | some j => simp [hj] at this
  unfold ReserveLaw
  rw [e]
  exact Nat.zero_le _

theorem ReserveLaw.of_control {s t : State} (hc : SameControl s t) (hb : backgroundLanes t ≤ backgroundLanes s) (h : ReserveLaw s) : ReserveLaw t := by
  obtain ⟨-, -, -, -, -, -, -, -, -, hs, -⟩ := hc
  exact h.of_le hb (by rw [hs])

theorem PlacedLaw.of_same {s t : State} (hr : t.records = s.records) (h : PlacedLaw s) : PlacedLaw t := by
  intro n l hl
  refine h n l ?_
  unfold liveAt recordAt at hl ⊢
  rw [← hr]
  exact hl

/-- The parts of the state that the laws of the table read are as they were. -/
structure SameTables (s t : State) : Prop where
  records : t.records = s.records
  freeList : t.freeList = s.freeList
  liveCount : t.liveCount = s.liveCount
  index : t.index = s.index
  dram : t.dram = s.dram
  nodes : t.nodes = s.nodes
  fetch : t.fetch = s.fetch

theorem SameTables.refl (s : State) : SameTables s s :=
  ⟨rfl, rfl, rfl, rfl, rfl, rfl, rfl⟩

theorem SameTables.trans {s t u : State} (h : SameTables s t) (g : SameTables t u) : SameTables s u :=
  ⟨g.records.trans h.records, g.freeList.trans h.freeList, g.liveCount.trans h.liveCount, g.index.trans h.index, g.dram.trans h.dram,
    g.nodes.trans h.nodes, g.fetch.trans h.fetch⟩

/-- A change that leaves the table as a movement left it keeps the laws of the table. -/
theorem Movement.kept_after {s u t : State} (h : Movement s u) (g : SameTables u t) (ha : AuthorityLaw s → AuthorityLaw t)
    (hb : BudgetLaw s → BudgetLaw t) (hl : LaneModeLaw s → LaneModeLaw t) (hres : LaneModeLaw s → ReserveLaw s → ReserveLaw t) : Kept s t := by
  refine ⟨⟨ha, hb, hl, fun hp => (h.placed hp).of_same g.records, fun hc => ?_, hres⟩,
    Collected.trans h.canonical h.collections (Collected.of_same g.records g.freeList g.liveCount g.index)⟩
  simpa [CanonicalTables, g.records, g.freeList, g.index, g.dram, g.nodes, g.fetch] using h.canonical hc

/-- A change that leaves the table. -/
theorem SameTables.kept {s t : State} (g : SameTables s t) (ha : AuthorityLaw s → AuthorityLaw t) (hb : BudgetLaw s → BudgetLaw t)
    (hl : LaneModeLaw s → LaneModeLaw t) (hres : LaneModeLaw s → ReserveLaw s → ReserveLaw t) : Kept s t :=
  (Movement.refl s).kept_after g ha hb hl hres

/-- A movement that moves no lane between IDLE and busy keeps the laws. -/
theorem Movement.kept {s t : State} (h : Movement s t) (hi : ∀ i, (laneAt t i).isNone = (laneAt s i).isNone) : Kept s t :=
  ⟨⟨AuthorityLaw.of_control h.control h.mode, BudgetLaw.of_control h.control, LaneModeLaw.of_same h.mode hi, h.placed, h.canonical,
    fun _ => ReserveLaw.of_control h.control h.background⟩, h.collections⟩

theorem Movement.kept_of_lanes {s t : State} (h : Movement s t) (hl : t.lanes = s.lanes) : Kept s t :=
  h.kept (fun i => by simp only [laneAt, hl])

/-- A change outside all the parts that the laws read. -/
theorem Kept.of_same {s t : State} (hc : t.mode = s.mode) (hl : t.lease.grant = s.lease.grant)
    (hp : ∀ m, portsAllowed t m = portsAllowed s m) (hpc : t.pacing = s.pacing)
    (hst : refillValue t.settings = refillValue s.settings) (hres : t.settings.reserve = s.settings.reserve) (hlanes : t.lanes = s.lanes)
    (g : SameTables s t) : Kept s t := by
  refine g.kept (AuthorityLaw.of_same hc hl hp) (fun h => ?_) (LaneModeLaw.of_same hc (fun i => by simp only [laneAt, hlanes]))
    (fun _ => ReserveLaw.of_le (backgroundLanes_of_lanes hlanes) hres)
  unfold BudgetLaw
  rw [hpc, hst]
  exact h

/-- The end of a command keeps the laws: it changes only the events and what was sent. -/
theorem commit_next (old s : State) : ∃ t, commit old s = .next t ∧ Kept s t ∧ t.pending = s.pending := by
  refine ⟨_, rfl, ?_, ?_⟩
  · have hu : Kept s (signalUrgent old.events s) := by
      unfold signalUrgent emit
      split
      · split
        · exact Kept.refl s
        · split <;> exact Kept.of_same rfl rfl (fun _ => rfl) rfl rfl rfl rfl ⟨rfl, rfl, rfl, rfl, rfl, rfl, rfl⟩
      · exact Kept.of_same rfl rfl (fun _ => rfl) rfl rfl rfl rfl ⟨rfl, rfl, rfl, rfl, rfl, rfl, rfl⟩
    refine hu.trans ?_
    unfold signalRoutine emit
    split
    · split
      · exact Kept.refl _
      · split <;> exact Kept.of_same rfl rfl (fun _ => rfl) rfl rfl rfl rfl ⟨rfl, rfl, rfl, rfl, rfl, rfl, rfl⟩
    · exact Kept.of_same rfl rfl (fun _ => rfl) rfl rfl rfl rfl ⟨rfl, rfl, rfl, rfl, rfl, rfl, rfl⟩
  · unfold signalRoutine signalUrgent emit
    repeat' split
    all_goals rfl

/-- A command that ends with `commit` keeps what its change keeps. -/
theorem commit_kept {s u t : State} (h : Kept s u) (ht : commit s u = .next t) : Kept s t := by
  obtain ⟨v, hv, hk, -⟩ := commit_next s u
  rw [hv] at ht
  cases ht
  exact h.trans hk

/-! ### Replies, counts, flags, reads -/

theorem count_kept (c : Counter) (s : State) : Kept s (count c s) :=
  (count_steady c s).toMovement.kept_of_lanes rfl

theorem raise_kept (e : Event) (s : State) : Kept s (raise e s) :=
  (raise_steady e s).toMovement.kept_of_lanes rfl

theorem sendReply_lanes (a : Asker) (k : Byte) (st : Status) (fl : Byte) (r : List Byte) (s : State) :
    (sendReply a k st fl r s).lanes = s.lanes := by
  unfold sendReply
  split <;> rfl

theorem answer_kept (a : Asker) (k : Byte) (st : Status) (fl : Byte) (r : List Byte) (s : State) : Kept s (answer a k st fl r s) := by
  refine (answer_steady a k st fl r s).toMovement.kept_of_lanes ?_
  unfold answer
  rw [sendReply_lanes]
  split <;> rfl

theorem reply_kept (f : Frame) (k : Kind) (st : Status) (r : List Byte) (s : State) : Kept s (reply f k st r s) :=
  answer_kept ..

theorem setNode_kept (k : Nat) (v : Node) (s : State) : Kept s (setNode k v s) :=
  (setNode_steady k v s).toMovement.kept_of_lanes rfl

theorem strike_kept (ds : List Damage) (s : State) : Kept s (strike ds s) := by
  refine (strike_steady ds s).toMovement.kept_of_lanes ?_
  unfold strike
  induction ds generalizing s with
  | nil => rfl
  | cons d ds ih =>
    refine (ih _).trans ?_
    show (strikeOne d s).lanes = s.lanes
    unfold strikeOne
    split <;> rfl

theorem readWord_kept (w : TableWord) (s : State) : Kept s (readWord w s).2 :=
  (readWord_steady w s).toMovement.kept_of_lanes (readWord_parts w s).2

theorem readFields_kept (n : Nat) (fs : List RecField) (s : State) : Kept s (readFields n fs s).2 :=
  (readFields_steady n fs s).toMovement.kept_of_lanes (readFields_parts n fs s).2

/-! ### Any movement is whole once `settle` follows it -/

/-- `settle` after a movement: in DRAIN the mode becomes READY when the last lane has become IDLE (R157). -/
theorem Movement.settle_kept {s u : State} (h : Movement s u) : Kept s (settle u) := by
  have hw : Movement s (handRoom u) := h.trans (handRoom_steady u).toMovement
  unfold settle
  generalize handRoom u = w at hw
  unfold endDrain
  split
  case isFalse hn =>
    refine ⟨⟨AuthorityLaw.of_control hw.control hw.mode, BudgetLaw.of_control hw.control, fun hl => ?_, hw.placed, hw.canonical,
      fun _ => ReserveLaw.of_control hw.control hw.background⟩, hw.collections⟩
    refine ⟨fun hm => ?_, fun hm => ?_⟩
    · rw [hw.mode] at hm
      exact (allIdle_iff w).mpr (fun i => hw.idle i ((allIdle_iff s).mp (hl.1 hm) i))
    · exact Bool.eq_false_iff.mpr (fun hi => hn ⟨hm, hi⟩)
  case isTrue hd =>
    obtain ⟨hm, hi⟩ := hd
    have hne : ¬ w.mode = .ready := by rw [hm]; exact fun x => Mode.noConfusion x
    unfold setMode
    rw [if_neg hne]
    refine Kept.trans ?_ (raise_kept ..)
    exact hw.kept_after ⟨rfl, rfl, rfl, rfl, rfl, rfl, rfl⟩ (fun _ => AuthorityLaw.of_ready rfl) (fun hb => BudgetLaw.of_control hw.control hb)
      (fun _ => LaneModeLaw.of_ready rfl hi) (fun _ _ => ReserveLaw.of_idle hi)

theorem settle_kept (s : State) : Kept s (settle s) :=
  (Movement.refl s).settle_kept

/-- `finish` after a movement. -/
theorem Movement.finish_kept {s u : State} (h : Movement s u) (f : Frame) (k : Kind) (st : Status) (r : List Byte) :
    Kept s (finish f k st r u) :=
  h.settle_kept.trans (reply_kept ..)

theorem requestRead_kept (n : Nat) (ids work : List RecField) (s : State) : Kept s (requestRead n ids work s).2 := by
  unfold requestRead
  simp only
  split
  case isTrue h => exact (readRecordFields_steady n ids work s).toMovement.kept_of_lanes (readRecordFields_ok h).2.1
  case isFalse => exact (readRecordFields_steady n ids work s).toMovement.settle_kept

/-! ### The way of a frame -/

theorem receive_kept {f : Frame} {act : State → State} {s : State} (h : Kept s (act s)) : Kept s (receive f act s) := by
  unfold receive
  split
  · split
    · exact count_kept ..
    · exact h
  · exact Kept.refl s

theorem request_kept {ρ : Type} {k : Kind} {b : Bool} {f : Frame} {body : Option ρ} {act : ρ → State → State} {s : State}
    (h : ∀ r, body = some r → Kept s (act r s)) : Kept s (request k b f body act s) := by
  refine receive_kept ?_
  split
  · exact reply_kept ..
  · split
    · exact reply_kept ..
    · exact h _ rfl

theorem nodeAnswer_kept {ρ : Type} {f : Frame} {body : Option ρ} {act : ρ → State → State} {s : State}
    (h : ∀ r, body = some r → Kept s (act r s)) : Kept s (nodeAnswer f body act s) := by
  refine receive_kept ?_
  split
  · exact count_kept ..
  · split
    · exact count_kept ..
    · exact h _ rfl

/-- Stage 2 of R38 keeps the laws, and the record it lets through is live. -/
theorem identify_kept (r : RecordName) (s : State) : Kept s (identify r s).2 := by
  unfold identify
  split
  · simp only
    split
    · exact readFields_kept ..
    · split
      · exact readFields_kept ..
      · exact (readFields_kept ..).trans (count_kept ..)
  · split
    · exact Kept.refl s
    · simp only
      split
      · exact requestRead_kept ..
      · split
        · exact requestRead_kept ..
        · exact (requestRead_kept ..).trans (count_kept ..)

/-- The record that stage 2 lets through is still live after it, with what it held. -/
theorem identify_live {r : RecordName} {s s1 : State} {l : Live} (h : identify r s = (.ok l, s1)) : liveAt s1 r.number = some l := by
  unfold identify at h
  split at h
  · simp only at h
    split at h
    · cases h
    · split at h <;> cases h
  · rename_i l' hl
    split at h
    · cases h
    · simp only at h
      split at h
      · cases h
      · rename_i hok
        split at h
        · injection h with h1 h2
          injection h1 with h1
          subst h1 h2
          unfold requestRead at hok ⊢
          simp only at hok ⊢
          split at hok
          · rename_i hr
            rw [if_pos hr]
            unfold liveAt recordAt at hl ⊢
            rw [(readRecordFields_ok hr).1]
            exact hl
          · simp at hok
        · cases h

theorem onRecord_kept {f : Frame} {k : Kind} {r : RecordName} {act : Live → State → State} {s : State}
    (h : ∀ l s1, liveAt s1 r.number = some l → Kept s1 (act l s1)) : Kept s (onRecord f k r act s) := by
  have hk := identify_kept r s
  unfold onRecord
  split
  · rename_i st s1 he
    rw [he] at hk
    exact hk.trans (reply_kept ..)
  · rename_i l s1 he
    rw [he] at hk
    exact hk.trans (h l s1 (identify_live he))

end Sys2Proof.Machine
end

