-- ==== Sys2Proof/Laws/Commands.lean ====
section
/-! SUPPORT. One lemma for each meaning: its change keeps the laws of Safety.lean. -/

namespace Sys2Proof.Machine

/-! ### Record requests -/

theorem lookup_kept (key : StripeKey) (s : State) : Kept s (lookup key s).2 := by
  have h : ∀ (ws : List Nat) (acc : Lookup × State), Kept acc.2 (ws.foldl (lookupWay key (bucketOf key)) acc).2 := by
    intro ws
    induction ws with
    | nil => exact fun acc => Kept.refl _
    | cons w ws ih =>
      intro acc
      refine Kept.trans ?_ (ih _)
      unfold lookupWay
      simp only
      split
      · split <;> exact readWord_kept ..
      · exact readWord_kept ..
  exact h _ ({ hit := none, empty := none, unreadable := false }, s)

theorem writeWord_kept (w : TableWord) (s : State) : Kept s (writeWord w s) :=
  (writeWord_steady w s).toMovement.kept_of_lanes rfl

theorem writeFields_lanes (n : Nat) (fs : List RecField) (s : State) : (writeFields n fs s).lanes = s.lanes := by
  unfold writeFields
  induction fs generalizing s with
  | nil => rfl
  | cons f fs ih => exact ih _

theorem writeFields_kept (n : Nat) (fs : List RecField) (s : State) : Kept s (writeFields n fs s) :=
  (writeFields_steady n fs s).toMovement.kept_of_lanes (writeFields_lanes n fs s)

theorem foldl_setNode_lanes (g : State → Nat → Node) (ks : List Nat) (s : State) :
    (ks.foldl (fun s k => setNode k (g s k) s) s).lanes = s.lanes := by
  induction ks generalizing s with
  | nil => rfl
  | cons k ks ih => exact ih _

theorem raiseRefs_kept (ks : List Nat) (s : State) : Kept s (raiseRefs ks s) :=
  (raiseRefs_steady ks s).toMovement.kept_of_lanes (foldl_setNode_lanes _ ks s)

theorem lowerRefs_kept (ks : List Nat) (s : State) : Kept s (lowerRefs ks s) :=
  (lowerRefs_steady ks s).toMovement.kept_of_lanes (foldl_setNode_lanes _ ks s)

theorem adjustRefs_kept (old new : List Nat) (s : State) : Kept s (adjustRefs old new s) :=
  (raiseRefs_kept ..).trans (lowerRefs_kept ..)

theorem joinQueue_kept (n : Nat) (c : RecordClass) (s : State) : Kept s (joinQueue n c s) := by
  refine (joinQueue_steady n c s).toMovement.kept_of_lanes ?_
  unfold joinQueue
  split <;> rfl

/-- A record written with counts in order (R12): what a part of a creation or a freeing does. -/
theorem setRecord_part {n : Nat} {r : Record} {s : State} (h : ∀ l, r.live = some l → PlacedLaw s → PlacedCounts l) :
    PartKept s (setRecord n r s) := by
  refine ⟨id, id, id, fun hp k l hl => ?_, fun hc => ?_, fun _ => id⟩
  · by_cases hk : k = n
    · subst hk
      refine h l ?_ hp
      unfold liveAt at hl
      rw [recordAt_setRecord_same] at hl
      exact hl
    · refine hp k l ?_
      unfold liveAt at hl ⊢
      rw [recordAt_setRecord_other _ hk] at hl
      exact hl
  · obtain ⟨h1, h2, h3, h4, h5, h6⟩ := hc
    exact ⟨Sparse.set_wf h1 _ _, h2, h3, h4, h5, h6⟩

theorem setIndex_part (k : Nat) (e : Option IndexEntry) (s : State) :
    PartKept s { s with index := Sparse.set emptyWay s.index k e } := by
  refine ⟨id, id, id, id, fun hc => ?_, fun _ => id⟩
  obtain ⟨h1, h2, h3, h4, h5, h6⟩ := hc
  exact ⟨h1, h2, Sparse.set_wf h3 _ _, h4, h5, h6⟩

/-- A live record written with its counts in order, its key and its way as they were. -/
theorem setLive_kept {n : Nat} {l m : Live} {s : State} (hl : liveAt s n = some m) (hk : l.key = m.key) (hw : l.way = m.way)
    (h : PlacedLaw s → PlacedCounts l) : Kept s (setLive n l s) :=
  (setLive_steady hl hk hw h).toMovement.kept_of_lanes rfl

theorem setWatch_kept (n : Nat) (w : Option Watch) (s : State) : Kept s (setWatch n w s) := by
  unfold setWatch
  split
  · exact Kept.refl s
  · rename_i l hl
    refine Kept.trans ?_ (writeFields_kept ..)
    exact setLive_kept hl rfl rfl (fun hp => (hp n l hl).of_same rfl rfl id)

theorem newLive_counts {r : DefineReq} (hlen : badLength r.length = false) (c : RecordClass) (src : EthAddr) (way : Nat)
    (stamp : BitVec 32) : PlacedCounts (newLive r c src way stamp) := by
  have hseg : 1 ≤ segmentTotal r.length := by
    have h0 : r.length ≠ 0 := by
      intro h
      simp [badLength, h] at hlen
    simp only [segmentTotal]
    omega
  refine ⟨hseg, fun t ht => ?_, fun h => ?_⟩
  · simp only [newLive, newTargets, List.mem_map] at ht
    obtain ⟨e, -, he⟩ := ht
    subst he
    refine ⟨Nat.zero_le _, ?_⟩
    constructor
    · intro h; cases h
    · intro h
      simp only [newLive] at h
      omega
  · cases h

theorem createRecord_part {n : Nat} {g : Generation} {l : Live} {s : State} (h : PlacedCounts l) : PartKept s (createRecord n g l s) := by
  unfold createRecord
  have h1 : PartKept s { s with freeList := { s.freeList with head := s.freeList.head + 1 } } :=
    ⟨id, id, id, id, id, fun _ => id⟩
  have h2 := h1.trans (setRecord_part (n := n) (r := { generation := g, live := some l }) (fun m hm _ => by cases hm; exact h))
  have h3 := h2.trans (writeFields_kept n (identityFields ++ workFields) _).toPartKept
  have h4 := (h3.trans (setIndex_part (8 * bucketOf l.key + l.way) (some { record := n, key := l.key }) _)).trans
    (writeWord_kept (.way (bucketOf l.key) l.way) _).toPartKept
  have h5 := (h4.trans (raiseRefs_kept (slotsNamed l.sources l.targets) _).toPartKept).trans (joinQueue_kept n l.cls _).toPartKept
  simp only
  split
  · refine PartKept.trans (h5.trans ?_) (raise_kept ..).toPartKept
    exact ⟨id, id, id, id, id, fun _ => id⟩
  · refine h5.trans ?_
    exact ⟨id, id, id, id, id, fun _ => id⟩

theorem keyedAt_setRecord (n k : Nat) (r : Record) (s : State) :
    keyedAt (setRecord n r s) k = if k = n then r.live.map (fun l => (l.key, l.way)) else keyedAt s k := by
  by_cases h : k = n
  · subst h
    rw [if_pos rfl, keyedAt, liveAt, recordAt_setRecord_same]
  · rw [if_neg h, keyedAt, keyedAt, liveAt, liveAt, recordAt_setRecord_other _ h]

/-- A creation, in its parts: the number taken and the record made, the way filled, one more live. -/
theorem createRecord_shape (n : Nat) (g : Generation) (l : Live) (s : State) : ∃ u v,
    Steady (setRecord n { generation := g, live := some l } { s with freeList := { s.freeList with head := s.freeList.head + 1 } }) u
      ∧ Steady { u with index := Sparse.set emptyWay u.index (8 * bucketOf l.key + l.way) (some { record := n, key := l.key }) } v
      ∧ (createRecord n g l s = { v with liveCount := v.liveCount + 1 }
        ∨ createRecord n g l s = raise .tableHigh { v with liveCount := v.liveCount + 1 }) := by
  refine ⟨_, _, writeFields_steady n (identityFields ++ workFields) _,
    ((writeWord_steady (.way (bucketOf l.key) l.way) _).trans (raiseRefs_steady (slotsNamed l.sources l.targets) _)).trans
      (joinQueue_steady n l.cls _), ?_⟩
  unfold createRecord
  simp only
  split
  · exact .inr rfl
  · exact .inl rfl

/-- What a creation does to the collections (R42). -/
theorem createRecord_collections (n : Nat) (g : Generation) (l : Live) (s : State) :
    (createRecord n g l s).freeList = { s.freeList with head := s.freeList.head + 1 } ∧ (createRecord n g l s).liveCount = s.liveCount + 1
      ∧ (createRecord n g l s).index = Sparse.set emptyWay s.index (8 * bucketOf l.key + l.way) (some { record := n, key := l.key })
      ∧ ∀ k, keyedAt (createRecord n g l s) k = if k = n then some (l.key, l.way) else keyedAt s k := by
  obtain ⟨u, v, hu, hv, he⟩ := createRecord_shape n g l s
  have hf : v.freeList = { s.freeList with head := s.freeList.head + 1 } := hv.freeList.trans hu.freeList
  have hl : v.liveCount = s.liveCount := hv.liveCount.trans hu.liveCount
  have hx : v.index = Sparse.set emptyWay s.index (8 * bucketOf l.key + l.way) (some { record := n, key := l.key }) := by
    rw [hv.index]
    simp only [show u.index = s.index from hu.index]
  have hk : ∀ k, keyedAt v k = if k = n then some (l.key, l.way) else keyedAt s k := fun k =>
    (hv.keyed k).trans ((hu.keyed k).trans (keyedAt_setRecord n k _ _))
  rcases he with e | e <;> rw [e] <;> exact ⟨hf, congrArg (· + 1) hl, hx, hk⟩

theorem createRecord_kept {g : Generation} {l : Live} {s : State} (h : PlacedCounts l) (hroom : s.liveCount < 65536) (hw : l.way < 8)
    (hempty : wayAt s (bucketOf l.key) l.way = none) (habsent : KeyAbsent s l.key) : Kept s (createRecord (headNumber s) g l s) := by
  have hp := createRecord_part (n := headNumber s) (g := g) (s := s) h
  obtain ⟨h1, h2, h3, h4⟩ := createRecord_collections (headNumber s) g l s
  exact ⟨hp, Collected.created hp.canonical hroom h1 h2 h3 hw hempty habsent h4⟩

theorem lookupWay_index (key : StripeKey) (b : Nat) (acc : Lookup × State) (v : Nat) : (lookupWay key b acc v).2.index = acc.2.index := by
  have hi := (readWord_steady (.way b v) acc.2).index
  unfold lookupWay
  simp only
  split
  · split <;> exact hi
  · exact hi

theorem foldl_lookupWay_index (key : StripeKey) (b : Nat) (ws : List Nat) (acc : Lookup × State) :
    (ws.foldl (lookupWay key b) acc).2.index = acc.2.index := by
  induction ws generalizing acc with
  | nil => rfl
  | cons v ws ih => exact (ih _).trans (lookupWay_index ..)

/-- What one way read says, where the lookup meets no hit and reads every way: the way does not hold the key, and an empty way is found here or was before. -/
theorem lookupWay_miss {key : StripeKey} {b v : Nat} {acc : Lookup × State} (hu : (lookupWay key b acc v).1.unreadable = false)
    (hh : (lookupWay key b acc v).1.hit = none) : acc.1.unreadable = false ∧ acc.1.hit = none ∧ (∀ e, wayAt acc.2 b v = some e → e.key ≠ key)
      ∧ ∀ w, (lookupWay key b acc v).1.empty = some w → acc.1.empty = some w ∨ (w = v ∧ wayAt acc.2 b v = none) := by
  rw [wayAt]
  unfold lookupWay at hu hh ⊢
  generalize Sparse.get emptyWay acc.2.index (8 * b + v) = x at hu hh ⊢
  simp only at hu hh ⊢
  split at hu
  · rename_i hr
    rw [if_pos hr] at hh ⊢
    cases x with
    | none =>
      refine ⟨hu, hh, fun e h => (nomatch h), fun w h => ?_⟩
      cases ha : acc.1.empty with
      | none =>
        simp only [ha] at h
        cases h
        exact .inr ⟨rfl, rfl⟩
      | some y =>
        simp only [ha] at h
        exact .inl h
    | some e =>
      simp only at hu hh ⊢
      by_cases hk : e.key = key
      · rw [if_pos hk] at hh
        cases hh
      · rw [if_neg hk] at hu hh ⊢
        exact ⟨hu, hh, fun e' he => by cases he; exact hk, fun w h => .inl h⟩
  · cases hu

theorem foldl_lookupWay_miss {key : StripeKey} {b : Nat} {s : State} (ws : List Nat) (acc : Lookup × State) (hs : acc.2.index = s.index)
    (hu : (ws.foldl (lookupWay key b) acc).1.unreadable = false) (hh : (ws.foldl (lookupWay key b) acc).1.hit = none) :
    acc.1.unreadable = false ∧ acc.1.hit = none ∧ (∀ v ∈ ws, ∀ e, wayAt s b v = some e → e.key ≠ key)
      ∧ ∀ w, (ws.foldl (lookupWay key b) acc).1.empty = some w → acc.1.empty = some w ∨ (w ∈ ws ∧ wayAt s b w = none) := by
  induction ws generalizing acc with
  | nil => exact ⟨hu, hh, fun v hv => (List.not_mem_nil hv).elim, fun w h => .inl h⟩
  | cons v ws ih =>
    obtain ⟨i1, i2, i3, i4⟩ := ih (lookupWay key b acc v) ((lookupWay_index ..).trans hs) hu hh
    obtain ⟨j1, j2, j3, j4⟩ := lookupWay_miss i1 i2
    have hway : wayAt acc.2 b v = wayAt s b v := by rw [wayAt, wayAt, hs]
    rw [hway] at j3 j4
    refine ⟨j1, j2, fun x hx e he => ?_, fun w h => ?_⟩
    · rcases List.mem_cons.mp hx with rfl | hx
      · exact j3 e he
      · exact i3 x hx e he
    · rcases i4 w h with h | ⟨h1, h2⟩
      · refine (j4 w h).imp_right fun ⟨h1, h2⟩ => ?_
        subst h1
        exact ⟨List.mem_cons_self .., h2⟩
      · exact .inr ⟨List.mem_cons_of_mem _ h1, h2⟩

/-- A lookup that meets no hit, no unreadable way and an empty way: no way holds the key, and the way is empty (R29). -/
theorem lookup_miss {key : StripeKey} {w : Nat} {s : State} (hh : (lookup key s).1.hit = none) (hu : (lookup key s).1.unreadable = false)
    (he : (lookup key s).1.empty = some w) : KeyAbsent s key ∧ w < 8 ∧ wayAt s (bucketOf key) w = none := by
  unfold lookup at hh hu he
  unfold KeyAbsent
  generalize bucketOf key = b at hh hu he ⊢
  obtain ⟨-, -, h3, h4⟩ := foldl_lookupWay_miss (s := s) _ _ rfl hu hh
  obtain ⟨hm, hn⟩ := (h4 w he).resolve_left (fun h => nomatch h)
  exact ⟨fun v e hv => h3 v (List.mem_range.mpr hv) e, List.mem_range.mp hm, hn⟩

theorem lookup_index (key : StripeKey) (s : State) : (lookup key s).2.index = s.index := by
  unfold lookup
  generalize bucketOf key = b
  exact foldl_lookupWay_index ..

/-- The creation after the reads that precede it: they leave what the collections' laws read. -/
theorem createAfter_kept {g : Generation} {l : Live} {n : Nat} {s t u : State} (hi : t.index = s.index) (hs : Steady t u)
    (hn : n = headNumber t) (h : PlacedCounts l) (hroom : t.liveCount < 65536) (hw : l.way < 8)
    (hempty : wayAt s (bucketOf l.key) l.way = none) (habsent : KeyAbsent s l.key) : Kept u (createRecord n g l u) := by
  have hway : ∀ b v, wayAt u b v = wayAt s b v := fun b v => by rw [wayAt, wayAt, hs.index, hi]
  have hh : n = headNumber u := by rw [hn, headNumber, headNumber, hs.freeList]
  rw [hh]
  exact createRecord_kept h (hs.liveCount ▸ hroom) hw ((hway ..).trans hempty) (fun v e hv he => habsent v e hv ((hway ..).symm.trans he))

theorem defineChecked_kept {f : Frame} {r : DefineReq} {c : RecordClass} {e : Option Edge} {s : State}
    (hlen : badLength r.length = false) : Kept s (defineChecked f r c e s) := by
  have hl := lookup_kept r.key s
  have hx := lookup_index r.key s
  have hm := @lookup_miss r.key
  unfold defineChecked
  simp only
  split
  · exact (hl.trans (requestRead_kept ..)).trans (reply_kept ..)
  · rename_i hhit
    split
    · rename_i w hread hempty
      obtain ⟨ha, hw, hn⟩ := hm hhit hread hempty
      generalize (lookup r.key s).2 = t at hl hx ⊢
      split
      · exact hl.trans (reply_kept ..)
      · rename_i hroom
        have hs := readWord_steady (.freeEntry t.freeList.head.toNat) t
        have hk := readWord_kept (.freeEntry t.freeList.head.toNat) t
        generalize readWord (.freeEntry t.freeList.head.toNat) t = v at hs hk ⊢
        split
        · exact (hl.trans hk).trans (reply_kept ..)
        · refine (((hl.trans hk).trans (readFields_kept (headNumber v.2) [.state, .generation] v.2)).trans ?_).trans ((setWatch_kept ..).trans (reply_kept ..))
          refine createAfter_kept (hs.index.trans hx) (readFields_steady ..) rfl (newLive_counts hlen ..) ?_ hw hn ha
          rw [hs.liveCount]
          exact Nat.lt_of_not_le hroom
    · exact (hl.trans (raise_kept ..)).trans (reply_kept ..)

theorem onDefine_kept (f : Frame) (s : State) : Kept s (onDefine f s) := by
  refine request_kept (fun r _ => ?_)
  unfold applyDefine
  split
  · split
    · exact reply_kept ..
    · rename_i hlen
      split
      · exact reply_kept ..
      · split
        · exact reply_kept ..
        · exact defineChecked_kept (by simpa using hlen)
  · exact reply_kept ..

theorem leaveHolder_waiting_lanes {n : Nat} {l : Live} {s : State} (h : l.state = .waiting) : (leaveHolder n l s).lanes = s.lanes := by
  unfold leaveHolder
  rw [h]

theorem changeClass_kept {n : Nat} {l : Live} {c : RecordClass} {s : State} (hl : liveAt s n = some l) :
    Kept s (changeClass n l c s) := by
  unfold changeClass
  split
  · exact Kept.refl s
  · split
    · rename_i hw
      refine Kept.trans (Kept.trans (Kept.trans ?_ (setLive_kept ((liveAt_leaveHolder n n l s).trans hl) ?_ ?_ (fun hp => ?_)))
        (writeFields_kept ..)) (joinQueue_kept ..)
      · exact (leaveHolder_steady n l s).toMovement.kept_of_lanes (leaveHolder_waiting_lanes hw)
      · rfl
      · rfl
      · exact (hp n l ((liveAt_leaveHolder n n l s).trans hl)).of_same rfl rfl id
    · refine Kept.trans ?_ (writeFields_kept ..)
      exact setLive_kept hl rfl rfl (fun hp => (hp n l hl).of_same rfl rfl id)

theorem onClass_kept (f : Frame) (s : State) : Kept s (onClass f s) := by
  refine request_kept (fun r _ => ?_)
  split
  · exact reply_kept ..
  · exact onRecord_kept (fun l s1 hl => (changeClass_kept hl).trans (reply_kept ..))

theorem locateOk_kept (f : Frame) (n : Nat) (frag : Option Byte) (s : State) : Kept s (locateOk f n frag s) := by
  unfold locateOk
  split
  · exact reply_kept ..
  · rename_i l hl
    have h : Kept s (if (f.flags.getLsbD 0 && !l.fixed) = true then changeClass n l .foreground s else s) := by
      split
      · exact changeClass_kept hl
      · exact Kept.refl s
    simp only
    split <;> exact h.trans (reply_kept ..)

theorem onLocate_kept (f : Frame) (s : State) : Kept s (onLocate f s) := by
  refine request_kept (fun r _ => ?_)
  have h := lookup_kept r.key s
  unfold applyLocate
  simp only
  split
  · exact h.trans (reply_kept ..)
  · refine h.trans ?_
    unfold locateFound
    simp only
    split
    · exact (requestRead_kept ..).trans (reply_kept ..)
    · split
      · exact (requestRead_kept ..).trans (reply_kept ..)
      · exact ((requestRead_kept ..).trans (requestRead_kept ..)).trans (locateOk_kept ..)

/-- A change of the lists of a live record that keeps its counts in order, then possibly its return to WAITING, then `settle`. -/
theorem applied_kept {f : Frame} {k : Kind} {n : Nat} {s u : State} (h : Movement s u) : Kept s (applied f k n u) :=
  h.finish_kept ..

theorem readWork_live {n m : Nat} {work : List RecField} {s : State} (h : (readWork n work s).1 = true) :
    liveAt (readWork n work s).2 m = liveAt s m := by
  unfold readWork requestRead at h ⊢
  simp only at h ⊢
  split at h
  · rename_i hr
    rw [if_pos hr]
    unfold liveAt recordAt
    rw [(readRecordFields_ok hr).1]
  · cases h

theorem onRevise_kept (f : Frame) (s : State) : Kept s (onRevise f s) := by
  refine request_kept (fun r _ => onRecord_kept (fun l s1 hl => ?_))
  unfold applyRevise
  simp only
  split
  · exact reply_kept ..
  · have hrd := requestRead_kept r.name.number [] [.frags] s1
    split
    · exact hrd.trans (reply_kept ..)
    · rename_i hst hok
      split
      · exact hrd.trans (reply_kept ..)
      · split
        · exact hrd.trans (reply_kept ..)
        · refine hrd.trans (applied_kept ?_)
          have hl1 : liveAt (readWork r.name.number [.frags] s1).2 r.name.number = some l :=
            (readWork_live (by simpa using hok)).trans hl
          refine Movement.trans (t := replaceSources r.name.number l r.sources (readWork r.name.number [.frags] s1).2) ?_ ?_
          · unfold replaceSources
            refine Movement.trans (Movement.trans ?_ (writeFields_steady ..).toMovement) (adjustRefs_steady ..).toMovement
            refine Steady.toMovement (setLive_steady (s := (readWork r.name.number [.frags] s1).2) hl1 rfl rfl (fun hp => ?_))
            exact (hp _ l hl1).of_same rfl rfl id
          · unfold requeueRevised
            split
            · exact (enterWaiting_steady ..).toMovement
            · exact (enterWaiting_steady ..).toMovement
            · exact Movement.refl _

theorem redirected_mem {ts : List Target} {q dest : Nat} {t : Target} (h : t ∈ redirected ts q dest) :
    t ∈ ts ∨ (t.placed = 0 ∧ t.status = .opened) := by
  unfold redirected at h
  obtain ⟨i, hi⟩ := List.mem_iff_getElem?.mp h
  rw [List.getElem?_modify] at hi
  cases hx : ts[i]? with
  | none => rw [hx] at hi; cases hi
  | some x =>
    rw [hx] at hi
    by_cases hq : q = i
    · simp only [hq, if_true, Option.map_eq_map, Option.map_some] at hi
      cases hi
      exact Or.inr ⟨rfl, rfl⟩
    · simp only [hq, if_false, Option.map_eq_map, Option.map_some] at hi
      cases hi
      exact Or.inl (List.mem_iff_getElem?.mpr ⟨i, hx⟩)

/-- The counts of a record other than a PLACED one stay in order when a target is sent elsewhere (R51). -/
theorem PlacedCounts.redirected {l m : Live} (h : PlacedCounts l) {q dest : Nat} (ht : m.targets = redirected l.targets q dest)
    (hs : m.segTotal = l.segTotal) (hst : m.state ≠ .placed) : PlacedCounts m := by
  obtain ⟨h1, h2, -⟩ := h
  refine ⟨hs ▸ h1, fun t hm => ?_, fun hp => absurd hp hst⟩
  rw [ht] at hm
  rw [hs]
  rcases redirected_mem hm with hm | ⟨h0, ho⟩
  · exact h2 t hm
  · refine ⟨by omega, ?_⟩
    rw [ho, h0]
    constructor
    · intro hx; cases hx
    · intro hx; omega

theorem adjustRefs_records (old new : List Nat) (s : State) : (adjustRefs old new s).records = s.records := by
  unfold adjustRefs lowerRefs raiseRefs
  exact (foldl_records (f := fun s k => setNode k { nodeAt s k with refs := (nodeAt s k).refs - 1 } s) (fun _ _ => rfl) _ _).trans
    (foldl_records (f := fun s k => setNode k { nodeAt s k with refs := (nodeAt s k).refs + 1 } s) (fun _ _ => rfl) _ _)

theorem liveAt_replaceTargets (n k : Nat) (l : Live) (ts : List Target) (s : State) :
    liveAt (replaceTargets n l ts s) k = if k = n then some { l with targets := ts } else liveAt s k := by
  unfold replaceTargets
  rw [liveAt_congr (adjustRefs_records ..), liveAt_congr (writeFields_records ..), liveAt_setLive]

/-- A record that a REDIRECT takes out of PLACED has its counts in order again when it has entered WAITING (R51). -/
theorem redirectPlaced_movement {n q dest : Nat} {l : Live} {s : State} (hl : liveAt s n = some l) :
    Movement s (enterWaiting n (replaceTargets n l (redirected l.targets q dest) s)) := by
  have hs : Steady (setLive n { l with targets := redirected l.targets q dest } s)
      (enterWaiting n (replaceTargets n l (redirected l.targets q dest) s)) :=
    ((writeFields_steady ..).trans (adjustRefs_steady ..)).trans (enterWaiting_steady ..)
  have hk : ∀ k, keyedAt (setLive n { l with targets := redirected l.targets q dest } s) k = keyedAt s k := by
    intro k
    by_cases h : k = n
    · rw [h, keyedAt_some (liveAt_setLive_same ..), keyedAt_some hl]
    · rw [keyedAt, keyedAt, liveAt_setLive_other _ h]
  have hc0 : CanonicalTables s → CanonicalTables (setLive n { l with targets := redirected l.targets q dest } s) := by
    intro hc
    obtain ⟨h1, h2, h3, h4, h5, h6⟩ := hc
    exact ⟨Sparse.set_wf h1 _ _, h2, h3, h4, h5, h6⟩
  refine ⟨⟨hs.control, hs.mode, fun hc => hs.canonical ?_, fun hp k m hm => ?_, fun i => hs.lanes i⟩, ?_⟩
  rotate_right
  · exact Collected.trans (t := setLive n { l with targets := redirected l.targets q dest } s) hc0 (Collected.of_keyed hc0 rfl rfl rfl hk) hs.collections
  · obtain ⟨h1, h2, h3, h4, h5, h6⟩ := hc
    exact ⟨Sparse.set_wf h1 _ _, h2, h3, h4, h5, h6⟩
  · rw [liveAt_enterWaiting (l := { l with targets := redirected l.targets q dest }) (by rw [liveAt_replaceTargets, if_pos rfl])] at hm
    by_cases hk : k = n
    · rw [if_pos hk] at hm
      cases hm
      exact (hp n l hl).redirected rfl rfl (fun x => RecState.noConfusion x)
    · rw [if_neg hk, liveAt_replaceTargets, if_neg hk] at hm
      exact hp k m hm

theorem onRedirect_kept (f : Frame) (s : State) : Kept s (onRedirect f s) := by
  refine request_kept (fun r _ => onRecord_kept (fun l s1 hl => ?_))
  unfold applyRedirect
  simp only
  split
  · exact reply_kept ..
  · split
    · exact reply_kept ..
    · have hrd : Kept s1 (readWork r.name.number [.frags, .placed, .status] s1).2 := requestRead_kept ..
      split
      · exact hrd.trans (reply_kept ..)
      · rename_i hok
        have hl1 : liveAt (readWork r.name.number [.frags, .placed, .status] s1).2 r.name.number = some l :=
          (readWork_live (by simpa using hok)).trans hl
        split
        · exact hrd.trans (reply_kept ..)
        · split
          · exact hrd.trans (reply_kept ..)
          · refine hrd.trans (applied_kept ?_)
            have hstay : l.state ≠ .placed → Movement (readWork r.name.number [.frags, .placed, .status] s1).2
                (replaceTargets r.name.number l (redirected l.targets r.position r.dest)
                  (readWork r.name.number [.frags, .placed, .status] s1).2) := by
              intro hst
              unfold replaceTargets
              refine Movement.trans (Movement.trans ?_ (writeFields_steady ..).toMovement) (adjustRefs_steady ..).toMovement
              refine Steady.toMovement (setLive_steady (s := (readWork r.name.number [.frags, .placed, .status] s1).2)
                hl1 rfl rfl (fun hp => ?_))
              exact (hp _ l hl1).redirected rfl rfl hst
            unfold requeueRedirected
            split
            · rename_i hst
              exact (hstay (by rw [hst]; exact fun x => RecState.noConfusion x)).trans (enterWaiting_steady ..).toMovement
            · exact redirectPlaced_movement hl1
            · rename_i hst
              exact hstay hst

theorem onHold_kept (f : Frame) (s : State) : Kept s (onHold f s) := by
  refine request_kept (fun r _ => onRecord_kept (fun l s1 hl => ?_))
  unfold applyHold
  split
  · exact reply_kept ..
  · exact reply_kept ..
  · exact applied_kept (enterHeld_steady ..).toMovement

theorem leaveHolder_lanes {n : Nat} {l : Live} {s : State} (h : l.state ≠ .active) : (leaveHolder n l s).lanes = s.lanes := by
  unfold leaveHolder
  split
  · rfl
  · rfl
  · contradiction
  · rfl
  · rfl

theorem makeNotice_lanes (w : Watch) (b : List Byte) (s : State) : (makeNotice w b s).lanes = s.lanes := by
  unfold makeNotice
  split <;> rfl

theorem notify_lanes (n : Nat) (g : Generation) (w : Option Watch) (o : Byte) (new : Option RecState) (s : State) :
    (notify n g w o new s).lanes = s.lanes := by
  unfold notify
  split
  · split
    · exact makeNotice_lanes ..
    · rfl
  · rfl

theorem enterWaiting_lanes {n : Nat} {l : Live} {s : State} (hl : liveAt s n = some l) (h : l.state ≠ .active) :
    (enterWaiting n s).lanes = s.lanes := by
  unfold enterWaiting
  simp only [hl]
  rw [notify_lanes]
  have hj : ∀ (c : RecordClass) (u : State), (joinQueue n c u).lanes = u.lanes := by
    intro c u
    unfold joinQueue
    split <;> rfl
  rw [hj, writeFields_lanes]
  exact leaveHolder_lanes h

theorem onResume_kept (f : Frame) (s : State) : Kept s (onResume f s) := by
  refine request_kept (fun r _ => onRecord_kept (fun l s1 hl => ?_))
  unfold applyResume
  split
  · exact reply_kept ..
  · rename_i c hne hst
    have hrd := requestRead_kept r.number [] [.status] s1
    simp only
    split
    · exact hrd.trans (reply_kept ..)
    · rename_i hok
      have hl1 : liveAt (readWork r.number [.status] s1).2 r.number = some l :=
        (readWork_live (by simpa using hok)).trans hl
      split
      · exact hrd.trans (reply_kept ..)
      · refine (hrd.trans ?_).trans (reply_kept ..)
        exact (enterWaiting_steady ..).toMovement.kept_of_lanes (enterWaiting_lanes hl1 (by rw [hst]; exact fun x => RecState.noConfusion x))
  · exact reply_kept ..

theorem onWatch_kept (f : Frame) (s : State) : Kept s (onWatch f s) := by
  refine request_kept (fun r _ => ?_)
  split
  · exact reply_kept ..
  · exact onRecord_kept (fun l s1 _ => (setWatch_kept ..).trans (answer_kept ..))

theorem clearIndexEntry_moved (l : Live) (s : State) : Moved s (clearIndexEntry l s) := by
  unfold clearIndexEntry
  refine Moved.trans ?_ (writeWord_steady ..).toMoved
  exact ⟨SameControl.refl _, rfl, (setIndex_part ..).canonical, fun h => h, fun _ => .inr rfl⟩

theorem freeNumber_moved (n : Nat) (g : Generation) (s : State) : Moved s (setRecord n { generation := g, live := none } s) := by
  have hk : PartKept s (setRecord n { generation := g, live := none } s) := setRecord_part (fun m hm _ => by cases hm)
  exact ⟨SameControl.refl _, rfl, hk.canonical, hk.placed, fun _ => .inr rfl⟩

theorem appendFree_moved (n : Nat) (s : State) : Moved s (appendFree n s) := by
  unfold appendFree
  refine Moved.trans ?_ (writeWord_steady ..).toMoved
  refine ⟨SameControl.refl _, rfl, fun hc => ?_, fun h => h, fun _ => .inr rfl⟩
  obtain ⟨c1, c2, c3, c4, c5, c6⟩ := hc
  exact ⟨c1, Sparse.set_wf c2 _ _, c3, c4, c5, c6⟩

theorem enterFree_moved (n : Nat) (s : State) : Moved s (enterFree n s) := by
  unfold enterFree
  split
  · exact Moved.refl s
  · exact (((((leaveHolder_steady ..).trans (notify_steady ..)).toMoved.trans (clearIndexEntry_moved ..)).trans
      (lowerRefs_steady ..).toMoved).trans (freeNumber_moved ..)).trans
      ((writeFields_steady ..).toMoved.trans (appendFree_moved ..))

/-- What a freeing does to the collections (R24). -/
theorem enterFree_collections {n : Nat} {l : Live} {s : State} (hl : liveAt s n = some l) :
    (enterFree n s).freeList = { s.freeList with ring := Sparse.set resetRingEntry s.freeList.ring s.freeList.tail.toNat n, tail := s.freeList.tail + 1 }
      ∧ (enterFree n s).liveCount = s.liveCount - 1
      ∧ (enterFree n s).index = Sparse.set emptyWay s.index (8 * bucketOf l.key + l.way) none
      ∧ ∀ k, keyedAt (enterFree n s) k = if k = n then none else keyedAt s k := by
  unfold enterFree
  simp only [hl]
  have h0 := (leaveHolder_steady n l s).trans
    (notify_steady n (generationAt s n) l.watch (stateCode (some l.state)) none (leaveHolder n l s))
  generalize notify n (generationAt s n) l.watch (stateCode (some l.state)) none (leaveHolder n l s) = u at h0
  unfold clearIndexEntry
  have h1 := (writeWord_steady (.way (bucketOf l.key) l.way) { u with index := Sparse.set emptyWay u.index (8 * bucketOf l.key + l.way) none }).trans
    (lowerRefs_steady (slotsNamed l.sources l.targets) _)
  generalize lowerRefs (slotsNamed l.sources l.targets) _ = v at h1
  have h2 := writeFields_steady n (identityFields ++ workFields) (setRecord n { generation := generationAt s n + 1, live := none } v)
  generalize writeFields n (identityFields ++ workFields) (setRecord n { generation := generationAt s n + 1, live := none } v) = x at h2
  have hf : x.freeList = s.freeList := h2.freeList.trans (h1.freeList.trans h0.freeList)
  have hc : x.liveCount = s.liveCount := h2.liveCount.trans (h1.liveCount.trans h0.liveCount)
  have hx : x.index = Sparse.set emptyWay s.index (8 * bucketOf l.key + l.way) none := by
    refine h2.index.trans (h1.index.trans ?_)
    simp only [h0.index]
  have hk : ∀ k, keyedAt x k = if k = n then none else keyedAt s k := by
    intro k
    refine (h2.keyed k).trans ((keyedAt_setRecord n k _ _).trans ?_)
    by_cases h : k = n
    · rw [if_pos h, if_pos h]
      rfl
    · rw [if_neg h, if_neg h]
      exact (h1.keyed k).trans (h0.keyed k)
  unfold appendFree
  refine ⟨?_, congrArg (· - 1) hc, hx, hk⟩
  change { x.freeList with ring := Sparse.set resetRingEntry x.freeList.ring x.freeList.tail.toNat n, tail := x.freeList.tail + 1 } = _
  rw [hf]

/-- Entry into FREE is a movement (R24). -/
theorem enterFree_movement (n : Nat) (s : State) : Movement s (enterFree n s) := by
  refine ⟨enterFree_moved n s, ?_⟩
  cases hl : liveAt s n with
  | none =>
    have e : enterFree n s = s := by
      unfold enterFree
      rw [hl]
    rw [e]
    exact Collected.refl s
  | some l =>
    obtain ⟨h1, h2, h3, h4⟩ := enterFree_collections hl
    exact Collected.freed (enterFree_moved n s).canonical (keyedAt_some hl) h1 h2 h3 h4

theorem onCancel_kept (f : Frame) (s : State) : Kept s (onCancel f s) := by
  refine request_kept (fun r _ => onRecord_kept (fun l s1 _ => ?_))
  unfold applyCancel
  simp only
  split
  · exact (requestRead_kept ..).trans (reply_kept ..)
  · exact (requestRead_kept ..).trans ((enterFree_movement ..).finish_kept ..)

theorem onRetire_kept (f : Frame) (s : State) : Kept s (onRetire f s) := by
  refine request_kept (fun r _ => onRecord_kept (fun l s1 _ => ?_))
  unfold applyRetire
  split
  · exact (enterFree_movement ..).finish_kept ..
  · exact reply_kept ..

end Sys2Proof.Machine
end

