-- ==== Sys2Proof/Laws/Frames.lean ====
section
/-! SUPPORT. What the shared operations leave alone, and what they change: `RoomHanded` for `settle`, `Abandoned` for lane abandonment, the equations of
`notify`, `sendReply`, `reply` and `commit`. Each relation composes. -/

namespace Sys2Proof.Machine

/-! ### Sending and committing change few fields -/

/-- A notice changes the notice counter, the counters and what was sent (R58). -/
theorem notify_eq (n : Nat) (g : Generation) (w : Option Watch) (o : Byte) (new : Option RecState) (s : State) :
    ∃ c ctr out, notify n g w o new s = { s with noticeCounter := c, counters := ctr, outputs := s.outputs ++ out }
      ∧ ∀ d, d ≠ .noticeDropped → counterValue d (notify n g w o new s) = counterValue d s := by
  unfold notify makeNotice
  split
  · split
    · split
      · exact ⟨_, _, _, rfl, fun _ _ => rfl⟩
      · refine ⟨_, _, [], by simp only [List.append_nil]; rfl, fun d hd => ?_⟩
        exact counterValue_count_other _ hd
    · exact ⟨s.noticeCounter, s.counters, [], by simp only [List.append_nil], fun _ _ => rfl⟩
  · exact ⟨s.noticeCounter, s.counters, [], by simp only [List.append_nil], fun _ _ => rfl⟩

/-- A reply changes the counters and what was sent (R36). -/
theorem sendReply_eq (a : Asker) (k : Byte) (st : Status) (fl : Byte) (r : List Byte) (s : State) :
    ∃ ctr out, sendReply a k st fl r s = { s with counters := ctr, outputs := s.outputs ++ out } := by
  unfold sendReply
  split
  · exact ⟨_, _, rfl⟩
  · exact ⟨_, [], by simp only [List.append_nil]; rfl⟩

theorem reply_eq (f : Frame) (k : Kind) (st : Status) (r : List Byte) (s : State) :
    ∃ ctr out, reply f k st r s = { s with counters := ctr, outputs := s.outputs ++ out } := by
  unfold reply answer
  split
  · obtain ⟨ctr, out, h⟩ := sendReply_eq (askerOf f) k.code st 0 r (count .malformed s)
    exact ⟨ctr, out, h⟩
  · exact sendReply_eq ..

/-- The end of a command changes the pending messages and what was sent (R194, R195). -/
theorem commit_eq (old s : State) :
    ∃ pu pr out, commit old s =
      .next { s with events := { s.events with pendingUrgent := pu, pendingRoutine := pr }, outputs := s.outputs ++ out } := by
  have hu : ∃ pu out, signalUrgent old.events s = { s with events := { s.events with pendingUrgent := pu }, outputs := s.outputs ++ out } := by
    unfold signalUrgent emit
    repeat' split
    · exact ⟨s.events.pendingUrgent, [], by simp only [List.append_nil]⟩
    · exact ⟨_, _, rfl⟩
    · exact ⟨_, [], by simp only [List.append_nil]; rfl⟩
    · exact ⟨_, [], by simp only [List.append_nil]; rfl⟩
  obtain ⟨pu, out, hu⟩ := hu
  have hr : ∀ u : State, ∃ pr out, signalRoutine old.events u =
      { u with events := { u.events with pendingRoutine := pr }, outputs := u.outputs ++ out } := by
    intro u
    unfold signalRoutine emit
    repeat' split
    · exact ⟨u.events.pendingRoutine, [], by simp only [List.append_nil]⟩
    · exact ⟨_, _, rfl⟩
    · exact ⟨_, [], by simp only [List.append_nil]; rfl⟩
    · exact ⟨_, [], by simp only [List.append_nil]; rfl⟩
  obtain ⟨pr, out', hr⟩ := hr (signalUrgent old.events s)
  refine ⟨pu, pr, out ++ out', ?_⟩
  unfold commit
  rw [hr, hu]
  simp only [List.append_assoc]

/-- The end of a command that left flags, enables, classes and the global enable sends nothing (R194). -/
theorem commit_eq_of_events {old s : State} (h : s.events = old.events) :
    ∃ pu pr, commit old s = .next { s with events := { s.events with pendingUrgent := pu, pendingRoutine := pr } } := by
  have hu : ∃ pu, signalUrgent old.events s = { s with events := { s.events with pendingUrgent := pu } } := by
    unfold signalUrgent
    rw [← h]
    split
    · exact ⟨_, rfl⟩
    · exact ⟨_, rfl⟩
  obtain ⟨pu, hu⟩ := hu
  have hr : ∃ pr, signalRoutine old.events (signalUrgent old.events s) =
      { s with events := { s.events with pendingUrgent := pu, pendingRoutine := pr } } := by
    rw [hu, ← h]
    unfold signalRoutine
    split
    · rename_i hc
      have hc : routineCondition s.events = true := hc
      rw [if_pos hc]
      exact ⟨_, rfl⟩
    · exact ⟨_, rfl⟩
  obtain ⟨pr, hr⟩ := hr
  exact ⟨pu, pr, by unfold commit; rw [hr]⟩

theorem flagSet_raise_self (e : Event) (s : State) : flagSet e (raise e s) = true := by
  unfold flagSet raise
  cases e <;> simp [Event.mask, Event.bit]

theorem flagSet_raise_mono {e d : Event} {s : State} (h : flagSet e s = true) : flagSet e (raise d s) = true := by
  unfold flagSet raise at *
  simp [h]

/-! ### Room handed on -/

/-- What `settle` may do: begin waiting stores, and end a drain. -/
structure RoomHanded (s t : State) : Prop where
  control : SameControl s t
  table : SameTable s t
  queues : SameQueues s t
  fetch : t.fetch = s.fetch
  notice : t.noticeCounter = s.noticeCounter
  counters : t.counters = s.counters
  flags : ∀ e, flagSet e s = true → flagSet e t = true
  node : ∀ k, ∃ o, (nodeAt s k).outstanding ≤ o ∧ nodeAt t k = { nodeAt s k with outstanding := o }
  idle : ∀ i, laneAt s i = none → laneAt t i = none
  lane : ∀ i j, laneAt s i = some j → ∃ ph, laneAt t i = some { j with phase := ph } ∧ (j.phase = .gather → ph = .gather)
  sent : ∃ out, t.outputs = s.outputs ++ out

theorem SameTable.refl (s : State) : SameTable s s := ⟨rfl, rfl, rfl, rfl, rfl, rfl⟩

theorem SameQueues.refl (s : State) : SameQueues s s := ⟨rfl, rfl, rfl⟩

theorem SameTable.trans {s t u : State} (h : SameTable s t) (g : SameTable t u) : SameTable s u := by
  obtain ⟨h1, h2, h3, h4, h5, h6⟩ := h
  obtain ⟨g1, g2, g3, g4, g5, g6⟩ := g
  exact ⟨g1.trans h1, g2.trans h2, g3.trans h3, g4.trans h4, g5.trans h5, g6.trans h6⟩

theorem SameQueues.trans {s t u : State} (h : SameQueues s t) (g : SameQueues t u) : SameQueues s u :=
  ⟨g.1.trans h.1, g.2.1.trans h.2.1, g.2.2.trans h.2.2⟩

theorem RoomHanded.refl (s : State) : RoomHanded s s :=
  ⟨SameControl.refl s, SameTable.refl s, SameQueues.refl s, rfl, rfl, rfl, fun _ h => h, fun _ => ⟨_, Nat.le_refl _, rfl⟩, fun _ h => h,
    fun _ j h => ⟨j.phase, h, fun x => x⟩, ⟨[], (List.append_nil _).symm⟩⟩

theorem RoomHanded.trans {s t u : State} (h : RoomHanded s t) (g : RoomHanded t u) : RoomHanded s u := by
  refine ⟨h.control.trans g.control, h.table.trans g.table, h.queues.trans g.queues, g.fetch.trans h.fetch, g.notice.trans h.notice,
    g.counters.trans h.counters, fun e x => g.flags e (h.flags e x), fun k => ?_, fun i x => g.idle i (h.idle i x), fun i j x => ?_, ?_⟩
  · obtain ⟨o, ho, h1⟩ := h.node k
    obtain ⟨o', ho', h2⟩ := g.node k
    refine ⟨o', ?_, by rw [h2, h1]⟩
    rw [h1] at ho'
    exact Nat.le_trans ho ho'
  · obtain ⟨p, h1, h2⟩ := h.lane i j x
    obtain ⟨p', g1, g2⟩ := g.lane i _ h1
    exact ⟨p', g1, fun y => g2 (h2 y)⟩
  · obtain ⟨o, h1⟩ := h.sent
    obtain ⟨o', g1⟩ := g.sent
    exact ⟨o ++ o', by rw [g1, h1, List.append_assoc]⟩

theorem setStore_handed (i : Fin 8) (q : Nat) (st : Store) (s : State) : RoomHanded s (setStore i q st s) := by
  unfold setStore
  split
  · exact RoomHanded.refl s
  · rename_i j hj
    refine ⟨SameControl.refl s, SameTable.refl s, SameQueues.refl s, rfl, rfl, rfl, fun _ h => h, fun _ => ⟨_, Nat.le_refl _, rfl⟩,
      fun k hk => ?_, fun k x hk => ?_, ⟨[], (List.append_nil _).symm⟩⟩
    · by_cases h : k = i
      · subst h
        rw [hj] at hk
        cases hk
      · rw [laneAt_setLane_other _ h]
        exact hk
    · by_cases h : k = i
      · subst h
        rw [hj] at hk
        cases hk
        refine ⟨_, laneAt_setLane_same .., fun hg => ?_⟩
        rw [hg]
      · rw [laneAt_setLane_other _ h]
        exact ⟨x.phase, hk, fun y => y⟩

theorem sendFrame_handed (p : Port) (dst : EthAddr) (k : Kind) (fl : Byte) (tag : BitVec 32) (body : List Byte) (s : State) :
    RoomHanded s (sendFrame p dst k fl tag body s) :=
  ⟨SameControl.refl s, SameTable.refl s, SameQueues.refl s, rfl, rfl, rfl, fun _ h => h, fun _ => ⟨_, Nat.le_refl _, rfl⟩, fun _ h => h,
    fun _ j h => ⟨j.phase, h, fun x => x⟩, ⟨_, rfl⟩⟩

theorem sendChunk_handed (i : Fin 8) (q k : Nat) (s : State) : RoomHanded s (sendChunk i q k s) := by
  unfold sendChunk
  split
  · exact RoomHanded.refl s
  · split
    · exact sendFrame_handed ..
    · exact RoomHanded.refl s

theorem raiseOutstanding_handed (k : Nat) (s : State) : RoomHanded s (raiseOutstanding k s) := by
  refine ⟨SameControl.refl s, SameTable.refl s, SameQueues.refl s, rfl, rfl, rfl, fun _ h => h, fun x => ?_, fun _ h => h,
    fun _ j h => ⟨j.phase, h, fun x => x⟩, ⟨[], (List.append_nil _).symm⟩⟩
  by_cases h : x = k
  · subst h
    exact ⟨_, Nat.le_succ _, nodeAt_setNode_same ..⟩
  · exact ⟨_, Nat.le_refl _, nodeAt_setNode_other _ h _⟩

theorem startAttempt_handed (i : Fin 8) (q : Nat) (s : State) : RoomHanded s (startAttempt i q s) := by
  unfold startAttempt
  split
  · exact RoomHanded.refl s
  · exact ((setStore_handed ..).trans (raiseOutstanding_handed ..)).trans (sendChunk_handed ..)

theorem waitList_handed (w : List (Fin 8 × Nat)) (s : State) : RoomHanded s { s with waitList := w } :=
  ⟨SameControl.refl s, SameTable.refl s, SameQueues.refl s, rfl, rfl, rfl, fun _ h => h, fun _ => ⟨_, Nat.le_refl _, rfl⟩, fun _ h => h,
    fun _ j h => ⟨j.phase, h, fun x => x⟩, ⟨[], (List.append_nil _).symm⟩⟩

theorem beginAttempt_handed (i : Fin 8) (q : Nat) (s : State) : RoomHanded s (beginAttempt i q s) := by
  unfold beginAttempt
  split
  · exact RoomHanded.refl s
  · split
    · exact startAttempt_handed ..
    · exact (setStore_handed ..).trans (waitList_handed ..)

theorem beginIfRoom_handed (s : State) (e : Fin 8 × Nat) : RoomHanded s (beginIfRoom s e) := by
  unfold beginIfRoom
  split
  · exact RoomHanded.refl s
  · split
    · exact (waitList_handed ..).trans (startAttempt_handed ..)
    · exact RoomHanded.refl s

theorem RoomHanded.foldl {β : Type} {f : State → β → State} (h : ∀ s b, RoomHanded s (f s b)) (bs : List β) (s : State) :
    RoomHanded s (bs.foldl f s) := by
  induction bs generalizing s with
  | nil => exact RoomHanded.refl s
  | cons b bs ih => exact (h s b).trans (ih _)

theorem handRoom_handed (s : State) : RoomHanded s (handRoom s) :=
  RoomHanded.foldl beginIfRoom_handed s.waitList s

theorem raise_handed (e : Event) (s : State) : RoomHanded s (raise e s) :=
  ⟨SameControl.refl s, SameTable.refl s, SameQueues.refl s, rfl, rfl, rfl, fun _ h => flagSet_raise_mono h, fun _ => ⟨_, Nat.le_refl _, rfl⟩,
    fun _ h => h, fun _ j h => ⟨j.phase, h, fun x => x⟩, ⟨[], (List.append_nil _).symm⟩⟩

theorem setMode_handed (m : Mode) (s : State) : RoomHanded s (setMode m s) := by
  unfold setMode
  split
  · exact RoomHanded.refl s
  · refine RoomHanded.trans (t := { s with mode := m }) ?_ (raise_handed ..)
    exact ⟨SameControl.refl s, SameTable.refl s, SameQueues.refl s, rfl, rfl, rfl, fun _ h => h, fun _ => ⟨_, Nat.le_refl _, rfl⟩,
      fun _ h => h, fun _ j h => ⟨j.phase, h, fun x => x⟩, ⟨[], (List.append_nil _).symm⟩⟩

theorem endDrain_handed (s : State) : RoomHanded s (endDrain s) := by
  unfold endDrain
  split
  · exact setMode_handed ..
  · exact RoomHanded.refl s

/-- Everything that `settle` can do (R138, R157). -/
theorem settle_handed (s : State) : RoomHanded s (settle s) :=
  (handRoom_handed s).trans (endDrain_handed _)

/-- `settle` does nothing where nothing waits and the mode is not DRAIN. -/
theorem settle_of_nothing {s : State} (hw : s.waitList = []) (hm : s.mode ≠ .drain) : settle s = s := by
  unfold settle handRoom
  rw [hw, List.foldl_nil]
  unfold endDrain
  rw [if_neg (fun h => hm h.1)]

/-! ### Lane abandonment -/

/-- The nodes differ in their outstanding counts only. -/
def OnlyOutstanding (s t : State) : Prop :=
  ∀ k, nodeAt t k = { nodeAt s k with outstanding := (nodeAt t k).outstanding }

theorem OnlyOutstanding.refl (s : State) : OnlyOutstanding s s := fun _ => rfl

theorem OnlyOutstanding.trans {s t u : State} (h : OnlyOutstanding s t) (g : OnlyOutstanding t u) : OnlyOutstanding s u := by
  intro k
  rw [g k, h k]

/-- What lane abandonment may do (R128). -/
structure Abandoned (i : Fin 8) (s t : State) : Prop where
  same : t = { s with fetch := t.fetch, nodes := t.nodes, lanes := t.lanes, waitList := t.waitList }
  node : OnlyOutstanding s t
  other : ∀ k, k ≠ i → laneAt t k = laneAt s k
  waits : ∀ e ∈ t.waitList, e ∈ s.waitList
  slot : ∀ k, slotAt t k = slotAt s k ∨ slotAt t k = { generation := (slotAt s k).generation, use := none }

theorem lowerOutstanding_only (k : Nat) (s : State) : OnlyOutstanding s (lowerOutstanding k s) := by
  intro x
  by_cases h : x = k
  · subst h
    unfold lowerOutstanding
    rw [nodeAt_setNode_same]
  · unfold lowerOutstanding
    rw [nodeAt_setNode_other _ h]

theorem Abandoned.refl (i : Fin 8) (s : State) : Abandoned i s s :=
  ⟨rfl, OnlyOutstanding.refl s, fun _ _ => rfl, fun _ h => h, fun _ => Or.inl rfl⟩

theorem Abandoned.trans {i : Fin 8} {s t u : State} (h : Abandoned i s t) (g : Abandoned i t u) : Abandoned i s u := by
  refine ⟨?_, h.node.trans g.node, fun k hk => (g.other k hk).trans (h.other k hk), fun e he => h.waits e (g.waits e he), fun k => ?_⟩
  · have h1 := h.same
    have g1 := g.same
    rw [h1] at g1
    exact g1
  · rcases h.slot k with a | a <;> rcases g.slot k with b | b <;> rw [b, a] <;> simp

theorem endFetch_abandoned (i : Fin 8) (k : Nat) (s : State) : Abandoned i s (endFetch k s) := by
  unfold endFetch
  split
  · exact Abandoned.refl i s
  · refine ⟨rfl, ?_, fun _ _ => rfl, fun _ h => h, fun x => ?_⟩
    · exact OnlyOutstanding.trans (t := setSlot k _ s) (fun _ => rfl) (lowerOutstanding_only _ _)
    · by_cases h : x = k
      · subst h
        exact Or.inr (slotAt_setSlot_same ..)
      · exact Or.inl (slotAt_setSlot_other _ h _)

theorem slotAt_endFetch (k : Nat) (s : State) : slotAt (endFetch k s) k = { generation := (slotAt s k).generation, use := none } := by
  unfold endFetch
  split
  · rename_i h
    rw [← h]
  · exact slotAt_setSlot_same ..

theorem Abandoned.foldl {β : Type} {i : Fin 8} {f : State → β → State} (h : ∀ s b, Abandoned i s (f s b)) (bs : List β) (s : State) :
    Abandoned i s (bs.foldl f s) := by
  induction bs generalizing s with
  | nil => exact Abandoned.refl i s
  | cons b bs ih => exact (h s b).trans (ih _)

theorem abandonLane_abandoned (i : Fin 8) (s : State) : Abandoned i s (abandonLane i s) := by
  unfold abandonLane
  split
  · exact Abandoned.refl i s
  · rename_i j _
    refine Abandoned.trans (Abandoned.trans (Abandoned.foldl (fun s k => endFetch_abandoned i k s) (slotsOfLane s i) s) ?_) ?_
      (t := forgetStores i j ((slotsOfLane s i).foldl (fun s k => endFetch k s) s))
    · unfold forgetStores
      generalize (slotsOfLane s i).foldl (fun s k => endFetch k s) s = u
      have h1 : Abandoned i u (((storesOf j).filter inFlight).foldl (fun s st => lowerOutstanding st.dest s) u) :=
        Abandoned.foldl (fun s st => ⟨rfl, lowerOutstanding_only _ _, fun _ _ => rfl, fun _ h => h, fun _ => Or.inl rfl⟩) _ u
      refine h1.trans ⟨rfl, fun _ => rfl, fun _ _ => rfl, fun e he => (List.mem_filter.mp he).1, fun _ => Or.inl rfl⟩
    · exact ⟨rfl, fun _ => rfl, fun k hk => laneAt_setLane_other _ hk _, fun _ h => h, fun _ => Or.inl rfl⟩

/-- A slot in use for the lane is freed with its generation kept (R89, R128). -/
theorem slotAt_abandonLane {i : Fin 8} {k : Nat} {f : Fetch} {s : State} (hb : laneAt s i ≠ none) (hk : k < 96)
    (hu : (slotAt s k).use = some f) (hl : f.lane = i) :
    slotAt (abandonLane i s) k = { generation := (slotAt s k).generation, use := none } := by
  have hfold : ∀ (ks : List Nat) (u : State), (k ∈ ks ∨ slotAt u k = { generation := (slotAt s k).generation, use := none }) →
      (slotAt u k).generation = (slotAt s k).generation →
      slotAt (ks.foldl (fun s k => endFetch k s) u) k = { generation := (slotAt s k).generation, use := none } := by
    intro ks
    induction ks with
    | nil =>
      intro u h _
      exact h.resolve_left List.not_mem_nil
    | cons x xs ih =>
      intro u h hg
      refine ih _ ?_ ?_
      · by_cases hx : x = k
        · right
          rw [hx, slotAt_endFetch, hg]
        · rcases h with h | h
          · left
            rcases List.mem_cons.mp h with h | h
            · exact absurd h.symm hx
            · exact h
          · right
            rcases (endFetch_abandoned 0 x u).slot k with a | a
            · rw [a, h]
            · rw [a, hg]
      · rcases (endFetch_abandoned 0 x u).slot k with a | a <;> rw [a]
        · exact hg
        · exact hg
  unfold abandonLane
  split
  · contradiction
  · rename_i j _
    have hmem : k ∈ slotsOfLane s i := by
      unfold slotsOfLane
      rw [List.mem_filter]
      refine ⟨List.mem_range.mpr hk, ?_⟩
      rw [hu]
      simp only [hl, beq_self_eq_true]
    have h1 := hfold (slotsOfLane s i) s (Or.inl hmem) rfl
    generalize (slotsOfLane s i).foldl (fun s k => endFetch k s) s = u at h1
    have h2 : ∀ (sts : List Store) (v : State), slotAt (sts.foldl (fun s st => lowerOutstanding st.dest s) v) k = slotAt v k := by
      intro sts
      induction sts with
      | nil => exact fun _ => rfl
      | cons a as ih => exact fun v => ih _
    exact (h2 _ u).trans h1

/-- An ACTIVE record leaves its lane, which is abandoned. -/
theorem leaveHolder_active {n : Nat} {i : Fin 8} {l : Live} {s : State} (hst : l.state = .active) (hl : laneHolding s n = some i) :
    leaveHolder n l s = abandonLane i s := by
  unfold leaveHolder
  rw [hst]
  simp only [hl]

end Sys2Proof.Machine
end

