-- ==== Sys2Proof/Laws/PerInstr.lean ====
section
/-! SUPPORT. The family WireKind: which message kind each command is on the wire (R181). One lemma for each command. -/

namespace Sys2Proof.Laws.WireKind

open Sys2Proof.Machine

/-- The message kind of the frame that a command is, if it is a frame of one kind (R181). -/
def commandKind : Instr → Option Kind
  | .define _ _ => some .define
  | .locate _ _ => some .locate
  | .setClass _ _ => some .cls
  | .revise _ _ => some .revise
  | .redirect _ _ => some .redirect
  | .hold _ _ => some .hold
  | .resume _ _ => some .resume
  | .cancel _ _ => some .cancel
  | .retire _ _ => some .retire
  | .watch _ _ => some .watch
  | .fence _ => some .fence
  | .unfence _ => some .unfence
  | .rosterSet _ => some .rosterSet
  | .rosterClear _ => some .rosterClear
  | .modeRequest _ => some .mode
  | .leaseTake _ => some .leaseTake
  | .leaseRenew _ => some .leaseRenew
  | .leaseRelease _ => some .leaseRelease
  | .wake _ => some .wake
  | .fetchData _ _ => some .fetchData
  | .fetchFail _ => some .fetchFail
  | .storeAck _ _ => some .storeAck
  | .probeAck _ => some .probeAck
  | _ => none

/-- A command that is a frame has the kind whose code decodes to it, a kind that the part acts on, and is the command of such a frame; any other command
is none of a frame's. -/
def Statement (i : Instr) : Prop :=
  match commandKind i with
  | some k => kindOfCode k.code = some k ∧ k.route ≠ .sentOnly ∧ ∃ f mem, frameCommand k f mem = some i
  | none => ∀ k f mem, frameCommand k f mem ≠ some i

/-- The command of a frame is a frame's command. -/
theorem commandKind_isSome {k : Kind} {f : Frame} {mem : List Damage} {i : Instr} (h : frameCommand k f mem = some i) : (commandKind i).isSome = true := by
  cases k <;> simp only [frameCommand, Option.some.injEq, reduceCtorEq] at h <;> subst h <;> rfl

theorem none_of_other {i : Instr} (h : commandKind i = none) : Statement i := by
  unfold Statement
  rw [h]
  intro k f mem e
  have := commandKind_isSome e
  rw [h] at this
  contradiction

theorem coldReset : Statement .coldReset := none_of_other rfl

theorem warmReset : Statement .warmReset := none_of_other rfl

theorem define (f : Frame) (mem : List Damage) : Statement (.define f mem) := ⟨rfl, by decide, f, mem, rfl⟩

theorem locate (f : Frame) (mem : List Damage) : Statement (.locate f mem) := ⟨rfl, by decide, f, mem, rfl⟩

theorem setClass (f : Frame) (mem : List Damage) : Statement (.setClass f mem) := ⟨rfl, by decide, f, mem, rfl⟩

theorem revise (f : Frame) (mem : List Damage) : Statement (.revise f mem) := ⟨rfl, by decide, f, mem, rfl⟩

theorem redirect (f : Frame) (mem : List Damage) : Statement (.redirect f mem) := ⟨rfl, by decide, f, mem, rfl⟩

theorem hold (f : Frame) (mem : List Damage) : Statement (.hold f mem) := ⟨rfl, by decide, f, mem, rfl⟩

theorem resume (f : Frame) (mem : List Damage) : Statement (.resume f mem) := ⟨rfl, by decide, f, mem, rfl⟩

theorem cancel (f : Frame) (mem : List Damage) : Statement (.cancel f mem) := ⟨rfl, by decide, f, mem, rfl⟩

theorem retire (f : Frame) (mem : List Damage) : Statement (.retire f mem) := ⟨rfl, by decide, f, mem, rfl⟩

theorem watch (f : Frame) (mem : List Damage) : Statement (.watch f mem) := ⟨rfl, by decide, f, mem, rfl⟩

theorem fence (f : Frame) : Statement (.fence f) := ⟨rfl, by decide, f, [], rfl⟩

theorem unfence (f : Frame) : Statement (.unfence f) := ⟨rfl, by decide, f, [], rfl⟩

theorem rosterSet (f : Frame) : Statement (.rosterSet f) := ⟨rfl, by decide, f, [], rfl⟩

theorem rosterClear (f : Frame) : Statement (.rosterClear f) := ⟨rfl, by decide, f, [], rfl⟩

theorem modeRequest (f : Frame) : Statement (.modeRequest f) := ⟨rfl, by decide, f, [], rfl⟩

theorem leaseTake (f : Frame) : Statement (.leaseTake f) := ⟨rfl, by decide, f, [], rfl⟩

theorem leaseRenew (f : Frame) : Statement (.leaseRenew f) := ⟨rfl, by decide, f, [], rfl⟩

theorem leaseRelease (f : Frame) : Statement (.leaseRelease f) := ⟨rfl, by decide, f, [], rfl⟩

theorem wake (f : Frame) : Statement (.wake f) := ⟨rfl, by decide, f, [], rfl⟩

theorem unreadableFrame (f : RawFrame) : Statement (.unreadableFrame f) := none_of_other rfl

theorem fetchData (f : Frame) (mem : List Damage) : Statement (.fetchData f mem) := ⟨rfl, by decide, f, mem, rfl⟩

theorem fetchFail (f : Frame) : Statement (.fetchFail f) := ⟨rfl, by decide, f, [], rfl⟩

theorem storeAck (f : Frame) (mem : List Damage) : Statement (.storeAck f mem) := ⟨rfl, by decide, f, mem, rfl⟩

theorem probeAck (f : Frame) : Statement (.probeAck f) := ⟨rfl, by decide, f, [], rfl⟩

theorem firstChunkTimerExpiry (slot : Fin 96) : Statement (.firstChunkTimerExpiry slot) := none_of_other rfl

theorem streamTimerExpiry (slot : Fin 96) : Statement (.streamTimerExpiry slot) := none_of_other rfl

theorem storeTimerExpiry (lane : Fin 8) (target : Fin 4) : Statement (.storeTimerExpiry lane target) := none_of_other rfl

theorem probeTimerExpiry : Statement .probeTimerExpiry := none_of_other rfl

theorem pacingTimerExpiry : Statement .pacingTimerExpiry := none_of_other rfl

theorem leaseLapse : Statement .leaseLapse := none_of_other rfl

theorem sendCompletion (lane : Fin 8) (target : Fin 4) (attempt : Nat) : Statement (.sendCompletion lane target attempt) := none_of_other rfl

theorem fetchIssue (mem : List Damage) : Statement (.fetchIssue mem) := none_of_other rfl

theorem storeAttemptBegin : Statement .storeAttemptBegin := none_of_other rfl

theorem admission (mem : List Damage) : Statement (.admission mem) := none_of_other rfl

theorem drainEnd : Statement .drainEnd := none_of_other rfl

theorem linkUp (p : Port) : Statement (.linkUp p) := none_of_other rfl

theorem linkDown (p : Port) : Statement (.linkDown p) := none_of_other rfl

theorem msiEnableChange (enable : Bool) : Statement (.msiEnableChange enable) := none_of_other rfl

theorem modeWrite (code : BitVec 8) : Statement (.modeWrite code) := none_of_other rfl

theorem portWrite (p : Port) (code : BitVec 2) : Statement (.portWrite p code) := none_of_other rfl

theorem addressLowWrite (p : Port) (low : BitVec 32) : Statement (.addressLowWrite p low) := none_of_other rfl

theorem addressHighWrite (p : Port) (high : BitVec 16) : Statement (.addressHighWrite p high) := none_of_other rfl

theorem etherTypeWrite (value : BitVec 16) : Statement (.etherTypeWrite value) := none_of_other rfl

theorem pacingSettingWrite (which : PacingSetting) (value : BitVec 17) : Statement (.pacingSettingWrite which value) := none_of_other rfl

theorem probePeriodWrite (value : BitVec 17) : Statement (.probePeriodWrite value) := none_of_other rfl

theorem reserveWrite (value : BitVec 17) : Statement (.reserveWrite value) := none_of_other rfl

theorem leaseSettingWrite (which : LeaseSetting) (value : BitVec 17) : Statement (.leaseSettingWrite which value) := none_of_other rfl

theorem eventFlagsWrite (mask : BitVec 15) : Statement (.eventFlagsWrite mask) := none_of_other rfl

theorem eventEnablesWrite (mask : BitVec 15) : Statement (.eventEnablesWrite mask) := none_of_other rfl

theorem eventClassesWrite (mask : BitVec 15) : Statement (.eventClassesWrite mask) := none_of_other rfl

theorem globalEnableWrite (enable : Bool) : Statement (.globalEnableWrite enable) := none_of_other rfl

theorem counterClear (c : Counter) : Statement (.counterClear c) := none_of_other rfl

theorem peekSet (number : BitVec 16) (count : BitVec 6) : Statement (.peekSet number count) := none_of_other rfl

theorem peekGo (number : BitVec 16) (count : BitVec 6) : Statement (.peekGo number count) := none_of_other rfl

theorem peekCompletion (mem : List Damage) : Statement (.peekCompletion mem) := none_of_other rfl

theorem windowWrite (offset : BitVec 12) (value : BitVec 32) : Statement (.windowWrite offset value) := none_of_other rfl

theorem storeChunkSent (lane : Fin 8) (target : Fin 4) (attempt : Nat) : Statement (.storeChunkSent lane target attempt) := none_of_other rfl

end Sys2Proof.Laws.WireKind
end

