-- ==== Sys2Proof/Laws/Units.lean ====
section
/-! SUPPORT. One lemma for each meaning outside Chapter 2: its change keeps the laws of Safety.lean. -/

namespace Sys2Proof.Machine

/-! ### The Node Roster -/

theorem onRosterSet_kept (f : Frame) (s : State) : Kept s (onRosterSet f s) := by
  refine request_kept (fun r _ => ?_)
  unfold applyRosterSet
  split
  · exact reply_kept ..
  · split
    · exact reply_kept ..
    · split
      · exact reply_kept ..
      · split
        · exact reply_kept ..
        · split
          · exact (setNode_steady ..).toMovement.settle_kept.trans (reply_kept ..)
          · exact reply_kept ..

theorem onRosterClear_kept (f : Frame) (s : State) : Kept s (onRosterClear f s) := by
  refine request_kept (fun k _ => ?_)
  unfold applyRosterClear
  split
  · exact reply_kept ..
  · split
    · exact reply_kept ..
    · exact (setNode_kept ..).trans (reply_kept ..)

theorem fenceSlots_steady (ks : List Nat) (s : State) : Steady s (fenceSlots ks s) := by
  refine ((Steady.foldl (fun _ _ => setNode_steady ..) ks s).trans (Steady.foldl (fun s i => ?_) _ _)).trans
    (Steady.foldl (fun s n => ?_) _ _)
  · unfold fenceLane
    split
    · exact Steady.refl s
    · split
      · exact Steady.refl s
      · exact enterHeld_steady ..
  · unfold fenceStalled
    split
    · exact Steady.refl s
    · exact enterHeld_steady ..

theorem onFence_kept (f : Frame) (s : State) : Kept s (onFence f s) := by
  refine request_kept (fun r _ => ?_)
  unfold applyFence
  split
  · exact reply_kept ..
  · exact (fenceSlots_steady ..).toMovement.finish_kept ..

theorem foldl_kept {β : Type} {f : State → β → State} (h : ∀ s b, Kept s (f s b)) (bs : List β) (s : State) : Kept s (bs.foldl f s) := by
  induction bs generalizing s with
  | nil => exact Kept.refl s
  | cons b bs ih => exact (h s b).trans (ih _)

theorem onUnfence_kept (f : Frame) (s : State) : Kept s (onUnfence f s) := by
  refine request_kept (fun r _ => ?_)
  unfold applyUnfence
  split
  · exact reply_kept ..
  · exact (foldl_kept (f := unfenceSlot) (fun _ _ => setNode_kept ..) _ s).trans (reply_kept ..)

theorem sendFrame_kept (p : Port) (dst : EthAddr) (k : Kind) (fl : Byte) (tag : BitVec 32) (body : List Byte) (s : State) :
    Kept s (sendFrame p dst k fl tag body s) :=
  (sendFrame_steady p dst k fl tag body s).toMovement.kept_of_lanes rfl

theorem startProbeTimer_kept (s : State) : Kept s (startProbeTimer s) :=
  Kept.of_same rfl rfl (fun _ => rfl) rfl rfl rfl rfl ⟨rfl, rfl, rfl, rfl, rfl, rfl, rfl⟩

theorem probeExpiry_kept (s : State) : Kept s (probeExpiry s) := by
  unfold probeExpiry
  split
  · refine (startProbeTimer_kept s).trans (foldl_kept (fun u k => ?_) _ _)
    unfold sendProbe
    split
    · exact Kept.refl _
    · exact (setNode_kept ..).trans (sendFrame_kept ..)
  · exact Kept.refl s

theorem onProbeAck_kept (f : Frame) (s : State) : Kept s (onProbeAck f s) := by
  refine nodeAnswer_kept (fun a _ => ?_)
  unfold applyProbeAck
  split
  · exact count_kept ..
  · split
    · refine Movement.settle_kept ?_
      exact (((setNode_steady ..).trans (Steady.foldl (fun _ _ => enterWaiting_steady ..) _ _)).trans (raise_steady ..)).toMovement
    · split
      · exact Kept.refl s
      · exact count_kept ..

/-! ### Modes, ports, links, wake -/

theorem setMode_lanes (m : Mode) (s : State) : (setMode m s).lanes = s.lanes := by
  unfold setMode
  split <;> rfl

theorem setMode_mode (m : Mode) (s : State) : (setMode m s).mode = m := by
  unfold setMode
  split
  · assumption
  · rfl

theorem allIdle_of_lanes {s t : State} (h : t.lanes = s.lanes) : allIdle t = allIdle s :=
  allIdle_congr (fun i => by simp only [laneAt, h])

/-- The fields of the control part that a change of mode leaves. -/
theorem setMode_fields (m : Mode) (s : State) :
    (setMode m s).pacing = s.pacing ∧ (setMode m s).settings = s.settings ∧ (setMode m s).lease = s.lease
      ∧ (setMode m s).portA = s.portA ∧ (setMode m s).portB = s.portB := by
  unfold setMode
  split <;> exact ⟨rfl, rfl, rfl, rfl, rfl⟩

/-- A change of mode leaves the table. -/
theorem setMode_table (m : Mode) (s : State) : SameTables s (setMode m s) := by
  unfold setMode
  split <;> exact ⟨rfl, rfl, rfl, rfl, rfl, rfl, rfl⟩

/-- A change to READY with every lane IDLE. -/
theorem Movement.setReady_kept {s u v : State} (h : Movement s u) (g : SameTables u v) (hb : BudgetLaw u → BudgetLaw v) (hi : allIdle v = true) :
    Kept s (setMode .ready v) := by
  obtain ⟨h1, h2, -⟩ := setMode_fields .ready v
  have hi' : allIdle (setMode .ready v) = true := (allIdle_of_lanes (setMode_lanes ..)).trans hi
  exact h.kept_after (g.trans (setMode_table ..)) (fun _ => AuthorityLaw.of_ready (setMode_mode ..))
    (fun x => (hb (BudgetLaw.of_control h.control x)).of_same h1 h2) (fun _ => LaneModeLaw.of_ready (setMode_mode ..) hi')
    (fun _ _ => ReserveLaw.of_idle hi')

/-- A change to REBUILD while a lease is held and a port is able to send (R156). -/
theorem setRebuild_kept {s : State} (h : rebuildAllowed s = true) : Kept s (setMode .rebuild s) := by
  obtain ⟨h1, h2, h3, h4, h5⟩ := setMode_fields .rebuild s
  have hm := setMode_mode .rebuild s
  simp only [rebuildAllowed, Bool.and_eq_true] at h
  refine (setMode_table ..).kept (fun _ => ?_) (fun hb => hb.of_same h1 h2) (fun _ => ?_)
    (fun _ => ReserveLaw.of_le (backgroundLanes_of_lanes (setMode_lanes ..)) (by rw [h2]))
  · refine ⟨fun _ => by rw [h3]; exact h.1, ?_⟩
    rw [hm]
    have hp : portsAllowed (setMode .rebuild s) .rebuild = portsAllowed s .rebuild := by
      simp only [portsAllowed, ableToSend, portAt, h4, h5]
    rw [hp]
    exact h.2
  · unfold LaneModeLaw
    rw [hm]
    exact ⟨fun x => (by rcases x with x | x <;> cases x), fun x => (by cases x)⟩

theorem portsAllowed_park (s : State) :
    portsAllowed { s with portA := parkPort s.portA, portB := parkPort s.portB } .dormant = true := by
  have h : ∀ p : PortRegs, ((parkPort p).state != .on) = true := by
    intro p
    unfold parkPort
    cases hp : p.state <;> simp
  simp only [portsAllowed, h, Bool.and_self]

theorem enterDormant_kept {s : State} (hi : LaneModeLaw s → allIdle s = true) : Kept s (enterDormant s) := by
  unfold enterDormant
  have hg : SameTables s { s with portA := parkPort s.portA, portB := parkPort s.portB } := ⟨rfl, rfl, rfl, rfl, rfl, rfl, rfl⟩
  have hp := portsAllowed_park s
  have hlanes : ({ s with portA := parkPort s.portA, portB := parkPort s.portB } : State).lanes = s.lanes := rfl
  have hb : BudgetLaw s → BudgetLaw { s with portA := parkPort s.portA, portB := parkPort s.portB } := fun h => h
  generalize ({ s with portA := parkPort s.portA, portB := parkPort s.portB } : State) = u at hg hp hlanes hb ⊢
  obtain ⟨h1, h2, h3, h4, h5⟩ := setMode_fields .dormant u
  have hm := setMode_mode .dormant u
  have hidle : LaneModeLaw s → allIdle (setMode .dormant u) = true := fun hl =>
    (allIdle_of_lanes ((setMode_lanes ..).trans hlanes)).trans (hi hl)
  refine (hg.trans (setMode_table ..)).kept (fun _ => ?_) (fun x => (hb x).of_same h1 h2) (fun hl => ?_) (fun hl _ => ReserveLaw.of_idle (hidle hl))
  · refine ⟨fun x => (by rw [hm] at x; cases x), ?_⟩
    rw [hm]
    simpa only [portsAllowed, h4, h5] using hp
  · unfold LaneModeLaw
    rw [hm]
    exact ⟨fun _ => hidle hl, fun x => by cases x⟩

theorem leaveDormant_kept {s : State} (hm : s.mode = .dormant) : Kept s (leaveDormant s) := by
  unfold leaveDormant
  have hi : LaneModeLaw s → allIdle (setMode .ready { s with portA := resumePort s.portA, portB := resumePort s.portB }) = true := fun hl =>
    (allIdle_of_lanes ((setMode_lanes ..).trans rfl)).trans (hl.1 (Or.inl hm))
  have hr := setMode_mode .ready { s with portA := resumePort s.portA, portB := resumePort s.portB }
  obtain ⟨h1, h2, -⟩ := setMode_fields .ready { s with portA := resumePort s.portA, portB := resumePort s.portB }
  have hg : SameTables s { s with portA := resumePort s.portA, portB := resumePort s.portB } := ⟨rfl, rfl, rfl, rfl, rfl, rfl, rfl⟩
  exact (hg.trans (setMode_table ..)).kept (fun _ => AuthorityLaw.of_ready hr)
    (fun hb => BudgetLaw.of_same h1 h2 hb) (fun hl => LaneModeLaw.of_ready hr (hi hl)) (fun hl _ => ReserveLaw.of_idle (hi hl))

/-- The entry into DRAIN from REBUILD, its lease held or just ended (R157). -/
theorem enterDrain_kept {s u : State} (hg : SameTables s u) (hp : u.pacing = s.pacing) (hs : u.settings = s.settings) (hlanes : u.lanes = s.lanes)
    (hports : ∀ m, portsAllowed u m = portsAllowed s m) (hm : s.mode = .rebuild) : Kept s (enterDrain u) := by
  obtain ⟨h1, h2, h3, h4, h5⟩ := setMode_fields .drain u
  have hd := setMode_mode .drain u
  unfold enterDrain endDrain
  split
  case isTrue hi =>
    exact Movement.setReady_kept (Movement.refl s) (hg.trans (setMode_table ..)) (fun hb => hb.of_same (h1.trans hp) (h2.trans hs)) hi.2
  case isFalse hi =>
    refine (hg.trans (setMode_table ..)).kept (fun h => ⟨fun x => (by rw [hd] at x; cases x), ?_⟩) (fun hb => hb.of_same (h1.trans hp) (h2.trans hs))
      (fun _ => ⟨fun x => ?_, fun _ => Bool.eq_false_iff.mpr (fun x => hi ⟨hd, x⟩)⟩)
      (fun _ => ReserveLaw.of_le (backgroundLanes_of_lanes ((setMode_lanes ..).trans hlanes)) (by rw [h2, hs]))
    · rw [hd]
      have hpm : portsAllowed (setMode .drain u) .drain = portsAllowed s .rebuild := by
        rw [← hports .rebuild]
        simp only [portsAllowed, ableToSend, portAt, h4, h5]
      rw [hpm, ← hm]
      exact h.2
    · rw [hd] at x
      rcases x with x | x <;> cases x

theorem changeMode_kept {m : Mode} {s : State} (h : modeChangeTaken s m = true) : Kept s (changeMode m s) := by
  unfold modeChangeTaken at h
  unfold changeMode
  cases hs : s.mode <;> cases m <;> simp only [hs, Bool.false_eq_true] at h ⊢
  · exact Kept.refl s
  · exact leaveDormant_kept hs
  · exact enterDormant_kept (fun hl => hl.1 (Or.inr hs))
  · exact Kept.refl s
  · exact setRebuild_kept h
  · exact Kept.refl s
  · exact enterDrain_kept (SameTables.refl s) rfl rfl rfl (fun _ => rfl) hs
  · exact (returnAllLanes_steady s).toMovement.setReady_kept (SameTables.refl _) id (returnAllLanes_idle s)
  · exact setRebuild_kept h
  · exact Kept.refl s

theorem onMode_kept (f : Frame) (s : State) : Kept s (onMode f s) := by
  refine request_kept (fun c _ => ?_)
  unfold applyMode
  split
  · exact reply_kept ..
  · rename_i m _
    split
    · exact (raise_kept ..).trans (reply_kept ..)
    · rename_i ht
      have ht : modeChangeTaken s m = true := by simpa using ht
      split
      · refine (reply_kept ..).trans (changeMode_kept ?_)
        have : (reply f .mode .ok (modeReport s m) s).mode = s.mode ∧ (reply f .mode .ok (modeReport s m) s).lease = s.lease
            ∧ (reply f .mode .ok (modeReport s m) s).portA = s.portA ∧ (reply f .mode .ok (modeReport s m) s).portB = s.portB := by
          have hc := (reply_steady f .mode .ok (modeReport s m) s).control
          obtain ⟨-, -, -, ha, hb, -, -, -, hl, -⟩ := hc
          exact ⟨(reply_steady f .mode .ok (modeReport s m) s).mode, hl, ha, hb⟩
        obtain ⟨a1, a2, a3, a4⟩ := this
        have hr : rebuildAllowed (reply f .mode .ok (modeReport s m) s) = rebuildAllowed s := by
          simp only [rebuildAllowed, portsAllowed, ableToSend, portAt, a2, a3, a4]
        unfold modeChangeTaken at ht ⊢
        rw [a1]
        simp only [hr]
        exact ht
      · exact (changeMode_kept ht).trans (reply_kept ..)

theorem writeMode_kept (c : Byte) (s : State) : Kept s (writeMode c s) := by
  unfold writeMode
  split
  · exact count_kept ..
  · split
    · exact changeMode_kept (by assumption)
    · exact raise_kept ..

theorem endDrain_kept (s : State) : Kept s (endDrain s) := by
  unfold endDrain
  split
  · rename_i h
    exact (Movement.refl s).setReady_kept (SameTables.refl _) id h.2
  · exact Kept.refl s

theorem takenWake_kept (f : Frame) (s : State) : Kept s (takenWake f s) := by
  unfold takenWake
  split
  · split
    · exact (leaveDormant_kept (by assumption)).trans (raise_kept ..)
    · exact count_kept ..
  · split
    · exact reply_kept ..
    · exact Kept.refl s

theorem onWake_kept (f : Frame) (s : State) : Kept s (onWake f s) := by
  unfold onWake
  split
  · exact takenWake_kept ..
  · exact Kept.refl s

/-- A change of one port's registers that leaves its state and link keeps what the ports allow. -/
theorem setPort_kept {p : Port} {v : PortRegs} {s : State} (h : AuthorityLaw s → portsAllowed (setPort p v s) s.mode = true) :
    Kept s (setPort p v s) := by
  cases p
  all_goals
    exact SameTables.kept ⟨rfl, rfl, rfl, rfl, rfl, rfl, rfl⟩ (fun ha => ⟨ha.1, h ha⟩) (fun h => h) (fun h => h) (fun _ h => h)

theorem setPort_portsAllowed {p : Port} {v : PortRegs} {s : State} (hs : v.state = (portAt s p).state) (hl : v.linkUp = (portAt s p).linkUp)
    (m : Mode) : portsAllowed (setPort p v s) m = portsAllowed s m := by
  cases p <;> cases m <;> simp_all [portsAllowed, ableToSend, setPort, portAt]

theorem writePort_kept (p : Port) (c : BitVec 2) (s : State) : Kept s (writePort p c s) := by
  unfold writePort
  split
  · exact count_kept ..
  · split
    · rename_i v _ ht
      simp only [portWriteTaken, Bool.and_eq_true] at ht
      exact setPort_kept (fun _ => ht.1)
    · exact raise_kept ..

theorem writeAddressLow_kept (p : Port) (low : BitVec 32) (s : State) : Kept s (writeAddressLow p low s) :=
  setPort_kept (fun ha => (setPort_portsAllowed (v := { portAt s p with staging := low }) rfl rfl s.mode).trans ha.2)

theorem writeAddressHigh_kept (p : Port) (high : BitVec 16) (s : State) : Kept s (writeAddressHigh p high s) := by
  unfold writeAddressHigh
  simp only
  split
  · exact raise_kept ..
  · exact setPort_kept (fun ha =>
      (setPort_portsAllowed (v := { portAt s p with addr := high ++ (portAt s p).staging }) rfl rfl s.mode).trans ha.2)

theorem linkGoesUp_kept (p : Port) (s : State) : Kept s (linkGoesUp p s) := by
  unfold linkGoesUp
  split
  · exact Kept.refl s
  · refine Kept.trans (setPort_kept (fun ha => ?_)) (raise_kept ..)
    have h2 := ha.2
    cases p <;> cases hm : s.mode <;>
      simp_all [portsAllowed, ableToSend, setPort, portAt]

theorem linkGoesDown_kept (p : Port) (s : State) : Kept s (linkGoesDown p s) := by
  unfold linkGoesDown
  split
  · simp only
    split
    · rename_i hl
      have hm : Movement (raise .linkDown (setPort p { portAt s p with linkUp := false } s))
          (returnAllLanes (raise .linkDown (setPort p { portAt s p with linkUp := false } s))) :=
        (returnAllLanes_steady _).toMovement
      have hi := returnAllLanes_idle (raise .linkDown (setPort p { portAt s p with linkUp := false } s))
      have hk := hm.setReady_kept (SameTables.refl _) id hi
      have hm' := setMode_mode .ready (returnAllLanes (raise .linkDown (setPort p { portAt s p with linkUp := false } s)))
      have hi' := (allIdle_of_lanes (setMode_lanes .ready _)).trans hi
      refine ⟨⟨fun _ => AuthorityLaw.of_ready hm', fun h => hk.budget ?_, fun _ => LaneModeLaw.of_ready hm' hi', fun h => hk.placed ?_,
        fun h => hk.canonical ?_, fun _ _ => ReserveLaw.of_idle hi'⟩, fun c f i => hk.collections ?_ ?_ ?_⟩
      · cases p <;> exact h
      · cases p <;> exact h
      · cases p <;> exact h
      · cases p <;> exact c
      · cases p <;> exact f
      · cases p <;> exact i
    · rename_i hup hl
      refine Kept.trans (setPort_kept (fun ha => ?_)) (raise_kept ..)
      have h2 := ha.2
      cases p <;> cases hm : s.mode <;>
        simp_all [portsAllowed, ableToSend, setPort, portAt, lastLinkLost, raise, otherPort] <;>
        rcases h2 with h | h <;> simp_all
  · exact Kept.refl s

theorem writeEtherType_kept (v : BitVec 16) (s : State) : Kept s (writeEtherType v s) := by
  unfold writeEtherType
  split
  · exact count_kept ..
  · exact Kept.of_same rfl rfl (fun _ => rfl) rfl rfl rfl rfl ⟨rfl, rfl, rfl, rfl, rfl, rfl, rfl⟩

/-! ### The lease -/

theorem leaseReply_kept (f : Frame) (k : Kind) (st : Status) (s : State) : Kept s (leaseReply f k st s) :=
  reply_kept ..

/-- A change of the lease that leaves it held or gives it to a holder. -/
theorem setLease_kept {l : Lease} {s : State} (h : s.lease.grant.isSome = true → l.grant.isSome = true) :
    Kept s { s with lease := l } :=
  SameTables.kept ⟨rfl, rfl, rfl, rfl, rfl, rfl, rfl⟩ (fun ha => ⟨fun hm => h (ha.1 hm), ha.2⟩) (fun h => h) (fun h => h) (fun _ h => h)

theorem onLeaseTake_kept (f : Frame) (s : State) : Kept s (onLeaseTake f s) := by
  refine request_kept (fun _ _ => ?_)
  unfold applyLeaseTake
  split
  · exact leaseReply_kept ..
  · exact (setLease_kept (fun _ => rfl)).trans (leaseReply_kept ..)

theorem restartWindow_kept (g : Grant) (s : State) : Kept s (restartWindow g s) :=
  setLease_kept (fun _ => rfl)

theorem onLeaseRenew_kept (f : Frame) (s : State) : Kept s (onLeaseRenew f s) := by
  refine request_kept (fun e _ => ?_)
  unfold applyLeaseRenew
  split
  · exact leaseReply_kept ..
  · split
    · exact leaseReply_kept ..
    · exact (restartWindow_kept ..).trans (leaseReply_kept ..)

theorem endLease_kept (e : Event) (s : State) : Kept s (endLease e s) := by
  unfold endLease
  simp only
  split
  · rename_i hm
    exact enterDrain_kept ⟨rfl, rfl, rfl, rfl, rfl, rfl, rfl⟩ rfl rfl rfl (fun _ => rfl) hm
  · rename_i hm
    refine Kept.trans (t := { s with lease := { s.lease with grant := none } }) ?_ (raise_kept ..)
    exact SameTables.kept ⟨rfl, rfl, rfl, rfl, rfl, rfl, rfl⟩ (fun ha => ⟨fun x => absurd x hm, ha.2⟩) (fun h => h) (fun h => h) (fun _ h => h)

theorem onLeaseRelease_kept (f : Frame) (s : State) : Kept s (onLeaseRelease f s) := by
  refine request_kept (fun e _ => ?_)
  unfold applyLeaseRelease
  split
  · exact leaseReply_kept ..
  · exact (endLease_kept ..).trans (leaseReply_kept ..)

theorem lapseLease_kept (s : State) : Kept s (lapseLease s) := by
  unfold lapseLease
  split
  · exact Kept.refl s
  · split
    · exact endLease_kept ..
    · exact Kept.refl s

theorem writeLeaseSetting_kept (which : LeaseSetting) (v : Nat) (s : State) : Kept s (writeLeaseSetting which v s) := by
  unfold writeLeaseSetting
  split
  · have h : Kept s (clearFlags Event.leaseLapsed.mask { s with settings := withLeaseSetting which v s.settings }) := by
      refine Kept.of_same rfl rfl (fun _ => rfl) rfl ?_ ?_ rfl ⟨rfl, rfl, rfl, rfl, rfl, rfl, rfl⟩
      all_goals
        cases which <;> rfl
    simp only
    split
    · exact h
    · exact h.trans (restartWindow_kept ..)
  · exact count_kept ..

end Sys2Proof.Machine
end

