-- ==== Sys2Proof/Laws/Work.lean ====
section
/-! SUPPORT. One lemma for each meaning of the Fetch Unit, the Combine Lanes, the Placement Unit, the window and the resets, and for the
passing of time: it keeps the laws of Safety.lean. -/

namespace Sys2Proof.Machine

/-! ### The Fetch Unit -/

/-- A reload of the budget keeps it within the refill value, whatever it was (R95 to R97). -/
theorem reloadPacing_kept {s u : State} (h : Kept s { u with pacing := s.pacing, settings := s.settings })
    (hr : u.settings.reserve = s.settings.reserve) : Kept s (reloadPacing u) :=
  ⟨⟨h.authority, fun _ => Nat.le_refl _, h.laneMode, h.placed, h.canonical, 
    fun m x => ReserveLaw.of_le (s := { u with pacing := s.pacing, settings := s.settings }) (Nat.le_refl _) hr (h.reserve m x)⟩, h.collections⟩

theorem pacingExpiry_kept (s : State) : Kept s (pacingExpiry s) := by
  unfold pacingExpiry
  split
  · exact reloadPacing_kept (Kept.refl s) rfl
  · exact Kept.refl s

theorem setLane_kept {i : Fin 8} {j x : Job} {s : State} (h : laneAt s i = some x) (hc : j.cls = x.cls) : Kept s (setLane i (some j) s) := by
  refine (setLane_again h hc).toMovement.kept (fun k => ?_)
  by_cases hk : k = i
  · subst hk
    rw [laneAt_setLane_same, h]
    rfl
  · rw [laneAt_setLane_other _ hk]

theorem chargedBudget_le (s : State) (n : Nat) : chargedBudget s n ≤ s.pacing.budget := by
  unfold chargedBudget
  split
  · exact Nat.le_refl _
  · split
    · exact Nat.sub_le ..
    · exact Nat.zero_le _

/-- A change of the pacing state that does not raise the budget. -/
theorem setPacing_kept {p : Pacing} {s : State} (h : p.budget ≤ s.pacing.budget) : Kept s { s with pacing := p } :=
  SameTables.kept ⟨rfl, rfl, rfl, rfl, rfl, rfl, rfl⟩ (fun h => h) (fun hb => Nat.le_trans h hb) (fun h => h) (fun _ h => h)

theorem setSlot_kept (k : Nat) (v : FetchSlot) (s : State) : Kept s (setSlot k v s) :=
  (setSlot_steady k v s).toMovement.kept_of_lanes rfl

theorem setPointer_kept (c : RecordClass) (i : Fin 8) (s : State) : Kept s (setPointer c i s) := by
  unfold setPointer
  split <;> exact setPacing_kept (Nat.le_refl _)

theorem setPointer_lanes (c : RecordClass) (i : Fin 8) (s : State) : (setPointer c i s).lanes = s.lanes := by
  unfold setPointer
  split <;> rfl

theorem allocateFetch_kept {k : Nat} {i : Fin 8} {j : Job} {e : PendingFetch} {node : Nat} {s : State} (h : laneAt s i = some j) :
    Kept s (allocateFetch k i j e node s) := by
  unfold allocateFetch
  simp only
  refine Kept.trans (Kept.trans ((setLane_kept h (by rfl)).trans (setSlot_kept ..)) (setPacing_kept ?_)) (setNode_kept ..)
  exact chargedBudget_le s j.segLength

theorem sendFetch_kept (k : Nat) (j : Job) (l : Live) (src : Source) (s : State) : Kept s (sendFetch k j l src s) := by
  unfold sendFetch
  split
  · exact Kept.refl s
  · exact sendFrame_kept ..

theorem readRecord_kept {n : Nat} {work : List RecField} {s : State} (h : (readRecord n work s).1 = true) :
    Kept s (readRecord n work s).2 :=
  (readRecord_steady n work s).toMovement.kept_of_lanes (readRecord_ok h).2.1

theorem grantFetch_kept (k : Nat) (c : RecordClass) (i : Fin 8) (e : PendingFetch) (s : State) : Kept s (grantFetch k c i e s) := by
  unfold grantFetch
  split
  · exact Kept.refl s
  · rename_i j hj
    split
    · exact Kept.refl s
    · split
      · exact Kept.refl s
      · rename_i src _
        have hl : laneAt (setPointer c i s) i = some j := by
          simpa only [laneAt, setPointer_lanes] using hj
        have h : Kept s (allocateFetch k i j e src.slot (setPointer c i s)) := (setPointer_kept c i s).trans (allocateFetch_kept hl)
        refine h.trans ?_
        simp only
        split
        · rename_i hr
          exact (readRecord_kept hr).trans (sendFetch_kept ..)
        · exact (readRecord_steady ..).toMovement.settle_kept

theorem issueFetch_kept (s : State) : Kept s (issueFetch s) := by
  unfold issueFetch
  split
  · exact grantFetch_kept ..
  · exact Kept.refl s

theorem reissue_steady (k : Nat) (ft : Fetch) (s : State) : Steady s (reissue k ft s) := by
  unfold reissue
  simp only
  split
  · exact endFetch_steady ..
  · rename_i j hj
    exact (endFetch_steady ..).trans (setLane_again hj (by rfl))

theorem restartSegment_steady (ft : Fetch) (s : State) : Steady s (restartSegment ft s) :=
  (count_steady ..).trans (enterWaiting_steady ..)

theorem retryFetch_steady (k : Nat) (ft : Fetch) (s : State) : Steady s (retryFetch k ft s) := by
  unfold retryFetch
  split
  · exact reissue_steady ..
  · exact restartSegment_steady ..

theorem completeSegment_steady (k : Nat) (ft : Fetch) (s : State) : Steady s (completeSegment k ft s) := by
  unfold completeSegment
  split
  · exact ((clearConsecutive_steady ..).trans (combine_steady ..)).trans (endFetch_steady ..)
  · split
    · exact reissue_steady ..
    · exact enterHeld_steady ..

theorem onFetchData_kept (f : Frame) (s : State) : Kept s (onFetchData f s) := by
  refine nodeAnswer_kept (fun c _ => ?_)
  unfold applyFetchData
  split
  · exact count_kept ..
  · split
    · exact count_kept ..
    · exact count_kept ..
    · unfold acceptChunk
      simp only
      split
      · exact ((setSlot_steady ..).trans (completeSegment_steady ..)).toMovement.settle_kept
      · exact setSlot_kept ..

theorem onFetchFail_kept (f : Frame) (s : State) : Kept s (onFetchFail f s) := by
  refine nodeAnswer_kept (fun r _ => ?_)
  unfold applyFetchFail
  split
  · exact count_kept ..
  · split
    · exact (enterHeld_steady ..).toMovement.settle_kept
    · split
      · exact (retryFetch_steady ..).toMovement.settle_kept
      · exact count_kept ..

theorem firstChunkExpiry_kept (k : Nat) (s : State) : Kept s (firstChunkExpiry k s) := by
  unfold firstChunkExpiry
  split
  · exact Kept.refl s
  · split
    · split
      · exact ((raiseConsecutive_steady ..).trans (muteNode_steady ..)).toMovement.settle_kept
      · exact ((raiseConsecutive_steady ..).trans (retryFetch_steady ..)).toMovement.settle_kept
    · exact Kept.refl s

theorem streamExpiry_kept (k : Nat) (s : State) : Kept s (streamExpiry k s) := by
  unfold streamExpiry
  split
  · exact Kept.refl s
  · split
    · exact (muteNode_steady ..).toMovement.settle_kept
    · exact Kept.refl s

/-! ### Admission and stores -/

/-- What a change that may admit a record keeps: all but the law of the reserve, which rests on the order of the queues. -/
structure Admits (s t : State) : Prop where
  authority : AuthorityLaw s → AuthorityLaw t
  budget : BudgetLaw s → BudgetLaw t
  laneMode : LaneModeLaw s → LaneModeLaw t
  placed : PlacedLaw s → PlacedLaw t
  canonical : CanonicalTables s → CanonicalTables t
  collections : Collected s t

theorem Kept.admits {s t : State} (h : Kept s t) : Admits s t :=
  ⟨h.authority, h.budget, h.laneMode, h.placed, h.canonical, h.collections⟩

theorem Admits.trans {s t u : State} (h : Admits s t) (g : Admits t u) : Admits s u :=
  ⟨fun x => g.authority (h.authority x), fun x => g.budget (h.budget x), fun x => g.laneMode (h.laneMode x), fun x => g.placed (h.placed x),
    fun x => g.canonical (h.canonical x), Collected.trans h.canonical h.collections g.collections⟩

/-- The laws of a state in REBUILD hold whatever the lanes do. -/
theorem rebuild_admits {s t : State} (hm : s.mode = .rebuild) (hc : SameControl s t) (htm : t.mode = s.mode) (hp : PlacedLaw s → PlacedLaw t)
    (hk : CanonicalTables s → CanonicalTables t) (hcol : Collected s t) : Admits s t := by
  refine ⟨AuthorityLaw.of_control hc htm, BudgetLaw.of_control hc, fun _ => ?_, hp, hk, hcol⟩
  rw [hm] at htm
  unfold LaneModeLaw
  rw [htm]
  exact ⟨fun x => (by rcases x with x | x <;> cases x), fun x => (by cases x)⟩

theorem Movement.rebuild_admits {s t : State} (h : Movement s t) (hm : s.mode = .rebuild) : Admits s t :=
  Sys2Proof.Machine.rebuild_admits hm h.control h.mode h.placed h.canonical h.collections

theorem takeHead_steady (s : State) : Steady s (takeHead s) := by
  unfold takeHead
  split <;> exact Steady.of_same (SameControl.refl _) rfl rfl rfl rfl rfl rfl rfl rfl rfl

/-- One admission keeps every law but the reserve's, in any state (R118). -/
theorem admitOne_admits (s : State) : Admits s (admitOne s) := by
  unfold admitOne
  split
  · rename_i hm
    split
    · rename_i i n _ _
      have h1 := (takeHead_steady s).trans (readRecord_steady n [.placed, .status, .length] (takeHead s))
      unfold admitRecord
      simp only
      split
      · split
        · rename_i l _ _ _ _
          have h2 := enterActive_steady n (beginSegment i n l (nextSegment l) l.cls 0 (readRecord n [.placed, .status, .length] (takeHead s)).2)
          refine rebuild_admits hm ?_ ?_ (fun h => h2.placed (h1.placed h)) (fun h => h2.canonical (h1.canonical h)) ?_
          · exact h1.control.trans h2.control
          · exact h2.mode.trans h1.mode
          · exact Collected.trans h1.canonical h1.collections
              (Collected.trans (t := beginSegment i n l (nextSegment l) l.cls 0 (readRecord n [.placed, .status, .length] (takeHead s)).2) id
                (Collected.of_same rfl rfl rfl rfl) h2.collections)
        · exact (h1.trans (enterHeld_steady ..)).toMovement.rebuild_admits hm
        · exact (h1.trans (enterStalled_steady ..)).toMovement.rebuild_admits hm
      · exact h1.toMovement.rebuild_admits hm
    · exact (Kept.refl s).admits
  · exact (Kept.refl s).admits

theorem countP_le_add {α : Type} {p q r : α → Bool} {xs : List α} (h : ∀ x, r x = true → p x = true ∨ q x = true) :
    xs.countP r ≤ xs.countP p + xs.countP q := by
  induction xs with
  | nil => exact Nat.le_refl _
  | cons x xs ih =>
    simp only [List.countP_cons]
    have := h x
    by_cases hr : r x = true
    · rcases this hr with hp | hq
      · rw [if_pos hr, if_pos hp]
        omega
      · rw [if_pos hr, if_pos hq]
        omega
    · rw [if_neg hr]
      omega

/-- A lane given work adds at most itself to the BACKGROUND lanes, and nothing where the work is of class FOREGROUND (R117). -/
theorem backgroundLanes_setLane (i : Fin 8) (j : Job) (s : State) :
    backgroundLanes (setLane i (some j) s) ≤ backgroundLanes s + if j.cls = .background then 1 else 0 := by
  rw [backgroundLanes_eq, backgroundLanes_eq]
  refine Nat.le_trans (countP_le_add (p := fun k => laneClass s k == some .background) (q := fun k => decide (k = i ∧ j.cls = .background))
    (fun k hk => ?_)) (Nat.add_le_add_left ?_ _)
  · by_cases h : k = i
    · subst h
      rw [laneClass, laneAt_setLane_same] at hk
      exact .inr (by simpa using hk)
    · rw [laneClass, laneAt_setLane_other _ h] at hk
      exact .inl hk
  · split
    · rename_i hb
      simp only [hb, and_true]
      revert i
      decide
    · rename_i hb
      simp [hb]

/-- One admission keeps the law of the reserve, where the Foreground Queue's head is of class FOREGROUND (R114, R117). -/
theorem admitOne_reserve {s : State} (hq : ∀ n q l, s.fgQueue = n :: q → liveAt s n = some l → l.cls = .foreground) (h : ReserveLaw s) :
    ReserveLaw (admitOne s) := by
  unfold admitOne
  split
  · split
    · rename_i i n _ ha
      have h1 := (takeHead_steady s).trans (readRecord_steady n [.placed, .status, .length] (takeHead s))
      have done : ∀ t, Steady (readRecord n [.placed, .status, .length] (takeHead s)).2 t → ReserveLaw t := fun t g =>
        ReserveLaw.of_control (h1.trans g).control (h1.trans g).background h
      unfold admitRecord
      simp only
      split
      · rename_i l hr hl
        split
        · have h2 := enterActive_steady n (beginSegment i n l (nextSegment l) l.cls 0 (readRecord n [.placed, .status, .length] (takeHead s)).2)
          have hs : (enterActive n (beginSegment i n l (nextSegment l) l.cls 0
              (readRecord n [.placed, .status, .length] (takeHead s)).2)).settings = s.settings := by
            obtain ⟨-, -, -, -, -, -, -, -, -, e2, -⟩ := h2.control
            obtain ⟨-, -, -, -, -, -, -, -, -, e1, -⟩ := h1.control
            exact e2.trans e1
          have hb := Nat.le_trans h2.background (backgroundLanes_setLane i _ _)
          have h1b := h1.background
          have hlive : liveAt s n = some l := by
            rw [← hl, liveAt_congr (readRecord_ok hr).1]
            unfold takeHead
            split <;> rfl
          unfold ReserveLaw at *
          rw [hs]
          simp only at hb
          unfold admissible at ha
          split at ha
          · rename_i m q hf
            cases ha
            rw [if_neg (by rw [hq _ q l hf hlive]; decide)] at hb
            omega
          · split at ha
            · split at ha
              · rename_i hroom
                have : (if l.cls = .background then 1 else 0) ≤ 1 := by split <;> omega
                simp only [Config.laneCount] at hroom
                omega
              · cases ha
            · cases ha
        · exact done _ (enterHeld_steady ..)
        · exact done _ (enterStalled_steady ..)
      · exact done _ (Steady.refl _)
    · exact h
  · exact h

theorem setStore_lanes (i : Fin 8) (q : Nat) (st : Store) (s : State) (k : Fin 8) :
    (laneAt (setStore i q st s) k).isNone = (laneAt s k).isNone := by
  unfold setStore
  split
  · rfl
  · rename_i j hj
    by_cases hk : k = i
    · subst hk
      rw [laneAt_setLane_same, hj]
      rfl
    · rw [laneAt_setLane_other _ hk]

theorem setStore_kept (i : Fin 8) (q : Nat) (st : Store) (s : State) : Kept s (setStore i q st s) :=
  (setStore_steady i q st s).toMovement.kept (setStore_lanes i q st s)

theorem sendChunk_kept (i : Fin 8) (q k : Nat) (s : State) : Kept s (sendChunk i q k s) := by
  unfold sendChunk
  split
  · exact Kept.refl s
  · split
    · exact sendFrame_kept ..
    · exact Kept.refl s

theorem chunkLeft_kept (i : Fin 8) (q a : Nat) (s : State) : Kept s (chunkLeft i q a s) := by
  unfold chunkLeft
  split
  · exact Kept.refl s
  · split
    · exact (setStore_kept ..).trans (sendChunk_kept ..)
    · exact Kept.refl s

theorem sendCompleted_kept (i : Fin 8) (q a : Nat) (s : State) : Kept s (sendCompleted i q a s) := by
  unfold sendCompleted
  split
  · exact Kept.refl s
  · split
    · exact setStore_kept ..
    · exact Kept.refl s

theorem startAttempt_kept (i : Fin 8) (q : Nat) (s : State) : Kept s (startAttempt i q s) := by
  unfold startAttempt
  split
  · exact Kept.refl s
  · exact ((setStore_kept ..).trans (setNode_kept ..)).trans (sendChunk_kept ..)

theorem handRoom_kept (s : State) : Kept s (handRoom s) := by
  refine foldl_kept (fun s e => ?_) _ s
  unfold beginIfRoom
  split
  · exact Kept.refl s
  · split
    · refine Kept.trans (t := { s with waitList := s.waitList.erase e }) ?_ (startAttempt_kept ..)
      exact Kept.of_same rfl rfl (fun _ => rfl) rfl rfl rfl rfl ⟨rfl, rfl, rfl, rfl, rfl, rfl, rfl⟩
    · exact Kept.refl s

theorem modify_mem {ts : List Target} {q : Nat} {g : Target → Target} {t : Target} (h : t ∈ ts.modify q g) :
    ∃ x ∈ ts, t = x ∨ t = g x := by
  obtain ⟨i, hi⟩ := List.mem_iff_getElem?.mp h
  rw [List.getElem?_modify] at hi
  cases hx : ts[i]? with
  | none => rw [hx] at hi; cases hi
  | some x =>
    rw [hx] at hi
    refine ⟨x, List.mem_iff_getElem?.mpr ⟨i, hx⟩, ?_⟩
    by_cases hq : q = i
    · simp only [hq, if_true, Option.map_eq_map, Option.map_some] at hi
      cases hi
      exact Or.inr rfl
    · simp only [hq, if_false, Option.map_eq_map, Option.map_some] at hi
      cases hi
      exact Or.inl rfl

/-- Counts stay in order when every target becomes one that has its own count in order, DONE ones staying DONE (R12). -/
theorem PlacedCounts.modify {l : Live} (h : PlacedCounts l) {q : Nat} {g : Target → Target}
    (hg : ∀ x, x.placed ≤ l.segTotal → (x.status = .done ↔ x.placed = l.segTotal) →
      (g x).placed ≤ l.segTotal ∧ ((g x).status = .done ↔ (g x).placed = l.segTotal) ∧ (x.status = .done → (g x).status = .done)) :
    PlacedCounts { l with targets := l.targets.modify q g } := by
  obtain ⟨h1, h2, h3⟩ := h
  refine ⟨h1, fun t ht => ?_, fun hp t ht => ?_⟩
  · obtain ⟨x, hx, rfl | rfl⟩ := modify_mem ht
    · exact h2 t hx
    · have := hg x (h2 x hx).1 (h2 x hx).2
      exact ⟨this.1, this.2.1⟩
  · obtain ⟨x, hx, rfl | rfl⟩ := modify_mem ht
    · exact h3 hp t hx
    · exact (hg x (h2 x hx).1 (h2 x hx).2).2.2 (h3 hp x hx)

theorem loseTarget_steady (n q seg : Nat) (s : State) : Steady s (loseTarget n q seg s) := by
  unfold loseTarget
  split
  · exact Steady.refl s
  · rename_i l hl
    refine Steady.trans (setLive_steady hl (by rfl) (by rfl) (fun hp => ?_)) (writeFields_steady ..)
    refine (hp n l hl).modify (fun x h1 h2 => ?_)
    by_cases hn : needsSegment x seg = true
    · rw [if_pos hn]
      simp only [needsSegment, Bool.and_eq_true, beq_iff_eq] at hn
      have h3 : x.placed ≠ l.segTotal := fun h => by rw [h2.mpr h] at hn; cases hn.1
      refine ⟨h1, ⟨fun h => (by cases h), fun h => absurd h h3⟩, fun h => by rw [h] at hn; cases hn.1⟩
    · rw [if_neg hn]
      exact ⟨h1, h2, fun h => h⟩

theorem advanceTarget_steady (n q seg : Nat) (s : State) : Steady s (advanceTarget n q seg s) := by
  unfold advanceTarget
  split
  · exact Steady.refl s
  · rename_i l hl
    refine Steady.trans (setLive_steady hl (by rfl) (by rfl) (fun hp => ?_)) (writeFields_steady ..)
    refine (hp n l hl).modify (fun x h1 h2 => ?_)
    unfold advancedTarget
    by_cases hn : needsSegment x seg = true
    · rw [if_pos hn]
      simp only [needsSegment, Bool.and_eq_true, beq_iff_eq] at hn
      have h3 : x.placed ≠ l.segTotal := fun h => by rw [h2.mpr h] at hn; cases hn.1
      refine ⟨by simp only; omega, ?_, fun h => by rw [h] at hn; cases hn.1⟩
      simp only
      constructor
      · intro h
        split at h
        · assumption
        · rw [hn.1] at h; cases h
      · intro h
        rw [if_pos h]
    · rw [if_neg hn]
      exact ⟨h1, h2, fun h => h⟩

theorem failAttempt_steady (i : Fin 8) (j : Job) (st : Store) (s : State) : Steady s (failAttempt i j st s) := by
  unfold failAttempt
  split
  · exact ((lowerOutstanding_steady ..).trans (setStore_steady ..)).trans (beginAttempt_steady ..)
  · exact (loseTarget_steady ..).trans (enterHeld_steady ..)

theorem goodReceipt_steady (i : Fin 8) (j : Job) (st : Store) (s : State) : Steady s (goodReceipt i j st s) := by
  unfold goodReceipt
  have h1 : Steady s (readRecord j.record [.placed, .segTotal]
      (setStore i st.target { st with state := .stored, timer := none } (lowerOutstanding st.dest (clearConsecutive st.dest s)))).2 :=
    (((clearConsecutive_steady ..).trans (lowerOutstanding_steady ..)).trans (setStore_steady ..)).trans (readRecord_steady ..)
  simp only
  split
  · split
    · exact (h1.trans (advanceTarget_steady ..)).trans (turnEnd_steady ..)
    · exact h1.trans (advanceTarget_steady ..)
  · exact h1

theorem onStoreAck_kept (f : Frame) (s : State) : Kept s (onStoreAck f s) := by
  refine nodeAnswer_kept (fun r _ => ?_)
  unfold applyStoreAck
  split
  · exact count_kept ..
  · split
    · split
      · exact (goodReceipt_steady ..).toMovement.settle_kept
      · exact (failAttempt_steady ..).toMovement.settle_kept
    · split
      · exact (failAttempt_steady ..).toMovement.settle_kept
      · exact count_kept ..

theorem storeExpiry_kept (i : Fin 8) (q : Nat) (s : State) : Kept s (storeExpiry i q s) := by
  unfold storeExpiry
  split
  · exact Kept.refl s
  · split
    · split
      · exact ((raiseConsecutive_steady ..).trans (muteNode_steady ..)).toMovement.settle_kept
      · exact ((raiseConsecutive_steady ..).trans (failAttempt_steady ..)).toMovement.settle_kept
    · exact Kept.refl s

/-! ### The window and the resets -/

theorem writeSetting_kept {ok : Bool} {upd : Settings → Settings} {s : State} (h : ∀ st, refillValue (upd st) = refillValue st)
    (hr : ∀ st, (upd st).reserve = st.reserve) : Kept s (writeSetting ok upd s) := by
  unfold writeSetting
  split
  · exact Kept.of_same rfl rfl (fun _ => rfl) rfl (h s.settings) (hr s.settings) rfl ⟨rfl, rfl, rfl, rfl, rfl, rfl, rfl⟩
  · exact count_kept ..

theorem writePacing_kept (which : PacingSetting) (v : Nat) (s : State) : Kept s (writePacing which v s) := by
  unfold writePacing
  split
  · exact reloadPacing_kept (Kept.refl s) (by cases which <;> rfl)
  · exact count_kept ..

theorem writeProbePeriod_kept (v : Nat) (s : State) : Kept s (writeProbePeriod v s) := by
  unfold writeProbePeriod
  split
  · exact Kept.of_same rfl rfl (fun _ => rfl) rfl rfl rfl rfl ⟨rfl, rfl, rfl, rfl, rfl, rfl, rfl⟩
  · exact count_kept ..

/-- A write of the reserve is taken only where every lane is IDLE (R117). -/
theorem writeReserve_kept (v : Nat) (s : State) : Kept s (writeReserve v s) := by
  unfold writeReserve writeSetting
  split
  · rename_i h
    refine SameTables.kept ⟨rfl, rfl, rfl, rfl, rfl, rfl, rfl⟩ (fun h => h) (fun h => h) (fun h => h) (fun hl _ => ReserveLaw.of_idle (hl.1 ?_))
    revert h
    cases s.mode <;> simp
  · exact count_kept ..

/-- A change of the events and of what was sent. -/
theorem events_kept {e : Events} {o : List Output} {s : State} : Kept s { s with events := e, outputs := o } :=
  Kept.of_same rfl rfl (fun _ => rfl) rfl rfl rfl rfl ⟨rfl, rfl, rfl, rfl, rfl, rfl, rfl⟩

theorem changeMsiEnable_kept (b : Bool) (s : State) : Kept s (changeMsiEnable b s) := by
  unfold changeMsiEnable sendPendingRoutine sendPendingUrgent emit
  repeat' split
  all_goals exact events_kept

theorem clearCounter_kept (c : Counter) (s : State) : Kept s (clearCounter c s) :=
  Kept.of_same rfl rfl (fun _ => rfl) rfl rfl rfl rfl ⟨rfl, rfl, rfl, rfl, rfl, rfl, rfl⟩

theorem setPeek_kept (p : Peek) (s : State) : Kept s { s with peek := p } :=
  Kept.of_same rfl rfl (fun _ => rfl) rfl rfl rfl rfl ⟨rfl, rfl, rfl, rfl, rfl, rfl, rfl⟩

theorem writePeek_kept (n : BitVec 16) (c : BitVec 6) (s : State) : Kept s (writePeek n c s) := by
  unfold writePeek
  split
  · exact count_kept ..
  · exact setPeek_kept ..

theorem startPeek_kept (n : BitVec 16) (c : BitVec 6) (s : State) : Kept s (startPeek n c s) := by
  unfold startPeek
  split
  · exact count_kept ..
  · split
    · exact setPeek_kept ..
    · exact (setPeek_kept ..).trans (count_kept ..)

theorem peekReads_steady (n c : Nat) (s : State) : Steady s (peekReads n c s).1 := by
  unfold peekReads
  split
  · exact readRecordFields_steady ..
  · exact readFields_steady ..

/-- `settle` after a movement and a change of the peek engine. -/
theorem Movement.settle_peek_kept {s u : State} (h : Movement s u) (p : Peek) : Kept s (settle { u with peek := p }) := by
  have hb := handRoom_steady { u with peek := p }
  have hd := endDrain_kept (handRoom { u with peek := p })
  have ha : AuthorityLaw s → AuthorityLaw (handRoom { u with peek := p }) := fun x => by
    have y : AuthorityLaw u := AuthorityLaw.of_control h.control h.mode x
    have y' : AuthorityLaw { u with peek := p } := y
    exact AuthorityLaw.of_control hb.control hb.mode y'
  have hbud : BudgetLaw s → BudgetLaw (handRoom { u with peek := p }) := fun x => by
    have y : BudgetLaw u := BudgetLaw.of_control h.control x
    have y' : BudgetLaw { u with peek := p } := y
    exact BudgetLaw.of_control hb.control y'
  have hidle : ∀ i, laneAt s i = none → laneAt (handRoom { u with peek := p }) i = none := fun i hi => hb.idle i (h.idle i hi)
  have hm : (handRoom { u with peek := p }).mode = s.mode := hb.mode.trans h.mode
  have hset : (handRoom { u with peek := p }).settings.reserve = s.settings.reserve := by
    obtain ⟨-, -, -, -, -, -, -, -, -, e2, -⟩ := hb.control
    obtain ⟨-, -, -, -, -, -, -, -, -, e1, -⟩ := h.control
    rw [e2]
    exact congrArg Settings.reserve e1
  have hcol : Collected s (handRoom { u with peek := p }) := by
    refine Collected.trans (t := u) h.canonical h.collections (Collected.trans (t := { u with peek := p }) id ?_ hb.collections)
    exact Collected.of_same rfl rfl rfl rfl
  have hcan : CanonicalTables s → CanonicalTables (handRoom { u with peek := p }) := fun x => hb.canonical (h.canonical x)
  have hback : backgroundLanes (handRoom { u with peek := p }) ≤ backgroundLanes s := Nat.le_trans hb.background h.background
  refine ⟨⟨fun x => hd.authority (ha x), fun x => hd.budget (hbud x), fun x => ?_,
    fun x => hd.placed (hb.placed (h.placed x)), fun x => hd.canonical (hcan x), fun _ x => ?_⟩, Collected.trans hcan hcol hd.collections⟩
  · unfold settle endDrain
    split
    case isTrue g => exact LaneModeLaw.of_ready (setMode_mode ..) ((allIdle_of_lanes (setMode_lanes ..)).trans g.2)
    case isFalse g =>
      refine ⟨fun y => ?_, fun y => Bool.eq_false_iff.mpr (fun z => g ⟨y, z⟩)⟩
      rw [hm] at y
      exact (allIdle_iff _).mpr (fun i => hidle i ((allIdle_iff s).mp (x.1 y) i))
  · unfold settle endDrain
    split
    case isTrue g => exact ReserveLaw.of_idle ((allIdle_of_lanes (setMode_lanes ..)).trans g.2)
    case isFalse g => exact x.of_le hback hset

theorem completePeek_kept (s : State) : Kept s (completePeek s) := by
  unfold completePeek
  split
  · exact ((peekReads_steady ..).toMovement.settle_peek_kept _).trans (raise_kept ..)
  · exact Kept.refl s

theorem calmNode_kept (s : State) (k : Nat) : Kept s (calmNode s k) :=
  setNode_kept ..

theorem foldl_calm_steady (ks : List Nat) (s : State) : Steady s (ks.foldl calmNode s) :=
  Steady.foldl (fun _ _ => setNode_steady ..) ks s

theorem warmReset_kept (s : State) : Kept s (warmReset s) := by
  have h := (returnAllLanes_steady s).trans (foldl_calm_steady (Sparse.keys (returnAllLanes s).nodes) (returnAllLanes s))
  have hl : allIdle ((Sparse.keys (returnAllLanes s).nodes).foldl calmNode (returnAllLanes s)) = true :=
    (allIdle_iff _).mpr (fun i => (foldl_calm_steady _ _).idle i ((allIdle_iff _).mp (returnAllLanes_idle s) i))
  unfold warmReset warmBlocks
  simp only
  generalize (Sparse.keys (returnAllLanes s).nodes).foldl calmNode (returnAllLanes s) = u at h hl
  have hmode : warmMode u.mode = warmMode s.mode := by rw [h.mode]
  refine ⟨⟨fun ha => ?_, fun _ => Nat.le_refl _, fun _ => ?_, fun hp => (h.placed hp).of_same rfl, fun hk => h.canonical hk,
    fun _ _ => ReserveLaw.of_idle hl⟩, Collected.trans h.canonical h.collections (Collected.of_same rfl rfl rfl rfl)⟩
  · refine ⟨fun x => ?_, ?_⟩
    · have x : warmMode u.mode = .rebuild := x
      cases hm : u.mode <;> rw [hm] at x <;> cases x
    · show portsAllowed u (warmMode u.mode) = true
      rw [hmode, portsAllowed_of_control h.control]
      have h2 := ha.2
      cases hm : s.mode
      · rw [hm] at h2
        exact h2
      · rfl
      · rfl
      · rfl
  · refine ⟨fun _ => hl, fun x => ?_⟩
    have x : warmMode u.mode = .drain := x
    cases hm : u.mode <;> rw [hm] at x <;> cases x

theorem ite_kept {c : Prop} [Decidable c] {s t u : State} (h : Kept s t) (g : Kept s u) : Kept s (if c then t else u) := by
  split
  · exact h
  · exact g

theorem writeOther_kept (o : Nat) (v : BitVec 32) (s : State) : Kept s (writeOther o v s) := by
  unfold writeOther
  refine ite_kept events_kept (ite_kept events_kept (ite_kept events_kept (ite_kept events_kept (ite_kept
    (ite_kept (warmReset_kept s) (Kept.refl s)) (ite_kept ?_ (count_kept ..))))))
  split
  · exact clearCounter_kept ..
  · exact ite_kept (ite_kept (startPeek_kept ..) (writePeek_kept ..)) (count_kept ..)

/-- A window write keeps the laws, whatever register it is of (R190). -/
theorem writeWindow_kept (o : Nat) (v : BitVec 32) (s : State) : Kept s (writeWindow o v s) := by
  unfold writeWindow
  split
  · unfold writeControl
    split
    · exact writeMode_kept ..
    · split
      · exact writePort_kept ..
      · split
        · exact writePort_kept ..
        · split
          · exact writeAddressLow_kept ..
          · split
            · exact writeAddressHigh_kept ..
            · split
              · exact writeAddressLow_kept ..
              · split
                · exact writeAddressHigh_kept ..
                · split
                  · exact Kept.of_same rfl rfl (fun _ => rfl) rfl rfl rfl rfl ⟨rfl, rfl, rfl, rfl, rfl, rfl, rfl⟩
                  · split
                    · exact writeEtherType_kept ..
                    · exact count_kept ..
  · split
    · unfold writeSettings
      refine ite_kept (writeSetting_kept (fun _ => rfl) (fun _ => rfl)) (ite_kept (writeSetting_kept (fun _ => rfl) (fun _ => rfl))
        (ite_kept (writeSetting_kept (fun _ => rfl) (fun _ => rfl)) (ite_kept (writeProbePeriod_kept ..) (ite_kept (writePacing_kept ..)
        (ite_kept (writePacing_kept ..) (ite_kept (writePacing_kept ..) (ite_kept (writeSetting_kept (fun _ => rfl) (fun _ => rfl))
        (ite_kept (writeReserve_kept ..) (ite_kept (writeSetting_kept (fun _ => rfl) (fun _ => rfl)) (ite_kept (writeLeaseSetting_kept ..)
        (ite_kept (writeLeaseSetting_kept ..) (ite_kept (writeSetting_kept (fun _ => rfl) (fun _ => rfl)) (count_kept ..)))))))))))))
    · exact writeOther_kept ..

/-! ### Frames as bytes -/

theorem routeKind_kept (k : Kind) (f : Frame) (s : State) : Kept s (routeKind k f s) := by
  unfold routeKind
  split
  · exact onDefine_kept ..
  · exact onLocate_kept ..
  · exact onClass_kept ..
  · exact onRevise_kept ..
  · exact onRedirect_kept ..
  · exact onHold_kept ..
  · exact onResume_kept ..
  · exact onCancel_kept ..
  · exact onRetire_kept ..
  · exact onWatch_kept ..
  · exact onFence_kept ..
  · exact onUnfence_kept ..
  · exact onRosterSet_kept ..
  · exact onRosterClear_kept ..
  · exact onMode_kept ..
  · exact onLeaseTake_kept ..
  · exact onLeaseRenew_kept ..
  · exact onLeaseRelease_kept ..
  · exact onWake_kept ..
  · exact onFetchData_kept ..
  · exact onFetchFail_kept ..
  · exact onStoreAck_kept ..
  · exact onProbeAck_kept ..
  · exact count_kept ..
  · exact count_kept ..
  · exact count_kept ..
  · exact count_kept ..
  · exact count_kept ..

theorem onRawFrame_kept (f : RawFrame) (s : State) : Kept s (onRawFrame f s) := by
  unfold onRawFrame
  split
  · split
    · unfold dormantFrame
      split
      · exact takenWake_kept ..
      · exact count_kept ..
    · unfold awakeFrame
      split
      · split
        · exact routeKind_kept ..
        · exact answer_kept ..
      · exact count_kept ..
  · exact Kept.refl s

/-! ### The passing of time -/

theorem tick_laneAt (s : State) (i : Fin 8) : laneAt (tick s) i = (laneAt s i).map tickJob := by
  simp [laneAt, tick]

theorem tickSlot_ne {v : FetchSlot} (h : v ≠ { generation := 0, use := none }) : tickSlot v ≠ { generation := 0, use := none } := by
  intro hv
  apply h
  obtain ⟨g, u⟩ := v
  unfold tickSlot at hv
  cases u with
  | none => exact hv
  | some f => cases hv

end Sys2Proof.Machine
end

