-- ==== Sys2Proof/Tests/Slice0.lean ====
section
/-! SUPPORT. Tests: what the well-formedness check refuses, worked values of the manual, and for every obligation states and operands that meet its
hypotheses, clause by clause. -/

namespace Sys2Proof.Tests

open Sys2Proof.Machine

/-! ### A small world -/

/-- The lease holder's address. -/
def holder : EthAddr := 0xB0

/-- Another sender's address. -/
def stranger : EthAddr := 0xD0

/-- The stripe of R4's worked value. -/
def key : StripeKey := 0x1111222233334444

def portOn : PortRegs := { state := .on, resume := .on, linkUp := true, addr := 0xA0, staging := 0 }

/-- A node slot in rack 0 that one record names. -/
def node (st : NodeState) (a : EthAddr) : Node :=
  { state := st, addr := a, rack := 0, pref := .either, limit := 4, outstanding := 0, consecutive := 0, refs := 1, probeSeq := 0, stallList := [] }

/-- REBUILD, a lease held, port A working, three nodes serving. -/
def world : State :=
  { State.reset with
    mode := .rebuild
    portA := portOn
    lease := { grant := some { holder := holder, elapsed := 0 }, epoch := 1 }
    nodes := [(1, node .serving 0xC1), (2, node .serving 0xC2), (3, node .serving 0xC3)] }

/-- A frame to port A from `src`. -/
def msg (src : EthAddr) (flags : Byte) (body : List Byte) : Frame :=
  { port := .a, dst := 0xA0, src := src, etherType := 0x88B6, fcsOk := true, flags := flags, tag := 9, cluster := 0, wakeUnit := 0, body := body
    trailing := 0 }

/-- A stripe of two segments, the second of one block, with two sources and two targets. -/
def stripe (st : RecState) (placed : Nat) : Live :=
  { key := key, length := 69632, segTotal := 2, cls := .background
    sources := [{ slot := 1, frag := 0, coefs := [1, 2] }, { slot := 2, frag := 1, coefs := [3, 4] }]
    targets := [{ frag := 2, dest := 3, placed := placed, status := .opened }, { frag := 3, dest := 3, placed := placed, status := .opened }]
    state := st, watch := none, stamp := 0, definer := holder, way := 0, fixed := false, lostFields := [] }

/-- The world with record 5, of generation 7. -/
def holding (l : Live) : State :=
  { world with
    records := [(5, { generation := 7, live := some l })]
    index := [(8736, some { record := 5, key := key })]
    bgQueue := if l.state = .waiting then [5] else []
    liveCount := 1 }

/-- The name of record 5. -/
def five : RecordName := { number := 5, generation := 7 }

/-- The body of a request that names record 5 and carries nothing else. -/
def nameBody : List Byte := [0, 5, 0, 7]

/-! ### Well-formedness: each check refuses an ill-formed command -/

theorem test_wf_longBody : (Instr.hold { msg holder 0 [] with body := List.replicate 8985 0 } []).wellFormed = false := by
  change decide ((List.replicate 8985 (0 : Byte)).length ≤ 8984) = false
  rw [List.length_replicate]
  rfl

theorem test_wf_shortBody : (Instr.hold (msg holder 0 nameBody) []).wellFormed = true := by decide

/-- Bytes of a readable HOLD are no UNREADABLE_FRAME; those of a REPLY and of an undefined kind are. -/
def raw (kind : Byte) : RawFrame :=
  { port := .a, dst := 0xA0, src := stranger, etherType := 0x88B6, fcsOk := true
    payload := [1, kind, 0, 0, 0, 0, 0, 9, 0, 4, 0, 0, 0, 0, 0, 0, 0, 5, 0, 7] }

theorem test_wf_rawFrame : (Instr.unreadableFrame (raw 0x06)).wellFormed = false ∧ (Instr.unreadableFrame (raw 0x20)).wellFormed = true
    ∧ (Instr.unreadableFrame (raw 0x14)).wellFormed = true ∧ (Instr.unreadableFrame { raw 0x06 with payload := [1, 6] }).wellFormed = true := by
  decide

theorem test_wf_attempt : (Instr.sendCompletion 0 0 3).wellFormed = false ∧ (Instr.storeChunkSent 0 0 0).wellFormed = false
    ∧ (Instr.storeChunkSent 0 0 2).wellFormed = true := by decide

theorem test_wf_window : (Instr.windowWrite 0x041 0).wellFormed = false ∧ (Instr.windowWrite 0x010 1).wellFormed = false
    ∧ (Instr.windowWrite 0x090 1).wellFormed = false ∧ (Instr.windowWrite 0x090 0).wellFormed = true
    ∧ (Instr.windowWrite 0x040 1).wellFormed = true := by decide

theorem test_decode_none : decodeTableWord 8 0 = none ∧ State.reset.withFetchWord 8 0 = State.reset := ⟨rfl, rfl⟩

/-! ### Worked values of the manual -/

/-- R2's worked product. -/
theorem test_gfMul : gfMul 0x80 0x02 = 0x1D := by decide

/-- R3's worked CRC, of the bytes of "123456789". -/
theorem test_crc : segmentCrc [0x31, 0x32, 0x33, 0x34, 0x35, 0x36, 0x37, 0x38, 0x39] = 0xE3069283 := by decide +kernel

/-- R4's worked bucket. -/
theorem test_bucket : bucketOf key = 1092 := by decide

/-- R1: segments of a fragment. -/
theorem test_segments : segmentTotal 69632 = 2 ∧ segmentLength 69632 0 = 65536 ∧ segmentLength 69632 1 = 4096 ∧ chunkCount 65536 = 8
    ∧ chunkCount 4096 = 1 := by decide

/-- R180: the header on the wire, padded to the minimum frame. -/
theorem test_wire : (SentFrame.wire { port := .a, dst := 0xB0, src := 0xA0, etherType := 0x88B6, kind := 0x20, flags := 0, tag := 9, body := [6, 0] }) =
    [0, 0, 0, 0, 0, 0xB0, 0, 0, 0, 0, 0, 0xA0, 0x88, 0xB6, 1, 0x20, 0, 0, 0, 0, 0, 9, 0, 2, 0, 0, 0, 0, 0, 0, 6, 0] ++ List.replicate 28 0 := by
  decide

/-- Every kind's code is read back as the kind (R181). -/
theorem test_kindCodes : ∀ c : Byte, ∀ k ∈ kindOfCode c, k.code = c := by decide +kernel

/-! ### Frames that arrive -/

theorem arrives_msg {s : State} (hp : s.portA = portOn) (he : s.etherType = 0x88B6) (hm : s.mode ≠ .dormant) (src : EthAddr) (flags : Byte)
    {body : List Byte} (h : body.length ≤ 8984) : Arrives s (msg src flags body) := by
  refine ⟨?_, hm⟩
  have hl : 14 + 16 + body.length + 0 + 4 ≤ 9018 := by omega
  simpa [taken, portTakes, msg, portAt, hp, he, frameLength, portOn, Config.maxFrame] using hl

/-! ### Steps and resets -/

/-- A frame that names record 5. -/
def holdMsg : Frame := msg holder 0 nameBody

/-- A fetch in flight for lane 0. -/
def fetchOf (seg len attempt : Nat) : Fetch :=
  { lane := 0, record := 5, generation := 7, segment := seg, length := len, source := 0, node := 1, attempt := attempt, blocks := [], announced := none
    conflict := false, firstTimer := some 2000, streamTimer := none }

/-- Lane 0's job on record 5. -/
def job (seg len : Nat) (ph : Phase) : Job :=
  { record := 5, generation := 7, cls := .background, segment := seg, segLength := len, needed := [0, 1], complete := []
    accs := [(0, List.replicate len 0), (1, List.replicate len 0)], turnCount := 0, pendingFetches := [{ source := 1, attempt := 1 }], phase := ph }

/-- Record 5 ACTIVE on lane 0. -/
def working (seg len : Nat) (ph : Phase) : State :=
  { holding (stripe .active seg) with lanes := (Vector.replicate 8 none).set 0 (some (job seg len ph)) }

/-- Slot 0 in use for lane 0. -/
def fetching (ft : Fetch) : State :=
  { working ft.segment ft.length .gather with fetch := [(0, { generation := 1, use := some ft })] }

/-- A store of target `q`. -/
def storeOf (q attempt : Nat) (st : StoreState) (sent : Nat) (timer : Option Nat) : Store :=
  { target := q, frag := if q = 0 then 2 else 3, dest := 3, crc := 7, attempt := attempt, state := st, chunksSent := sent, timer := timer }

/-- A queue with a command in front; an empty queue with a fetch in flight and a lane in GATHER, with a lane in PLACE whose store's timer runs, with a lease
just within its window and at its end, and with none. -/
theorem test_hyp_StepRunsTheFrontCommand : ({ world with pending := [.hold holdMsg [], .drainEnd] } : State).pending = .hold holdMsg [] :: [.drainEnd]
    ∧ (fetching (fetchOf 1 4096 1)).pending = [] ∧ (slotAt (fetching (fetchOf 1 4096 1)) 0).use = some (fetchOf 1 4096 1)
    ∧ (slotAt (fetching (fetchOf 1 4096 1)) 1).use = none ∧ laneAt (fetching (fetchOf 1 4096 1)) 0 = some (job 1 4096 .gather)
    ∧ laneAt (fetching (fetchOf 1 4096 1)) 1 = none ∧ (working 1 4096 (.place [storeOf 0 1 .awaiting 1 (some 5)])).pending = []
    ∧ laneAt (working 1 4096 (.place [storeOf 0 1 .awaiting 1 (some 5)])) 0 = some (job 1 4096 (.place [storeOf 0 1 .awaiting 1 (some 5)]))
    ∧ (fetching (fetchOf 1 4096 1)).lease.grant = some { holder := holder, elapsed := 0 } ∧ 199999 < world.settings.tMax * 100
    ∧ ¬ 200000 < world.settings.tMax * 100 ∧ State.reset.pending = [] ∧ State.reset.lease.grant = none := by
  refine ⟨rfl, rfl, rfl, rfl, rfl, rfl, rfl, rfl, rfl, ?_⟩
  decide

/-! ### One lane at work -/

/-- Lane 0 alone is busy, and its record is ACTIVE. -/
theorem lanesHold_one {s : State} {j : Job} {l : Live} (h0 : laneAt s 0 = some j) (hn : ∀ i : Fin 8, i ≠ 0 → laneAt s i = none)
    (hl : liveAt s j.record = some l) (ha : l.state = .active) : LanesHold s := by
  have only : ∀ i x, laneAt s i = some x → i = 0 ∧ x = j := by
    intro i x hx
    by_cases hi : i = 0
    · subst hi
      rw [h0] at hx
      exact ⟨rfl, (Option.some.inj hx).symm⟩
    · rw [hn i hi] at hx
      contradiction
  refine ⟨fun i x hx => ?_, fun i i' x x' hx hx' _ => ?_⟩
  · rw [(only i x hx).2]
    exact ⟨l, hl, ha⟩
  · rw [(only i x hx).1, (only i' x' hx').1]

/-- Lane 0 alone is busy, and a source of its record is on one of the nodes. -/
theorem lanesOn_one {s : State} {j : Job} {l : Live} {ks : List Nat} (h0 : laneAt s 0 = some j) (hn : ∀ i : Fin 8, i ≠ 0 → laneAt s i = none)
    (hl : liveAt s j.record = some l) (he : ∃ e ∈ l.sources, e.slot ∈ ks) : LanesOn s ks [0] := by
  refine ⟨by decide, fun i => ⟨fun hi => ?_, fun ⟨x, _, hx, _⟩ => ?_⟩⟩
  · rw [List.mem_singleton] at hi
    subst hi
    exact ⟨j, l, h0, hl, .inl he⟩
  · by_cases hi : i = 0
    · exact List.mem_singleton.mpr hi
    · rw [hn i hi] at hx
      contradiction

/-- No record is STALLED and no stall list has an entry. -/
theorem stallsHold_none {s : State} (hn : ∀ e ∈ s.nodes, e.2.stallList = []) (hr : ∀ n l, liveAt s n = some l → ∀ k, l.state ≠ .stalled k) :
    StallsHold s := by
  have e : ∀ k, (nodeAt s k).stallList = [] :=
    Sparse.forall_get (d := absentNode) (P := fun _ (v : Node) => v.stallList = []) hn (fun _ => rfl)
  refine ⟨fun k => by rw [e k]; exact List.nodup_nil, fun k n => ?_⟩
  rw [e k]
  exact ⟨fun h => by simp at h, fun ⟨l, hl, hs⟩ => (hr n l hl k hs).elim⟩

/-- Record 5 alone is live. -/
theorem live_five {s : State} {g : Generation} {x : Live} (h : s.records = [(5, { generation := g, live := some x })]) {n : Nat} {l : Live}
    (hl : liveAt s n = some l) : n = 5 ∧ l = x := by
  by_cases hn : n = 5
  · subst hn
    simp [liveAt, recordAt, h, Sparse.get] at hl
    exact ⟨rfl, hl.symm⟩
  · simp [liveAt, recordAt, h, Sparse.get, hn, freeRecord] at hl

/-! ### Frames -/

/-- DORMANT, port A listening. -/
def asleep : State := { world with mode := .dormant, portA := { portOn with state := .listen }, lease := { grant := none, epoch := 1 } }

theorem test_hyp_FramesThatReachNoUnit : frameCommand .hold holdMsg [] = some (.hold holdMsg [])
    ∧ taken { world with portA := { portOn with state := .off } } holdMsg = false
    ∧ taken asleep holdMsg = true ∧ asleep.mode = .dormant ∧ Kind.hold ≠ .wake := by decide

/-- The world with slot 3 FENCED. -/
def fencedThree : State := { world with nodes := [(1, node .serving 0xC1), (2, node .serving 0xC2), (3, node .fenced 0xC3)] }

/-- Requests and node answers of a wrong length, from the holder, a stranger, a node in service and a fenced one. -/
theorem test_hyp_MalformedAndUnauthorisedRequests : frameCommand .hold (msg holder 0 []) [] = some (.hold (msg holder 0 []) [])
    ∧ Kind.hold.route = .request ∧ Arrives world (msg holder 0 [0, 5, 0, 7, 0]) ∧ bodyReadable .hold [0, 5, 0, 7, 0] = false
    ∧ Arrives world (msg stranger 0 nameBody) ∧ bodyReadable .hold nameBody = true ∧ needsLease .hold = true ∧ holdsLease world stranger = false
    ∧ (∀ k ∈ [Kind.fetchData, .fetchFail, .storeAck, .probeAck], k.route = .nodeAnswer ∧ bodyReadable k [1, 2, 3] = false
        ∧ ∀ a : EthAddr, (frameCommand k (msg a 0 [1, 2, 3]) []).isSome = true)
    ∧ Arrives fencedThree (msg 0xC3 0 [1, 2, 3]) ∧ fromFenced fencedThree 0xC3 = true
    ∧ Arrives fencedThree (msg 0xC2 0 [1, 2, 3]) ∧ fromFenced fencedThree 0xC2 = false := by
  unfold Arrives
  refine ⟨by decide, by decide, by decide, by decide, by decide, by decide, by decide, by decide, ?_, by decide, by decide, by decide, by decide⟩
  intro k hk
  simp only [List.mem_cons, List.mem_nil_iff, or_false] at hk
  rcases hk with rfl | rfl | rfl | rfl <;> exact ⟨by decide, by decide, fun _ => rfl⟩

theorem test_hyp_IdentityCheckRefuses : frameCommand .hold holdMsg [] = some (.hold holdMsg []) ∧ namedBy .hold nameBody = some five
    ∧ Arrives (holding { stripe .waiting 0 with fixed := true }) holdMsg
    ∧ FromHolder (holding { stripe .waiting 0 with fixed := true }) holdMsg
    ∧ (holding { stripe .waiting 0 with fixed := true }).dram = []
    ∧ liveAt (holding { stripe .waiting 0 with fixed := true }) 5 = some { stripe .waiting 0 with fixed := true }
    ∧ namedBy .hold [0, 5, 0, 6] = some { number := 5, generation := 6 }
    ∧ Arrives (holding (stripe .waiting 0)) (msg holder 0 [0, 5, 0, 6])
    ∧ FromHolder (holding (stripe .waiting 0)) (msg holder 0 [0, 5, 0, 6])
    ∧ liveAt (holding (stripe .waiting 0)) 5 = some (stripe .waiting 0) ∧ (stripe .waiting 0).fixed = false
    ∧ generationAt (holding (stripe .waiting 0)) 5 ≠ 6
    ∧ Arrives { world with records := [(5, { generation := 7, live := none })] } holdMsg
    ∧ liveAt { world with records := [(5, { generation := 7, live := none })] } 5 = none
    ∧ generationAt { world with records := [(5, { generation := 7, live := none })] } 5 = 7 := by
  unfold Arrives FromHolder
  decide

/-! ### DEFINE and LOCATE -/

/-- A DEFINE of the stripe with two sources and one target, with class and edge codes, length, first source's slot and first target's fragment index as given. -/
def codedBody (cls edge : Byte) (len slot : Nat) (frag : Byte) : List Byte :=
  be 8 key.toNat ++ be 4 len ++ [cls, 2, 1, edge] ++ be 6 0 ++ [0, 0] ++ ([frag, 0] ++ be 2 3) ++ (be 2 slot ++ [0, 0, 1]) ++ (be 2 2 ++ [1, 0, 3])

/-- The same for class BACKGROUND and edge set ANY. -/
def defineBody (len slot : Nat) (frag : Byte) : List Byte := codedBody 1 3 len slot frag

def defineReq (len slot : Nat) (frag : Byte) : DefineReq :=
  { key := key, length := len, cls := 1, edge := 3, watcher := 0, targets := [(frag, 3)]
    sources := [{ slot := slot, frag := 0, coefs := [1] }, { slot := 2, frag := 1, coefs := [3] }] }

/-- The longest length and the largest slot and fragment index that pass, and the first that do not. -/
theorem test_hyp_DefineListChecks : parseDefine (defineBody 69632 1 2) = some (defineReq 69632 1 2) ∧ badDefineList (defineReq 69632 1 19) = false
    ∧ badDefineList (defineReq 69632 1 20) = true ∧ badDefineList (defineReq 69632 1 0) = true ∧ badLength 67108864 = false
    ∧ badLength 67112960 = true ∧ badLength 0 = true ∧ badLength 4095 = true ∧ badSlot world 1023 = true ∧ badSlot world 1 = false
    ∧ badDefineSlot { world with nodes := [(1023, node .serving 0xC9), (2, node .serving 0xC2), (3, node .serving 0xC3)] } (defineReq 69632 1023 2) = false
    ∧ badDefineSlot world (defineReq 69632 1024 2) = true := by decide

/-- Two way contents of the stripe's bucket: another stripe that folds to it, in every way. -/
def fullBucket : State :=
  { world with index := (List.range 8).map (fun w => (8736 + w, some { record := 100 + w, key := 0x444 })) }

theorem keyAbsent_of {s : State} {k : StripeKey} (h : ∀ w : Fin 8, (wayAt s (bucketOf k) w).all (fun e => e.key != k) = true) : KeyAbsent s k := by
  intro w e hw he hk
  have h1 := h ⟨w, hw⟩
  simp only at h1
  rw [he] at h1
  simp [hk] at h1

theorem keyFinds_of {s : State} {k : StripeKey} {n : Nat} {l : Live} (hl : liveAt s n = some l) (w : Fin 8)
    (hw : wayAt s (bucketOf k) w = some { record := n, key := k })
    (h : ∀ w : Fin 8, (wayAt s (bucketOf k) w).all (fun e => e.record == n) = true) : KeyFinds s k n l := by
  refine ⟨hl, ⟨w, w.isLt, hw⟩, fun v e hv he _ => ?_⟩
  have h1 := h ⟨v, hv⟩
  simp only at h1
  rw [he] at h1
  simpa using h1

theorem test_hyp_DefineOrderedRefusals : Arrives world (msg holder 0 (defineBody 69632 1 2)) ∧ world.dram = []
    ∧ FromHolder world (msg holder 0 (defineBody 69632 1 2)) ∧ parseDefine (defineBody 69632 1 2) = some (defineReq 69632 1 2)
    ∧ classOfCode 1 = some .background ∧ edgeOfCode 3 = some (some .any)
    ∧ badLength (defineReq 69632 1 2).length = false ∧ badDefineList (defineReq 69632 1 2) = false
    ∧ badDefineSlot world (defineReq 69632 1 2) = false
    ∧ parseDefine (defineBody 4097 1 2) = some (defineReq 4097 1 2) ∧ badLength 4097 = true
    ∧ parseDefine (defineBody 69632 1 20) = some (defineReq 69632 1 20) ∧ badDefineList (defineReq 69632 1 20) = true
    ∧ parseDefine (defineBody 69632 4 2) = some (defineReq 69632 4 2) ∧ badDefineSlot world (defineReq 69632 4 2) = true
    ∧ (∀ w : Fin 8, wayAt fullBucket (bucketOf key) w ≠ none) ∧ wayAt world (bucketOf key) 7 = none
    ∧ 65536 ≤ ({ world with liveCount := 65536 } : State).liveCount
    ∧ Arrives world (msg holder 0 (codedBody 2 3 69632 1 2)) ∧ FromHolder world (msg holder 0 (codedBody 2 3 69632 1 2))
    ∧ parseDefine (codedBody 2 3 69632 1 2) = some { defineReq 69632 1 2 with cls := 2 } ∧ 1 < (2 : Byte).toNat
    ∧ Arrives world (msg holder 0 (codedBody 1 4 69632 1 2)) ∧ FromHolder world (msg holder 0 (codedBody 1 4 69632 1 2))
    ∧ parseDefine (codedBody 1 4 69632 1 2) = some { defineReq 69632 1 2 with edge := 4 } ∧ 3 < (4 : Byte).toNat := by
  unfold Arrives FromHolder
  decide

theorem test_keyFinds : KeyFinds (holding (stripe .waiting 0)) key 5 (stripe .waiting 0) :=
  keyFinds_of (by decide) 0 (by decide) (by decide)

theorem test_keyAbsent : KeyAbsent world key ∧ KeyAbsent fullBucket key :=
  ⟨keyAbsent_of (by decide), keyAbsent_of (by decide)⟩

/-- A bucket with seven ways taken: the lowest empty way is the last. -/
def sevenWays : State := { fullBucket with index := fullBucket.index.take 7 }

theorem test_hyp_DefineCreatesTheRecord : Arrives sevenWays (msg holder 0 (defineBody 69632 1 2)) ∧ sevenWays.dram = []
    ∧ FromHolder sevenWays (msg holder 0 (defineBody 69632 1 2)) ∧ badLength (defineReq 69632 1 2).length = false
    ∧ badDefineList (defineReq 69632 1 2) = false ∧ badDefineSlot sevenWays (defineReq 69632 1 2) = false
    ∧ (∀ v : Fin 7, wayAt sevenWays (bucketOf key) v ≠ none) ∧ wayAt sevenWays (bucketOf key) 7 = none ∧ sevenWays.liveCount < 65536 := by
  unfold Arrives FromHolder
  decide

theorem test_sevenWays_absent : KeyAbsent sevenWays key := keyAbsent_of (by decide)

/-- A LOCATE of the stripe. -/
def locateBody (frag : Byte) : List Byte := be 8 key.toNat ++ [frag, 0, 0, 0]

theorem test_hyp_LocateAnswers : Arrives (holding (stripe .waiting 0)) (msg stranger 0 (locateBody 9)) ∧ (holding (stripe .waiting 0)).dram = []
    ∧ parseLocate (locateBody 9) = some { key := key, frag := some 9 } ∧ memoryHeld (stripe .waiting 0) = false
    ∧ (∀ t ∈ (stripe .waiting 0).targets, t.frag ≠ 9)
    ∧ parseLocate (locateBody 0xFF) = some { key := key, frag := none }
    ∧ parseLocate (locateBody 2) = some { key := key, frag := some 2 } ∧ (∃ t ∈ (stripe .waiting 0).targets, t.frag = 2)
    ∧ (msg stranger 0 (locateBody 2)).flags.getLsbD 0 = false
    ∧ liveAt (holding { stripe (.held .memory) 0 with fixed := true, lostFields := [.cls] }) 5
        = some { stripe (.held .memory) 0 with fixed := true, lostFields := [.cls] } := by
  unfold Arrives
  decide

theorem test_hyp_LocateUrgentRaises : Arrives (holding (stripe .waiting 0)) (msg stranger 1 (locateBody 0xFF))
    ∧ (msg stranger 1 (locateBody 0xFF)).flags.getLsbD 0 = true ∧ (stripe .waiting 0).fixed = false ∧ (stripe .waiting 0).cls = .background
    ∧ (stripe .waiting 0).state = .waiting ∧ (stripe (.stalled 3) 0).state ≠ .waiting
    ∧ Arrives (holding (stripe (.stalled 3) 0)) (msg stranger 1 (locateBody 0xFF)) := by
  unfold Arrives
  decide

/-! ### Requests on record 5 -/

/-- A frame from `src` with a body of `body` reaches record 5, which holds `l`. -/
theorem reaches_five {l : Live} (hl : l.fixed = false) (src : EthAddr) (flags : Byte) {body : List Byte} (h : body.length ≤ 8984) :
    Reaches (holding l) (msg src flags body) five l :=
  ⟨arrives_msg rfl rfl (by simp [holding, world]) src flags h, rfl, rfl, hl, rfl⟩

/-- The holder's frames come from the holder. -/
theorem test_fromHolder (l : Live) (flags : Byte) (body : List Byte) : FromHolder (holding l) (msg holder flags body)
    ∧ ∀ seg len ph, FromHolder (working seg len ph) (msg holder flags body) :=
  ⟨by simp [FromHolder, holdsLease, holding, world, msg], fun _ _ _ => by simp [FromHolder, holdsLease, working, holding, world, msg]⟩

theorem test_hyp_ClassSetsTheClass : Reaches (holding (stripe .waiting 0)) (msg holder 0 (nameBody ++ [0, 0, 0, 0])) five (stripe .waiting 0)
    ∧ FromHolder (holding (stripe .waiting 0)) (msg holder 0 (nameBody ++ [0, 0, 0, 0]))
    ∧ parseNameCode (nameBody ++ [0, 0, 0, 0]) = some (five, 0) ∧ classOfCode 0 = some .foreground ∧ (stripe .waiting 0).cls ≠ .foreground
    ∧ parseNameCode (nameBody ++ [1, 0, 0, 0]) = some (five, 1) ∧ classOfCode 1 = some .background ∧ (stripe .waiting 0).cls = .background
    ∧ Reaches (holding (stripe .placed 2)) (msg holder 0 (nameBody ++ [0, 0, 0, 0])) five (stripe .placed 2)
    ∧ Arrives world (msg holder 0 (nameBody ++ [2, 0, 0, 0])) ∧ FromHolder world (msg holder 0 (nameBody ++ [2, 0, 0, 0]))
    ∧ parseNameCode (nameBody ++ [2, 0, 0, 0]) = some (five, 2) ∧ 1 < (2 : Byte).toNat := by
  refine ⟨reaches_five rfl _ _ (by decide), ?_, ?_, ?_, ?_, ?_, ?_, ?_, reaches_five rfl _ _ (by decide), ?_⟩ <;>
    first | decide | (unfold FromHolder; decide) | (unfold FromHolder Arrives; decide)

/-- A REVISE of record 5 to other sources. -/
def reviseBody (count : Byte) : List Byte := nameBody ++ [1, count, 0, 0] ++ (be 2 1 ++ [5, 0]) ++ List.replicate count.toNat 7

theorem test_hyp_ReviseReplacesTheSources : parseRevise (reviseBody 2) = some { name := five, coefCount := 2, sources := [{ slot := 1, frag := 5, coefs := [7, 7] }] }
    ∧ Reaches (holding (stripe (.stalled 1) 0)) (msg holder 0 (reviseBody 2)) five (stripe (.stalled 1) 0)
    ∧ Reaches (working 1 4096 .gather) (msg holder 0 (reviseBody 2)) five (stripe .active 1)
    ∧ Reaches (holding (stripe (.held .operator) 0)) (msg holder 0 (reviseBody 2)) five (stripe (.held .operator) 0)
    ∧ laneHolding (working 1 4096 .gather) 5 = some 0
    ∧ memoryHeld (stripe (.held .operator) 0) = false ∧ 2 = (stripe .active 1).targets.length
    ∧ badSources [{ slot := 1, frag := 5, coefs := [7, 7] }] ((stripe .active 1).targets.map (fun t => t.frag)) = false
    ∧ badSlot (working 1 4096 .gather) 1 = false ∧ (working 1 4096 .gather).waitList = [] := by
  refine ⟨by decide, reaches_five rfl _ _ (by decide), ?_, reaches_five rfl _ _ (by decide), ?_⟩
  · unfold Reaches Arrives
    decide
  · decide

/-- A REDIRECT of a target of record 5. -/
def redirectBody (position : Byte) (dest : Nat) : List Byte := nameBody ++ [position, 0] ++ be 2 dest

theorem test_hyp_RedirectReopensTheTarget : parseRedirect (redirectBody 1 2) = some { name := five, position := 1, dest := 2 }
    ∧ Reaches (holding (stripe .placed 2)) (msg holder 0 (redirectBody 1 2)) five (stripe .placed 2)
    ∧ Reaches (holding (stripe (.stalled 1) 0)) (msg holder 0 (redirectBody 1 2)) five (stripe (.stalled 1) 0)
    ∧ FromHolder (holding (stripe .placed 2)) (msg holder 0 (redirectBody 1 2))
    ∧ (stripe .placed 2).targets[1]? = some { frag := 3, dest := 3, placed := 2, status := .opened }
    ∧ (stripe (.stalled 1) 0).state ≠ .stalled 3 ∧ memoryHeld (stripe .placed 2) = false ∧ badSlot (holding (stripe .placed 2)) 2 = false := by
  refine ⟨by decide, reaches_five rfl _ _ (by decide), reaches_five rfl _ _ (by decide), ?_, ?_⟩
  · unfold FromHolder
    decide
  · decide

theorem test_hyp_HoldAndResumeMoveTheRecord : Reaches (holding (stripe .waiting 0)) holdMsg five (stripe .waiting 0)
    ∧ Reaches (working 1 4096 .gather) holdMsg five (stripe .active 1) ∧ laneHolding (working 1 4096 .gather) 5 = some 0
    ∧ Reaches (holding (stripe (.stalled 3) 0)) holdMsg five (stripe (.stalled 3) 0)
    ∧ Reaches (holding (stripe (.held .operator) 0)) holdMsg five (stripe (.held .operator) 0)
    ∧ FromHolder (holding (stripe .waiting 0)) holdMsg ∧ parseName nameBody = some five
    ∧ (∀ t ∈ (stripe (.held .operator) 0).targets, t.status ≠ .lost) ∧ HoldCause.operator ≠ .memory := by
  refine ⟨reaches_five rfl _ _ (by decide), ?_, by decide, reaches_five rfl _ _ (by decide), reaches_five rfl _ _ (by decide), ?_, by decide, by decide,
    by decide⟩
  · unfold Reaches Arrives
    decide
  · unfold FromHolder
    decide

/-- Record 5 with a LOST target, held for it. -/
def lostStripe : Live :=
  { stripe (.held (.destLost 0)) 1 with
    targets := [{ frag := 2, dest := 3, placed := 1, status := .lost }, { frag := 3, dest := 3, placed := 1, status := .opened }] }

theorem test_hyp_StateAndParameterRefusals : Reaches (holding (stripe .placed 2)) (msg holder 0 (reviseBody 2)) five (stripe .placed 2)
    ∧ parseRevise (reviseBody 1) = some { name := five, coefCount := 1, sources := [{ slot := 1, frag := 5, coefs := [7] }] }
    ∧ 1 ≠ (stripe .waiting 0).targets.length ∧ Reaches (holding (stripe .waiting 0)) (msg holder 0 (reviseBody 1)) five (stripe .waiting 0)
    ∧ badSlot (holding (stripe .waiting 0)) 9 = true
    ∧ Reaches (holding (stripe (.held .memory) 0)) (msg holder 0 (redirectBody 0 2)) five (stripe (.held .memory) 0)
    ∧ memoryHeld (stripe (.held .memory) 0) = true
    ∧ parseRedirect (redirectBody 2 2) = some { name := five, position := 2, dest := 2 } ∧ (stripe .waiting 0).targets.length ≤ 2
    ∧ (stripe (.stalled 3) 0).state = .stalled 3 ∧ (stripe (.stalled 3) 0).targets[0]? = some { frag := 2, dest := 3, placed := 0, status := .opened }
    ∧ Reaches (holding (stripe (.stalled 3) 0)) (msg holder 0 (redirectBody 0 9)) five (stripe (.stalled 3) 0)
    ∧ Reaches (holding lostStripe) holdMsg five lostStripe ∧ (∃ t ∈ lostStripe.targets, t.status = .lost)
    ∧ (stripe .waiting 0).state ≠ .placed := by
  refine ⟨reaches_five rfl _ _ (by decide), by decide, by decide, reaches_five rfl _ _ (by decide), by decide, reaches_five rfl _ _ (by decide), by decide,
    by decide, by decide, by decide, by decide, reaches_five rfl _ _ (by decide), reaches_five rfl _ _ (by decide), by decide, by decide⟩

theorem test_hyp_CancelAndRetireFreeTheRecord : Reaches (holding (stripe .placed 2)) holdMsg five (stripe .placed 2)
    ∧ FromHolder (holding (stripe .placed 2)) holdMsg ∧ parseName nameBody = some five ∧ (stripe .placed 2).state = .placed
    ∧ Reaches (holding (stripe (.stalled 3) 0)) holdMsg five (stripe (.stalled 3) 0)
    ∧ Reaches (holding (stripe .waiting 0)) holdMsg five (stripe .waiting 0) := by
  refine ⟨reaches_five rfl _ _ (by decide), ?_, by decide, by decide, reaches_five rfl _ _ (by decide), reaches_five rfl _ _ (by decide)⟩
  unfold FromHolder
  decide

theorem test_hyp_WatchSetsTheWatch : Reaches (holding (stripe .waiting 0)) (msg stranger 0 (nameBody ++ [3, 0, 0, 0])) five (stripe .waiting 0)
    ∧ parseNameCode (nameBody ++ [3, 0, 0, 0]) = some (five, 3) ∧ edgeOfCode 3 = some (some .any) ∧ edgeOfCode 0 = some none ∧ edgeOfCode 4 = none
    ∧ Arrives world (msg stranger 0 (nameBody ++ [4, 0, 0, 0])) ∧ parseNameCode (nameBody ++ [4, 0, 0, 0]) = some (five, 4)
    ∧ 3 < (4 : Byte).toNat := by
  unfold Arrives
  refine ⟨reaches_five rfl _ _ (by decide), by decide⟩

/-- A stripe watched by a stranger. -/
def watched (st : RecState) (placed : Nat) (e : Edge) : Live :=
  { stripe st placed with watch := some { watcher := stranger, edge := e } }

/-- A watched record that a HOLD holds, and one that a RESUME or a RETIRE changes; the edge sets that ask for the change and one that does not. -/
theorem test_hyp_NoticeFollowsTheWatch : Reaches (holding (watched .waiting 0 .held)) holdMsg five (watched .waiting 0 .held)
    ∧ Reaches (holding (watched .placed 2 .any)) holdMsg five (watched .placed 2 .any)
    ∧ Reaches (holding (watched (.held .operator) 0 .placed)) holdMsg five (watched (.held .operator) 0 .placed)
    ∧ EdgeAsks { watcher := stranger, edge := .held } (some (.held .operator)) ∧ EdgeAsks { watcher := stranger, edge := .any } none
    ∧ ¬ EdgeAsks { watcher := stranger, edge := .placed } (some .waiting)
    ∧ liveAt (holding (watched .waiting 0 .held)) 5 = some (watched .waiting 0 .held) := by
  refine ⟨reaches_five rfl _ _ (by decide), reaches_five rfl _ _ (by decide), reaches_five rfl _ _ (by decide), .inr (.inr ⟨rfl, _, rfl⟩), .inl rfl, ?_,
    by decide⟩
  rintro (h | ⟨_, h⟩ | ⟨h, _⟩) <;> contradiction

/-! ### Memory protection -/

/-- Word 0 of record 5 with a damaged first copy. -/
def damaged (first second : CopyHealth) : State := setHealth (.record 5 .state) { first := first, second := second } (holding (stripe .waiting 0))

theorem test_hyp_ReadsOfTwoCopies : (healthOf world (.freeEntry 0)).first = .clean
    ∧ healthOf (damaged .correctable .clean) (.record 5 .state) = { first := .correctable, second := .clean }
    ∧ healthOf (damaged .uncorrectable .correctable) (.record 5 .state) = { first := .uncorrectable, second := .correctable }
    ∧ healthOf (damaged .uncorrectable .uncorrectable) (.record 5 .state) = { first := .uncorrectable, second := .uncorrectable } := by decide

/-- A RESUME of a record that the operator holds; a LOCATE that finds its record by one way alone; a CANCEL; a request that names a FREE record; DEFINEs of an
absent key, where the bucket is full and where the free list has a head. -/
theorem test_hyp_UncorrectableReadHoldsTheRecord : Arrives (holding (stripe (.held .operator) 0)) holdMsg
    ∧ FromHolder (holding (stripe (.held .operator) 0)) holdMsg ∧ parseName nameBody = some five
    ∧ liveAt (holding (stripe (.held .operator) 0)) 5 = some (stripe (.held .operator) 0) ∧ (stripe (.held .operator) 0).lostFields = []
    ∧ generationAt (holding (stripe (.held .operator) 0)) 5 = 7 ∧ RecField.watch ∈ identityFields ∧ HoldCause.operator ≠ .memory
    ∧ Arrives (holding (stripe .waiting 0)) (msg stranger 0 (locateBody 2)) ∧ parseLocate (locateBody 2) = some { key := key, frag := some 2 }
    ∧ (∃ x ∈ (stripe .waiting 0).targets, some (2 : Byte) = some x.frag) ∧ memoryHeld (stripe .waiting 0) = false
    ∧ wayAt (holding (stripe .waiting 0)) (bucketOf key) 0 = some { record := 5, key := key }
    ∧ (∀ v : Fin 8, v ≠ 0 → wayAt (holding (stripe .waiting 0)) (bucketOf key) v ≠ some { record := 5, key := key })
    ∧ Arrives world holdMsg ∧ FromHolder world holdMsg ∧ liveAt world five.number = none ∧ world.dram = [] ∧ fullBucket.dram = []
    ∧ Arrives fullBucket (msg holder 0 (defineBody 69632 1 2)) ∧ FromHolder fullBucket (msg holder 0 (defineBody 69632 1 2))
    ∧ badDefineSlot fullBucket (defineReq 69632 1 2) = false ∧ wayAt world (bucketOf key) 7 = none ∧ world.liveCount < 65536 := by
  unfold Arrives FromHolder
  decide

theorem test_uncorrectable_reaches : Reaches (holding (stripe .waiting 0)) holdMsg five (stripe .waiting 0)
    ∧ Reaches (holding (stripe (.held .operator) 0)) holdMsg five (stripe (.held .operator) 0) :=
  ⟨reaches_five rfl _ _ (by decide), reaches_five rfl _ _ (by decide)⟩

/-! ### The Node Roster -/

/-- Slots 1 SERVING, 2 MUTED with record 5 on its stall list, 3 FENCED, all in rack 0. -/
def mixed : State :=
  { holding (stripe (.stalled 2) 0) with
    nodes := [(1, node .serving 0xC1), (2, { node .muted 0xC2 with stallList := [5] }), (3, { node .fenced 0xC3 with refs := 0 })] }

theorem test_hyp_FenceAndUnfenceTheSelectedSlots : Arrives mixed (msg holder 0 [0, 0, 0, 0]) ∧ FromHolder mixed (msg holder 0 [0, 0, 0, 0])
    ∧ parseSelector [0, 0, 0, 0] = some { kind := 0, number := 0 } ∧ selectSlots mixed { kind := 0, number := 0 } = .ok [1, 2, 3]
    ∧ (nodeAt mixed 1).state = .serving ∧ (nodeAt mixed 2).state = .muted ∧ (nodeAt mixed 3).state = .fenced ∧ 4 ∉ [1, 2, 3]
    ∧ 5 ∈ fencedStalled mixed (fenceable mixed [1, 2, 3]) ∧ liveAt mixed 5 = some (stripe (.stalled 2) 0) := by
  unfold Arrives FromHolder
  refine ⟨by decide, by decide, by decide, rfl, by decide⟩

/-- A FENCE of slot 2, on which lane 0's record has a source. -/
theorem test_hyp_Fence_lanes : Arrives (working 1 4096 .gather) (msg holder 0 [1, 0, 0, 2]) ∧ FromHolder (working 1 4096 .gather) (msg holder 0 [1, 0, 0, 2])
    ∧ parseSelector [1, 0, 0, 2] = some { kind := 1, number := 2 } ∧ selectSlots (working 1 4096 .gather) { kind := 1, number := 2 } = .ok [2]
    ∧ fenceable (working 1 4096 .gather) [2] = [2] ∧ LanesHold (working 1 4096 .gather) ∧ StallsHold (working 1 4096 .gather)
    ∧ LanesOn (working 1 4096 .gather) [2] [0] ∧ laneAt (working 1 4096 .gather) 0 = some (job 1 4096 .gather)
    ∧ liveAt (working 1 4096 .gather) 5 = some (stripe .active 1) ∧ (∀ e ∈ (working 1 4096 .gather).waitList, e.1 ∈ [(0 : Fin 8)]) := by
  have hn : ∀ i : Fin 8, i ≠ 0 → laneAt (working 1 4096 .gather) i = none := by decide
  refine ⟨?_, ?_, by decide, rfl, by decide, lanesHold_one rfl hn rfl rfl, stallsHold_none (by decide) ?_, lanesOn_one rfl hn rfl (by decide), rfl, rfl,
    by decide⟩
  · unfold Arrives
    decide
  · unfold FromHolder
    decide
  · intro n l h k
    rw [(live_five rfl h).2]
    simp [stripe]

theorem test_hyp_SelectorChecks : Arrives mixed (msg holder 0 [0, 0, 0, 63]) ∧ FromHolder mixed (msg holder 0 [0, 0, 0, 63])
    ∧ parseSelector [0, 0, 0, 63] = some { kind := 0, number := 63 } ∧ parseSelector [0, 0, 0, 64] = some { kind := 0, number := 64 }
    ∧ parseSelector [1, 0, 3, 0xFF] = some { kind := 1, number := 1023 } ∧ parseSelector [1, 0, 4, 0] = some { kind := 1, number := 1024 }
    ∧ parseSelector [2, 0, 0, 0] = some { kind := 2, number := 0 } := by
  unfold Arrives FromHolder
  decide

/-- A ROSTER_SET body. -/
def rosterBody (slot : Nat) (rack pref limit : Byte) (addr : Nat) : List Byte := be 2 slot ++ [rack, pref, limit, 0] ++ be 6 addr

def rosterReq (slot rack : Nat) (pref : Byte) (limit : Nat) (addr : EthAddr) : RosterReq :=
  { slot := slot, rack := rack, pref := pref, limit := limit, addr := addr }

theorem test_hyp_RosterSetSetsTheSlot : Arrives mixed (msg holder 0 (rosterBody 1023 63 2 16 0xC9))
    ∧ FromHolder mixed (msg holder 0 (rosterBody 1023 63 2 16 0xC9))
    ∧ parseRosterSet (rosterBody 1023 63 2 16 0xC9) = some (rosterReq 1023 63 2 16 0xC9) ∧ badRosterValues (rosterReq 1023 63 2 16 0xC9) = false
    ∧ (nodeAt mixed 1023).state = .absent ∧ prefOfCode 2 = some .either
    ∧ parseRosterSet (rosterBody 1024 0 2 1 0xC9) = some (rosterReq 1024 0 2 1 0xC9)
    ∧ parseRosterSet (rosterBody 4 0 2 17 0xC9) = some (rosterReq 4 0 2 17 0xC9) ∧ prefOfCode 3 = none
    ∧ (0x10000000000 : EthAddr).getLsbD 40 = true
    ∧ addressHolder mixed 4 0xC1 = some 1 ∧ addressHolder mixed 1 0xC9 = none
    ∧ moveRefused (nodeAt mixed 1) (rosterReq 1 0 2 4 0xC9) = true ∧ moveRefused (nodeAt mixed 1) (rosterReq 1 0 2 9 0xC1) = false
    ∧ addressHolder mixed 1 0xC1 = none ∧ mixed.waitList = [] ∧ mixed.mode ≠ .drain := by
  unfold Arrives FromHolder
  decide

theorem test_hyp_RosterClearClearsTheSlot : Arrives mixed (msg holder 0 [0, 3, 0, 0]) ∧ holdsLease mixed holder = true
    ∧ Arrives mixed (msg stranger 0 [0, 3, 0, 0]) ∧ holdsLease mixed stranger = false
    ∧ parseRosterClear [0, 3, 0, 0] = some 3 ∧ (nodeAt mixed 3).refs = 0 ∧ (nodeAt mixed 3).outstanding = 0 ∧ (nodeAt mixed 3).state ≠ .absent
    ∧ parseRosterClear [0, 1, 0, 0] = some 1 ∧ (nodeAt mixed 1).refs ≠ 0 ∧ parseRosterClear [4, 0, 0, 0] = some 1024
    ∧ parseRosterClear [3, 0xFF, 0, 0] = some 1023 ∧ (nodeAt mixed 1023).state = .absent := by
  unfold Arrives
  decide

theorem test_hyp_ProbesAndTheirAnswers : ({ mixed with probeTimer := 0 } : State).probeTimer = 0 ∧ Sparse.wf absentNode mixed.nodes
    ∧ (nodeAt mixed 2).state = .muted ∧ nodePort mixed (nodeAt mixed 2).pref = some .a ∧ (nodeAt mixed 1).state ≠ .muted
    ∧ Arrives mixed (msg 0xC2 0 [0, 2, 0, 0, 0, 0, 0, 0]) ∧ parseProbeAck [0, 2, 0, 0, 0, 0, 0, 0] = some { slot := 2, sequence := 0, status := 0 }
    ∧ fromFenced mixed 0xC2 = false ∧ fromFenced mixed 0xC3 = true ∧ (nodeAt mixed 2).probeSeq = 0 ∧ (nodeAt mixed 2).addr = 0xC2
    ∧ (nodeAt mixed 2).stallList = [5] ∧ liveAt mixed 5 = some (stripe (.stalled 2) 0)
    ∧ parseProbeAck [4, 0, 0, 0, 0, 0, 0, 0] = some { slot := 1024, sequence := 0, status := 0 }
    ∧ parseProbeAck [0, 2, 0, 1, 0, 0, 0, 0] = some { slot := 2, sequence := 0, status := 1 }
    ∧ parseProbeAck [0, 2, 0, 2, 0, 0, 0, 0] = some { slot := 2, sequence := 0, status := 2 } := by
  unfold Arrives
  decide

/-- A stall list of two records, which an IDLE answer releases in list order. -/
def stalledPair : State :=
  { mixed with
    records := [(5, { generation := 7, live := some (stripe (.stalled 2) 0) }), (6, { generation := 1, live := some (stripe (.stalled 2) 0) })]
    nodes := [(1, node .serving 0xC1), (2, { node .muted 0xC2 with stallList := [6, 5] }), (3, { node .fenced 0xC3 with refs := 0 })] }

theorem test_hyp_Probes_release : Arrives stalledPair (msg 0xC2 0 [0, 2, 0, 0, 0, 0, 0, 0]) ∧ fromFenced stalledPair 0xC2 = false
    ∧ (nodeAt stalledPair 2).state = .muted ∧ (nodeAt stalledPair 2).stallList = [6, 5] ∧ (nodeAt stalledPair 2).stallList.Nodup
    ∧ (∀ n ∈ (nodeAt stalledPair 2).stallList, liveAt stalledPair n = some (stripe (.stalled 2) 0)) := by
  unfold Arrives
  decide

/-! ### Modes, ports, links, wake -/

/-- DRAIN with a busy lane, and READY with the lease held. -/
def draining : State := { working 1 4096 .gather with mode := .drain, lease := { grant := none, epoch := 1 } }

def ready : State := { world with mode := .ready }

theorem test_hyp_ModeWriteFollowsTheTable : 3 < (4 : BitVec 8).toNat ∧ asleep.mode = .dormant ∧ ready.mode = .ready ∧ world.mode = .rebuild
    ∧ draining.mode = .drain ∧ ready.lease.grant.isSome = true ∧ portsAllowed ready .rebuild = true
    ∧ ¬ (draining.lease.grant.isSome = true ∧ portsAllowed draining .rebuild = true) ∧ allIdle draining = false ∧ allIdle world = true := by decide

theorem test_hyp_ModeRequestFollowsTheTable : Arrives ready (msg holder 0 [2, 0, 0, 0]) ∧ FromHolder ready (msg holder 0 [2, 0, 0, 0])
    ∧ parseMode [2, 0, 0, 0] = some 2 ∧ modeCode .rebuild = 2 ∧ modeChangeTaken ready .rebuild = true ∧ parseMode [3, 0, 0, 0] = some 3
    ∧ modeCode .drain = 3 ∧ modeChangeTaken ready .drain = false ∧ parseMode [4, 0, 0, 0] = some 4 ∧ 3 < (4 : Byte).toNat
    ∧ parseMode [0, 0, 0, 0] = some (modeCode .dormant) ∧ ready.mode = .ready := by
  unfold Arrives FromHolder
  decide

/-- Lane 0's record is ACTIVE and no store waits, where busy lanes are abandoned: WARM_RESET, DRAIN cut short, the last link lost. -/
theorem test_hyp_returned : LanesHold draining ∧ busyLanes draining = [0] ∧ recordsOf draining laneNumbers = [5]
    ∧ (∀ e ∈ draining.waitList, e.1 ∈ busyLanes draining) := by
  refine ⟨lanesHold_one (j := job 1 4096 .gather) (l := stripe .active 1) rfl (by decide) rfl rfl, by decide, by decide, by decide⟩

/-- DRAIN with every lane IDLE, a state that no run reaches: the drain ends where the last lane becomes IDLE. -/
theorem test_hyp_DrainEndsWhenEveryLaneIsIdle : ({ world with mode := .drain } : State).mode = .drain ∧ allIdle { world with mode := .drain } = true
    ∧ draining.mode = .drain ∧ allIdle draining = false ∧ world.mode ≠ .drain := by decide

theorem test_hyp_LinkChanges : (portAt world .b).linkUp = false ∧ (portAt draining .a).linkUp = true ∧ (portAt draining .a).state = .on
    ∧ draining.mode = .drain ∧ ableToSend draining (otherPort .a) = false ∧ (portAt asleep .a).linkUp = true ∧ (portAt asleep .a).state ≠ .on := by
  decide

theorem test_hyp_PortWriteIsJudged : portStateOfCode 2 = some .on ∧ portStateOfCode 0 = some .off ∧ portStateOfCode 3 = none
    ∧ portsAllowed (withPortState .a .on ready) ready.mode = true ∧ (portAt ready .a).addr ≠ 0 ∧ (portAt ready .b).addr = 0
    ∧ portsAllowed (withPortState .a .off world) world.mode = false := by decide

theorem test_hyp_AddressWrites : (0 : BitVec 16) ++ (portAt world .a).staging = 0 ∧ (portAt world .a).state = .on ∧ asleep.mode = .dormant
    ∧ (portAt asleep .a).resume = .on ∧ (portAt world .b).state ≠ .on ∧ world.mode ≠ .dormant
    ∧ (1 : BitVec 16) ++ (portAt world .a).staging ≠ 0 := by decide

theorem test_hyp_WakeFilter : taken asleep (msg stranger 0 []) = true ∧ taken world (msg stranger 0 []) = true
    ∧ taken asleep { msg stranger 0 [] with wakeUnit := 0xFFFF } = true ∧ taken world { msg stranger 0 [] with cluster := 1 } = true
    ∧ (msg stranger 0 []).cluster = asleep.wakeCluster ∧ (msg stranger 0 []).wakeUnit = asleep.wakeUnit ∧ (1 : BitVec 16) ≠ world.wakeCluster
    ∧ asleep.mode = .dormant ∧ world.mode ≠ .dormant := by decide

/-! ### The lease -/

/-- A lease held for just its minimum, and for its maximum. -/
def leased (elapsed : Nat) : State := { world with lease := { grant := some { holder := holder, elapsed := elapsed }, epoch := 1 } }

theorem test_hyp_LeaseRequests : Arrives world (msg holder 0 []) ∧ Arrives world (msg holder 0 [0, 0, 0, 1]) ∧ (msg holder 0 []).body = []
    ∧ ({ world with lease := { grant := none, epoch := 0 } } : State).lease.grant = none ∧ world.lease.grant ≠ none
    ∧ parseEpoch [0, 0, 0, 1] = some 1 ∧ parseEpoch [0, 0, 0, 2] = some 2 ∧ world.lease.epoch = 1 ∧ world.lease.epoch ≠ 2
    ∧ (leased 50000).lease.grant = some { holder := holder, elapsed := 50000 } ∧ (leased 50000).settings.tMin * 100 ≤ 50000
    ∧ 49999 < (leased 49999).settings.tMin * 100 ∧ holder ≠ stranger ∧ Arrives world (msg stranger 0 [0, 0, 0, 1]) := by
  unfold Arrives
  decide

theorem test_hyp_LeaseLapses : (leased 200000).lease.grant = some { holder := holder, elapsed := 200000 }
    ∧ (leased 200000).settings.tMax * 100 ≤ 200000 ∧ 199999 < (leased 199999).settings.tMax * 100 := by decide

theorem test_hyp_LeaseSettingWrites : (2000 : BitVec 17).toNat ≤ world.settings.tMax ∧ ¬ (2001 : BitVec 17).toNat ≤ world.settings.tMax
    ∧ (100 ≤ (500 : BitVec 17).toNat ∧ (60000 : BitVec 17).toNat ≤ 60000 ∧ world.settings.tMin ≤ (500 : BitVec 17).toNat)
    ∧ ¬ world.settings.tMin ≤ (499 : BitVec 17).toNat ∧ ¬ (60001 : BitVec 17).toNat ≤ 60000 := by decide

/-! ### Fetching -/

/-- Lane 0 gathers with nothing fetched. -/
def gathering : State := working 1 4096 .gather

/-- Lane 0's entry is issuable, and no FOREGROUND lane has one. -/
theorem gathering_issuable : IssuableAt gathering .background 0 { source := 1, attempt := 1 } ∧ ∀ i e, ¬ IssuableAt gathering .foreground i e := by
  refine ⟨⟨job 1 4096 .gather, stripe .active 1, { slot := 2, frag := 1, coefs := [3, 4] }, rfl, rfl, by decide, rfl, rfl, by decide, by decide, ?_⟩, ?_⟩
  · exact .inr (.inl (by decide))
  · rintro i e ⟨j, l, src, hj, hc, _⟩
    by_cases hi : i = 0
    · subst hi
      cases (Option.some.inj hj : job 1 4096 .gather = j)
      contradiction
    · rw [(by decide : ∀ x : Fin 8, x ≠ 0 → laneAt gathering x = none) i hi] at hj
      contradiction

theorem gathering_wins : WinsGrant gathering .background 0 :=
  ⟨⟨_, gathering_issuable.1⟩, ⟨0, by decide, fun d' hd => (Nat.not_lt_zero _ hd).elim⟩, fun _ => gathering_issuable.2⟩

theorem test_hyp_FetchIssueGrants : gathering.dram = [] ∧ (slotAt gathering 0).use = none ∧ WinsGrant gathering .background 0
    ∧ laneAt gathering 0 = some (job 1 4096 .gather) ∧ (job 1 4096 .gather).pendingFetches = [] ++ { source := 1, attempt := 1 } :: []
    ∧ IssuableAt gathering .background 0 { source := 1, attempt := 1 }
    ∧ liveAt gathering 5 = some (stripe .active 1) ∧ (stripe .active 1).sources[1]? = some { slot := 2, frag := 1, coefs := [3, 4] }
    ∧ nodePort gathering (nodeAt gathering 2).pref = some .a :=
  ⟨rfl, rfl, gathering_wins, rfl, rfl, gathering_issuable.1, rfl, rfl, rfl⟩

/-- Every slot in use, and every slot but the last. -/
def allSlots (n : Nat) : State :=
  { gathering with fetch := (List.range n).map (fun k => (k, { generation := 1, use := some (fetchOf 1 4096 1) })) }

/-- The last slot is the lowest free one; no slot is free; nothing is issuable. -/
theorem test_hyp_FetchIssueConditions : (∀ k : Fin 96, (slotAt (allSlots 96) k.val).use ≠ none) ∧ (slotAt (allSlots 95) 95).use = none
    ∧ (∀ k : Fin 95, (slotAt (allSlots 95) k.val).use ≠ none)
    ∧ issuable gathering (stripe .active 1) (job 1 4096 .gather) { source := 1, attempt := 1 } = true
    ∧ (stripe .active 1).sources[1]? = some { slot := 2, frag := 1, coefs := [3, 4] }
    ∧ nextGrant gathering = some (.background, 0, { source := 1, attempt := 1 }) := by decide +kernel

theorem test_hyp_FetchIssue_none : (∀ c i e, ¬ IssuableAt world c i e) ∧ ∃ c i e, IssuableAt gathering c i e := by
  refine ⟨?_, _, _, _, gathering_issuable.1⟩
  rintro c i e ⟨j, l, src, hj, _⟩
  rw [(by decide : ∀ x : Fin 8, laneAt world x = none) i] at hj
  contradiction

/-- The bytes of a FETCH_DATA before its data: slot 0, slot generation 1, 4,096 bytes at an offset. -/
def chunkHead (gen : Byte) (len offset : Nat) (crc : Crc) : List Byte :=
  [0, gen] ++ be 2 len ++ be 4 offset ++ be 4 crc.toNat ++ [0, 0, 0, 0]

def zeros (n : Nat) : List Byte := List.replicate n 0

theorem length_zeros (n : Nat) : (zeros n).length = n := List.length_replicate

theorem ofNat_byte (n : Nat) : (BitVec.ofNat 8 n).toNat = n % 256 := by simp [BitVec.toNat_ofNat]

theorem crc_roundtrip (c : Crc) (l : List Byte) : BitVec.ofNat 32 (beNum ((be 4 c.toNat ++ l).take 4)) = c := by
  have h : (be 4 c.toNat ++ l).take 4 = be 4 c.toNat := rfl
  rw [h]
  apply BitVec.eq_of_toNat_eq
  have hc := c.isLt
  simp only [be, beNum, List.foldl, BitVec.toNat_ofNat]
  omega

/-- A FETCH_DATA of zeros of one block. -/
def chunk (gen : Byte) (offset : Nat) (crc : Crc) : DataChunk :=
  { slot := 0, generation := gen, length := 4096, offset := offset, crc := crc, data := zeros 4096 }

theorem parse_chunk (gen : Byte) {offset : Nat} (h : offset < 2 ^ 32) (crc : Crc) :
    parseFetchData (chunkHead gen 4096 offset crc ++ zeros 4096) = some (chunk gen offset crc) := by
  have hlen : (chunkHead gen 4096 offset crc ++ zeros 4096).length = 16 + 4096 := by
    rw [List.length_append, length_zeros]
    rfl
  have h2 : field (chunkHead gen 4096 offset crc ++ zeros 4096) 2 2 = 4096 := by
    have e : ((chunkHead gen 4096 offset crc ++ zeros 4096).drop 2).take 2 = be 2 4096 := rfl
    unfold field
    rw [e]
    decide
  have h4 : field (chunkHead gen 4096 offset crc ++ zeros 4096) 4 4 = offset := by
    have e : ((chunkHead gen 4096 offset crc ++ zeros 4096).drop 4).take 4 = be 4 offset := rfl
    unfold field
    rw [e]
    simp only [be, beNum, List.foldl, ofNat_byte]
    omega
  have h8 : BitVec.ofNat 32 (field (chunkHead gen 4096 offset crc ++ zeros 4096) 8 4) = crc := by
    have e : (chunkHead gen 4096 offset crc ++ zeros 4096).drop 8 = be 4 crc.toNat ++ ([0, 0, 0, 0] ++ zeros 4096) := rfl
    unfold field
    rw [e]
    exact crc_roundtrip ..
  unfold parseFetchData
  rw [h2, if_pos hlen, h4, h8]
  rfl

theorem length_chunkFrame (gen : Byte) (offset : Nat) (crc : Crc) : (chunkHead gen 4096 offset crc ++ zeros 4096).length ≤ 8984 := by
  rw [List.length_append, length_zeros]
  exact (by decide : 16 + 4096 ≤ 8984)

/-- Slot 0 with the second block of sixteen received. -/
def halfway : Fetch := { fetchOf 0 65536 1 with blocks := [(1, zeros 4096)], announced := some 7, firstTimer := none, streamTimer := some 4000 }

theorem test_hyp_FetchDataDiscards : parseFetchData (chunkHead 1 4096 0 7 ++ zeros 4096) = some (chunk 1 0 7)
    ∧ Arrives (fetching halfway) (msg 0xC1 0 (chunkHead 1 4096 0 7 ++ zeros 4096))
    ∧ fromFenced mixed 0xC3 = true ∧ fromFenced (fetching halfway) 0xC1 = false
    ∧ (slotAt (fetching halfway) 95).use = none ∧ (slotAt (fetching halfway) 0).generation ≠ 2 ∧ (0xC2 : EthAddr) ≠ (nodeAt (fetching halfway) 1).addr
    ∧ (slotAt (fetching halfway) 0).use = some halfway ∧ (slotAt (fetching halfway) 0).generation = 1
    ∧ (0xC1 : EthAddr) = (nodeAt (fetching halfway) halfway.node).addr ∧ halfway.length < 65536 + 4096
    ∧ 1 ∈ halfway.blocks.map (fun x => x.1) ∧ (4096 : Nat) / 4096 = 1 := by
  refine ⟨parse_chunk 1 (by decide) 7, arrives_msg rfl rfl (by simp [fetching, working, holding, world]) _ _ (length_chunkFrame ..), by decide, by decide,
    by decide, by decide, by decide, rfl, by decide⟩

theorem test_hyp_FetchDataAccepted : parseFetchData (chunkHead 1 4096 61440 7 ++ zeros 4096) = some (chunk 1 61440 7)
    ∧ Arrives (fetching halfway) (msg 0xC1 0 (chunkHead 1 4096 61440 7 ++ zeros 4096)) ∧ fromFenced (fetching halfway) 0xC1 = false
    ∧ (slotAt (fetching halfway) 0).use = some halfway ∧ (slotAt (fetching halfway) 0).generation = 1 ∧ chunkForm halfway (chunk 1 61440 7) = .accepted
    ∧ chunkForm (fetchOf 0 65536 1) (chunk 1 0 7) = .accepted
    ∧ bytesReceived (fetchAfterChunk (fetching halfway).settings halfway (chunk 1 61440 7)) ≠ halfway.length := by
  refine ⟨parse_chunk 1 (by decide) 7, arrives_msg rfl rfl (by simp [fetching, working, holding, world]) _ _ (length_chunkFrame ..), by decide, rfl,
    by decide⟩

/-- The fetch of a segment of one block, with no CRC announced, and with two that differ. -/
def oneBlock (conflict : Bool) (attempt : Nat) : Fetch :=
  { fetchOf 1 4096 attempt with conflict := conflict }

theorem receive_oneBlock (st : Settings) (cf : Bool) (a : Nat) (crc : Crc) : receiveBuffer (fetchAfterChunk st (oneBlock cf a) (chunk 1 0 crc)) = zeros 4096 := by
  have e : receiveBuffer (fetchAfterChunk st (oneBlock cf a) (chunk 1 0 crc)) = (zeros 4096).take 4096 := by
    simp [receiveBuffer, fetchAfterChunk, chunkBlocks, chunk, oneBlock, fetchOf, Sparse.insert]
  rw [e]
  exact List.take_of_length_le (Nat.le_of_eq (length_zeros _))

theorem test_hyp_FetchDataCompletes : parseFetchData (chunkHead 1 4096 0 (segmentCrc (zeros 4096)) ++ zeros 4096) = some (chunk 1 0 (segmentCrc (zeros 4096)))
    ∧ Arrives (fetching (oneBlock false 1)) (msg 0xC1 0 (chunkHead 1 4096 0 (segmentCrc (zeros 4096)) ++ zeros 4096))
    ∧ (fetching (oneBlock false 1)).dram = [] ∧ fromFenced (fetching (oneBlock false 1)) 0xC1 = false
    ∧ (slotAt (fetching (oneBlock false 1)) 0).use = some (oneBlock false 1) ∧ (slotAt (fetching (oneBlock false 1)) 0).generation = 1
    ∧ chunkForm (oneBlock false 1) (chunk 1 0 (segmentCrc (zeros 4096))) = .accepted
    ∧ laneAt (fetching (oneBlock false 1)) 0 = some (job 1 4096 .gather) ∧ liveAt (fetching (oneBlock false 1)) 5 = some (stripe .active 1)
    ∧ (stripe .active 1).sources[0]? = some { slot := 1, frag := 0, coefs := [1, 2] } ∧ laneHolding (fetching (oneBlock false 1)) 5 = some 0
    ∧ NothingWaits (fetching (oneBlock false 1))
    ∧ bytesReceived (fetchAfterChunk (fetching (oneBlock false 1)).settings (oneBlock false 1) (chunk 1 0 (segmentCrc (zeros 4096)))) = 4096
    ∧ goodSegment (fetchAfterChunk (fetching (oneBlock false 1)).settings (oneBlock false 1) (chunk 1 0 (segmentCrc (zeros 4096)))) = true
    ∧ (insertPosition 0 (job 1 4096 .gather).complete).length ≠ (stripe .active 1).sources.length
    ∧ (insertPosition 0 ({ job 1 4096 .gather with complete := [1] } : Job).complete).length = (stripe .active 1).sources.length
    ∧ (∀ a, goodSegment (fetchAfterChunk (fetching (oneBlock true a)).settings (oneBlock true a) (chunk 1 0 7)) = false) := by
  refine ⟨parse_chunk 1 (by decide) _, arrives_msg rfl rfl (by simp [fetching, working, holding, world]) _ _ (length_chunkFrame ..), rfl, by decide, rfl,
    rfl, rfl, rfl, rfl, rfl, by decide, ⟨rfl, by decide⟩, rfl, ?_, by decide, by decide, ?_⟩
  · unfold goodSegment
    rw [receive_oneBlock]
    have h1 : (fetchAfterChunk (fetching (oneBlock false 1)).settings (oneBlock false 1) (chunk 1 0 (segmentCrc (zeros 4096)))).announced
        = some (segmentCrc (zeros 4096)) := rfl
    have h2 : (fetchAfterChunk (fetching (oneBlock false 1)).settings (oneBlock false 1) (chunk 1 0 (segmentCrc (zeros 4096)))).conflict = false := rfl
    rw [h1, h2]
    simp
  · intro a
    have h : (fetchAfterChunk (fetching (oneBlock true a)).settings (oneBlock true a) (chunk 1 0 7)).conflict = true := rfl
    unfold goodSegment
    rw [h]
    simp

/-- The last source of the lane's segment: every other hypothesis as above. Needed targets are listed once, and one store alone goes to node 3. -/
theorem test_hyp_FetchDataCompletes_last : (insertPosition 0 ({ job 1 4096 .gather with complete := [1] } : Job).complete).length
      = (stripe .active 1).sources.length ∧ (job 1 4096 .gather).needed.Nodup ∧ 3 ≠ (oneBlock false 1).node
    ∧ (job 1 4096 .gather).needed.filter (fun q => decide (q < (stripe .active 1).targets.length)) = [0, 1] := by decide

theorem worksOn_lane0 {s : State} {seg len : Nat} {ph : Phase} (h : laneAt s 0 = some (job seg len ph)) (hl : liveAt s 5 = some (stripe .active seg))
    (hh : laneHolding s 5 = some 0) : WorksOn s 0 (job seg len ph) (stripe .active seg) :=
  ⟨h, hl, rfl, rfl, rfl, hh⟩

theorem test_hyp_FetchFailOutcomes : Arrives (fetching (fetchOf 1 4096 1)) (msg 0xC1 0 [0, 1, 3, 0, 0, 0, 0, 0])
    ∧ parseFetchFail [0, 1, 3, 0, 0, 0, 0, 0] = some { slot := 0, generation := 1, status := 3 }
    ∧ parseFetchFail [95, 1, 1, 0, 0, 0, 0, 0] = some { slot := 95, generation := 1, status := 1 }
    ∧ parseFetchFail [96, 1, 2, 0, 0, 0, 0, 0] = some { slot := 96, generation := 1, status := 2 }
    ∧ parseFetchFail [0, 1, 4, 0, 0, 0, 0, 0] = some { slot := 0, generation := 1, status := 4 }
    ∧ fromFenced (fetching (fetchOf 1 4096 1)) 0xC1 = false ∧ fromFenced mixed 0xC3 = true
    ∧ (slotAt (fetching (fetchOf 1 4096 1)) 0).use = some (fetchOf 1 4096 1) ∧ (slotAt (fetching (fetchOf 1 4096 1)) 0).generation = 1
    ∧ (0xC1 : EthAddr) = (nodeAt (fetching (fetchOf 1 4096 1)) 1).addr
    ∧ WorksOn (fetching (fetchOf 1 4096 1)) 0 (job 1 4096 .gather) (stripe .active 1)
    ∧ WorksOn (fetching (fetchOf 1 4096 2)) 0 (job 1 4096 .gather) (stripe .active 1)
    ∧ NothingWaits (fetching (fetchOf 1 4096 1)) := by
  refine ⟨?_, by decide, by decide, by decide, by decide, by decide, by decide, by decide, by decide, by decide, worksOn_lane0 rfl rfl (by decide),
    worksOn_lane0 rfl rfl (by decide), rfl, by decide⟩
  unfold Arrives
  decide

/-- Slot 0 whose first-chunk timer has run out, its node with a consecutive count of `n`. -/
def timedOut (n attempt : Nat) : State :=
  { fetching { fetchOf 1 4096 attempt with firstTimer := some 0 } with
    nodes := [(1, { node .serving 0xC1 with consecutive := n, outstanding := 1 }), (2, node .serving 0xC2), (3, node .serving 0xC3)] }

theorem test_hyp_FetchTimersExpire : (slotAt (timedOut 2 1) 0).use = some { fetchOf 1 4096 1 with firstTimer := some 0 }
    ∧ (fetchOf 1 4096 1).firstTimer ≠ some 0 ∧ (fetchOf 1 4096 1).streamTimer ≠ some 0
    ∧ WorksOn (timedOut 2 1) 0 (job 1 4096 .gather) (stripe .active 1) ∧ WorksOn (timedOut 1 2) 0 (job 1 4096 .gather) (stripe .active 1)
    ∧ (stripe .active 1).sources[0]? = some { slot := 1, frag := 0, coefs := [1, 2] } ∧ (nodeAt (timedOut 2 1) 1).state = .serving
    ∧ (timedOut 2 1).settings.threshold ≤ (nodeAt (timedOut 2 1) 1).consecutive + 1
    ∧ (nodeAt (timedOut 1 1) 1).consecutive + 1 < (timedOut 1 1).settings.threshold ∧ NothingWaits (timedOut 1 1)
    ∧ ({ fetchOf 1 4096 1 with streamTimer := some 0, firstTimer := none } : Fetch).streamTimer = some 0
    ∧ LanesHold (timedOut 2 1) ∧ LanesOn (timedOut 2 1) [1] [0] ∧ (timedOut 2 1).waitList = [] := by
  refine ⟨by decide, by decide, by decide, worksOn_lane0 rfl rfl (by decide), worksOn_lane0 rfl rfl (by decide), by decide, by decide, by decide, by decide,
    ⟨rfl, by decide⟩, by decide, lanesHold_one (j := job 1 4096 .gather) (l := stripe .active 1) rfl (by decide) rfl rfl,
    lanesOn_one (j := job 1 4096 .gather) (l := stripe .active 1) rfl (by decide) rfl (by decide), rfl⟩

theorem test_hyp_PacingReloads : ({ world with pacing := { world.pacing with timer := 0 } } : State).pacing.timer = 0 ∧ world.pacing.timer ≠ 0
    ∧ (1 ≤ (65535 : BitVec 17).toNat ∧ (65535 : BitVec 17).toNat ≤ 65535) ∧ ¬ (65536 : BitVec 17).toNat ≤ 65535 ∧ ¬ 1 ≤ (0 : BitVec 17).toNat
    ∧ (3 : BitVec 17).toNat ≤ 3 ∧ ¬ (4 : BitVec 17).toNat ≤ 3 ∧ (16 : BitVec 17).toNat ≤ 16 ∧ ¬ (17 : BitVec 17).toNat ≤ 16 := by decide

/-! ### Admission, stores, turn end -/

/-- Record 5 WAITING in one of the queues, with slot 2 in a state of its own. -/
def queued (fg bg : List Nat) (st : NodeState) : State :=
  { holding (stripe .waiting 0) with
    fgQueue := fg, bgQueue := bg, nodes := [(1, node .serving 0xC1), (2, node st 0xC2), (3, node .serving 0xC3)] }

theorem test_hyp_AdmissionAdmits : ready.mode ≠ .rebuild
    ∧ (∀ i, laneAt { world with lanes := Vector.replicate 8 (some { job 1 0 .gather with accs := [] }) } i ≠ none)
    ∧ world.fgQueue = [] ∧ world.bgQueue = [] ∧ 8 - ({ world.settings with reserve := 7 } : Settings).reserve ≤ backgroundLanes gathering
    ∧ (queued [] [5] .serving).mode = .rebuild ∧ (queued [] [5] .serving).dram = [] ∧ laneAt (queued [] [5] .serving) 0 = none
    ∧ liveAt (queued [] [5] .serving) 5 = some (stripe .waiting 0) ∧ backgroundLanes (queued [] [5] .serving) < 8 - (queued [] [5] .serving).settings.reserve
    ∧ (∀ e ∈ checkList (stripe .waiting 0) (nextSegment (stripe .waiting 0)), (nodeAt (queued [] [5] .serving) e.1).state = .serving)
    ∧ (queued [5] [] .muted).fgQueue = [5] ∧ (nodeAt (queued [5] [] .muted) 2).state = .muted
    ∧ (nodeAt (queued [5] [] .fenced) 2).state = .fenced ∧ (nodeAt (queued [5] [] .absent) 2).state = .absent
    ∧ checkList (stripe .waiting 0) (nextSegment (stripe .waiting 0)) =
        [(1, .sourceLost 0)] ++ (2, .sourceLost 1) :: [(3, .destLost 0), (3, .destLost 1)] := by decide

/-- Record 5 is next from the Background Queue, from the Foreground Queue, and for lane 7 where the other lanes are busy. -/
theorem test_hyp_AdmitsNext : AdmitsNext (queued [] [5] .serving) 0 5 [] [] (stripe .waiting 0)
    ∧ AdmitsNext (queued [5] [] .muted) 0 5 [] [] (stripe .waiting 0)
    ∧ AdmitsNext { queued [5] [] .fenced with lanes := (Vector.replicate 8 (some { job 1 0 .gather with accs := [] })).set 7 none } 7 5 [] []
        (stripe .waiting 0) := by
  unfold AdmitsNext
  decide

/-- A watched record is next. -/
theorem test_hyp_Notice_admission : AdmitsNext { queued [] [5] .muted with records := [(5, { generation := 7, live := some (watched .waiting 0 .any) })] } 0 5 [] []
      (watched .waiting 0 .any)
    ∧ checkList (watched .waiting 0 .any) (nextSegment (watched .waiting 0 .any)) =
        [(1, .sourceLost 0)] ++ (2, .sourceLost 1) :: [(3, .destLost 0), (3, .destLost 1)] := by
  unfold AdmitsNext
  decide

/-- Lane 0 in PLACE with the stores given, slot 3 with `out` outstanding and a consecutive count of `n`. -/
def placing (seg len : Nat) (ss : List Store) (out n : Nat) : State :=
  { working seg len (.place ss) with
    nodes := [(1, node .serving 0xC1), (2, node .serving 0xC2), (3, { node .serving 0xC3 with outstanding := out, consecutive := n })] }

theorem test_hyp_StoreChunksAreSent :
    storeAt (placing 0 65536 [storeOf 0 1 .sending 6 none] 1 0) 0 0 = some (job 0 65536 (.place [storeOf 0 1 .sending 6 none]), storeOf 0 1 .sending 6 none)
    ∧ 6 + 1 < chunkCount 65536 ∧ 7 + 1 = chunkCount 65536 ∧ 0 + 1 = chunkCount 4096
    ∧ storeAt (placing 0 65536 [storeOf 0 1 .sending 7 none] 1 0) 0 0 = some (job 0 65536 (.place [storeOf 0 1 .sending 7 none]), storeOf 0 1 .sending 7 none)
    ∧ chunkCount 65536 ≤ 7 + 1 ∧ 6 + 1 ≠ chunkCount 65536
    ∧ storeAt world 0 0 = none ∧ liveAt (placing 0 65536 [storeOf 0 1 .sending 6 none] 1 0) 5 = some (stripe .active 0) := by
  refine ⟨rfl, by decide, by decide, by decide, rfl, by decide, by decide, by decide, by decide⟩

/-- Two stores wait; the first node has no room. -/
def waiting (out : Nat) : State :=
  { placing 1 4096 [storeOf 0 1 .queued 0 none, storeOf 1 1 .queued 0 none] out 0 with waitList := [(0, 0), (0, 1)] }

theorem test_hyp_WaitingStoresBegin : ¬ ((nodeAt (waiting 4) 3).state = .serving ∧ (nodeAt (waiting 4) 3).outstanding < (nodeAt (waiting 4) 3).limit)
    ∧ ((nodeAt (waiting 3) 3).state = .serving ∧ (nodeAt (waiting 3) 3).outstanding < (nodeAt (waiting 3) 3).limit)
    ∧ (waiting 3).waitList = [] ++ (0, 0) :: [(0, 1)]
    ∧ storeAt (waiting 3) 0 0 = some (job 1 4096 (.place [storeOf 0 1 .queued 0 none, storeOf 1 1 .queued 0 none]), storeOf 0 1 .queued 0 none)
    ∧ (∀ e ∈ (waiting 4).waitList, (storeAt (waiting 4) e.1 e.2).any (fun p => p.2.dest != 3) = false) := by
  refine ⟨by decide, by decide, by decide, rfl, by decide⟩

/-- A receipt of lane 0's store of target 0: attempt, status, announced CRC. -/
def receiptBody (attempt status : Byte) (crc : Nat) : List Byte := [0, attempt, 0, 7, 2, status, 0, 1] ++ be 4 crc ++ [0, 0, 0, 0]

def receiptOf (attempt : Nat) (status : Byte) (crc : Crc) : Receipt :=
  { lane := 0, attempt := attempt, generation := 7, frag := 2, status := status, segment := 1, crc := crc }

/-- Lane 0 awaits the receipt of target 0's store; target 1 is stored or not. -/
def awaiting (attempt : Nat) (timer : Option Nat) (other : StoreState) (out n : Nat) : State :=
  placing 1 4096 [storeOf 0 attempt .awaiting 1 timer, storeOf 1 1 other 1 none] out n

theorem test_hyp_StoreAttemptsFail : Arrives (awaiting 1 (some 0) .sending 2 0) (msg 0xC3 0 (receiptBody 1 1 7))
    ∧ parseStoreAck (receiptBody 1 1 7) = some (receiptOf 1 1 7) ∧ parseStoreAck (receiptBody 1 0 8) = some (receiptOf 1 0 8)
    ∧ parseStoreAck (receiptBody 2 1 7) = some (receiptOf 2 1 7) ∧ parseStoreAck (receiptBody 1 2 7) = some (receiptOf 1 2 7)
    ∧ fromFenced (awaiting 1 (some 0) .sending 2 0) 0xC3 = false ∧ fromFenced mixed 0xC3 = true
    ∧ WorksOn (awaiting 1 (some 0) .sending 2 0) 0 (job 1 4096 (.place [storeOf 0 1 .awaiting 1 (some 0), storeOf 1 1 .sending 1 none])) (stripe .active 1)
    ∧ findStore (job 1 4096 (.place [storeOf 0 1 .awaiting 1 (some 0), storeOf 1 1 .sending 1 none])) 0 = some (storeOf 0 1 .awaiting 1 (some 0))
    ∧ inFlight (storeOf 0 1 .awaiting 1 (some 0)) = true ∧ (0xC3 : EthAddr) = (nodeAt (awaiting 1 (some 0) .sending 2 0) 3).addr
    ∧ (stripe .active 1).targets[0]? = some { frag := 2, dest := 3, placed := 1, status := .opened }
    ∧ storeDone (job 1 4096 (.place [storeOf 0 1 .awaiting 1 (some 0), storeOf 1 1 .sending 1 none])) 0 = false
    ∧ (2 - 1 < (nodeAt (awaiting 1 (some 0) .sending 2 0) 3).limit) ∧ (nodeAt (awaiting 1 (some 0) .sending 5 0) 3).limit ≤ 5 - 1
    ∧ NothingWaits (awaiting 1 (some 0) .sending 2 0)
    ∧ (nodeAt (awaiting 1 (some 0) .sending 2 1) 3).consecutive + 1 < (awaiting 1 (some 0) .sending 2 1).settings.threshold
    ∧ (awaiting 1 (some 0) .sending 2 2).settings.threshold ≤ (nodeAt (awaiting 1 (some 0) .sending 2 2) 3).consecutive + 1
    ∧ (storeOf 0 1 .awaiting 1 (some 1)).timer ≠ some 0 ∧ storeAt world 0 0 = none
    ∧ storeAt (awaiting 1 (some 1) .sending 2 0) 0 0
        = some (job 1 4096 (.place [storeOf 0 1 .awaiting 1 (some 1), storeOf 1 1 .sending 1 none]), storeOf 0 1 .awaiting 1 (some 1))
    ∧ 0 ∈ (job 1 4096 .gather).needed ∧ LanesHold (awaiting 1 (some 0) .sending 2 2) ∧ LanesOn (awaiting 1 (some 0) .sending 2 2) [1] [0] := by
  refine ⟨?_, by decide, by decide, by decide, by decide, by decide, by decide, worksOn_lane0 rfl rfl (by decide), by decide, by decide, by decide, by decide,
    by decide, by decide, by decide, ⟨rfl, by decide⟩, by decide, by decide, by decide, by decide, rfl, by decide,
    lanesHold_one (j := job 1 4096 (.place [storeOf 0 1 .awaiting 1 (some 0), storeOf 1 1 .sending 1 none])) (l := stripe .active 1) rfl (by decide) rfl rfl,
    lanesOn_one (j := job 1 4096 (.place [storeOf 0 1 .awaiting 1 (some 0), storeOf 1 1 .sending 1 none])) (l := stripe .active 1) rfl (by decide) rfl
      (by decide)⟩
  unfold Arrives
  decide

/-- No store answers a receipt for an IDLE lane. -/
theorem test_hyp_StoreAttemptsFail_late : Arrives world (msg 0xC3 0 (receiptBody 1 1 7)) ∧ (receiptOf 1 1 7).lane = (0 : Fin 8).val
    ∧ laneAt world 0 = none ∧ fromFenced world 0xC3 = false := by
  unfold Arrives
  decide

/-- The stripe's targets in their last segment, the second DONE already. -/
def finalTargets : List Target := [{ frag := 2, dest := 3, placed := 1, status := .opened }, { frag := 3, dest := 3, placed := 2, status := .done }]

/-- Record 5 ACTIVE on lane 0, holding `l`, whose receipt for target 0 is awaited; target 1 is stored. -/
def receiving (l : Live) : State :=
  { awaiting 1 none .stored 1 0 with records := [(5, { generation := 7, live := some l })] }

/-- The job of lane 0 there. -/
def receivingJob : Job := job 1 4096 (.place [storeOf 0 1 .awaiting 1 none, storeOf 1 1 .stored 1 none])

/-- A good receipt for it. -/
theorem goodReceipt_receiving {l : Live} (hf : l.fixed = false) (hw : l.lostFields = []) (ha : l.state = .active)
    (ht : l.targets[0]? = some { frag := 2, dest := 3, placed := 1, status := .opened }) :
    GoodReceiptFor (receiving l) (msg 0xC3 0 (receiptBody 1 0 7)) 0 receivingJob (storeOf 0 1 .awaiting 1 none) l
      { frag := 2, dest := 3, placed := 1, status := .opened } := by
  refine ⟨arrives_msg rfl rfl (by simp [receiving, awaiting, placing, working, holding, world]) _ _ (by decide), rfl,
    (by decide : fromFenced (awaiting 1 none .stored 1 0) 0xC3 = false), ⟨rfl, rfl, hf, hw, ha, ?_⟩, ⟨receiptOf 1 0 7, by decide, rfl, rfl, rfl, by decide, rfl, rfl, rfl⟩, by decide, by decide, rfl, ht, rfl,
    rfl⟩
  have e : laneHolding (receiving l) 5 = laneHolding (awaiting 1 none .stored 1 0) 5 := rfl
  exact e.trans (by decide)

/-- The stripe in its last segment, watched. -/
def finishing : Live := { watched .active 1 .placed with targets := finalTargets }

/-- The stripe after a receipt that leaves targets OPEN. -/
def oneReceived : Live :=
  { stripe .active 1 with
    targets := targetsAfter (stripe .active 1) (storeOf 0 1 .awaiting 1 none) { frag := 2, dest := 3, placed := 1, status := .opened } }

/-- The receipt makes every target DONE, or leaves some; the turn goes on or ends; the node of the next segment's first source is in service or not. -/
theorem test_hyp_GoodReceiptsAndTurnEnd :
    GoodReceiptFor (receiving finishing) (msg 0xC3 0 (receiptBody 1 0 7)) 0 receivingJob (storeOf 0 1 .awaiting 1 none) finishing
      { frag := 2, dest := 3, placed := 1, status := .opened }
    ∧ GoodReceiptFor (receiving (stripe .active 1)) (msg 0xC3 0 (receiptBody 1 0 7)) 0 receivingJob (storeOf 0 1 .awaiting 1 none) (stripe .active 1)
      { frag := 2, dest := 3, placed := 1, status := .opened }
    ∧ finishing.watch = some { watcher := stranger, edge := .placed }
    ∧ (∀ y ∈ storesOf receivingJob, y.target = 0 ∨ y.state = .stored)
    ∧ ¬ (∀ y ∈ [storeOf 0 1 .awaiting 1 none, storeOf 1 1 .sending 1 none], y.target = 0 ∨ y.state = .stored)
    ∧ NothingWaits (awaiting 1 none .sending 2 0)
    ∧ (∀ t ∈ targetsAfter finishing (storeOf 0 1 .awaiting 1 none) { frag := 2, dest := 3, placed := 1, status := .opened }, t.status = .done)
    ∧ ¬ (∀ t ∈ oneReceived.targets, t.status = .done)
    ∧ (draining.mode ≠ .rebuild) ∧ world.settings.quantum ≤ 7 + 1 ∧ 6 + 1 < world.settings.quantum ∧ (receiving (stripe .active 1)).fgQueue = []
    ∧ receivingJob.cls = .background ∧ (receiving (stripe .active 1)).bgQueue = []
    ∧ checkList oneReceived (nextSegment oneReceived) = [(1, .sourceLost 0), (2, .sourceLost 1), (3, .destLost 1)]
    ∧ (nodeAt (receiving (stripe .active 1)) 1).state = .serving ∧ (nodeAt mixed 2).state = .muted ∧ (nodeAt mixed 3).state = .fenced := by
  refine ⟨goodReceipt_receiving rfl rfl rfl rfl, goodReceipt_receiving rfl rfl rfl rfl, rfl, by decide, by decide, ⟨rfl, by decide⟩, by decide⟩

/-! ### Frames that are no readable request or answer -/

theorem test_hyp_UnreadableFrameOutcomes : rawTaken { world with portA := { portOn with state := .off } } (raw 0x14) = false
    ∧ rawTaken asleep (raw 0x14) = true ∧ kindOfCode (byteAt (raw 0x14).payload 1) = none
    ∧ rawTaken world { raw 0x14 with payload := [1, 0x14] } = true ∧ headerReadable [1, 0x14] = false
    ∧ rawTaken world (raw 0x20) = true ∧ headerReadable (raw 0x20).payload = true ∧ kindOfCode (byteAt (raw 0x20).payload 1) = some .reply
    ∧ world.mode ≠ .dormant ∧ asleep.mode = .dormant := by decide

/-! ### The window -/

/-- A state with an event flag, enabled and urgent, whose message is held pending. -/
def flagged : State :=
  { world with events := { flags := 1, enables := 1, classes := 1, globalEnable := true, msiEnable := false, pendingUrgent := true, pendingRoutine := false } }

theorem test_hyp_EventAndCounterWrites : urgentCondition flagged.events = true ∧ flagged.events.pendingUrgent = true
    ∧ routineCondition flagged.events = false ∧ routineCondition { flagged.events with classes := 0 } = true
    ∧ urgentCondition { flagged.events with globalEnable := false } = false := by decide

theorem test_hyp_PeekEngine : ({ world with peek := { world.peek with busy := true } } : State).peek.busy = true ∧ world.peek.busy = false
    ∧ 1 ≤ (32 : BitVec 6).toNat ∧ (32 : BitVec 6).toNat ≤ 32 ∧ 32 < (33 : BitVec 6).toNat ∧ (0 : BitVec 6).toNat = 0
    ∧ liveAt (holding (stripe .waiting 0)) 6 = none ∧ liveAt (holding (stripe .waiting 0)) 5 = some (stripe .waiting 0)
    ∧ causeBytes (some (stripe .waiting 0).state) = [0, 0] ∧ (stripe .waiting 0).targets.length ≤ 4
    ∧ (stripe .waiting 0).targets[0]? = some { frag := 2, dest := 3, placed := 0, status := .opened } ∧ (stripe .waiting 0).targets[3]? = none
    ∧ (stripe .waiting 0).sources[1]? = some { slot := 2, frag := 1, coefs := [3, 4] } ∧ (stripe .waiting 0).sources[15]? = none
    ∧ liveAt (holding { stripe (.held .memory) 0 with fixed := true, lostFields := [.key] }) 5
        = some { stripe (.held .memory) 0 with fixed := true, lostFields := [.key] } := by
  decide

theorem test_hyp_WindowWrites : (0x040, 1, 255) ∈ [((0x040 : BitVec 12), 1, 255), (0x070, 0, 65536)] ∧ (1 ≤ (255 : BitVec 32).toNat % 131072)
    ∧ ¬ (256 : BitVec 32).toNat % 131072 ≤ 255 ∧ (65536 : BitVec 32).toNat % 131072 ≤ 65536 ∧ (2 : BitVec 32).getLsbD 0 = false
    ∧ (0x000 : BitVec 12).toNat ∉ [0x010, 0x014, 0x200] ∧ 0x0600 ≤ (0x0600 : BitVec 16).toNat ∧ (0x05FF : BitVec 16).toNat < 0x0600
    ∧ (1 ≤ (255 : BitVec 17).toNat ∧ (255 : BitVec 17).toNat ≤ 255) ∧ ready.mode = .ready ∧ (7 : BitVec 17).toNat ≤ 7 ∧ world.mode = .rebuild := by
  decide

/-! ### Laws -/

/-- Record 5 alone live and ACTIVE on lane 0, which has one source in flight from node 1 and the other pending; the free list's ring has numbers 0 and 5
changed about, so that its entries are all the others. -/
def tidy : State :=
  { fetching (fetchOf 1 4096 1) with
    nodes := [(1, { node .serving 0xC1 with outstanding := 1 }), (2, node .serving 0xC2), (3, node .serving 0xC3)]
    freeList := { ring := [(0, 5), (5, 0)], head := 1, tail := 0 } }

theorem live_tidy {n : Nat} {l : Live} (h : liveAt tidy n = some l) : n = 5 ∧ l = stripe .active 1 :=
  live_five (g := 7) rfl h

theorem lane_tidy {i : Fin 8} {j : Job} (h : laneAt tidy i = some j) : i = 0 ∧ j = job 1 4096 .gather := by
  by_cases hi : i = 0
  · subst hi
    exact ⟨rfl, (Option.some.inj (h : some (job 1 4096 .gather) = some j)).symm⟩
  · rw [(by decide : ∀ x : Fin 8, x ≠ 0 → laneAt tidy x = none) i hi] at h
    contradiction

theorem slot_tidy {k : Nat} {ft : Fetch} (h : (slotAt tidy k).use = some ft) : k = 0 ∧ ft = fetchOf 1 4096 1 := by
  by_cases hk : k = 0
  · subst hk
    exact ⟨rfl, (Option.some.inj (h : some (fetchOf 1 4096 1) = some ft)).symm⟩
  · simp [slotAt, tidy, fetching, Sparse.get, hk, freeSlot] at h

/-- A node slot is one of the three, or ABSENT. -/
theorem node_tidy (k : Nat) : k = 1 ∨ k = 2 ∨ k = 3 ∨ (nodeAt tidy k = absentNode k ∧ k ≠ 1 ∧ k ≠ 2 ∧ k ≠ 3) := by
  by_cases h1 : k = 1
  · exact .inl h1
  by_cases h2 : k = 2
  · exact .inr (.inl h2)
  by_cases h3 : k = 3
  · exact .inr (.inr (.inl h3))
  · exact .inr (.inr (.inr ⟨by simp [nodeAt, tidy, Sparse.get, h1, h2, h3], h1, h2, h3⟩))

theorem names_tidy (k : Nat) (h1 : k ≠ 1) (h2 : k ≠ 2) (h3 : k ≠ 3) : namesSlot (stripe .active 1) k = false := by
  simp [namesSlot, stripe, Ne.symm h1, Ne.symm h2, Ne.symm h3]

/-- Place `p` of the ring there. -/
theorem ring_tidy (p : Nat) : Sparse.get resetRingEntry tidy.freeList.ring p = if p = 0 then 5 else if p = 5 then 0 else p := rfl

theorem freeNumbers_tidy : freeNumbers tidy = (List.range 65535).map (fun k => if k = 4 then 0 else k + 1) := by
  refine List.map_congr_left fun k hk => ?_
  have hk' : k < 65535 := List.mem_range.mp hk
  have e : (tidy.freeList.head + BitVec.ofNat 16 k).toNat = k + 1 := by
    change ((1 : BitVec 16) + BitVec.ofNat 16 k).toNat = k + 1
    rw [BitVec.toNat_add, BitVec.toNat_ofNat]
    change (1 + k % 65536) % 65536 = k + 1
    omega
  rw [e, ring_tidy]
  by_cases h4 : k = 4
  · subst h4
    rfl
  · rw [if_neg (by omega), if_neg (by omega), if_neg h4]

theorem freeListLaw_tidy : FreeListLaw tidy := by
  refine ⟨by decide, fun n l h => by rw [(live_tidy h).1]; omega, by decide, ?_, fun n => ?_⟩
  · rw [freeNumbers_tidy]
    refine List.Nodup.map_on (fun a _ b _ hab => ?_) List.nodup_range
    split at hab <;> split at hab <;> omega
  · rw [freeNumbers_tidy]
    have hl : liveAt tidy n = none ↔ n ≠ 5 := by
      by_cases hn : n = 5
      · subst hn
        exact ⟨fun h => by contradiction, fun h => (h rfl).elim⟩
      · exact ⟨fun _ => hn, fun _ => by simp [liveAt, recordAt, tidy, fetching, working, holding, Sparse.get, hn, freeRecord]⟩
    rw [hl, List.mem_map]
    constructor
    · rintro ⟨k, hk, rfl⟩
      have hk' := List.mem_range.mp hk
      split <;> omega
    · rintro ⟨h, h5⟩
      by_cases h0 : n = 0
      · exact ⟨4, List.mem_range.mpr (by omega), by rw [if_pos rfl, h0]⟩
      · exact ⟨n - 1, List.mem_range.mpr (by omega), by rw [if_neg (by omega)]; omega⟩

theorem indexLaw_tidy : IndexLaw tidy := by
  refine ⟨fun n l h => ?_, fun b w e hw h => ?_, fun n m l l' h h' _ => (live_tidy h).1.trans (live_tidy h').1.symm⟩
  · obtain ⟨rfl, rfl⟩ := live_tidy h
    decide
  · by_cases hk : 8 * b + w = 8736
    · have hb : b = 1092 := by omega
      have hw' : w = 0 := by omega
      subst hb hw'
      have e' : (some { record := 5, key := key } : Option IndexEntry) = some e := h
      cases Option.some.inj e'
      exact ⟨stripe .active 1, rfl, rfl, by decide, rfl⟩
    · simp [tidy, fetching, working, holding, Sparse.get, hk, emptyWay] at h

theorem placedLaw_tidy : PlacedLaw tidy := by
  intro n l h
  rw [(live_tidy h).2]
  unfold PlacedCounts
  decide

theorem canonical_tidy : CanonicalTables tidy := by
  unfold CanonicalTables
  refine ⟨by decide, by decide, by decide, by decide, by decide, ?_⟩
  refine ⟨List.pairwise_singleton .., fun e he => ?_⟩
  rw [List.mem_singleton.mp he]
  exact fun h => absurd (congrArg FetchSlot.generation h) (by decide)

theorem fetchLaw_tidy : FetchLaw tidy := by
  refine ⟨fun k ft h => ?_, fun i j l hj hl => ?_⟩
  · obtain ⟨rfl, rfl⟩ := slot_tidy h
    exact ⟨by decide, job 1 4096 .gather, stripe .active 1, { slot := 1, frag := 0, coefs := [1, 2] }, rfl, rfl, rfl, rfl, rfl, rfl, rfl, rfl⟩
  · obtain ⟨rfl, rfl⟩ := lane_tidy hj
    obtain ⟨-, rfl⟩ := live_tidy hl
    have e : fetchedPositions tidy 0 = [0] := by decide
    change ([1] ++ fetchedPositions tidy 0 ++ []).Nodup ∧ (∀ p, p ∈ [1] ++ fetchedPositions tidy 0 ++ [] ↔ p < 2) ∧ ∀ ss, Phase.gather = .place ss → _
    rw [e]
    refine ⟨by decide, fun p => ?_, fun ss h => nomatch h⟩
    simp
    omega

theorem storeLaw_tidy : StoreLaw tidy := by
  refine ⟨fun i j l hj hl => ?_, List.nodup_nil, fun i q => ⟨fun h => by contradiction, ?_⟩⟩
  · obtain ⟨rfl, rfl⟩ := lane_tidy hj
    obtain ⟨-, rfl⟩ := live_tidy hl
    refine ⟨by decide, by decide, ?_⟩
    change ∀ q ∈ [0, 1], ∃ x, (stripe .active 1).targets[q]? = some x ∧ x.status = .opened ∧ x.placed = 1
    simp [stripe]
  · rintro ⟨j, st, h, _⟩
    unfold storeAt at h
    cases hj : laneAt tidy i with
    | none => simp [hj] at h
    | some x =>
      obtain ⟨rfl, rfl⟩ := lane_tidy hj
      rw [hj] at h
      contradiction

theorem refLaw_tidy : RefLaw tidy := by
  refine ⟨fun k => ?_, fun n l k hl hk => ?_⟩
  · have e : liveNumbers tidy = [5] := by decide
    have e5 : liveAt tidy 5 = some (stripe .active 1) := rfl
    rw [e]
    rcases node_tidy k with rfl | rfl | rfl | ⟨h, h1, h2, h3⟩
    · decide
    · decide
    · decide
    · simp [h, absentNode, e5, names_tidy k h1 h2 h3]
  · rw [(live_tidy hl).2] at hk
    rcases node_tidy k with rfl | rfl | rfl | ⟨_, h1, h2, h3⟩
    · decide
    · decide
    · decide
    · rw [names_tidy k h1 h2 h3] at hk
      contradiction

theorem outstandingLaw_tidy : OutstandingLaw tidy := by
  intro k
  have st : storesOn tidy laneNumbers k = 0 := rfl
  have ft : k ≠ 1 → fetchesOn tidy laneNumbers k = 0 := by
    intro hk
    refine List.countP_eq_zero.mpr fun x _ => ?_
    cases hu : (slotAt tidy x).use with
    | none => simp
    | some y =>
      rw [(slot_tidy hu).2]
      simp [fetchOf, Ne.symm hk]
  rcases node_tidy k with rfl | rfl | rfl | ⟨h, h1, _, _⟩
  · decide
  · rw [st, ft (by decide)]
    decide
  · rw [st, ft (by decide)]
    decide
  · rw [st, ft h1, h]
    exact ⟨rfl, fun _ => rfl⟩

theorem workLaws_tidy : WorkLaws tidy := by
  have hold : LanesHold tidy := lanesHold_one (j := job 1 4096 .gather) (l := stripe .active 1) rfl (by decide) rfl rfl
  refine ⟨fun n l h => ?_, ⟨by decide, by decide, fun n => ?_, fun n => ?_⟩, ⟨stallsHold_none (by decide) ?_, ?_⟩, ⟨hold, ?_, ?_⟩, fetchLaw_tidy,
    storeLaw_tidy, refLaw_tidy, outstandingLaw_tidy⟩
  · rw [(live_tidy h).2]
    refine ⟨by decide, by decide, fun _ h => ?_, fun _ ⟨x, hx, h⟩ => ?_⟩
    · exact absurd (h { frag := 2, dest := 3, placed := 1, status := .opened } (by decide)) (by decide)
    · have : ∀ x ∈ (stripe .active 1).targets, x.status ≠ .lost := by decide
      exact (this x hx h).elim
  · refine ⟨fun h => by contradiction, fun ⟨l, hl, hs, _⟩ => ?_⟩
    rw [(live_tidy hl).2] at hs
    contradiction
  · refine ⟨fun h => by contradiction, fun ⟨l, hl, hs, _⟩ => ?_⟩
    rw [(live_tidy hl).2] at hs
    contradiction
  · intro n l h k
    rw [(live_tidy h).2]
    simp [stripe]
  · intro n l k h hs
    rw [(live_tidy h).2] at hs
    contradiction
  · intro i j hj
    rw [(lane_tidy hj).2]
    rfl
  · intro n l h _
    exact ⟨0, job 1 4096 .gather, rfl, (live_tidy h).1.symm⟩

/-- A state that keeps every law, and takes a step. -/
theorem test_hyp_ControlLawsAreKept : step tidy = .next (tick tidy) ∧ AuthorityLaw tidy ∧ BudgetLaw tidy ∧ LaneModeLaw tidy ∧ QueueLaw tidy
    ∧ ReserveLaw tidy := by
  refine ⟨rfl, ?_, ?_, ?_, workLaws_tidy.queue, ?_⟩
  · unfold AuthorityLaw
    decide
  · unfold BudgetLaw
    decide
  · unfold LaneModeLaw
    decide
  · unfold ReserveLaw
    decide

/-- A step that raises an outstanding count: FETCH_ISSUE of the pending source. -/
theorem test_hyp_WorkLawsAreKept_raise : ∃ t, step { tidy with pending := [.fetchIssue []] } = .next t
    ∧ (nodeAt tidy 2).outstanding < (nodeAt t 2).outstanding :=
  ⟨_, rfl, by decide +kernel⟩

theorem test_hyp_PlacedCountsAreKept : step tidy = .next (tick tidy) ∧ PlacedLaw tidy :=
  ⟨rfl, placedLaw_tidy⟩

theorem test_hyp_CanonicalTablesAreKept : step tidy = .next (tick tidy) ∧ CanonicalTables tidy ∧ FreeListLaw tidy ∧ IndexLaw tidy :=
  ⟨rfl, canonical_tidy, freeListLaw_tidy, indexLaw_tidy⟩

theorem test_hyp_WorkLawsAreKept : step tidy = .next (tick tidy) ∧ CanonicalTables tidy ∧ PlacedLaw tidy ∧ FreeListLaw tidy ∧ WorkLaws tidy :=
  ⟨rfl, canonical_tidy, placedLaw_tidy, freeListLaw_tidy, workLaws_tidy⟩

end Sys2Proof.Tests
end

/-! SUPPORT. How a request that reaches its record runs where no table word is damaged: its reads give their values, its frame comes through to the record,
and its REPLY is sent by the port selection of the state before it (R30, R36, R38, R154). -/

namespace Sys2Proof.Machine

/-! ### Reads and writes of a sound memory (R30) -/

theorem readWord_of_sound {s : State} (h : s.dram = []) (w : TableWord) : readWord w s = (true, s) := by
  have hw : healthOf s w = { first := .clean, second := .clean } := by
    rw [healthOf, h]
    rfl
  unfold readWord
  rw [hw]

theorem readFields_of_sound {s : State} (h : s.dram = []) (n : Nat) (fs : List RecField) : readFields n fs s = ([], s) := by
  induction fs with
  | nil => rfl
  | cons f fs ih => simp only [readFields, readWord_of_sound h, ih, if_true]

theorem requestRead_of_sound {n : Nat} {l : Live} {s : State} (h : s.dram = []) (hl : liveAt s n = some l) (ids work : List RecField) :
    requestRead n ids work s = (true, s) := by
  simp [requestRead, readRecordFields, hl, readFields_of_sound h]

theorem readWork_of_sound {n : Nat} {l : Live} {s : State} (h : s.dram = []) (hl : liveAt s n = some l) (work : List RecField) :
    readWork n work s = (true, s) :=
  requestRead_of_sound h hl [] work

/-- Writes of a record's fields change the health of its words, and nothing else. -/
theorem writeFields_eq (n : Nat) (fs : List RecField) (s : State) : ∃ d, writeFields n fs s = { s with dram := d } := by
  unfold writeFields
  induction fs generalizing s with
  | nil => exact ⟨s.dram, rfl⟩
  | cons f fs ih =>
    obtain ⟨d, hd⟩ := ih (writeWord (.record n f) s)
    exact ⟨d, hd⟩

/-! ### The way of a request to its record (R6, R37, R38, R153, R182) -/

theorem Reaches.arrives {s : State} {f : Frame} {r : RecordName} {l : Live} (h : Reaches s f r l) : Arrives s f := h.1

theorem Reaches.sound {s : State} {f : Frame} {r : RecordName} {l : Live} (h : Reaches s f r l) : s.dram = [] := h.2.1

theorem Reaches.live {s : State} {f : Frame} {r : RecordName} {l : Live} (h : Reaches s f r l) : liveAt s r.number = some l := h.2.2.1

theorem receive_of_arrives {f : Frame} {s : State} (h : Arrives s f) (act : State → State) : receive f act s = act s := by
  obtain ⟨ht, hm⟩ := h
  rw [receive, if_pos ht, if_neg hm]

theorem request_of_readable {ρ : Type} {needs : Bool} {f : Frame} {body : Option ρ} {r : ρ} {s : State} (ha : Arrives s f) (hb : body = some r)
    (hl : needs = true → FromHolder s f) (k : Kind) (act : ρ → State → State) : request k needs f body act s = act r s := by
  have hn : ¬ (needs && !holdsLease s f.src) = true := by
    cases needs with
    | false => simp
    | true => simp [show holdsLease s f.src = true from hl rfl]
  rw [request, receive_of_arrives ha, hb]
  exact if_neg hn

theorem onRecord_of_reaches {f : Frame} {r : RecordName} {l : Live} {s : State} (h : Reaches s f r l) (k : Kind) (act : Live → State → State) :
    onRecord f k r act s = act l s := by
  obtain ⟨-, hd, hl, hf, hg⟩ := h
  have hi : identify r s = (.ok l, s) := by
    simp [identify, hl, hf, requestRead_of_sound hd hl, hg]
  rw [onRecord, hi]

/-! ### The REPLY (R36, R154, R185) -/

theorem choosePort_of_control {s t : State} (h : SameControl s t) (p : Port) : choosePort t p = choosePort s p := by
  simp only [choosePort, ableToSend_of_control h]

/-- What a request's change does before its REPLY: it may send, and it drops no REPLY. -/
structure Unanswered (s u : State) : Prop where
  control : SameControl s u
  sent : ∃ out, u.outputs = s.outputs ++ out
  dropped : counterValue .replyDropped u = counterValue .replyDropped s

theorem Unanswered.refl (s : State) : Unanswered s s :=
  ⟨SameControl.refl s, ⟨[], (List.append_nil _).symm⟩, rfl⟩

/-- A change that sends nothing and counts nothing. -/
theorem Unanswered.of_same {s u : State} (hc : SameControl s u) (ho : u.outputs = s.outputs) (hd : u.counters = s.counters) : Unanswered s u :=
  ⟨hc, ⟨[], by rw [ho, List.append_nil]⟩, by rw [counterValue, counterValue, hd]⟩

theorem Unanswered.trans {s t u : State} (h : Unanswered s t) (g : Unanswered t u) : Unanswered s u := by
  obtain ⟨o, ho⟩ := h.sent
  obtain ⟨o', ho'⟩ := g.sent
  exact ⟨h.control.trans g.control, ⟨o ++ o', by rw [ho', ho, List.append_assoc]⟩, g.dropped.trans h.dropped⟩

/-- `t` is `u` once a REPLY has been sent or dropped and the command has ended. -/
def Concluded (u t : State) : Prop :=
  (∃ ctr out ev, t = { u with counters := ctr, outputs := out, events := ev })
    ∧ ∀ d, d ≠ .replyDropped → counterValue d t = counterValue d u

/-- A REPLY leaves by the port that the selection of R154 gives. -/
theorem sendReply_of_port {p : Port} {f : Frame} {u : State} (h : choosePort u f.port = some p) (k : Kind) (st : Status) (fl : Byte) (r : List Byte) :
    sendReply (askerOf f) k.code st fl r u = emit (.frame (replyFrame u p f k.code st fl r)) u := by
  have hp : choosePort u (askerOf f).port = some p := h
  unfold sendReply
  rw [hp]
  rfl

/-- A REPLY for which the selection of R154 gives no port is dropped and counted. -/
theorem sendReply_of_no_port {f : Frame} {u : State} (h : choosePort u f.port = none) (k : Kind) (st : Status) (fl : Byte) (r : List Byte) :
    sendReply (askerOf f) k.code st fl r u = count .replyDropped u := by
  have hp : choosePort u (askerOf f).port = none := h
  unfold sendReply
  rw [hp]

theorem replyFrame_of_control {s u : State} (h : SameControl s u) (p : Port) (f : Frame) (k : Byte) (st : Status) (fl : Byte) (r : List Byte) :
    replyFrame u p f k st fl r = replyFrame s p f k st fl r := by
  have hport := portAt_of_control h p
  obtain ⟨-, -, -, -, -, -, -, he, -⟩ := h
  simp only [replyFrame, hport, he]

/-- The REPLY that ends a command answers the request of the state before it. -/
theorem sendReply_concluded {s u : State} (h : Unanswered s u) (f : Frame) (k : Kind) (st : Status) (fl : Byte) (r : List Byte) :
    ∃ t, commit s (sendReply (askerOf f) k.code st fl r u) = .next t ∧ Answered s t f k st fl r ∧ Concluded u t := by
  have hport := choosePort_of_control h.control f.port
  unfold Answered
  cases hp : choosePort s f.port with
  | some p =>
    rw [sendReply_of_port (hport.trans hp)]
    obtain ⟨pu, pr, msgs, hc⟩ := commit_eq s (emit (.frame (replyFrame u p f k.code st fl r)) u)
    refine ⟨_, hc, ?_, ⟨_, _, _, rfl⟩, fun _ _ => rfl⟩
    obtain ⟨out, ho⟩ := h.sent
    simp [sentBetween, ho, replyFrame_of_control h.control]
  | none =>
    rw [sendReply_of_no_port (hport.trans hp)]
    obtain ⟨pu, pr, msgs, hc⟩ := commit_eq s (count .replyDropped u)
    refine ⟨_, hc, ?_, ⟨_, _, _, rfl⟩, fun d hd => counterValue_count_other u hd⟩
    exact (counterValue_count u .replyDropped).trans (congrArg saturatingSucc h.dropped)

theorem reply_concluded {s u : State} (h : Unanswered s u) (f : Frame) (k : Kind) {st : Status} (hst : st ≠ .malformed) (r : List Byte) :
    ∃ t, commit s (reply f k st r u) = .next t ∧ Answered s t f k st 0 r ∧ Concluded u t := by
  rw [reply, answer, if_neg hst]
  exact sendReply_concluded h f k st 0 r

/-- A request answered MALFORMED is counted, and nothing else comes of it (R181, R182). -/
theorem malformed_concluded (f : Frame) (k : Kind) (s : State) :
    ∃ t, commit s (reply f k .malformed [] s) = .next t ∧ Quiet s t ∧ Answered s t f k .malformed 0 []
      ∧ counterValue .malformed t = saturatingSucc (counterValue .malformed s) := by
  have hu : Unanswered s (count .malformed s) :=
    ⟨SameControl.refl s, ⟨[], (List.append_nil _).symm⟩, counterValue_count_other s (by decide)⟩
  rw [reply, answer, if_pos rfl]
  obtain ⟨t, ht, hans, ⟨ctr, out, ev, rfl⟩, hctr⟩ := sendReply_concluded hu f k .malformed 0 []
  refine ⟨_, ht, ?_, hans, (hctr .malformed (by decide)).trans (counterValue_count s .malformed)⟩
  exact ⟨SameControl.refl s, SameTable.refl s, ⟨rfl, rfl, rfl, rfl, rfl, rfl⟩, rfl, rfl⟩

/-! ### Changes of one record -/

/-- A change that a request makes before its REPLY, of record `n` and of no other record. -/
structure OnlyRecord (n : Nat) (s t : State) : Prop extends Unanswered s t where
  collections : SameCollections s t
  others : OtherRecords s t n
  generation : generationAt t n = generationAt s n

theorem OnlyRecord.trans {n : Nat} {s t u : State} (h : OnlyRecord n s t) (g : OnlyRecord n t u) : OnlyRecord n s u := by
  obtain ⟨c1, c2, c3⟩ := h.collections
  obtain ⟨d1, d2, d3⟩ := g.collections
  exact ⟨h.toUnanswered.trans g.toUnanswered, ⟨d1.trans c1, d2.trans c2, d3.trans c3⟩,
    fun m hm => (g.others m hm).trans (h.others m hm), g.generation.trans h.generation⟩

/-- A change that leaves the table of records. -/
theorem OnlyRecord.of_records {n : Nat} {s t : State} (h : Unanswered s t) (hc : SameCollections s t) (hr : t.records = s.records) :
    OnlyRecord n s t :=
  ⟨h, hc, fun m _ => by rw [recordAt, recordAt, hr], by rw [generationAt, generationAt, recordAt, recordAt, hr]⟩

theorem OnlyRecord.refl (n : Nat) (s : State) : OnlyRecord n s s :=
  .of_records (Unanswered.refl s) ⟨rfl, rfl, rfl⟩ rfl

theorem setLive_onlyRecord (n : Nat) (l : Live) (s : State) : OnlyRecord n s (setLive n l s) :=
  ⟨.of_same (SameControl.refl s) rfl rfl, ⟨rfl, rfl, rfl⟩, fun _ hm => recordAt_setRecord_other s hm _, generationAt_setLive s n n l⟩

/-- A live record is written, with the health of its words, and may leave the queues. -/
theorem setLive_with_onlyRecord (n : Nat) (l : Live) (d : Sparse WordHealth) (fg bg : List Nat) (s : State) :
    OnlyRecord n s { setLive n l s with dram := d, fgQueue := fg, bgQueue := bg } :=
  (setLive_onlyRecord n l s).trans (.of_records (.of_same (SameControl.refl _) rfl rfl) ⟨rfl, rfl, rfl⟩ rfl)

theorem joinQueue_onlyRecord (n : Nat) (c : RecordClass) (s : State) : OnlyRecord n s (joinQueue n c s) := by
  cases c <;> exact .of_records (.of_same (SameControl.refl s) rfl rfl) ⟨rfl, rfl, rfl⟩ rfl

end Sys2Proof.Machine

/-! SUPPORT. CLASS (R47) and WATCH (R56): what each changes of the record, and its REPLY. -/

namespace Sys2Proof.Machine

/-! ### CLASS -/

theorem classOfCode_undefined {code : Byte} (h : 1 < code.toNat) : classOfCode code = none := by
  have h0 : code ≠ 0 := by rintro rfl; simp at h
  have h1 : code ≠ 1 := by rintro rfl; simp at h
  rw [classOfCode, if_neg h0, if_neg h1]

theorem changeClass_of_same {n : Nat} {l : Live} {c : RecordClass} (h : l.cls = c) (s : State) : changeClass n l c s = s :=
  if_pos h

/-- A WAITING record of another class leaves its queue and joins the tail of the other (R47). -/
theorem changeClass_of_waiting {n : Nat} {l : Live} {c : RecordClass} (h : l.cls ≠ c) (hw : l.state = .waiting) (s : State) :
    ∃ d, changeClass n l c s = joinQueue n c
      { setLive n { l with cls := c, stamp := s.queueSeq } s with dram := d, fgQueue := s.fgQueue.erase n, bgQueue := s.bgQueue.erase n } := by
  have hleave : leaveHolder n l s = { s with fgQueue := s.fgQueue.erase n, bgQueue := s.bgQueue.erase n } := by
    rw [leaveHolder, hw]
  obtain ⟨d, hd⟩ := writeFields_eq n [.cls, .stamp] (setLive n { l with cls := c, stamp := s.queueSeq } (leaveHolder n l s))
  refine ⟨d, ?_⟩
  rw [changeClass, if_neg h]
  split
  · rw [hd, hleave]
    rfl
  · contradiction

/-- Any other record of another class keeps its place (R47). -/
theorem changeClass_of_resting {n : Nat} {l : Live} {c : RecordClass} (h : l.cls ≠ c) (hw : l.state ≠ .waiting) (s : State) :
    ∃ d, changeClass n l c s = { setLive n { l with cls := c } s with dram := d } := by
  obtain ⟨d, hd⟩ := writeFields_eq n [.cls] (setLive n { l with cls := c } s)
  refine ⟨d, ?_⟩
  rw [changeClass, if_neg h]
  split
  · contradiction
  · exact hd

/-- The record that a change of class leaves. -/
theorem liveAt_changeClass {n : Nat} {l : Live} {s : State} (hl : liveAt s n = some l) (c : RecordClass) :
    liveAt (changeClass n l c s) n
      = some { l with cls := c, stamp := if l.cls ≠ c ∧ l.state = .waiting then s.queueSeq else l.stamp } := by
  by_cases h : l.cls = c
  · rw [changeClass_of_same h, hl, if_neg (fun x => x.1 h), ← h]
  · by_cases hw : l.state = .waiting
    · obtain ⟨d, hd⟩ := changeClass_of_waiting (n := n) h hw s
      rw [hd, liveAt_congr (joinQueue_records ..), if_pos ⟨h, hw⟩]
      exact liveAt_setLive_same s n _
    · obtain ⟨d, hd⟩ := changeClass_of_resting (n := n) h hw s
      rw [hd, if_neg (fun x => hw x.2)]
      exact liveAt_setLive_same s n _

/-- The parts of the state other than the records, the queues and the memory that a change of class leaves. -/
theorem changeClass_frame (n : Nat) (l : Live) (c : RecordClass) (s : State) :
    OnlyRecord n s (changeClass n l c s) ∧ (changeClass n l c s).mode = s.mode ∧ (changeClass n l c s).lanes = s.lanes
      ∧ (changeClass n l c s).nodes = s.nodes ∧ (changeClass n l c s).fetch = s.fetch ∧ (changeClass n l c s).waitList = s.waitList
      ∧ (changeClass n l c s).noticeCounter = s.noticeCounter := by
  by_cases h : l.cls = c
  · rw [changeClass_of_same h]
    exact ⟨OnlyRecord.refl n s, rfl, rfl, rfl, rfl, rfl, rfl⟩
  · by_cases hw : l.state = .waiting
    · obtain ⟨d, hd⟩ := changeClass_of_waiting (n := n) h hw s
      rw [hd]
      refine ⟨(setLive_with_onlyRecord ..).trans (joinQueue_onlyRecord n c _), ?_⟩
      cases c <;> exact ⟨rfl, rfl, rfl, rfl, rfl, rfl⟩
    · obtain ⟨d, hd⟩ := changeClass_of_resting (n := n) h hw s
      rw [hd]
      exact ⟨setLive_with_onlyRecord n _ d s.fgQueue s.bgQueue s, rfl, rfl, rfl, rfl, rfl, rfl⟩

theorem exec_setClass (f : Frame) (s : State) : exec (.setClass f []) s = commit s (onClass f s) := by
  rfl

theorem onClass_of_reaches {f : Frame} {r : RecordName} {code : Byte} {c : RecordClass} {l : Live} {s : State} (h : Reaches s f r l)
    (hf : FromHolder s f) (hb : parseNameCode f.body = some (r, code)) (hc : classOfCode code = some c) :
    onClass f s = reply f .cls .ok (stateReport (changeClass r.number l c s) r.number) (changeClass r.number l c s) := by
  rw [onClass, request_of_readable h.arrives hb (fun _ => hf)]
  simp only [hc]
  exact onRecord_of_reaches h ..

/-- CLASS with an undefined class code (R182). -/
theorem onClass_of_undefined {f : Frame} {r : RecordName} {code : Byte} {s : State} (ha : Arrives s f)
    (hf : FromHolder s f) (hb : parseNameCode f.body = some (r, code)) (hc : classOfCode code = none) :
    onClass f s = reply f .cls .malformed [] s := by
  rw [onClass, request_of_readable ha hb (fun _ => hf)]
  simp only [hc]

/-- Settles O15: the class change by cases on the record, and the REPLY from the record as it then stands. -/
theorem classSetsTheClass : Obligations.ClassSetsTheClass := by
  unfold Obligations.ClassSetsTheClass
  refine ⟨fun f r code s ha hf hb hcode => ?_, fun f r code c l s h hf hb hc => ?_⟩
  · rw [exec_setClass, onClass_of_undefined ha hf hb (classOfCode_undefined hcode)]
    exact malformed_concluded f .cls s
  · have hnew := liveAt_changeClass h.live c
    obtain ⟨hone, hmode, hlanes, hnodes, hfetch, hwait, hnotice⟩ := changeClass_frame r.number l c s
    rw [exec_setClass, onClass_of_reaches h hf hb hc]
    obtain ⟨t, ht, hans, ⟨ctr, out, ev, rfl⟩, -⟩ :=
      reply_concluded hone.toUnanswered f .cls (by decide : Status.ok ≠ .malformed) (stateReport (changeClass r.number l c s) r.number)
    rw [stateReport, hnew] at hans
    refine ⟨_, ht, fun heq => ?_, fun hne hw => ?_, fun hne hw => ?_, hans, hone.others, hone.generation, hone.collections, hone.control, hmode, hlanes,
      hnodes, hfetch, hwait, hnotice⟩
    · rw [changeClass_of_same heq]
      exact ⟨h.live, SameQueues.refl s⟩
    · rw [if_pos ⟨hne, hw⟩] at hnew
      obtain ⟨d, hd⟩ := changeClass_of_waiting (n := r.number) hne hw s
      refine ⟨hnew, ?_⟩
      rw [hd]
      refine ⟨?_, ?_, ?_⟩
      · cases c <;> rfl
      · rintro rfl
        exact ⟨rfl, rfl⟩
      · rintro rfl
        exact ⟨rfl, rfl⟩
    · rw [if_neg (fun x => hw x.2)] at hnew
      obtain ⟨d, hd⟩ := changeClass_of_resting (n := r.number) hne hw s
      refine ⟨hnew, ?_⟩
      rw [hd]
      exact SameQueues.refl s

/-! ### WATCH -/

theorem edgeOfCode_undefined {code : Byte} (h : 3 < code.toNat) : edgeOfCode code = none := by
  have h0 : code ≠ 0 := by rintro rfl; simp at h
  have h1 : code ≠ 1 := by rintro rfl; simp at h
  have h2 : code ≠ 2 := by rintro rfl; simp at h
  have h3 : code ≠ 3 := by rintro rfl; simp at h
  rw [edgeOfCode, if_neg h0, if_neg h1, if_neg h2, if_neg h3]

theorem setWatch_eq {n : Nat} {l : Live} {s : State} (hl : liveAt s n = some l) (w : Option Watch) :
    ∃ d, setWatch n w s = { setLive n { l with watch := w } s with dram := d } := by
  rw [setWatch, hl]
  exact writeFields_eq ..

theorem exec_watch (f : Frame) (s : State) : exec (.watch f []) s = commit s (onWatch f s) := by
  rfl

theorem onWatch_of_reaches {f : Frame} {r : RecordName} {code : Byte} {e : Option Edge} {l : Live} {s : State} (h : Reaches s f r l)
    (hb : parseNameCode f.body = some (r, code)) (he : edgeOfCode code = some e) : onWatch f s = applyWatch f r.number e l s := by
  rw [onWatch, request_of_readable (needs := false) h.arrives hb (by simp)]
  simp only [he]
  exact onRecord_of_reaches h ..

/-- WATCH with an undefined edge code: no lease is asked for (R182). -/
theorem onWatch_of_undefined {f : Frame} {r : RecordName} {code : Byte} {s : State} (ha : Arrives s f)
    (hb : parseNameCode f.body = some (r, code)) (he : edgeOfCode code = none) : onWatch f s = reply f .watch .malformed [] s := by
  rw [onWatch, request_of_readable (needs := false) ha hb (by simp)]
  simp only [he]

/-- Settles O21: the watch is one field of the record, and the REPLY's flag is read before it is set. -/
theorem watchSetsTheWatch : Obligations.WatchSetsTheWatch := by
  unfold Obligations.WatchSetsTheWatch
  refine ⟨fun f r code s ha hb hcode => ?_, fun f r code e l s h hb he => ?_⟩
  · rw [exec_watch, onWatch_of_undefined ha hb (edgeOfCode_undefined hcode)]
    exact malformed_concluded f .watch s
  · obtain ⟨d, hd⟩ := setWatch_eq h.live (e.map (fun x => { watcher := f.src, edge := x }))
    have hone := setLive_with_onlyRecord r.number { l with watch := e.map (fun x => { watcher := f.src, edge := x }) } d s.fgQueue s.bgQueue s
    rw [exec_watch, onWatch_of_reaches h hb he, applyWatch, hd, answer, if_neg (by decide : ¬ Status.ok = .malformed)]
    obtain ⟨t, ht, hans, ⟨ctr, out, ev, rfl⟩, -⟩ := sendReply_concluded hone.toUnanswered f .watch .ok (if l.watch.isSome then 4 else 0)
      ([stateCode (some l.state)] ++ reserved 3)
    exact ⟨_, ht, liveAt_setLive_same s r.number _, hans, hone.others, hone.generation, hone.collections, SameQueues.refl s, hone.control,
      ⟨rfl, rfl, rfl, rfl, rfl, rfl⟩, rfl, rfl⟩

end Sys2Proof.Machine

/-! SUPPORT. Lane abandonment counted out: what becomes of the slots, of the wait list and of each node's outstanding count (R65, R89, R128), and that `settle`
keeps it (R138, R157). -/

namespace Sys2Proof.Machine

/-! ### Fetches ended (R89) -/

/-- Slot `x` is in use for a fetch to node `k`. -/
def fetchesFrom (s : State) (k x : Nat) : Bool :=
  match (slotAt s x).use with
  | some ft => ft.node == k
  | none => false

theorem slotAt_endFetch_other {k x : Nat} (h : x ≠ k) (s : State) : slotAt (endFetch k s) x = slotAt s x := by
  unfold endFetch
  split
  · rfl
  · exact slotAt_setSlot_other s h _

theorem slotAt_foldl_endFetch_other {x : Nat} {ks : List Nat} (h : x ∉ ks) (s : State) :
    slotAt (ks.foldl (fun s k => endFetch k s) s) x = slotAt s x := by
  induction ks generalizing s with
  | nil => rfl
  | cons k ks ih =>
    rw [List.mem_cons, not_or] at h
    exact (ih h.2 _).trans (slotAt_endFetch_other h.1 s)

theorem outstanding_lowerOutstanding (d k : Nat) (s : State) :
    (nodeAt (lowerOutstanding d s) k).outstanding = (nodeAt s k).outstanding - (if d = k then 1 else 0) := by
  unfold lowerOutstanding
  by_cases h : d = k
  · rw [h, nodeAt_setNode_same, if_pos rfl]
  · rw [nodeAt_setNode_other s (Ne.symm h), if_neg h, Nat.sub_zero]

theorem outstanding_endFetch (x k : Nat) (s : State) :
    (nodeAt (endFetch x s) k).outstanding = (nodeAt s k).outstanding - (if fetchesFrom s k x then 1 else 0) := by
  cases hu : (slotAt s x).use with
  | none => simp [endFetch, fetchesFrom, hu]
  | some ft =>
    simp only [endFetch, fetchesFrom, hu, outstanding_lowerOutstanding, beq_iff_eq]
    rfl

/-- Slots freed one after another lower a node's count by its fetches among them. -/
theorem outstanding_foldl_endFetch {xs : List Nat} (h : xs.Nodup) (k : Nat) (s : State) :
    (nodeAt (xs.foldl (fun s x => endFetch x s) s) k).outstanding = (nodeAt s k).outstanding - xs.countP (fetchesFrom s k) := by
  induction xs generalizing s with
  | nil => rfl
  | cons x xs ih =>
    obtain ⟨hx, hxs⟩ := List.nodup_cons.mp h
    have hrest : xs.countP (fetchesFrom (endFetch x s) k) = xs.countP (fetchesFrom s k) := by
      refine List.countP_congr fun y hy => ?_
      have hne : y ≠ x := fun e => hx (e ▸ hy)
      rw [fetchesFrom, fetchesFrom, slotAt_endFetch_other hne]
    rw [List.foldl_cons, ih hxs, hrest, outstanding_endFetch, List.countP_cons]
    omega

theorem outstanding_foldl_lowerOutstanding (k : Nat) (sts : List Store) (s : State) :
    (nodeAt (sts.foldl (fun s st => lowerOutstanding st.dest s) s) k).outstanding
      = (nodeAt s k).outstanding - sts.countP (fun st => st.dest == k) := by
  induction sts generalizing s with
  | nil => rfl
  | cons st sts ih =>
    rw [List.foldl_cons, ih, outstanding_lowerOutstanding, List.countP_cons]
    simp only [beq_iff_eq]
    omega

theorem mem_slotsOfLane {s : State} {i : Fin 8} {k : Nat} : k ∈ slotsOfLane s i ↔ k < 96 ∧ ∃ ft, (slotAt s k).use = some ft ∧ ft.lane = i := by
  unfold slotsOfLane
  rw [List.mem_filter, List.mem_range]
  refine and_congr Iff.rfl ?_
  cases (slotAt s k).use with
  | none => simp
  | some ft => simp

theorem slotsOfLane_nodup (s : State) (i : Fin 8) : (slotsOfLane s i).Nodup :=
  List.nodup_range.filter _

theorem countP_slotsOfLane (s : State) (i : Fin 8) (k : Nat) : (slotsOfLane s i).countP (fetchesFrom s k) = fetchesOn s [i] k := by
  unfold slotsOfLane fetchesOn
  rw [List.countP_filter]
  refine List.countP_congr fun x _ => ?_
  unfold fetchesFrom
  cases (slotAt s x).use with
  | none => simp
  | some ft => simp [and_comm]

theorem storesOn_single {s : State} {i : Fin 8} {j : Job} (hj : laneAt s i = some j) (k : Nat) :
    storesOn s [i] k = (storesOf j).countP (fun st => inFlight st && st.dest == k) := by
  simp [storesOn, hj]

/-! ### A lane abandoned (R128) -/

theorem slotAt_forgetStores (i : Fin 8) (j : Job) (k : Nat) (s : State) : slotAt (forgetStores i j s) k = slotAt s k := by
  have h (sts : List Store) (u : State) : (sts.foldl (fun s st => lowerOutstanding st.dest s) u).fetch = u.fetch := by
    induction sts generalizing u with
    | nil => rfl
    | cons st sts ih => exact ih _
  exact congrArg (fun m => Sparse.get freeSlot m k) (h _ s)

theorem outstanding_forgetStores (i : Fin 8) (j : Job) (k : Nat) (s : State) :
    (nodeAt (forgetStores i j s) k).outstanding = (nodeAt s k).outstanding - (storesOf j).countP (fun st => inFlight st && st.dest == k) := by
  refine (outstanding_foldl_lowerOutstanding k ((storesOf j).filter inFlight) s).trans ?_
  rw [List.countP_filter]
  simp only [Bool.and_comm]

theorem abandonLane_of_busy {s : State} {i : Fin 8} {j : Job} (hj : laneAt s i = some j) :
    abandonLane i s = setLane i none (forgetStores i j ((slotsOfLane s i).foldl (fun s k => endFetch k s) s)) := by
  rw [abandonLane, hj]

theorem slotAt_abandonLane_other {s : State} {i : Fin 8} {k : Nat} (h : k ∉ slotsOfLane s i) : slotAt (abandonLane i s) k = slotAt s k := by
  cases hj : laneAt s i with
  | none => rw [abandonLane, hj]
  | some j =>
    rw [abandonLane_of_busy hj]
    exact (slotAt_forgetStores i j k _).trans (slotAt_foldl_endFetch_other h s)

/-- Each node's count falls by the fetches and store attempts that the lane had in flight on it (R65, R89, R128). -/
theorem outstanding_abandonLane {s : State} {i : Fin 8} {j : Job} (hj : laneAt s i = some j) (k : Nat) :
    (nodeAt (abandonLane i s) k).outstanding = (nodeAt s k).outstanding - (fetchesOn s [i] k + storesOn s [i] k) := by
  rw [abandonLane_of_busy hj]
  refine (outstanding_forgetStores i j k _).trans ?_
  rw [outstanding_foldl_endFetch (slotsOfLane_nodup s i), countP_slotsOfLane, storesOn_single hj, Nat.sub_sub]

theorem waitList_abandonLane {s : State} {i : Fin 8} {j : Job} (hj : laneAt s i = some j) (q : Nat) : (i, q) ∉ (abandonLane i s).waitList := by
  rw [abandonLane_of_busy hj]
  intro h
  simpa using (List.mem_filter.mp h).2

theorem abandonLane_dropped {s : State} {i : Fin 8} {j : Job} (hj : laneAt s i = some j) : LaneDropped s (abandonLane i s) i := by
  refine ⟨⟨fun i' hi => ?_, fun k => ?_⟩, fun _ => ⟨fun i' hi => ?_, outstanding_abandonLane hj⟩⟩
  · rw [List.mem_singleton.mp hi]
    exact ⟨abandonLane_idle i s, waitList_abandonLane hj⟩
  · cases hu : (slotAt s k).use with
    | none =>
      refine slotAt_abandonLane_other fun hk => ?_
      obtain ⟨-, ft, hft, -⟩ := mem_slotsOfLane.mp hk
      rw [hu] at hft
      cases hft
    | some ft =>
      simp only [List.mem_singleton]
      by_cases hk : k < 96 ∧ ft.lane = i
      · rw [if_pos hk]
        exact slotAt_abandonLane (by rw [hj]; exact Option.some_ne_none j) hk.1 hu hk.2
      · rw [if_neg hk]
        refine slotAt_abandonLane_other fun hm => hk ?_
        obtain ⟨hlt, ft', hft, hlane⟩ := mem_slotsOfLane.mp hm
        rw [hu] at hft
        cases hft
        exact ⟨hlt, hlane⟩
  · exact (abandonLane_abandoned i s).other i' (fun e => hi (List.mem_singleton.mpr e))

theorem laneHolding_some {s : State} {n : Nat} {i : Fin 8} (h : laneHolding s n = some i) : ∃ j, laneAt s i = some j ∧ j.record = n := by
  have hp := List.find?_some h
  cases hj : laneAt s i with
  | none => simp [hj] at hp
  | some j => exact ⟨j, rfl, by simpa [hj] using hp⟩

/-! ### What `LaneDropped` reads -/

/-- The lanes, the fetch slots, the wait list and the outstanding counts are as they were. -/
structure SameLaneWork (s t : State) : Prop where
  lanes : t.lanes = s.lanes
  fetch : t.fetch = s.fetch
  waitList : t.waitList = s.waitList
  outstanding : ∀ k, (nodeAt t k).outstanding = (nodeAt s k).outstanding

theorem LaneDropped.of_sameLaneWork {s u v t : State} {i : Fin 8} (h : LaneDropped u v i) (hs : SameLaneWork s u) (ht : SameLaneWork v t) :
    LaneDropped s t i := by
  have hlane (x : Fin 8) : laneAt u x = laneAt s x := by rw [laneAt, laneAt, hs.lanes]
  have hlane' (x : Fin 8) : laneAt t x = laneAt v x := by rw [laneAt, laneAt, ht.lanes]
  have hslot (k : Nat) : slotAt u k = slotAt s k := by rw [slotAt, slotAt, hs.fetch]
  have hslot' (k : Nat) : slotAt t k = slotAt v k := by rw [slotAt, slotAt, ht.fetch]
  simpa only [LaneDropped, LanesAbandoned, CountsFall, fetchesOn, storesOn, hlane, hlane', hslot, hslot', hs.waitList, ht.waitList, hs.outstanding,
    ht.outstanding] using h

/-! ### Room handed on (R138, R157) -/

theorem setStore_waitList (i : Fin 8) (q : Nat) (st : Store) (s : State) : (setStore i q st s).waitList = s.waitList := by
  unfold setStore
  split <;> rfl

theorem sendChunk_waitList (i : Fin 8) (q k : Nat) (s : State) : (sendChunk i q k s).waitList = s.waitList := by
  unfold sendChunk
  split
  · rfl
  · split <;> rfl

theorem startAttempt_waitList (i : Fin 8) (q : Nat) (s : State) : (startAttempt i q s).waitList = s.waitList := by
  unfold startAttempt
  split
  · rfl
  · exact (sendChunk_waitList ..).trans (setStore_waitList ..)

theorem beginIfRoom_waits {s : State} {e x : Fin 8 × Nat} (h : x ∈ (beginIfRoom s e).waitList) : x ∈ s.waitList := by
  unfold beginIfRoom at h
  split at h
  · exact h
  · split at h
    · rw [startAttempt_waitList] at h
      exact List.mem_of_mem_erase h
    · exact h

theorem endDrain_work (s : State) : (endDrain s).waitList = s.waitList ∧ (endDrain s).lanes = s.lanes ∧ (endDrain s).nodes = s.nodes := by
  unfold endDrain setMode
  split
  · split <;> exact ⟨rfl, rfl, rfl⟩
  · exact ⟨rfl, rfl, rfl⟩

/-- `settle` adds nothing to the wait list. -/
theorem settle_waits {s : State} {x : Fin 8 × Nat} (h : x ∈ (settle s).waitList) : x ∈ s.waitList := by
  have hfold (es : List (Fin 8 × Nat)) (u : State) (hu : x ∈ (es.foldl beginIfRoom u).waitList) : x ∈ u.waitList := by
    induction es generalizing u with
    | nil => exact hu
    | cons e es ih => exact beginIfRoom_waits (ih _ hu)
  rw [settle, (endDrain_work _).1] at h
  exact hfold _ s h

/-- Where no store waits `settle` leaves the lanes and the nodes. -/
theorem settle_of_no_waits {s : State} (h : s.waitList = []) : (settle s).lanes = s.lanes ∧ (settle s).nodes = s.nodes := by
  rw [settle, handRoom, h]
  exact (endDrain_work s).2

theorem LaneDropped.settle {s w : State} {i : Fin 8} (h : LaneDropped s w i) (hw : ∀ e ∈ w.waitList, e ∈ s.waitList) :
    LaneDropped s (settle w) i := by
  obtain ⟨⟨hidle, hslot⟩, hfall⟩ := h
  have hroom := settle_handed w
  refine ⟨⟨fun i' hi => ⟨hroom.idle i' (hidle i' hi).1, fun q hq => (hidle i' hi).2 q (settle_waits hq)⟩, fun k => ?_⟩, fun hall => ?_⟩
  · rw [slotAt, hroom.fetch]
    exact hslot k
  · have hnone : w.waitList = [] := by
      refine List.eq_nil_iff_forall_not_mem.mpr fun e he => ?_
      have hei := hall e (hw e he)
      exact (hidle e.1 hei).2 e.2 he
    obtain ⟨hlanes, hnodes⟩ := settle_of_no_waits hnone
    simp only [laneAt, nodeAt, hlanes, hnodes]
    exact hfall hall

end Sys2Proof.Machine

/-! SUPPORT. REVISE (R49) and REDIRECT (R51): the record's lists are replaced and the reference counts follow; then it enters WAITING or stays where it is, and
the room that it may have made is handed on before the REPLY. -/

namespace Sys2Proof.Machine

/-! ### Reference counts (R72) -/

theorem distinct_nodup (ks : List Nat) : (distinct ks).Nodup := by
  have hsub (ks : List Nat) : ∀ k ∈ distinct ks, k ∈ ks := by
    induction ks with
    | nil => exact fun _ h => h
    | cons x xs ih =>
      intro k hk
      unfold distinct at hk
      split at hk
      · exact List.mem_cons_of_mem x (ih k hk)
      · rcases List.mem_cons.mp hk with rfl | hk
        · exact List.mem_cons_self
        · exact List.mem_cons_of_mem x (ih k hk)
  induction ks with
  | nil => exact List.nodup_nil
  | cons x xs ih =>
    unfold distinct
    split
    · exact ih
    · rename_i hx
      exact List.nodup_cons.mpr ⟨fun h => hx (hsub xs x h), ih⟩

theorem slotsNamed_nodup (sources : List Source) (targets : List Target) : (slotsNamed sources targets).Nodup :=
  distinct_nodup _

/-- One change `g` of the reference count of each slot of `ks`. -/
theorem nodeAt_foldl_refs (g : Nat → Nat) {ks : List Nat} (h : ks.Nodup) (k : Nat) (s : State) :
    nodeAt (ks.foldl (fun s x => setNode x { nodeAt s x with refs := g (nodeAt s x).refs } s) s) k
      = { nodeAt s k with refs := if k ∈ ks then g (nodeAt s k).refs else (nodeAt s k).refs } := by
  induction ks generalizing s with
  | nil => rfl
  | cons x xs ih =>
    obtain ⟨hx, hxs⟩ := List.nodup_cons.mp h
    rw [List.foldl_cons, ih hxs]
    by_cases hk : k = x
    · subst hk
      rw [nodeAt_setNode_same, if_neg hx, if_pos List.mem_cons_self]
    · rw [nodeAt_setNode_other s hk]
      simp only [List.mem_cons, hk, false_or]

theorem nodeAt_adjustRefs {old new : List Nat} (ho : old.Nodup) (hn : new.Nodup) (k : Nat) (s : State) :
    nodeAt (adjustRefs old new s) k
      = { nodeAt s k with refs :=
            if k ∈ new ∧ k ∉ old then (nodeAt s k).refs + 1 else if k ∈ old ∧ k ∉ new then (nodeAt s k).refs - 1 else (nodeAt s k).refs } := by
  unfold adjustRefs lowerRefs raiseRefs
  rw [nodeAt_foldl_refs (fun c => c - 1) (ho.filter _), nodeAt_foldl_refs (fun c => c + 1) (hn.filter _)]
  by_cases h1 : k ∈ old <;> by_cases h2 : k ∈ new <;> simp [h1, h2]

theorem adjustRefs_eq (old new : List Nat) (s : State) : ∃ ns, adjustRefs old new s = { s with nodes := ns } := by
  have hfold (g : State → Nat → Node) (ks : List Nat) (s : State) : ∃ ns, ks.foldl (fun s k => setNode k (g s k) s) s = { s with nodes := ns } := by
    induction ks generalizing s with
    | nil => exact ⟨s.nodes, rfl⟩
    | cons k ks ih =>
      obtain ⟨ns, h⟩ := ih (setNode k (g s k) s)
      exact ⟨ns, h⟩
  unfold adjustRefs lowerRefs raiseRefs
  obtain ⟨ns, h⟩ := hfold (fun s k => { nodeAt s k with refs := (nodeAt s k).refs + 1 }) (new.filter (fun k => !(old.contains k))) s
  rw [h]
  exact hfold (fun s k => { nodeAt s k with refs := (nodeAt s k).refs - 1 }) ..

/-! ### The lists replaced -/

/-- Record `n` holds `m`, the reference counts follow from `old` to `new`, and queues, lanes, slots, counts and stall lists are as they were. -/
structure Relisted (n : Nat) (m : Live) (old new : List Nat) (s u : State) : Prop where
  one : OnlyRecord n s u
  live : liveAt u n = some m
  queues : SameQueues s u
  work : SameLaneWork s u
  refs : RefsFollow s u old new
  stalls : ∀ k, (nodeAt u k).stallList = (nodeAt s k).stallList

theorem adjustRefs_relisted (n : Nat) (m : Live) (fs : List RecField) {old new : List Nat} (ho : old.Nodup) (hn : new.Nodup) (s : State) :
    Relisted n m old new s (adjustRefs old new (writeFields n fs (setLive n m s))) := by
  obtain ⟨d, hd⟩ := writeFields_eq n fs (setLive n m s)
  rw [hd]
  have hnode := fun k => nodeAt_adjustRefs ho hn k { setLive n m s with dram := d }
  obtain ⟨ns, hns⟩ := adjustRefs_eq old new { setLive n m s with dram := d }
  refine ⟨?_, ?_, ?_, ⟨?_, ?_, ?_, fun k => ?_⟩, fun k => ?_, fun k => ?_⟩
  · rw [hns]
    exact (setLive_with_onlyRecord n m d s.fgQueue s.bgQueue s).trans (.of_records (.of_same (SameControl.refl _) rfl rfl) ⟨rfl, rfl, rfl⟩ rfl)
  · rw [liveAt_congr (adjustRefs_records ..)]
    exact liveAt_setLive_same s n m
  · rw [hns]
    exact SameQueues.refl s
  · rw [hns]
    rfl
  · rw [hns]
    rfl
  · rw [hns]
    rfl
  · rw [hnode]
    rfl
  · rw [hnode]
    rfl
  · rw [hnode]
    rfl

theorem replaceSources_relisted (n : Nat) (l : Live) (ss : List Source) (s : State) :
    Relisted n { l with sources := ss } (slotsNamed l.sources l.targets) (slotsNamed ss l.targets) s (replaceSources n l ss s) :=
  adjustRefs_relisted n _ _ (slotsNamed_nodup ..) (slotsNamed_nodup ..) s

theorem replaceTargets_relisted (n : Nat) (l : Live) (ts : List Target) (s : State) :
    Relisted n { l with targets := ts } (slotsNamed l.sources l.targets) (slotsNamed l.sources ts) s (replaceTargets n l ts s) :=
  adjustRefs_relisted n _ _ (slotsNamed_nodup ..) (slotsNamed_nodup ..) s

/-! ### Leaving what holds the record (R18) -/

theorem leaveHolder_unanswered (n : Nat) (l : Live) (s : State) : Unanswered s (leaveHolder n l s) := by
  unfold leaveHolder
  split
  · exact .of_same (SameControl.refl s) rfl rfl
  · exact .of_same (SameControl.refl s) rfl rfl
  · split
    · rw [(abandonLane_abandoned _ s).same]
      exact .of_same (SameControl.refl s) rfl rfl
    · exact Unanswered.refl s
  · exact Unanswered.refl s
  · exact Unanswered.refl s

/-- A record that is not WAITING is on no queue, and leaves them as they are. -/
theorem leaveHolder_queues {n : Nat} {l : Live} (h : l.state ≠ .waiting) (s : State) : SameQueues s (leaveHolder n l s) := by
  unfold leaveHolder
  split
  · contradiction
  · exact SameQueues.refl s
  · split
    · rw [(abandonLane_abandoned _ s).same]
      exact SameQueues.refl s
    · exact SameQueues.refl s
  · exact SameQueues.refl s
  · exact SameQueues.refl s

theorem leaveHolder_refs (n : Nat) (l : Live) (s : State) (k : Nat) : (nodeAt (leaveHolder n l s) k).refs = (nodeAt s k).refs := by
  unfold leaveHolder
  split
  · rfl
  · rename_i x _
    by_cases h : k = x
    · rw [h, nodeAt_setNode_same]
    · rw [nodeAt_setNode_other s h]
  · split
    · rw [(abandonLane_abandoned _ s).node k]
    · rfl
  · rfl
  · rfl

theorem leaveHolder_stallList {n k : Nat} {l : Live} (h : l.state = .stalled k) (s : State) :
    (nodeAt (leaveHolder n l s) k).stallList = (nodeAt s k).stallList.erase n := by
  rw [leaveHolder, h]
  simp only [nodeAt_setNode_same]

/-! ### Entry into WAITING (R19) -/

/-- All that an entry into WAITING does once the record has left what held it. -/
theorem enterWaiting_eq {n : Nat} {l : Live} {s : State} (hl : liveAt s n = some l) : ∃ d c ctr out,
    enterWaiting n s = { joinQueue n l.cls (setLive n { l with state := .waiting, stamp := (leaveHolder n l s).queueSeq } (leaveHolder n l s)) with
        dram := d, noticeCounter := c, counters := ctr, outputs := (leaveHolder n l s).outputs ++ out }
      ∧ counterValue .replyDropped (enterWaiting n s) = counterValue .replyDropped (leaveHolder n l s) := by
  unfold enterWaiting
  simp only [hl]
  obtain ⟨d, hd⟩ := writeFields_eq n [.state, .holdCause, .stallNode, .stamp]
    (setLive n { l with state := .waiting, stamp := (leaveHolder n l s).queueSeq } (leaveHolder n l s))
  rw [hd]
  obtain ⟨c, ctr, out, hnotify, hcount⟩ := notify_eq n (generationAt s n) l.watch (stateCode (some l.state)) (some .waiting)
    (joinQueue n l.cls { setLive n { l with state := .waiting, stamp := (leaveHolder n l s).queueSeq } (leaveHolder n l s) with dram := d })
  refine ⟨d, c, ctr, out, hnotify.trans ?_, (hcount .replyDropped (by decide)).trans ?_⟩ <;> cases l.cls <;> rfl

theorem enterWaiting_onlyRecord {n : Nat} {l : Live} {s : State} (hl : liveAt s n = some l) : OnlyRecord n s (enterWaiting n s) := by
  have hsteady := enterWaiting_steady n s
  obtain ⟨d, c, ctr, out, heq, hdropped⟩ := enterWaiting_eq hl
  have hleave := leaveHolder_unanswered n l s
  obtain ⟨out', hout⟩ := hleave.sent
  refine ⟨⟨hsteady.control, ⟨out' ++ out, ?_⟩, hdropped.trans hleave.dropped⟩, ⟨hsteady.freeList, hsteady.liveCount, hsteady.index⟩,
    fun m hm => ?_, hsteady.generation n⟩
  · rw [heq, ← List.append_assoc, ← hout]
  · have hlive : liveAt (enterWaiting n s) m = liveAt s m := (liveAt_enterWaiting hl m).trans (if_neg hm)
    exact congrArg₂ Record.mk (hsteady.generation m) hlive

theorem enterWaiting_requeued {n : Nat} {l : Live} {s : State} (hl : liveAt s n = some l) (hw : l.state ≠ .waiting) :
    Requeued s (enterWaiting n s) n l := by
  obtain ⟨hseq, hfg, hbg⟩ := leaveHolder_queues (n := n) hw s
  obtain ⟨d, c, ctr, out, heq, -⟩ := enterWaiting_eq hl
  refine ⟨?_, ?_⟩
  · rw [liveAt_enterWaiting hl, if_pos rfl, hseq]
  · unfold JoinedQueue
    rw [heq, ← hseq, ← hfg, ← hbg]
    cases l.cls <;> exact ⟨rfl, rfl, rfl⟩

/-- The lanes, the slots, the wait list and the nodes are as the record's leaving left them. -/
theorem enterWaiting_work {n : Nat} {l : Live} {s : State} (hl : liveAt s n = some l) :
    SameLaneWork (leaveHolder n l s) (enterWaiting n s) ∧ (enterWaiting n s).nodes = (leaveHolder n l s).nodes := by
  obtain ⟨d, c, ctr, out, heq, -⟩ := enterWaiting_eq hl
  rw [heq]
  cases l.cls <;> exact ⟨⟨rfl, rfl, rfl, fun _ => rfl⟩, rfl⟩

theorem enterWaiting_nodeAt {n : Nat} {l : Live} {s : State} (hl : liveAt s n = some l) (k : Nat) :
    nodeAt (enterWaiting n s) k = nodeAt (leaveHolder n l s) k := by
  rw [nodeAt, nodeAt, (enterWaiting_work hl).2]

/-- The lane of an ACTIVE record that enters WAITING is abandoned, and the room is handed on (R128, R138). -/
theorem enterWaiting_settle_dropped {n : Nat} {i : Fin 8} {l : Live} {s : State} (hl : liveAt s n = some l) (ha : l.state = .active)
    (hi : laneHolding s n = some i) : LaneDropped s (settle (enterWaiting n s)) i := by
  obtain ⟨j, hj, -⟩ := laneHolding_some hi
  have hwork := (enterWaiting_work hl).1
  rw [leaveHolder_active ha hi] at hwork
  have hdrop : LaneDropped s (enterWaiting n s) i := (abandonLane_dropped hj).of_sameLaneWork ⟨rfl, rfl, rfl, fun _ => rfl⟩ hwork
  refine hdrop.settle fun e he => ?_
  rw [hwork.waitList] at he
  exact (abandonLane_abandoned i s).waits e he

/-! ### The request applied -/

theorem settle_liveAt (s : State) (n : Nat) : liveAt (settle s) n = liveAt s n :=
  liveAt_congr (settle_handed s).table.1 n

theorem settle_refs (s : State) (k : Nat) : (nodeAt (settle s) k).refs = (nodeAt s k).refs := by
  obtain ⟨o, -, h⟩ := (settle_handed s).node k
  rw [h]

theorem settle_stallList (s : State) (k : Nat) : (nodeAt (settle s) k).stallList = (nodeAt s k).stallList := by
  obtain ⟨o, -, h⟩ := (settle_handed s).node k
  rw [h]

theorem settle_onlyRecord (n : Nat) (s : State) : OnlyRecord n s (settle s) := by
  have h := settle_handed s
  obtain ⟨hrecords, hfree, hcount, hindex, -, -⟩ := h.table
  exact .of_records ⟨h.control, h.sent, by rw [counterValue, counterValue, h.counters]⟩ ⟨hfree, hcount, hindex⟩ hrecords

/-- What a request that changed record `n` alone leaves of the rest. -/
def OthersKept (n : Nat) (s t : State) : Prop :=
  OtherRecords s t n ∧ generationAt t n = generationAt s n ∧ SameCollections s t ∧ SameControl s t

/-- The room is handed on and the OK shows the record as the change left it (R38, R138, R185). -/
theorem applied_concluded {n : Nat} {l : Live} {s v : State} (h : OnlyRecord n s v) (hl : liveAt v n = some l) (f : Frame) (k : Kind) :
    ∃ t, commit s (applied f k n v) = .next t
      ∧ Answered s t f k .ok 0 ([stateCode (some l.state), classCode l.cls] ++ causeBytes (some l.state))
      ∧ OthersKept n s t ∧ Concluded (settle v) t := by
  have hone := h.trans (settle_onlyRecord n v)
  obtain ⟨t, ht, hans, hcon⟩ := reply_concluded hone.toUnanswered f k (by decide : Status.ok ≠ .malformed) (stateReport v n)
  refine ⟨t, ht, ?_, ?_, hcon⟩
  · rw [stateReport, hl] at hans
    exact hans
  · obtain ⟨⟨ctr, out, ev, rfl⟩, -⟩ := hcon
    exact ⟨hone.others, hone.generation, hone.collections, hone.control⟩

/-- A request that replaced a record's lists and leaves it where it is. -/
theorem applied_of_resting {n : Nat} {m : Live} {old new : List Nat} {s u : State} (h : Relisted n m old new s u) (f : Frame) (k : Kind) :
    ∃ t, commit s (applied f k n u) = .next t ∧ liveAt t n = some m ∧ SameQueues s t ∧ (∀ x, (nodeAt t x).stallList = (nodeAt s x).stallList)
      ∧ Answered s t f k .ok 0 ([stateCode (some m.state), classCode m.cls] ++ causeBytes (some m.state))
      ∧ RefsFollow s t old new ∧ OthersKept n s t := by
  obtain ⟨t, ht, hans, hkept, ⟨ctr, out, ev, rfl⟩, -⟩ := applied_concluded h.one h.live f k
  exact ⟨_, ht, (settle_liveAt u n).trans h.live, h.queues.trans (settle_handed u).queues, fun x => (settle_stallList u x).trans (h.stalls x), hans,
    fun x => (settle_refs u x).trans (h.refs x), hkept⟩

/-- A request that replaced a record's lists and takes it to WAITING. -/
theorem applied_of_requeued {n : Nat} {m : Live} {old new : List Nat} {s u : State} (h : Relisted n m old new s u) (hw : m.state ≠ .waiting) (f : Frame)
    (k : Kind) :
    ∃ t, commit s (applied f k n (enterWaiting n u)) = .next t ∧ Requeued s t n m
      ∧ (∀ i, m.state = .active → laneHolding s n = some i → LaneDropped s t i)
      ∧ (∀ x, m.state = .stalled x → (nodeAt t x).stallList = (nodeAt s x).stallList.erase n)
      ∧ Answered s t f k .ok 0 [1, classCode m.cls, 0, 0] ∧ RefsFollow s t old new ∧ OthersKept n s t := by
  obtain ⟨hlive, hjoined⟩ := enterWaiting_requeued h.live hw
  obtain ⟨t, ht, hans, hkept, ⟨ctr, out, ev, rfl⟩, -⟩ :=
    applied_concluded (h.one.trans (enterWaiting_onlyRecord h.live)) hlive f k
  obtain ⟨hseq, hfg, hbg⟩ := h.queues
  obtain ⟨hseq', hfg', hbg'⟩ := (settle_handed (enterWaiting n u)).queues
  refine ⟨_, ht, ⟨?_, ?_⟩, fun i ha hi => ?_, fun x hx => ?_, hans, fun x => ?_, hkept⟩
  · rw [← hseq]
    exact (settle_liveAt ..).trans hlive
  · unfold JoinedQueue at hjoined ⊢
    rw [hseq, hfg, hbg, ← hseq', ← hfg', ← hbg'] at hjoined
    exact hjoined
  · have hi' : laneHolding u n = some i := by
      simp only [laneHolding, laneAt, h.work.lanes] at hi ⊢
      exact hi
    exact (enterWaiting_settle_dropped h.live ha hi').of_sameLaneWork h.work ⟨rfl, rfl, rfl, fun _ => rfl⟩
  · refine (settle_stallList ..).trans ?_
    rw [enterWaiting_nodeAt h.live, leaveHolder_stallList hx, h.stalls]
  · refine (settle_refs ..).trans ?_
    rw [enterWaiting_nodeAt h.live, leaveHolder_refs]
    exact h.refs x

/-! ### REVISE -/

theorem exec_revise (f : Frame) (s : State) : exec (.revise f []) s = commit s (onRevise f s) := by
  rfl

/-- A REVISE that passes its checks (R48). -/
theorem onRevise_of_checked {f : Frame} {r : ReviseReq} {l : Live} {s : State} (h : Reaches s f r.name l) (hf : FromHolder s f)
    (hb : parseRevise f.body = some r) (hp : l.state ≠ .placed) (hm : memoryHeld l = false) (hc : r.coefCount = l.targets.length)
    (hlist : badSources r.sources (l.targets.map (fun t => t.frag)) = false) (hslot : r.sources.any (fun e => badSlot s e.slot) = false) :
    onRevise f s = applied f .revise r.name.number (requeueRevised r.name.number l (replaceSources r.name.number l r.sources s)) := by
  rw [onRevise, request_of_readable h.arrives hb (fun _ => hf), onRecord_of_reaches h]
  simp [applyRevise, hp, hm, readWork_of_sound h.sound h.live, hc, hlist, hslot]

theorem requeueRevised_of_working {l : Live} (h : l.state = .active ∨ ∃ k, l.state = .stalled k) (n : Nat) (s : State) :
    requeueRevised n l s = enterWaiting n s := by
  unfold requeueRevised
  rcases h with h | ⟨k, h⟩ <;> rw [h]

theorem requeueRevised_of_resting {l : Live} (h : ¬ (l.state = .active ∨ ∃ k, l.state = .stalled k)) (n : Nat) (s : State) :
    requeueRevised n l s = s := by
  unfold requeueRevised
  split
  · exact absurd (.inl ‹_›) h
  · exact absurd (.inr ⟨_, ‹_›⟩) h
  · rfl

/-- Settles O16, by cases on whether the record has work to give up. -/
theorem reviseReplacesTheSources : Obligations.ReviseReplacesTheSources := by
  unfold Obligations.ReviseReplacesTheSources
  intro f r l s h hf hb hp hm hc hlist hslot n
  have hre := replaceSources_relisted n l r.sources s
  rw [exec_revise, onRevise_of_checked h hf hb hp hm hc hlist hslot]
  by_cases hw : l.state = .active ∨ ∃ k, l.state = .stalled k
  · rw [requeueRevised_of_working hw]
    have hne : l.state ≠ .waiting := by
      rcases hw with hw | ⟨k, hw⟩ <;> rw [hw] <;> exact RecState.noConfusion
    obtain ⟨t, ht, ⟨hlive, hjoined⟩, hdrop, hstall, hans, hrefs, hkept⟩ := applied_of_requeued hre hne f .revise
    refine ⟨t, ht, fun _ => ⟨hlive, hjoined, hdrop, hstall, hans⟩, fun hrest => ?_, hrefs, hkept⟩
    rcases hrest with e | ⟨c, e⟩ <;> rw [e] at hw <;> simp at hw
  · rw [requeueRevised_of_resting hw]
    obtain ⟨t, ht, hlive, hqueues, -, hans, hrefs, hkept⟩ := applied_of_resting hre f .revise
    exact ⟨t, ht, fun hwork => absurd hwork hw, fun _ => ⟨hlive, hqueues, hans⟩, hrefs, hkept⟩

/-! ### REDIRECT -/

theorem exec_redirect (f : Frame) (s : State) : exec (.redirect f []) s = commit s (onRedirect f s) := by
  rfl

theorem redirected_eq_set {ts : List Target} {q : Nat} {x : Target} (h : ts[q]? = some x) (dest : Nat) :
    redirected ts q dest = ts.set q { x with dest := dest, placed := 0, status := .opened } := by
  rw [redirected, List.modify_eq_set_getElem?, h]
  rfl

/-- A REDIRECT that passes its checks (R50). -/
theorem onRedirect_of_checked {f : Frame} {r : RedirectReq} {l : Live} {x : Target} {s : State} (h : Reaches s f r.name l) (hf : FromHolder s f)
    (hb : parseRedirect f.body = some r) (hm : memoryHeld l = false) (hx : l.targets[r.position]? = some x) (hst : l.state ≠ .stalled x.dest)
    (hslot : badSlot s r.dest = false) :
    onRedirect f s = applied f .redirect r.name.number
      (requeueRedirected r.name.number l (replaceTargets r.name.number l (redirected l.targets r.position r.dest) s)) := by
  rw [onRedirect, request_of_readable h.arrives hb (fun _ => hf), onRecord_of_reaches h]
  simp [applyRedirect, hm, hx, readWork_of_sound h.sound h.live, hst, hslot]

theorem requeueRedirected_of_working {l : Live} (h : l.state = .active ∨ l.state = .placed) (n : Nat) (s : State) :
    requeueRedirected n l s = enterWaiting n s := by
  unfold requeueRedirected
  rcases h with h | h <;> rw [h]

theorem requeueRedirected_of_resting {l : Live} (h : ¬ (l.state = .active ∨ l.state = .placed)) (n : Nat) (s : State) :
    requeueRedirected n l s = s := by
  unfold requeueRedirected
  split
  · exact absurd (.inl ‹_›) h
  · exact absurd (.inr ‹_›) h
  · rfl

/-- Settles O17, by cases on whether the record has a turn or a placement to give up. -/
theorem redirectReopensTheTarget : Obligations.RedirectReopensTheTarget := by
  unfold Obligations.RedirectReopensTheTarget
  intro f r l x s h hf hb hm hx hst hslot n ts
  have hre := replaceTargets_relisted n l ts s
  rw [exec_redirect, onRedirect_of_checked h hf hb hm hx hst hslot, redirected_eq_set hx]
  by_cases hw : l.state = .active ∨ l.state = .placed
  · rw [requeueRedirected_of_working hw]
    have hne : l.state ≠ .waiting := by
      rcases hw with hw | hw <;> rw [hw] <;> exact RecState.noConfusion
    obtain ⟨t, ht, ⟨hlive, hjoined⟩, hdrop, -, hans, hrefs, hkept⟩ := applied_of_requeued hre hne f .redirect
    refine ⟨t, ht, fun _ => ⟨hlive, hjoined, hdrop, hans⟩, fun hrest => ?_, hrefs, hkept⟩
    exact absurd hw (not_or.mpr hrest)
  · rw [requeueRedirected_of_resting hw]
    obtain ⟨t, ht, hlive, hqueues, hstall, hans, hrefs, hkept⟩ := applied_of_resting hre f .redirect
    exact ⟨t, ht, fun hwork => absurd hwork hw, fun _ => ⟨hlive, hqueues, hstall, hans⟩, hrefs, hkept⟩

end Sys2Proof.Machine

/-! SUPPORT. ROSTER_CLEAR (R71): what it changes of the slot, what refuses it, and its REPLY. -/

namespace Sys2Proof.Machine

/-! ### Refusals (R37, R38) -/

/-- A request that is refused changes nothing but what was sent and the counters (R36). -/
theorem refused_concluded (f : Frame) (k : Kind) {st : Status} (hst : st ≠ .malformed) (r : List Byte) (s : State) :
    ∃ t, commit s (reply f k st r s) = .next t ∧ Quiet s t ∧ Answered s t f k st 0 r := by
  obtain ⟨t, ht, hans, ⟨ctr, out, ev, rfl⟩, -⟩ := reply_concluded (Unanswered.refl s) f k hst r
  exact ⟨_, ht, ⟨SameControl.refl s, SameTable.refl s, ⟨rfl, rfl, rfl, rfl, rfl, rfl⟩, rfl, rfl⟩, hans⟩

/-- A request that needs the lease, readable, from a sender that does not hold it (R37, R175). -/
theorem request_of_no_lease {ρ : Type} {f : Frame} {body : Option ρ} {r : ρ} {s : State} (ha : Arrives s f) (hb : body = some r)
    (hl : holdsLease s f.src = false) (k : Kind) (act : ρ → State → State) : request k true f body act s = reply f k .noLease [] s := by
  rw [request, receive_of_arrives ha, hb]
  simp only [hl, Bool.not_false, Bool.and_true, if_true]

/-! ### ROSTER_CLEAR -/

theorem exec_rosterClear (f : Frame) (s : State) : exec (.rosterClear f) s = commit s (onRosterClear f s) := by
  rfl

theorem nodeSlots_not_le {k : Nat} (h : k ≤ 1023) : ¬ Config.nodeSlots ≤ k :=
  Nat.not_le.mpr (Nat.lt_succ_of_le h)

theorem applyRosterClear_of_bad_slot {k : Nat} (h : 1023 < k) (f : Frame) (s : State) :
    applyRosterClear f k s = reply f .rosterClear .badSlot [] s :=
  if_pos h

theorem applyRosterClear_of_in_use {k : Nat} {s : State} (hk : k ≤ 1023) (h : (nodeAt s k).refs ≠ 0 ∨ (nodeAt s k).outstanding ≠ 0) (f : Frame) :
    applyRosterClear f k s = reply f .rosterClear .inUse (inUseReport s k 0xFFFF) s := by
  rw [applyRosterClear, if_neg (nodeSlots_not_le hk), if_pos h]

theorem applyRosterClear_of_unused {k : Nat} {s : State} (hk : k ≤ 1023) (hr : (nodeAt s k).refs = 0) (ho : (nodeAt s k).outstanding = 0) (f : Frame) :
    applyRosterClear f k s = rosterClearOk f k s := by
  rw [applyRosterClear, if_neg (nodeSlots_not_le hk), if_neg (by simp [hr, ho])]

theorem setNode_unanswered (k : Nat) (v : Node) (s : State) : Unanswered s (setNode k v s) :=
  .of_same (SameControl.refl s) rfl rfl

/-- The slot is cleared and the OK carries its report (R71, R185). -/
theorem rosterClearOk_concluded (f : Frame) (k : Nat) (s : State) :
    ∃ t, commit s (rosterClearOk f k s) = .next t ∧ nodeAt t k = clearedNode (nodeAt s k) ∧ (∀ x, x ≠ k → nodeAt t x = nodeAt s x)
      ∧ Answered s t f .rosterClear .ok 0 (slotReport t k)
      ∧ SameTable s t ∧ SameControl s t ∧ t.mode = s.mode ∧ t.lanes = s.lanes ∧ t.fetch = s.fetch ∧ SameQueues s t := by
  obtain ⟨t, ht, hans, ⟨ctr, out, ev, rfl⟩, -⟩ := reply_concluded (setNode_unanswered k (clearedNode (nodeAt s k)) s) f .rosterClear
    (by decide : Status.ok ≠ .malformed) (slotReport (setNode k (clearedNode (nodeAt s k)) s) k)
  exact ⟨_, ht, nodeAt_setNode_same s k _, fun x hx => nodeAt_setNode_other s hx _, hans, SameTable.refl s, SameControl.refl s, rfl, rfl, rfl,
    SameQueues.refl s⟩

/-- Settles O28, by the checks of R71 in order. -/
theorem rosterClearClearsTheSlot : Obligations.RosterClearClearsTheSlot := by
  unfold Obligations.RosterClearClearsTheSlot
  intro f k s ha hb
  rw [exec_rosterClear, onRosterClear]
  refine ⟨fun hno => ?_, fun hl => ?_⟩
  · rw [request_of_no_lease ha hb hno]
    exact refused_concluded f .rosterClear (by decide) [] s
  · rw [request_of_readable ha hb (fun _ => hl)]
    refine ⟨fun hk => ?_, fun hk huse => ?_, fun hk hr ho => ?_⟩
    · rw [applyRosterClear_of_bad_slot hk]
      exact refused_concluded f .rosterClear (by decide) [] s
    · rw [applyRosterClear_of_in_use hk huse, inUseReport, List.append_assoc (be 4 _)]
      exact refused_concluded f .rosterClear (by decide) _ s
    · rw [applyRosterClear_of_unused hk hr ho]
      obtain ⟨t, ht, hnode, hrest⟩ := rosterClearOk_concluded f k s
      refine ⟨t, ht, fun hpresent => ?_, fun habsent => ?_, hrest⟩
      · rw [hnode, clearedNode, if_neg hpresent]
      · rw [hnode, clearedNode, if_pos habsent]

end Sys2Proof.Machine

/-! SUPPORT. Several lanes given up in one change: lane abandonment, one lane after another, leaves what `LanesAbandoned` and `CountsFall` say of them all
(R65, R89, R128, R138). -/

namespace Sys2Proof.Machine

/-! ### Lanes given up one after another -/

/-- The lanes `ls`, and no others, have been given up: `LanesAbandoned` and `CountsFall` before room is handed on, so that no store has begun. -/
structure LanesLeft (ls : List (Fin 8)) (s t : State) : Prop where
  abandoned : LanesAbandoned s t ls
  other : ∀ i, i ∉ ls → laneAt t i = laneAt s i
  waits : ∀ e ∈ t.waitList, e ∈ s.waitList
  fall : ∀ k, (nodeAt t k).outstanding = (nodeAt s k).outstanding - (fetchesOn s ls k + storesOn s ls k)

theorem countP_eq_add {α : Type} {p q r : α → Bool} (h : ∀ x, (p x).toNat = (q x).toNat + (r x).toNat) (xs : List α) :
    xs.countP p = xs.countP q + xs.countP r := by
  induction xs with
  | nil => rfl
  | cons x xs ih =>
    have hx := h x
    simp only [Bool.toNat, Bool.cond_eq_ite] at hx
    rw [List.countP_cons, List.countP_cons, List.countP_cons, ih]
    omega

theorem fetchesOn_cons {i : Fin 8} {ls : List (Fin 8)} (h : i ∉ ls) (s : State) (k : Nat) :
    fetchesOn s (i :: ls) k = fetchesOn s [i] k + fetchesOn s ls k := by
  refine countP_eq_add (fun x => ?_) _
  cases (slotAt s x).use with
  | none => rfl
  | some ft =>
    by_cases hi : ft.lane = i
    · simp [hi, h]
    · simp [hi]

theorem storesOn_cons (i : Fin 8) (ls : List (Fin 8)) (s : State) (k : Nat) : storesOn s (i :: ls) k = storesOn s [i] k + storesOn s ls k := by
  simp [storesOn]

theorem LanesLeft.nil (s : State) : LanesLeft [] s s := by
  refine ⟨⟨fun i hi => absurd hi List.not_mem_nil, fun k => ?_⟩, fun _ _ => rfl, fun _ he => he, fun k => ?_⟩
  · cases (slotAt s k).use <;> simp
  · have hf : fetchesOn s [] k = 0 := List.countP_eq_zero.mpr fun x _ => by cases (slotAt s x).use <;> simp
    rw [hf]
    rfl

theorem abandonLane_left {s : State} {i : Fin 8} {j : Job} (hj : laneAt s i = some j) : LanesLeft [i] s (abandonLane i s) :=
  ⟨(abandonLane_dropped hj).1, fun i' hi => (abandonLane_abandoned i s).other i' (fun e => hi (List.mem_singleton.mpr e)),
    (abandonLane_abandoned i s).waits, outstanding_abandonLane hj⟩

/-- The fetches in flight for other lanes are those that were. -/
theorem LanesLeft.fetchesOn_eq {ms ls : List (Fin 8)} {s u : State} (h : LanesLeft ms s u) (hd : ∀ i ∈ ms, i ∉ ls) (k : Nat) :
    fetchesOn u ls k = fetchesOn s ls k := by
  refine List.countP_congr fun x _ => ?_
  rw [h.abandoned.2 x]
  cases hu : (slotAt s x).use with
  | none => simp [hu]
  | some ft =>
    by_cases hc : x < 96 ∧ ft.lane ∈ ms
    · simp [hc, hd ft.lane hc.2]
    · simp [hc, hu]

theorem LanesLeft.storesOn_eq {ms ls : List (Fin 8)} {s u : State} (h : LanesLeft ms s u) (hd : ∀ i ∈ ls, i ∉ ms) (k : Nat) :
    storesOn u ls k = storesOn s ls k :=
  congrArg List.sum (List.map_congr_left fun i hi => by rw [h.other i (hd i hi)])

theorem LanesLeft.cons {i : Fin 8} {ls : List (Fin 8)} {s u t : State} (h : LanesLeft [i] s u) (g : LanesLeft ls u t) (hi : i ∉ ls) :
    LanesLeft (i :: ls) s t := by
  have hd : ∀ i' ∈ [i], i' ∉ ls := fun i' e => List.mem_singleton.mp e ▸ hi
  refine ⟨⟨fun i' hi' => ?_, fun k => ?_⟩, fun i' hi' => ?_, fun e he => h.waits e (g.waits e he), fun k => ?_⟩
  · rcases List.mem_cons.mp hi' with rfl | hmem
    · obtain ⟨hidle, hq⟩ := h.abandoned.1 i' List.mem_cons_self
      exact ⟨(g.other i' hi).trans hidle, fun q hw => hq q (g.waits _ hw)⟩
    · exact g.abandoned.1 i' hmem
  · rw [g.abandoned.2 k, h.abandoned.2 k]
    cases hu : (slotAt s k).use with
    | none => simp [hu]
    | some ft =>
      by_cases hk : k < 96
      · by_cases hft : ft.lane = i
        · simp [hk, hft]
        · simp [hk, hft, hu]
      · simp [hk, hu]
  · obtain ⟨hne, hls⟩ := not_or.mp (mt List.mem_cons.mpr hi')
    exact (g.other i' hls).trans (h.other i' (mt List.mem_singleton.mp hne))
  · rw [g.fall, h.fall, h.fetchesOn_eq hd, h.storesOn_eq (fun i' hi' e => hd i' e hi'), fetchesOn_cons hi, storesOn_cons i ls]
    omega

theorem SameLaneWork.refl (s : State) : SameLaneWork s s := ⟨rfl, rfl, rfl, fun _ => rfl⟩

theorem SameLaneWork.trans {s t u : State} (h : SameLaneWork s t) (g : SameLaneWork t u) : SameLaneWork s u :=
  ⟨g.lanes.trans h.lanes, g.fetch.trans h.fetch, g.waitList.trans h.waitList, fun k => (g.outstanding k).trans (h.outstanding k)⟩

theorem SameLaneWork.laneAt_eq {s t : State} (h : SameLaneWork s t) (i : Fin 8) : laneAt t i = laneAt s i := by
  rw [laneAt, laneAt, h.lanes]

theorem SameLaneWork.slotAt_eq {s t : State} (h : SameLaneWork s t) (k : Nat) : slotAt t k = slotAt s k := by
  rw [slotAt, slotAt, h.fetch]

theorem LanesLeft.of_sameLaneWork {ls : List (Fin 8)} {s u v t : State} (h : LanesLeft ls u v) (hs : SameLaneWork s u) (ht : SameLaneWork v t) :
    LanesLeft ls s t := by
  obtain ⟨habandoned, hother, hwaits, hfall⟩ := h
  refine ⟨?_, ?_, ?_, ?_⟩
  · simpa only [LanesAbandoned, ht.laneAt_eq, ht.slotAt_eq, hs.slotAt_eq, ht.waitList] using habandoned
  · simpa only [ht.laneAt_eq, hs.laneAt_eq] using hother
  · simpa only [ht.waitList, hs.waitList] using hwaits
  · simpa only [fetchesOn, storesOn, hs.laneAt_eq, hs.slotAt_eq, hs.outstanding, ht.outstanding] using hfall

/-- Room handed on leaves the lanes that were given up, and begins no store where none but theirs waited (R138). -/
theorem LanesLeft.settle {ls : List (Fin 8)} {s w : State} (h : LanesLeft ls s w) : LanesAbandoned s (settle w) ls ∧ CountsFall s (settle w) ls := by
  obtain ⟨⟨hidle, hslot⟩, hother, hwaits, hfall⟩ := h
  have hroom := settle_handed w
  refine ⟨⟨fun i hi => ⟨hroom.idle i (hidle i hi).1, fun q hq => (hidle i hi).2 q (settle_waits hq)⟩, fun k => ?_⟩, fun hall => ?_⟩
  · rw [slotAt, hroom.fetch]
    exact hslot k
  · have hnone : w.waitList = [] :=
      List.eq_nil_iff_forall_not_mem.mpr fun e he => (hidle e.1 (hall e (hwaits e he))).2 e.2 he
    obtain ⟨hlanes, hnodes⟩ := settle_of_no_waits hnone
    simp only [laneAt, nodeAt, hlanes, hnodes]
    exact ⟨hother, hfall⟩

/-! ### The lane of a record (R113) -/

theorem mem_laneNumbers (i : Fin 8) : i ∈ laneNumbers := by
  revert i
  decide

/-- The lane that holds a record is the one that its number finds. -/
theorem LanesHold.laneHolding_eq {s : State} (h : LanesHold s) {i : Fin 8} {j : Job} (hj : laneAt s i = some j) : laneHolding s j.record = some i := by
  have hsome : (laneHolding s j.record).isSome = true :=
    List.find?_isSome.mpr ⟨i, mem_laneNumbers i, by simp only [hj, beq_self_eq_true]⟩
  obtain ⟨i', hi'⟩ := Option.isSome_iff_exists.mp hsome
  obtain ⟨j', hj', hrec⟩ := laneHolding_some hi'
  rw [hi', h.2 i i' j j' hj hj' hrec.symm]

/-! ### Work on a node (R75) -/

theorem storeDone_eq_false {j : Job} {q : Nat} : storeDone j q = false ↔ ∀ st ∈ storesOf j, st.target = q → st.state ≠ .stored := by
  simp [storeDone]

theorem destOf_eq_some {l : Live} {q k : Nat} : destOf l q = some k ↔ ∃ x, l.targets[q]? = some x ∧ x.dest = k := by
  simp [destOf]

theorem mem_workNodes {l : Live} {j : Job} {k : Nat} : k ∈ workNodes l j ↔ (∃ e ∈ l.sources, e.slot = k)
    ∨ ∃ q x, q ∈ j.needed ∧ l.targets[q]? = some x ∧ x.dest = k ∧ ∀ st ∈ storesOf j, st.target = q → st.state ≠ .stored := by
  simp only [workNodes, List.mem_append, List.mem_map, List.mem_filterMap, List.mem_filter, Bool.not_eq_true', storeDone_eq_false, destOf_eq_some]
  refine or_congr Iff.rfl ⟨?_, ?_⟩
  · rintro ⟨q, ⟨hq, hst⟩, x, hx, hk⟩
    exact ⟨q, x, hq, hx, hk, hst⟩
  · rintro ⟨q, x, hq, hx, hk, hst⟩
    exact ⟨q, ⟨hq, hst⟩, x, hx, hk⟩

theorem laneHasWork_iff {s : State} {i : Fin 8} {ks : List Nat} : laneHasWork s i ks = true ↔ HasWorkOn s i ks := by
  unfold laneHasWork HasWorkOn
  cases hj : laneAt s i with
  | none => simp
  | some j =>
    cases hl : liveAt s j.record with
    | none => simp [hl]
    | some l =>
      simp only [hl, List.any_eq_true, List.contains_iff_mem, mem_workNodes, Option.some.injEq]
      constructor
      · rintro ⟨k, ⟨e, he, rfl⟩ | ⟨q, x, hq, hx, rfl, hst⟩, hk⟩
        · exact ⟨j, l, rfl, hl, .inl ⟨e, he, hk⟩⟩
        · exact ⟨j, l, rfl, hl, .inr ⟨q, x, hq, hx, hk, hst⟩⟩
      · rintro ⟨j', l', rfl, hl', hwork⟩
        rw [hl] at hl'
        cases hl'
        rcases hwork with ⟨e, he, hk⟩ | ⟨q, x, hq, hx, hk, hst⟩
        · exact ⟨e.slot, .inl ⟨e, he, rfl⟩, hk⟩
        · exact ⟨x.dest, .inr ⟨q, x, hq, hx, rfl, hst⟩, hk⟩

theorem laneHasWork_congr {s t : State} (hr : t.records = s.records) (hl : t.lanes = s.lanes) (i : Fin 8) (ks : List Nat) :
    laneHasWork t i ks = laneHasWork s i ks := by
  simp only [laneHasWork, laneAt, hl, liveAt_congr hr]

theorem laneNumbers_sorted : laneNumbers.Pairwise (· < ·) := by
  decide

/-- The lanes of `LanesOn` are those that the part finds in lane-number order (R77, R81). -/
theorem LanesOn.eq_filter {s : State} {ks : List Nat} {ls : List (Fin 8)} (h : LanesOn s ks ls) :
    ls = laneNumbers.filter (fun i => laneHasWork s i ks) := by
  obtain ⟨hsub, hmem⟩ := h
  refine (laneNumbers_sorted.sublist hsub).eq_of_mem_iff (laneNumbers_sorted.filter _) fun i => ?_
  rw [hmem, List.mem_filter, laneHasWork_iff]
  exact ⟨fun hw => ⟨mem_laneNumbers i, hw⟩, fun hw => hw.2⟩

end Sys2Proof.Machine

/-! SUPPORT. Entry into HELD (R22): all that it does, and what records held one after another leave of everything else. -/

namespace Sys2Proof.Machine

/-! ### Entry into HELD (R22) -/

theorem leaveHolder_events (n : Nat) (l : Live) (s : State) : (leaveHolder n l s).events = s.events := by
  unfold leaveHolder
  split
  · rfl
  · rfl
  · split
    · rw [(abandonLane_abandoned _ s).same]
    · rfl
  · rfl
  · rfl

/-- A record that leaves what holds it changes of the slots their outstanding counts and stall lists. -/
theorem leaveHolder_node (n : Nat) (l : Live) (s : State) (k : Nat) :
    ∃ o ns, nodeAt (leaveHolder n l s) k = { nodeAt s k with outstanding := o, stallList := ns } := by
  unfold leaveHolder
  split
  · exact ⟨_, _, rfl⟩
  · rename_i x _
    by_cases h : k = x
    · subst h
      exact ⟨_, _, nodeAt_setNode_same ..⟩
    · exact ⟨_, _, nodeAt_setNode_other s h _⟩
  · split
    · exact ⟨_, _, (abandonLane_abandoned _ s).node k⟩
    · exact ⟨_, _, rfl⟩
  · exact ⟨_, _, rfl⟩
  · exact ⟨_, _, rfl⟩

/-- A record that no lane holds leaves the lanes and their work. -/
theorem leaveHolder_laneWork {n : Nat} {l : Live} (h : l.state ≠ .active) (s : State) : SameLaneWork s (leaveHolder n l s) := by
  unfold leaveHolder
  split
  · exact ⟨rfl, rfl, rfl, fun _ => rfl⟩
  · rename_i x _
    refine ⟨rfl, rfl, rfl, fun k => ?_⟩
    by_cases hk : k = x
    · rw [hk, nodeAt_setNode_same]
    · rw [nodeAt_setNode_other s hk]
  · contradiction
  · exact SameLaneWork.refl s
  · exact SameLaneWork.refl s

/-- All that an entry into HELD does once the record has left what held it. -/
theorem enterHeld_eq {n : Nat} {l : Live} {s : State} (hl : liveAt s n = some l) (c : HoldCause) : ∃ d nc ctr out,
    enterHeld n c s = { raise .recordHeld (setLive n { l with state := .held c } (leaveHolder n l s)) with
        dram := d, noticeCounter := nc, counters := ctr, outputs := (leaveHolder n l s).outputs ++ out }
      ∧ counterValue .replyDropped (enterHeld n c s) = counterValue .replyDropped (leaveHolder n l s) := by
  unfold enterHeld
  simp only [hl]
  obtain ⟨d, hd⟩ := writeFields_eq n [.state, .holdCause, .stallNode] (setLive n { l with state := .held c } (leaveHolder n l s))
  rw [hd]
  obtain ⟨nc, ctr, out, hnotify, hcount⟩ := notify_eq n (generationAt s n) l.watch (stateCode (some l.state)) (some (.held c))
    (raise .recordHeld { setLive n { l with state := .held c } (leaveHolder n l s) with dram := d })
  exact ⟨d, nc, ctr, out, hnotify, hcount .replyDropped (by decide)⟩

theorem enterHeld_flag {n : Nat} {l : Live} {s : State} (hl : liveAt s n = some l) (c : HoldCause) :
    flagSet .recordHeld (enterHeld n c s) = true := by
  obtain ⟨d, nc, ctr, out, heq, -⟩ := enterHeld_eq hl c
  rw [heq]
  exact flagSet_raise_self .recordHeld (setLive n { l with state := .held c } (leaveHolder n l s))

/-- The lanes, the slots, the wait list and the counts are as the record's leaving left them. -/
theorem enterHeld_laneWork {n : Nat} {l : Live} {s : State} (hl : liveAt s n = some l) (c : HoldCause) :
    SameLaneWork (leaveHolder n l s) (enterHeld n c s) := by
  obtain ⟨d, nc, ctr, out, heq, -⟩ := enterHeld_eq hl c
  rw [heq]
  exact ⟨rfl, rfl, rfl, fun _ => rfl⟩

/-! ### Records held one after another -/

/-- What holding records does to everything else: no slot changes but in its outstanding count and stall list, no live record but in its state, and none
becomes ACTIVE. -/
structure RecordsHeld (s t : State) : Prop where
  unanswered : Unanswered s t
  steady : Steady s t
  node : ∀ k, ∃ o ns, nodeAt t k = { nodeAt s k with outstanding := o, stallList := ns }
  flags : ∀ e, flagSet e s = true → flagSet e t = true
  live : ∀ n l, liveAt s n = some l → ∃ st, liveAt t n = some { l with state := st } ∧ (st = .active → l.state = .active)

theorem RecordsHeld.refl (s : State) : RecordsHeld s s :=
  ⟨Unanswered.refl s, Steady.refl s, fun _ => ⟨_, _, rfl⟩, fun _ h => h, fun _ l h => ⟨l.state, h, id⟩⟩

theorem RecordsHeld.trans {s t u : State} (h : RecordsHeld s t) (g : RecordsHeld t u) : RecordsHeld s u := by
  refine ⟨h.unanswered.trans g.unanswered, h.steady.trans g.steady, fun k => ?_, fun e he => g.flags e (h.flags e he), fun n l hl => ?_⟩
  · obtain ⟨o, ns, ht⟩ := h.node k
    obtain ⟨o', ns', hu⟩ := g.node k
    exact ⟨o', ns', by rw [hu, ht]⟩
  · obtain ⟨st, ht, hact⟩ := h.live n l hl
    obtain ⟨st', hu, hact'⟩ := g.live n _ ht
    exact ⟨st', hu, fun e => hact (hact' e)⟩

theorem RecordsHeld.foldl {β : Type} {f : State → β → State} (h : ∀ s b, RecordsHeld s (f s b)) (bs : List β) (s : State) :
    RecordsHeld s (bs.foldl f s) := by
  induction bs generalizing s with
  | nil => exact RecordsHeld.refl s
  | cons b bs ih => exact (h s b).trans (ih _)

theorem enterHeld_held (n : Nat) (c : HoldCause) (s : State) : RecordsHeld s (enterHeld n c s) := by
  cases hl : liveAt s n with
  | none =>
    rw [enterHeld, hl]
    exact RecordsHeld.refl s
  | some l =>
    have hleave := leaveHolder_unanswered n l s
    obtain ⟨out, hout⟩ := hleave.sent
    obtain ⟨d, nc, ctr, out', heq, hdropped⟩ := enterHeld_eq hl c
    refine ⟨⟨(enterHeld_steady n c s).control, ⟨out ++ out', ?_⟩, hdropped.trans hleave.dropped⟩, enterHeld_steady n c s, fun k => ?_, fun e he => ?_,
      fun m l' hl' => ?_⟩
    · rw [heq, ← List.append_assoc, ← hout]
    · rw [heq]
      exact leaveHolder_node n l s k
    · rw [heq]
      refine flagSet_raise_mono (d := .recordHeld) (s := setLive n { l with state := .held c } (leaveHolder n l s)) ?_
      rw [flagSet, setLive_events, leaveHolder_events]
      exact he
    · by_cases hm : m = n
      · subst hm
        rw [hl] at hl'
        cases hl'
        exact ⟨.held c, (liveAt_enterHeld hl m).trans (if_pos rfl), fun e => RecState.noConfusion e⟩
      · exact ⟨l'.state, ((liveAt_enterHeld hl m).trans (if_neg hm)).trans hl', id⟩

theorem RecordsHeld.nodeState {s t : State} (h : RecordsHeld s t) (k : Nat) : (nodeAt t k).state = (nodeAt s k).state := by
  obtain ⟨o, ns, ht⟩ := h.node k
  rw [ht]

/-- A record that is not ACTIVE does not become so. -/
theorem RecordsHeld.resting {s t : State} (h : RecordsHeld s t) {n : Nat} (hn : ∀ l, liveAt s n = some l → l.state ≠ .active) (l : Live)
    (hl : liveAt t n = some l) : l.state ≠ .active := by
  have hlive : (liveAt s n).isSome = true := by rw [← h.steady.live n, hl, Option.isSome_some]
  obtain ⟨l', hl'⟩ := Option.isSome_iff_exists.mp hlive
  obtain ⟨st, ht, hact⟩ := h.live n l' hl'
  rw [hl] at ht
  cases ht
  exact fun e => hn l' hl' (hact e)

end Sys2Proof.Machine

/-! SUPPORT. FENCE and UNFENCE (R80 to R82): the slots' states, the records that enter HELD by the fence cause rule, their lanes given up, and the REPLYs. -/

namespace Sys2Proof.Machine

/-! ### The fence cause rule (R75) -/

/-- The rule reads which slots are FENCED, and of the record its lists. -/
theorem fenceCause_congr {s t : State} (h : ∀ k, (nodeAt t k).state = (nodeAt s k).state) (l : Live) (seg : Nat) :
    fenceCause t l seg = fenceCause s l seg := by
  simp only [fenceCause, h]

/-! ### The records of the stall lists (R81 step 2) -/

theorem fenceStalled_of_live {s : State} {n : Nat} {l : Live} (hl : liveAt s n = some l) :
    fenceStalled s n = enterHeld n (fenceCause s l (nextSegment l)) s := by
  rw [fenceStalled, hl]

theorem fenceStalled_of_free {s : State} {n : Nat} (hl : liveAt s n = none) : fenceStalled s n = s := by
  rw [fenceStalled, hl]

theorem fenceStalled_held (s : State) (n : Nat) : RecordsHeld s (fenceStalled s n) := by
  cases hl : liveAt s n with
  | none =>
    rw [fenceStalled_of_free hl]
    exact RecordsHeld.refl s
  | some l =>
    rw [fenceStalled_of_live hl]
    exact enterHeld_held ..

theorem liveAt_fenceStalled_same {s : State} {n : Nat} {l : Live} (hl : liveAt s n = some l) :
    liveAt (fenceStalled s n) n = some { l with state := .held (fenceCause s l (nextSegment l)) } := by
  rw [fenceStalled_of_live hl, liveAt_enterHeld hl, if_pos rfl]

theorem liveAt_fenceStalled_other {m n : Nat} (h : m ≠ n) (s : State) : liveAt (fenceStalled s n) m = liveAt s m := by
  cases hl : liveAt s n with
  | none => rw [fenceStalled_of_free hl]
  | some l => rw [fenceStalled_of_live hl, liveAt_enterHeld hl, if_neg h]

theorem liveAt_foldl_fenceStalled_other {m : Nat} {ns : List Nat} (h : m ∉ ns) (s : State) : liveAt (ns.foldl fenceStalled s) m = liveAt s m := by
  induction ns generalizing s with
  | nil => rfl
  | cons n ns ih =>
    obtain ⟨hmn, hns⟩ := not_or.mp (mt List.mem_cons.mpr h)
    exact (ih hns _).trans (liveAt_fenceStalled_other hmn s)

/-- Each record of the list is held by the cause that the rule gives for its next segment; met again, it is held by the same. -/
theorem liveAt_foldl_fenceStalled {n : Nat} {ns : List Nat} (h : n ∈ ns) {l : Live} {s : State} (hl : liveAt s n = some l) :
    liveAt (ns.foldl fenceStalled s) n = some { l with state := .held (fenceCause s l (nextSegment l)) } := by
  induction ns generalizing s l with
  | nil => exact absurd h List.not_mem_nil
  | cons x xs ih =>
    have hheld := fenceStalled_held s x
    by_cases hn : n ∈ xs
    · obtain ⟨st, ht, -⟩ := hheld.live n l hl
      refine (ih hn ht).trans ?_
      rw [fenceCause_congr hheld.nodeState]
      rfl
    · obtain rfl : n = x := (List.mem_cons.mp h).resolve_right hn
      exact (liveAt_foldl_fenceStalled_other hn _).trans (liveAt_fenceStalled_same hl)

/-- Records none of which is ACTIVE are held without any lane being given up. -/
theorem foldl_fenceStalled_laneWork {ns : List Nat} {s : State} (h : ∀ n ∈ ns, ∀ l, liveAt s n = some l → l.state ≠ .active) :
    SameLaneWork s (ns.foldl fenceStalled s) := by
  induction ns generalizing s with
  | nil => exact SameLaneWork.refl s
  | cons n ns ih =>
    have hone : SameLaneWork s (fenceStalled s n) := by
      cases hl : liveAt s n with
      | none =>
        rw [fenceStalled_of_free hl]
        exact SameLaneWork.refl s
      | some l =>
        rw [fenceStalled_of_live hl]
        exact (leaveHolder_laneWork (h n List.mem_cons_self l hl) s).trans (enterHeld_laneWork hl _)
    exact hone.trans (ih fun m hm => (fenceStalled_held s n).resting (h m (List.mem_cons_of_mem n hm)))

/-! ### The lanes (R81 step 1) -/

theorem fenceLane_of_live {s : State} {i : Fin 8} {j : Job} {l : Live} (hj : laneAt s i = some j) (hl : liveAt s j.record = some l) :
    fenceLane s i = enterHeld j.record (fenceCause s l j.segment) s := by
  rw [fenceLane, hj]
  simp only [hl]

theorem fenceLane_held (s : State) (i : Fin 8) : RecordsHeld s (fenceLane s i) := by
  unfold fenceLane
  split
  · exact RecordsHeld.refl s
  · split
    · exact RecordsHeld.refl s
    · exact enterHeld_held ..

/-- The lane of the record that a fence holds is given up, and no other. -/
theorem fenceLane_left {s : State} (h : LanesHold s) {i : Fin 8} {j : Job} (hj : laneAt s i = some j) : LanesLeft [i] s (fenceLane s i) := by
  obtain ⟨l, hl, hact⟩ := h.1 i j hj
  have hwork := enterHeld_laneWork hl (fenceCause s l j.segment)
  rw [leaveHolder_active hact (h.laneHolding_eq hj)] at hwork
  rw [fenceLane_of_live hj hl]
  exact (abandonLane_left hj).of_sameLaneWork (SameLaneWork.refl s) hwork

/-- No record changes but the lane's. -/
theorem liveAt_fenceLane_other {s : State} {i : Fin 8} {n : Nat} (h : ∀ j, laneAt s i = some j → j.record ≠ n) :
    liveAt (fenceLane s i) n = liveAt s n := by
  unfold fenceLane
  split
  · rfl
  · rename_i j hj
    split
    · rfl
    · rename_i l hl
      rw [liveAt_enterHeld hl, if_neg (h j hj).symm]

/-- A lane that is busy after the fence of lane `i` is another, as busy as before. -/
theorem laneAt_fenceLane {s : State} (h : LanesHold s) {i x : Fin 8} {j y : Job} (hj : laneAt s i = some j) (hy : laneAt (fenceLane s i) x = some y) :
    x ≠ i ∧ laneAt s x = some y := by
  have hleft := fenceLane_left h hj
  have hne : x ≠ i := by
    rintro rfl
    rw [(hleft.abandoned.1 x List.mem_cons_self).1] at hy
    cases hy
  exact ⟨hne, by rw [← hleft.other x (mt List.mem_singleton.mp hne), hy]⟩

theorem lanesHold_fenceLane {s : State} (h : LanesHold s) {i : Fin 8} {j : Job} (hj : laneAt s i = some j) : LanesHold (fenceLane s i) := by
  refine ⟨fun x y hy => ?_, fun x x' y y' hy hy' hrec => h.2 x x' y y' (laneAt_fenceLane h hj hy).2 (laneAt_fenceLane h hj hy').2 hrec⟩
  obtain ⟨hne, hy⟩ := laneAt_fenceLane h hj hy
  rw [liveAt_fenceLane_other fun j' hj' e => hne (h.2 x i y j' hy hj' e.symm)]
  exact h.1 x y hy

theorem foldl_fenceLane_left {ls : List (Fin 8)} (hn : ls.Nodup) {s : State} (h : LanesHold s) (hb : ∀ i ∈ ls, laneAt s i ≠ none) :
    LanesLeft ls s (ls.foldl fenceLane s) := by
  induction ls generalizing s with
  | nil => exact LanesLeft.nil s
  | cons i is ih =>
    obtain ⟨hi, his⟩ := List.nodup_cons.mp hn
    obtain ⟨j, hj⟩ := Option.ne_none_iff_exists'.mp (hb i List.mem_cons_self)
    have hleft := fenceLane_left h hj
    refine hleft.cons (ih his (lanesHold_fenceLane h hj) fun x hx => ?_) hi
    rw [hleft.other x fun e => hi (List.mem_singleton.mp e ▸ hx)]
    exact hb x (List.mem_cons_of_mem i hx)

/-- A record that no lane of the list holds does not change. -/
theorem liveAt_foldl_fenceLane_other {ls : List (Fin 8)} {n : Nat} {s : State} (h : LanesHold s)
    (hr : ∀ i ∈ ls, ∃ j, laneAt s i = some j ∧ j.record ≠ n) (hn : ls.Nodup) : liveAt (ls.foldl fenceLane s) n = liveAt s n := by
  induction ls generalizing s with
  | nil => rfl
  | cons i is ih =>
    obtain ⟨hi, his⟩ := List.nodup_cons.mp hn
    obtain ⟨j, hj, hne⟩ := hr i List.mem_cons_self
    have hone : liveAt (fenceLane s i) n = liveAt s n := by
      refine liveAt_fenceLane_other fun j' hj' => ?_
      rw [hj] at hj'
      cases hj'
      exact hne
    refine (ih (lanesHold_fenceLane h hj) (fun x hx => ?_) his).trans hone
    rw [(fenceLane_left h hj).other x fun e => hi (List.mem_singleton.mp e ▸ hx)]
    exact hr x (List.mem_cons_of_mem i hx)

/-- The record of each lane of the list is held by the cause that the rule gives for the lane's segment. -/
theorem liveAt_foldl_fenceLane {ls : List (Fin 8)} (hn : ls.Nodup) {s : State} (h : LanesHold s) (hb : ∀ i ∈ ls, laneAt s i ≠ none) {i : Fin 8}
    (hi : i ∈ ls) {j : Job} {l : Live} (hj : laneAt s i = some j) (hl : liveAt s j.record = some l) :
    liveAt (ls.foldl fenceLane s) j.record = some { l with state := .held (fenceCause s l j.segment) } := by
  induction ls generalizing s with
  | nil => exact absurd hi List.not_mem_nil
  | cons x xs ih =>
    obtain ⟨hx, hxs⟩ := List.nodup_cons.mp hn
    obtain ⟨y, hy⟩ := Option.ne_none_iff_exists'.mp (hb x List.mem_cons_self)
    have hlanes : ∀ z ∈ xs, laneAt (fenceLane s x) z = laneAt s z := fun z hz =>
      (fenceLane_left h hy).other z fun e => hx (List.mem_singleton.mp e ▸ hz)
    have hhold := lanesHold_fenceLane h hy
    have hbusy : ∀ z ∈ xs, laneAt s z ≠ none := fun z hz => hb z (List.mem_cons_of_mem x hz)
    by_cases hix : i = x
    · subst hix
      refine (liveAt_foldl_fenceLane_other hhold (fun z hz => ?_) hxs).trans ?_
      · obtain ⟨w, hw⟩ := Option.ne_none_iff_exists'.mp (hbusy z hz)
        exact ⟨w, (hlanes z hz).trans hw, fun e => hx (h.2 z i w j hw hj e ▸ hz)⟩
      · rw [fenceLane_of_live hj hl, liveAt_enterHeld hl, if_pos rfl]
    · have hmem : i ∈ xs := (List.mem_cons.mp hi).resolve_left hix
      have hlive : liveAt (fenceLane s x) j.record = some l :=
        (liveAt_fenceLane_other fun y' hy' e => hix (h.2 i x j y' hj hy' e.symm)).trans hl
      refine (ih hxs hhold (fun z hz => hlanes z hz ▸ hbusy z hz) hmem ((hlanes i hmem).trans hj) hlive).trans ?_
      rw [fenceCause_congr (fenceLane_held s x).nodeState]

/-! ### The slots' states (R80, R82) -/

/-- A change of slots one after another, where a slot met again does not change again. -/
theorem nodeAt_foldl_setNode {g : Node → Node} (hg : ∀ v, g (g v) = g v) (ks : List Nat) (k : Nat) (s : State) :
    nodeAt (ks.foldl (fun s x => setNode x (g (nodeAt s x)) s) s) k = if k ∈ ks then g (nodeAt s k) else nodeAt s k := by
  induction ks generalizing s with
  | nil => rfl
  | cons x xs ih =>
    rw [List.foldl_cons, ih]
    by_cases hk : k = x
    · subst hk
      rw [nodeAt_setNode_same, hg, ite_self, if_pos List.mem_cons_self]
    · rw [nodeAt_setNode_other s hk]
      simp only [List.mem_cons, hk, false_or]

theorem foldl_setNode_eq (g : Node → Node) (ks : List Nat) (s : State) :
    ∃ ns, ks.foldl (fun s x => setNode x (g (nodeAt s x)) s) s = { s with nodes := ns } := by
  induction ks generalizing s with
  | nil => exact ⟨s.nodes, rfl⟩
  | cons x xs ih =>
    obtain ⟨ns, h⟩ := ih (setNode x (g (nodeAt s x)) s)
    exact ⟨ns, h⟩

theorem nodeAt_foldl_setNodeState (v : NodeState) (ks : List Nat) (k : Nat) (s : State) :
    nodeAt (ks.foldl (setNodeState v) s) k = if k ∈ ks then { nodeAt s k with state := v } else nodeAt s k :=
  nodeAt_foldl_setNode (g := fun x => { x with state := v }) (fun _ => rfl) ks k s

theorem foldl_setNodeState_eq (v : NodeState) (ks : List Nat) (s : State) : ∃ ns, ks.foldl (setNodeState v) s = { s with nodes := ns } :=
  foldl_setNode_eq (fun x => { x with state := v }) ks s

theorem foldl_setNodeState_laneWork (v : NodeState) (ks : List Nat) (s : State) : SameLaneWork s (ks.foldl (setNodeState v) s) := by
  have hnode := fun k => nodeAt_foldl_setNodeState v ks k s
  obtain ⟨ns, hns⟩ := foldl_setNodeState_eq v ks s
  refine ⟨by rw [hns], by rw [hns], by rw [hns], fun k => ?_⟩
  rw [hnode]
  split <;> rfl

theorem foldl_setNodeState_records (v : NodeState) (ks : List Nat) (s : State) : (ks.foldl (setNodeState v) s).records = s.records :=
  foldl_records (f := setNodeState v) (fun _ _ => rfl) ks s

theorem mem_fenceable {s : State} {ks : List Nat} {k : Nat} :
    k ∈ fenceable s ks ↔ k ∈ ks ∧ ((nodeAt s k).state = .serving ∨ (nodeAt s k).state = .muted) := by
  simp [fenceable]

/-! ### The slots fenced (R80, R81) -/

/-- The slots `ks` FENCED, before the records that this reaches are held. -/
def fencedRoster (ks : List Nat) (s : State) : State :=
  ks.foldl (setNodeState .fenced) s

theorem fencedRoster_laneAt (ks : List Nat) (s : State) (i : Fin 8) : laneAt (fencedRoster ks s) i = laneAt s i :=
  (foldl_setNodeState_laneWork .fenced ks s).laneAt_eq i

theorem fencedRoster_liveAt (ks : List Nat) (s : State) (n : Nat) : liveAt (fencedRoster ks s) n = liveAt s n :=
  liveAt_congr (foldl_setNodeState_records .fenced ks s) n

theorem fencedRoster_lanesHold {s : State} (h : LanesHold s) (ks : List Nat) : LanesHold (fencedRoster ks s) := by
  simpa only [LanesHold, fencedRoster_laneAt, fencedRoster_liveAt] using h

theorem fencedLanes_fencedRoster (ks : List Nat) (s : State) : fencedLanes (fencedRoster ks s) ks = fencedLanes s ks :=
  List.filter_congr fun i _ =>
    laneHasWork_congr (foldl_setNodeState_records .fenced ks s) (foldl_setNodeState_laneWork .fenced ks s).lanes i ks

theorem fencedLanes_nodup (s : State) (ks : List Nat) : (fencedLanes s ks).Nodup :=
  (by decide : laneNumbers.Nodup).filter _

theorem fencedLanes_busy (ks : List Nat) (s : State) : ∀ i ∈ fencedLanes s ks, laneAt (fencedRoster ks s) i ≠ none := by
  intro i hi
  obtain ⟨j, l, hj, -⟩ := laneHasWork_iff.mp (List.mem_filter.mp hi).2
  rw [fencedRoster_laneAt, hj]
  exact Option.some_ne_none j

theorem mem_fencedStalled {s : State} {ks : List Nat} {n : Nat} : n ∈ fencedStalled s ks ↔ ∃ k ∈ ks, n ∈ (nodeAt s k).stallList := by
  simp [fencedStalled]

/-- Fencing is two passes over the records: those of the lanes, then those of the stall lists. -/
theorem fenceSlots_eq (ks : List Nat) (s : State) :
    fenceSlots ks s = (fencedStalled s ks).foldl fenceStalled ((fencedLanes s ks).foldl fenceLane (fencedRoster ks s)) := by
  rw [← fencedLanes_fencedRoster]
  rfl

theorem foldl_fenceLane_held (ls : List (Fin 8)) (s : State) : RecordsHeld s (ls.foldl fenceLane s) :=
  RecordsHeld.foldl fenceLane_held ls s

theorem fenceSlots_held (ks : List Nat) (s : State) : RecordsHeld (fencedRoster ks s) (fenceSlots ks s) := by
  rw [fenceSlots_eq]
  exact (foldl_fenceLane_held _ _).trans (RecordsHeld.foldl fenceStalled_held _ _)

theorem fenceSlots_unanswered (ks : List Nat) (s : State) : Unanswered s (fenceSlots ks s) := by
  refine Unanswered.trans ?_ (fenceSlots_held ks s).unanswered
  obtain ⟨ns, hns⟩ := foldl_setNodeState_eq .fenced ks s
  rw [fencedRoster, hns]
  exact .of_same (SameControl.refl s) rfl rfl

/-- A slot of the list has become FENCED; the counts and the stall list apart, nothing else of any slot has changed. -/
theorem nodeAt_fenceSlots (ks : List Nat) (s : State) (k : Nat) : ∃ o ns, nodeAt (fenceSlots ks s) k =
    { nodeAt s k with state := if k ∈ ks then .fenced else (nodeAt s k).state, outstanding := o, stallList := ns } := by
  obtain ⟨o, ns, h⟩ := (fenceSlots_held ks s).node k
  refine ⟨o, ns, ?_⟩
  rw [h, fencedRoster, nodeAt_foldl_setNodeState]
  split <;> rfl

/-- A record of the stall lists is held by its next segment, whatever else the fence did to it before. -/
theorem liveAt_fenceSlots_stalled {ks : List Nat} {s : State} {n : Nat} {l : Live} (h : n ∈ fencedStalled s ks) (hl : liveAt s n = some l) :
    liveAt (fenceSlots ks s) n = some { l with state := .held (fenceCause (fencedRoster ks s) l (nextSegment l)) } := by
  have hheld := foldl_fenceLane_held (fencedLanes s ks) (fencedRoster ks s)
  obtain ⟨st, ht, -⟩ := hheld.live n l ((fencedRoster_liveAt ks s n).trans hl)
  rw [fenceSlots_eq, liveAt_foldl_fenceStalled h ht, fenceCause_congr hheld.nodeState]
  rfl

/-- The records of the stall lists are STALLED, not ACTIVE (R73). -/
theorem StallsHold.not_active {s : State} (h : StallsHold s) {ks : List Nat} {n : Nat} (hn : n ∈ fencedStalled s ks) {l : Live}
    (hl : liveAt s n = some l) : l.state ≠ .active := by
  obtain ⟨k, -, hk⟩ := mem_fencedStalled.mp hn
  obtain ⟨l', hl', hst⟩ := (h.2 k n).mp hk
  rw [hl] at hl'
  cases hl'
  rw [hst]
  exact RecState.noConfusion

theorem fenceSlots_left {ks : List Nat} {s : State} (h : LanesHold s) (hs : StallsHold s) : LanesLeft (fencedLanes s ks) s (fenceSlots ks s) := by
  have hlanes := foldl_fenceLane_left (fencedLanes_nodup s ks) (fencedRoster_lanesHold h ks) (fencedLanes_busy ks s)
  rw [fenceSlots_eq]
  refine hlanes.of_sameLaneWork (foldl_setNodeState_laneWork .fenced ks s) (foldl_fenceStalled_laneWork fun n hn => ?_)
  refine (foldl_fenceLane_held (fencedLanes s ks) (fencedRoster ks s)).resting fun l hl => ?_
  exact hs.not_active hn ((fencedRoster_liveAt ks s n).symm.trans hl)

/-- The record of a lane that the fence reaches is held by the lane's segment: ACTIVE, it is on no stall list. -/
theorem liveAt_fenceSlots_lane {ks : List Nat} {s : State} (h : LanesHold s) (hs : StallsHold s) {i : Fin 8} (hi : i ∈ fencedLanes s ks) {j : Job}
    {l : Live} (hj : laneAt s i = some j) (hl : liveAt s j.record = some l) :
    liveAt (fenceSlots ks s) j.record = some { l with state := .held (fenceCause (fencedRoster ks s) l j.segment) } := by
  have hout : j.record ∉ fencedStalled s ks := by
    intro hmem
    obtain ⟨l', hl', hact⟩ := h.1 i j hj
    exact hs.not_active hmem hl' hact
  rw [fenceSlots_eq, liveAt_foldl_fenceStalled_other hout]
  exact liveAt_foldl_fenceLane (fencedLanes_nodup s ks) (fencedRoster_lanesHold h ks) (fencedLanes_busy ks s) hi ((fencedRoster_laneAt ks s i).trans hj)
    ((fencedRoster_liveAt ks s j.record).trans hl)

/-- A fence that reaches a lane has held a record (R22, R193). -/
theorem fenceSlots_flag {ks : List Nat} {s : State} (h : fencedLanes s ks ≠ []) : flagSet .recordHeld (fenceSlots ks s) = true := by
  obtain ⟨i, is, hcons⟩ := List.exists_cons_of_ne_nil h
  obtain ⟨j, l, hj, hl, -⟩ := laneHasWork_iff.mp (List.mem_filter.mp (hcons ▸ List.mem_cons_self : i ∈ fencedLanes s ks)).2
  have hfirst : flagSet .recordHeld (fenceLane (fencedRoster ks s) i) = true := by
    have hl' := (fencedRoster_liveAt ks s j.record).trans hl
    rw [fenceLane_of_live ((fencedRoster_laneAt ks s i).trans hj) hl']
    exact enterHeld_flag hl' _
  rw [fenceSlots_eq, hcons]
  exact (RecordsHeld.foldl fenceStalled_held _ _).flags _ ((foldl_fenceLane_held is _).flags _ hfirst)

/-! ### FENCE -/

theorem exec_fence (f : Frame) (s : State) : exec (.fence f) s = commit s (onFence f s) := by
  rfl

/-- The end of a command whose REPLY is `f`'s leaves the flags as its change left them. -/
theorem flagSet_concluded {f : Frame} {k : Kind} {st : Status} {r : List Byte} {s u t : State} (h : commit s (reply f k st r u) = .next t)
    (e : Event) : flagSet e t = flagSet e u := by
  obtain ⟨ctr, out, hr⟩ := reply_eq f k st r u
  obtain ⟨pu, pr, msgs, hc⟩ := commit_eq s (reply f k st r u)
  rw [h, hr] at hc
  cases hc
  rfl

/-- The room that a change made is handed on, and its REPLY answers the request (R138, R154). -/
theorem finish_concluded {s u : State} (h : Unanswered s u) (f : Frame) (k : Kind) {st : Status} (hst : st ≠ .malformed) (r : List Byte) :
    ∃ t, commit s (finish f k st r u) = .next t ∧ Answered s t f k st 0 r ∧ Concluded (settle u) t
      ∧ ∀ e, flagSet e u = true → flagSet e t = true := by
  have hsettle : Unanswered s (settle u) := h.trans (settle_onlyRecord 0 u).toUnanswered
  obtain ⟨t, ht, hans, hcon⟩ := reply_concluded hsettle f k hst r
  exact ⟨t, ht, hans, hcon, fun e he => (flagSet_concluded ht e).trans ((settle_handed u).flags e he)⟩

theorem nodeAt_settle_fenceSlots (ks : List Nat) (s : State) (k : Nat) : ∃ o ns, nodeAt (settle (fenceSlots ks s)) k =
    { nodeAt s k with state := if k ∈ ks then .fenced else (nodeAt s k).state, outstanding := o, stallList := ns } := by
  obtain ⟨o, ns, h⟩ := nodeAt_fenceSlots ks s k
  obtain ⟨o', -, h'⟩ := (settle_handed (fenceSlots ks s)).node k
  exact ⟨o', ns, by rw [h', h]⟩

theorem settle_fenceSlots_fenced {ks : List Nat} {s : State} {k : Nat} (h : k ∈ ks) : (nodeAt (settle (fenceSlots ks s)) k).state = .fenced
    ∧ (nodeAt (settle (fenceSlots ks s)) k).consecutive = (nodeAt s k).consecutive
    ∧ (nodeAt (settle (fenceSlots ks s)) k).probeSeq = (nodeAt s k).probeSeq := by
  obtain ⟨o, ns, hnode⟩ := nodeAt_settle_fenceSlots ks s k
  rw [hnode, if_pos h]
  exact ⟨rfl, rfl, rfl⟩

theorem settle_fenceSlots_state {ks : List Nat} {s : State} {k : Nat} (h : k ∉ ks) :
    (nodeAt (settle (fenceSlots ks s)) k).state = (nodeAt s k).state := by
  obtain ⟨o, ns, hnode⟩ := nodeAt_settle_fenceSlots ks s k
  rw [hnode, if_neg h]

/-- What a fence and the room handed on after it leave of the table and of the control part. -/
theorem fenceSlots_rest (ks : List Nat) (s : State) : SameCollections s (settle (fenceSlots ks s)) ∧ SameControl s (settle (fenceSlots ks s))
    ∧ ∀ n, generationAt (settle (fenceSlots ks s)) n = generationAt s n
      ∧ (liveAt (settle (fenceSlots ks s)) n).isSome = (liveAt s n).isSome := by
  have hsteady := fenceSlots_steady ks s
  have hroom := settle_onlyRecord 0 (fenceSlots ks s)
  obtain ⟨hfree, hcount, hindex⟩ := hroom.collections
  refine ⟨⟨hfree.trans hsteady.freeList, hcount.trans hsteady.liveCount, hindex.trans hsteady.index⟩, hsteady.control.trans hroom.control,
    fun n => ⟨?_, by rw [settle_liveAt, hsteady.live]⟩⟩
  exact ((settle_onlyRecord n _).generation).trans (hsteady.generation n)

/-- A FENCE whose selector selects `ks` (R80, R81). -/
theorem fence_concluded {f : Frame} {r : SelectorReq} {ks : List Nat} {s : State} (ha : Arrives s f) (hf : FromHolder s f)
    (hb : parseSelector f.body = some r) (hks : selectSlots s r = .ok ks) :
    ∃ t, exec (.fence f) s = .next t
      ∧ Answered s t f .fence .ok 0 (be 2 (fenceable s ks).length ++ [0, 0]
          ++ be 4 ((fencedLanes (fencedRoster (fenceable s ks) s) (fenceable s ks)).length + (fencedStalled s (fenceable s ks)).length))
      ∧ Concluded (settle (fenceSlots (fenceable s ks) s)) t ∧ ∀ e, flagSet e (fenceSlots (fenceable s ks) s) = true → flagSet e t = true := by
  rw [exec_fence, onFence, request_of_readable ha hb (fun _ => hf), applyFence, hks, fencedLanes_fencedRoster]
  exact finish_concluded (fenceSlots_unanswered ..) f .fence (by decide) _

/-! ### UNFENCE -/

theorem exec_unfence (f : Frame) (s : State) : exec (.unfence f) s = commit s (onUnfence f s) := by
  rfl

theorem nodeAt_foldl_unfenceSlot (ks : List Nat) (k : Nat) (s : State) :
    nodeAt (ks.foldl unfenceSlot s) k = if k ∈ ks then { nodeAt s k with state := .serving, consecutive := 0 } else nodeAt s k :=
  nodeAt_foldl_setNode (g := fun x => { x with state := .serving, consecutive := 0 }) (fun _ => rfl) ks k s

theorem foldl_unfenceSlot_eq (ks : List Nat) (s : State) : ∃ ns, ks.foldl unfenceSlot s = { s with nodes := ns } :=
  foldl_setNode_eq (fun x => { x with state := .serving, consecutive := 0 }) ks s

/-- An UNFENCE whose selector selects `ks` (R82). -/
theorem unfence_concluded {f : Frame} {r : SelectorReq} {ks : List Nat} {s : State} (ha : Arrives s f) (hf : FromHolder s f)
    (hb : parseSelector f.body = some r) (hks : selectSlots s r = .ok ks) :
    ∃ t, exec (.unfence f) s = .next t
      ∧ Answered s t f .unfence .ok 0 (be 2 (ks.filter (fun k => (nodeAt s k).state == .fenced)).length ++ [0, 0])
      ∧ Concluded ((ks.filter (fun k => (nodeAt s k).state == .fenced)).foldl unfenceSlot s) t := by
  rw [exec_unfence, onUnfence, request_of_readable ha hb (fun _ => hf), applyUnfence, hks]
  refine reply_concluded ?_ f .unfence (by decide) _
  obtain ⟨ns, hns⟩ := foldl_unfenceSlot_eq (ks.filter (fun k => (nodeAt s k).state == .fenced)) s
  rw [hns]
  exact .of_same (SameControl.refl s) rfl rfl

/-- Settles O25: FENCE by the records that its two passes hold and the lanes that the first gives up, UNFENCE slot by slot. -/
theorem fenceAndUnfenceTheSelectedSlots : Obligations.FenceAndUnfenceTheSelectedSlots := by
  unfold Obligations.FenceAndUnfenceTheSelectedSlots
  intro f r ks s ha hf hb hks
  refine ⟨?_, ?_⟩
  · have hlive := settle_liveAt (fenceSlots (fenceable s ks) s)
    obtain ⟨t, ht, hans, ⟨⟨ctr, out, ev, rfl⟩, -⟩, hflags⟩ := fence_concluded ha hf hb hks
    refine ⟨_, ht, fun k hk hst => ?_, fun k hk => ?_, fun n l hn hl => (hlive n).trans (liveAt_fenceSlots_stalled hn hl), fun k => mem_fenceable,
      fun hlanes hstalls ls hls => ?_, hans, fenceSlots_rest ..⟩
    · exact settle_fenceSlots_fenced (mem_fenceable.mpr ⟨hk, hst⟩)
    · refine settle_fenceSlots_state fun hmem => ?_
      obtain ⟨hin, hst⟩ := mem_fenceable.mp hmem
      have hne : (nodeAt s k).state ≠ .fenced := by
        rcases hst with hst | hst <;> rw [hst] <;> exact NodeState.noConfusion
      exact hk.elim (fun h => h hin) hne
    · obtain rfl : ls = fencedLanes s (fenceable s ks) := hls.eq_filter
      obtain ⟨habandoned, hfall⟩ := (fenceSlots_left (ks := fenceable s ks) hlanes hstalls).settle
      exact ⟨habandoned, hfall, fun hne => hflags _ (fenceSlots_flag hne),
        fun i hi j l hj hl => (hlive j.record).trans (liveAt_fenceSlots_lane hlanes hstalls hi hj hl)⟩
  · have hnode := fun k => nodeAt_foldl_unfenceSlot (ks.filter (fun k => (nodeAt s k).state == .fenced)) k s
    obtain ⟨ns, hns⟩ := foldl_unfenceSlot_eq (ks.filter (fun k => (nodeAt s k).state == .fenced)) s
    obtain ⟨t, ht, hans, hcon⟩ := unfence_concluded ha hf hb hks
    rw [hns] at hnode hcon
    obtain ⟨⟨ctr, out, ev, rfl⟩, -⟩ := hcon
    refine ⟨_, ht, fun k hk hst => (hnode k).trans (if_pos ?_), fun k hk => (hnode k).trans (if_neg ?_), hans, SameTable.refl s, SameControl.refl s,
      rfl, rfl, rfl, rfl⟩
    · simp [hk, hst]
    · simpa [imp_iff_not_or] using hk

end Sys2Proof.Machine

/-! SUPPORT. FETCH_DATA discarded (R68, R98, R99): which fetch a tag matches, what the checks of a chunk find, and that a discard changes one counter only. -/

namespace Sys2Proof.Machine

/-! ### A node answer discarded or judged (R68, R188) -/

theorem nodeAnswer_of_fenced {ρ : Type} {f : Frame} {s : State} (ha : Arrives s f) (hf : fromFenced s f.src = true) (body : Option ρ)
    (act : ρ → State → State) : nodeAnswer f body act s = count .fencedDiscard s := by
  rw [nodeAnswer, receive_of_arrives ha, if_pos hf]

theorem nodeAnswer_of_readable {ρ : Type} {f : Frame} {body : Option ρ} {r : ρ} {s : State} (ha : Arrives s f) (hf : fromFenced s f.src = false)
    (hb : body = some r) (act : ρ → State → State) : nodeAnswer f body act s = act r s := by
  rw [nodeAnswer, receive_of_arrives ha, hf, hb]
  rfl

/-- A command that only counts sends nothing and leaves everything else: its events are those of before, so no interrupt condition becomes true (R194). -/
theorem commit_count_quiet (d : Counter) (s : State) : ∃ t, commit s (count d s) = .next t ∧ Quiet s t ∧ t.outputs = s.outputs
    ∧ counterValue d t = saturatingSucc (counterValue d s) := by
  obtain ⟨pu, pr, h⟩ := commit_eq_of_events (count_events d (s := s))
  exact ⟨_, h, ⟨SameControl.refl s, SameTable.refl s, ⟨rfl, rfl, rfl, rfl, rfl, rfl⟩, rfl, rfl⟩, rfl, counterValue_count s d⟩

/-! ### The tag of an answer (R98) -/

theorem taggedFetch_eq_some_iff {s : State} {src : EthAddr} {k : Nat} {g : Byte} {ft : Fetch} : taggedFetch s src k g = some ft ↔
    k ≤ 95 ∧ (slotAt s k).use = some ft ∧ (slotAt s k).generation = g ∧ src = (nodeAt s ft.node).addr := by
  have hk : k < Config.fetchSlots ↔ k ≤ 95 := Nat.lt_succ_iff
  unfold taggedFetch
  rw [← hk]
  split
  case isFalse h => simp [h]
  case isTrue h =>
    cases hu : (slotAt s k).use with
    | none => simp
    | some x =>
      simp only [Option.ite_none_right_eq_some, Option.some.injEq, h, true_and]
      constructor
      · rintro ⟨⟨hg, ha⟩, rfl⟩
        exact ⟨rfl, hg, ha⟩
      · rintro ⟨rfl, hg, ha⟩
        exact ⟨⟨hg, ha⟩, rfl⟩

/-- An answer that fails one of the three tests of R98 matches no fetch. -/
theorem taggedFetch_eq_none {s : State} {src : EthAddr} {k : Nat} {g : Byte}
    (h : 95 < k ∨ (slotAt s k).use = none ∨ (slotAt s k).generation ≠ g ∨ ∃ ft, (slotAt s k).use = some ft ∧ src ≠ (nodeAt s ft.node).addr) :
    taggedFetch s src k g = none := by
  refine Option.eq_none_iff_forall_ne_some.mpr fun ft hft => ?_
  obtain ⟨hk, hu, hg, ha⟩ := taggedFetch_eq_some_iff.mp hft
  rcases h with hk' | hu' | hg' | ⟨ft', hu', ha'⟩
  · exact absurd hk (Nat.not_le.mpr hk')
  · exact absurd (hu.symm.trans hu') (Option.some_ne_none ft)
  · exact hg' hg
  · cases hu.symm.trans hu'
    exact ha' ha

/-! ### The form of a chunk (R99) -/

theorem chunkForm_malformed {ft : Fetch} {c : DataChunk}
    (h : (c.length ≠ 4096 ∧ c.length ≠ 8192) ∨ c.offset % 4096 ≠ 0 ∨ ft.length < c.offset + c.length) : chunkForm ft c = .malformed := by
  unfold chunkForm
  split
  case isTrue => rfl
  case isFalse hform => exact if_pos ((or_assoc.mpr h).resolve_left hform)

/-- The blocks of a chunk of one or two blocks. -/
theorem mem_chunkBlocks_number {c : DataChunk} (hl : c.length = 4096 ∨ c.length = 8192) (b : Nat) :
    b ∈ (chunkBlocks c).map (fun x => x.1) ↔ b = c.offset / 4096 ∨ (c.length = 8192 ∧ b = c.offset / 4096 + 1) := by
  rcases hl with h | h <;> simp [chunkBlocks, h, List.range_succ]

/-- A well-formed chunk with a block that is already received is a duplicate. -/
theorem chunkForm_duplicate {ft : Fetch} {c : DataChunk} (hl : c.length = 4096 ∨ c.length = 8192) (ho : c.offset % 4096 = 0)
    (he : c.offset + c.length ≤ ft.length)
    (hb : ∃ b, b ∈ ft.blocks.map (fun x => x.1) ∧ (b = c.offset / 4096 ∨ (c.length = 8192 ∧ b = c.offset / 4096 + 1))) :
    chunkForm ft c = .duplicate := by
  have hform : ¬ ((c.length ≠ 4096 ∧ c.length ≠ 8192) ∨ c.offset % 4096 ≠ 0) := by
    omega
  have hany : (chunkBlocks c).any (fun b => (ft.blocks.map (fun x => x.1)).contains b.1) = true := by
    obtain ⟨b, hmem, hnum⟩ := hb
    obtain ⟨x, hx, rfl⟩ := List.mem_map.mp ((mem_chunkBlocks_number hl b).mpr hnum)
    exact List.any_eq_true.mpr ⟨x, hx, List.contains_iff_mem.mpr hmem⟩
  rw [chunkForm, if_neg hform, if_neg (Nat.not_lt.mpr he), if_pos hany]

/-! ### FETCH_DATA -/

theorem exec_fetchData (f : Frame) (s : State) : exec (.fetchData f []) s = commit s (onFetchData f s) := by
  rfl

/-- A FETCH_DATA whose whole change is one count is discarded. -/
theorem fetchData_counted {f : Frame} {d : Counter} {s : State} (h : onFetchData f s = count d s) :
    ∃ t, exec (.fetchData f []) s = .next t ∧ Quiet s t ∧ t.outputs = s.outputs ∧ counterValue d t = saturatingSucc (counterValue d s) := by
  rw [exec_fetchData, h]
  exact commit_count_quiet d s

theorem applyFetchData_of_untagged {f : Frame} {c : DataChunk} {s : State} (h : taggedFetch s f.src c.slot c.generation = none) :
    applyFetchData f c s = count .late s := by
  rw [applyFetchData, h]

theorem applyFetchData_of_malformed {f : Frame} {c : DataChunk} {ft : Fetch} {s : State}
    (h : taggedFetch s f.src c.slot c.generation = some ft) (hc : chunkForm ft c = .malformed) : applyFetchData f c s = count .malformed s := by
  simp only [applyFetchData, h, hc]

theorem applyFetchData_of_duplicate {f : Frame} {c : DataChunk} {ft : Fetch} {s : State}
    (h : taggedFetch s f.src c.slot c.generation = some ft) (hc : chunkForm ft c = .duplicate) : applyFetchData f c s = count .duplicate s := by
  simp only [applyFetchData, h, hc]

/-- Settles O42: in each case the change is one count, by the fence test, the tag or the form of the chunk. -/
theorem fetchDataDiscards : Obligations.FetchDataDiscards := by
  unfold Obligations.FetchDataDiscards
  intro f c s ha hb discards
  have hcount : ∀ {d}, onFetchData f s = count d s → discards d := fetchData_counted
  refine ⟨fun hf => hcount (nodeAnswer_of_fenced ha hf _ _), fun hf => ?_⟩
  have happly : onFetchData f s = applyFetchData f c s := nodeAnswer_of_readable ha hf hb _
  refine ⟨fun hlate => hcount (happly.trans (applyFetchData_of_untagged (taggedFetch_eq_none hlate))), fun ft hk hu hg hsrc => ?_⟩
  have htag : taggedFetch s f.src c.slot c.generation = some ft := taggedFetch_eq_some_iff.mpr ⟨hk, hu, hg, hsrc⟩
  exact ⟨fun hbad => hcount (happly.trans (applyFetchData_of_malformed htag (chunkForm_malformed hbad))),
    fun hl ho he hdup => hcount (happly.trans (applyFetchData_of_duplicate htag (chunkForm_duplicate hl ho he hdup)))⟩

end Sys2Proof.Machine

/-! SUPPORT. Every command is the end of a change of state: `effect` names the change, and what holds of `effect` and of the passing of time holds of
every step. -/

namespace Sys2Proof.Machine

/-! ### The change that a command makes -/

/-- The state of a command just before its end, where the interrupt messages follow (log entry 20). -/
def effect (c : Instr) (s : State) : State :=
  match c with
  | .coldReset => coldReset s
  | .warmReset => warmReset s
  | .define f mem => onDefine f (strike mem s)
  | .locate f mem => onLocate f (strike mem s)
  | .setClass f mem => onClass f (strike mem s)
  | .revise f mem => onRevise f (strike mem s)
  | .redirect f mem => onRedirect f (strike mem s)
  | .hold f mem => onHold f (strike mem s)
  | .resume f mem => onResume f (strike mem s)
  | .cancel f mem => onCancel f (strike mem s)
  | .retire f mem => onRetire f (strike mem s)
  | .watch f mem => onWatch f (strike mem s)
  | .fence f => onFence f s
  | .unfence f => onUnfence f s
  | .rosterSet f => onRosterSet f s
  | .rosterClear f => onRosterClear f s
  | .modeRequest f => onMode f s
  | .leaseTake f => onLeaseTake f s
  | .leaseRenew f => onLeaseRenew f s
  | .leaseRelease f => onLeaseRelease f s
  | .wake f => onWake f s
  | .unreadableFrame f => onRawFrame f s
  | .fetchData f mem => onFetchData f (strike mem s)
  | .fetchFail f => onFetchFail f s
  | .storeAck f mem => onStoreAck f (strike mem s)
  | .probeAck f => onProbeAck f s
  | .firstChunkTimerExpiry slot => firstChunkExpiry slot.val s
  | .streamTimerExpiry slot => streamExpiry slot.val s
  | .storeTimerExpiry lane target => storeExpiry lane target.val s
  | .probeTimerExpiry => probeExpiry s
  | .pacingTimerExpiry => pacingExpiry s
  | .leaseLapse => lapseLease s
  | .sendCompletion lane target attempt => sendCompleted lane target.val attempt s
  | .fetchIssue mem => issueFetch (strike mem s)
  | .storeAttemptBegin => handRoom s
  | .admission mem => admitOne (strike mem s)
  | .drainEnd => endDrain s
  | .linkUp p => linkGoesUp p s
  | .linkDown p => linkGoesDown p s
  | .msiEnableChange enable => changeMsiEnable enable s
  | .modeWrite code => writeMode code s
  | .portWrite p code => writePort p code s
  | .addressLowWrite p low => writeAddressLow p low s
  | .addressHighWrite p high => writeAddressHigh p high s
  | .etherTypeWrite value => writeEtherType value s
  | .pacingSettingWrite which value => writePacing which value.toNat s
  | .probePeriodWrite value => writeProbePeriod value.toNat s
  | .reserveWrite value => writeReserve value.toNat s
  | .leaseSettingWrite which value => writeLeaseSetting which value.toNat s
  | .eventFlagsWrite mask => clearFlags mask s
  | .eventEnablesWrite mask => writeEnables mask s
  | .eventClassesWrite mask => writeClasses mask s
  | .globalEnableWrite enable => writeGlobalEnable enable s
  | .counterClear c => clearCounter c s
  | .peekSet number cnt => writePeek number cnt s
  | .peekGo number cnt => startPeek number cnt s
  | .peekCompletion mem => completePeek (strike mem s)
  | .windowWrite offset value => writeWindow offset.toNat value s
  | .storeChunkSent lane target attempt => chunkLeft lane target.val attempt s

theorem exec_eq_commit (c : Instr) (s : State) : exec c s = commit s (effect c s) := by
  cases c <;> rfl

/-- A step is the passing of time, or the end of the change that the front command makes. -/
theorem step_cases {s t : State} (h : step s = .next t) :
    (s.pending = [] ∧ t = tick s)
      ∨ ∃ c rest, s.pending = c :: rest ∧ commit { s with pending := rest } (effect c { s with pending := rest }) = .next t := by
  unfold step at h
  split at h
  · rename_i hp
    cases h
    exact .inl ⟨hp, rfl⟩
  · rename_i c rest hp
    exact .inr ⟨c, rest, hp, (exec_eq_commit c _).symm.trans h⟩

/-- The queue of commands stands in no law of the state. -/
theorem pending_kept (ps : List Instr) (s : State) : Kept s { s with pending := ps } :=
  Kept.of_same rfl rfl (fun _ => rfl) rfl rfl rfl rfl ⟨rfl, rfl, rfl, rfl, rfl, rfl, rfl⟩

/-! ### The passing of time keeps the laws -/

theorem tick_laneClass (s : State) (i : Fin 8) : laneClass (tick s) i = laneClass s i := by
  rw [laneClass, laneClass, tick_laneAt, Option.map_map]
  rfl

theorem tick_kept (s : State) : Kept s (tick s) := by
  have hb : backgroundLanes (tick s) = backgroundLanes s := by
    simp only [backgroundLanes_eq, tick_laneClass]
  refine ⟨⟨fun h => ⟨fun hm => ?_, h.2⟩, id, LaneModeLaw.of_same rfl fun i => ?_, PlacedLaw.of_same rfl, ?_,
    fun _ => ReserveLaw.of_le (Nat.le_of_eq hb) rfl⟩, Collected.of_same rfl rfl rfl rfl⟩
  · exact (Option.isSome_map ..).trans (h.1 hm)
  · rw [tick_laneAt, Option.isNone_map]
  · rintro ⟨h1, h2, h3, h4, h5, h6⟩
    refine ⟨h1, h2, h3, h4, h5, Sparse.map_wf h6 tickSlot fun e he => tickSlot_ne (h6.2 e he)⟩

/-! ### The laws after a cold reset -/

theorem coldReset_liveAt (s : State) (n : Nat) : liveAt (coldReset s) n = none := rfl

theorem coldReset_not_live {s : State} {n : Nat} {l : Live} (h : liveAt (coldReset s) n = some l) : False :=
  nomatch (coldReset_liveAt s n).symm.trans h

theorem coldReset_laneAt (s : State) (i : Fin 8) : laneAt (coldReset s) i = none := by
  unfold laneAt coldReset State.reset
  exact Vector.getElem_replicate i.isLt

theorem coldReset_not_busy {s : State} {i : Fin 8} {j : Job} (h : laneAt (coldReset s) i = some j) : False :=
  nomatch (coldReset_laneAt s i).symm.trans h

theorem coldReset_allIdle (s : State) : allIdle (coldReset s) = true :=
  (allIdle_iff _).mpr (coldReset_laneAt s)

theorem coldReset_authority (s : State) : AuthorityLaw (coldReset s) :=
  ⟨fun h => absurd h (show ¬ Mode.dormant = .rebuild by decide), rfl⟩

theorem coldReset_budget (s : State) : BudgetLaw (coldReset s) :=
  (by decide : (1048576 : Nat) ≤ 4096 * 16 ^ 1 * 16)

theorem coldReset_laneMode (s : State) : LaneModeLaw (coldReset s) :=
  ⟨fun _ => coldReset_allIdle s, fun h => absurd h (show ¬ Mode.dormant = .drain by decide)⟩

theorem coldReset_canonical (s : State) : CanonicalTables (coldReset s) :=
  ⟨Sparse.nil_wf _, Sparse.nil_wf _, Sparse.nil_wf _, Sparse.nil_wf _, Sparse.nil_wf _, Sparse.nil_wf _⟩

theorem coldReset_placed (s : State) : PlacedLaw (coldReset s) :=
  fun _ _ h => (coldReset_not_live h).elim

theorem coldReset_reserve (s : State) : ReserveLaw (coldReset s) :=
  ReserveLaw.of_idle (coldReset_allIdle s)

/-- After a cold reset the free list holds every number, in order (R34). -/
theorem coldReset_freeNumbers (s : State) : freeNumbers (coldReset s) = List.range 65536 := by
  have h : ∀ k ∈ List.range 65536, ((0 : BitVec 16) + BitVec.ofNat 16 k).toNat = k := fun k hk => by
    have hk := List.mem_range.mp hk
    rw [show (0 : BitVec 16) + BitVec.ofNat 16 k = BitVec.ofNat 16 k from BitVec.zero_add _, BitVec.toNat_ofNat]
    exact Nat.mod_eq_of_lt hk
  exact (List.map_congr_left h).trans (List.map_id _)

theorem coldReset_freeList (s : State) : FreeListLaw (coldReset s) := by
  have htail : (0 : BitVec 16) = 0 + BitVec.ofNat 16 (65536 - 0) := by decide
  refine ⟨rfl, fun _ _ h => (coldReset_not_live h).elim, htail, ?_, fun n => ?_⟩
  · rw [coldReset_freeNumbers]
    exact List.nodup_range
  · rw [coldReset_freeNumbers, List.mem_range]
    exact ⟨fun h => ⟨h, coldReset_liveAt s n⟩, fun h => h.1⟩

theorem coldReset_index (s : State) : IndexLaw (coldReset s) :=
  ⟨fun _ _ h => (coldReset_not_live h).elim, fun _ _ _ _ h => absurd h (Option.some_ne_none _).symm,
    fun _ _ _ _ h => (coldReset_not_live h).elim⟩

/-- With no live record and no busy lane there is no work. -/
theorem coldReset_work (s : State) : WorkLaws (coldReset s) := by
  have hstore : ∀ i q, storeAt (coldReset s) i q = none := fun i q => by
    rw [storeAt, coldReset_laneAt]
  have hslots : ∀ ls k, fetchesOn (coldReset s) ls k = 0 := fun ls k =>
    List.countP_eq_zero.mpr fun _ _ => Bool.false_ne_true
  have hstores : ∀ k, storesOn (coldReset s) laneNumbers k = 0 := fun k => by
    simp [storesOn, coldReset_laneAt, laneNumbers]
  constructor
  · exact fun n l h => (coldReset_not_live h).elim
  · exact ⟨List.nodup_nil, List.nodup_nil, fun n => ⟨fun h => (List.not_mem_nil h).elim, fun ⟨l, h, _⟩ => (coldReset_not_live h).elim⟩,
      fun n => ⟨fun h => (List.not_mem_nil h).elim, fun ⟨l, h, _⟩ => (coldReset_not_live h).elim⟩⟩
  · exact ⟨⟨fun _ => List.nodup_nil, fun k n => ⟨fun h => (List.not_mem_nil h).elim, fun ⟨l, h, _⟩ => (coldReset_not_live h).elim⟩⟩,
      fun n l k h => (coldReset_not_live h).elim⟩
  · exact ⟨⟨fun i j h => (coldReset_not_busy h).elim, fun i i' j j' h => (coldReset_not_busy h).elim⟩, fun i j h => (coldReset_not_busy h).elim, fun n l h => (coldReset_not_live h).elim⟩
  · exact ⟨fun k ft h => absurd h (Option.some_ne_none ft).symm, fun i j l h => (coldReset_not_busy h).elim⟩
  · refine ⟨fun i j l h => (coldReset_not_busy h).elim, List.nodup_nil, fun i q => ⟨fun h => (List.not_mem_nil h).elim, fun ⟨j, st, h, _⟩ => ?_⟩⟩
    exact nomatch (hstore i q).symm.trans h
  · exact ⟨fun k => rfl, fun n l k h => (coldReset_not_live h).elim⟩
  · exact fun k => ⟨by rw [hslots, hstores]; rfl, fun _ => rfl⟩

theorem coldReset_kept (s : State) : Kept s (coldReset s) :=
  ⟨⟨fun _ => coldReset_authority s, fun _ => coldReset_budget s, fun _ => coldReset_laneMode s, fun _ => coldReset_placed s,
    fun _ => coldReset_canonical s, fun _ _ => coldReset_reserve s⟩, fun _ _ _ => ⟨coldReset_freeList s, coldReset_index s⟩⟩

/-! ### Every change keeps the laws -/

/-- Every change but an admission keeps every law by itself. -/
theorem effect_kept {c : Instr} (h : ∀ mem, c ≠ .admission mem) (s : State) : Kept s (effect c s) := by
  have struck : ∀ (mem : List Damage) {g : State → State}, (∀ u, Kept u (g u)) → Kept s (g (strike mem s)) := fun mem g hg =>
    (strike_kept mem s).trans (hg _)
  have hevents : ∀ e : Events, Kept s { s with events := e } := fun e => events_kept (o := s.outputs)
  cases c with
  | coldReset => exact coldReset_kept s
  | warmReset => exact warmReset_kept s
  | define f mem => exact struck mem (onDefine_kept f)
  | locate f mem => exact struck mem (onLocate_kept f)
  | setClass f mem => exact struck mem (onClass_kept f)
  | revise f mem => exact struck mem (onRevise_kept f)
  | redirect f mem => exact struck mem (onRedirect_kept f)
  | hold f mem => exact struck mem (onHold_kept f)
  | resume f mem => exact struck mem (onResume_kept f)
  | cancel f mem => exact struck mem (onCancel_kept f)
  | retire f mem => exact struck mem (onRetire_kept f)
  | watch f mem => exact struck mem (onWatch_kept f)
  | fence f => exact onFence_kept f s
  | unfence f => exact onUnfence_kept f s
  | rosterSet f => exact onRosterSet_kept f s
  | rosterClear f => exact onRosterClear_kept f s
  | modeRequest f => exact onMode_kept f s
  | leaseTake f => exact onLeaseTake_kept f s
  | leaseRenew f => exact onLeaseRenew_kept f s
  | leaseRelease f => exact onLeaseRelease_kept f s
  | wake f => exact onWake_kept f s
  | unreadableFrame f => exact onRawFrame_kept f s
  | fetchData f mem => exact struck mem (onFetchData_kept f)
  | fetchFail f => exact onFetchFail_kept f s
  | storeAck f mem => exact struck mem (onStoreAck_kept f)
  | probeAck f => exact onProbeAck_kept f s
  | firstChunkTimerExpiry slot => exact firstChunkExpiry_kept slot.val s
  | streamTimerExpiry slot => exact streamExpiry_kept slot.val s
  | storeTimerExpiry lane target => exact storeExpiry_kept lane target.val s
  | probeTimerExpiry => exact probeExpiry_kept s
  | pacingTimerExpiry => exact pacingExpiry_kept s
  | leaseLapse => exact lapseLease_kept s
  | sendCompletion lane target attempt => exact sendCompleted_kept lane target.val attempt s
  | fetchIssue mem => exact struck mem issueFetch_kept
  | storeAttemptBegin => exact handRoom_kept s
  | admission mem => exact absurd rfl (h mem)
  | drainEnd => exact endDrain_kept s
  | linkUp p => exact linkGoesUp_kept p s
  | linkDown p => exact linkGoesDown_kept p s
  | msiEnableChange enable => exact changeMsiEnable_kept enable s
  | modeWrite code => exact writeMode_kept code s
  | portWrite p code => exact writePort_kept p code s
  | addressLowWrite p low => exact writeAddressLow_kept p low s
  | addressHighWrite p high => exact writeAddressHigh_kept p high s
  | etherTypeWrite value => exact writeEtherType_kept value s
  | pacingSettingWrite which value => exact writePacing_kept which value.toNat s
  | probePeriodWrite value => exact writeProbePeriod_kept value.toNat s
  | reserveWrite value => exact writeReserve_kept value.toNat s
  | leaseSettingWrite which value => exact writeLeaseSetting_kept which value.toNat s
  | eventFlagsWrite mask => exact hevents _
  | eventEnablesWrite mask => exact hevents _
  | eventClassesWrite mask => exact hevents _
  | globalEnableWrite enable => exact hevents _
  | counterClear c => exact clearCounter_kept c s
  | peekSet number cnt => exact writePeek_kept number cnt s
  | peekGo number cnt => exact startPeek_kept number cnt s
  | peekCompletion mem => exact struck mem completePeek_kept
  | windowWrite offset value => exact writeWindow_kept offset.toNat value s
  | storeChunkSent lane target attempt => exact chunkLeft_kept lane target.val attempt s

theorem effect_admits (c : Instr) (s : State) : Admits s (effect c s) := by
  by_cases h : ∃ mem, c = .admission mem
  · obtain ⟨mem, rfl⟩ := h
    exact (strike_kept mem s).admits.trans (admitOne_admits _)
  · exact (effect_kept (fun mem hc => h ⟨mem, hc⟩) s).admits

theorem strikeOne_eq (d : Damage) (s : State) : ∃ m, strikeOne d s = { s with dram := m } := by
  unfold strikeOne
  split <;> exact ⟨_, rfl⟩

/-- Damage changes the health of words, and nothing else. -/
theorem strike_eq (mem : List Damage) (s : State) : ∃ m, strike mem s = { s with dram := m } := by
  unfold strike
  induction mem generalizing s with
  | nil => exact ⟨_, rfl⟩
  | cons d mem ih =>
    obtain ⟨m, hm⟩ := strikeOne_eq d s
    obtain ⟨m', hm'⟩ := ih (strikeOne d s)
    exact ⟨m', by rw [List.foldl_cons, hm', hm]⟩

theorem strike_liveAt (mem : List Damage) (s : State) (n : Nat) : liveAt (strike mem s) n = liveAt s n := by
  obtain ⟨m, hm⟩ := strike_eq mem s
  rw [hm]
  rfl

theorem strike_fgQueue (mem : List Damage) (s : State) : (strike mem s).fgQueue = s.fgQueue := by
  obtain ⟨m, hm⟩ := strike_eq mem s
  rw [hm]

/-- An admission keeps the reserve's law by the law of the queues: the head of the Foreground Queue is of class FOREGROUND (R114, R117). -/
theorem effect_reserve {c : Instr} {s : State} (hm : LaneModeLaw s) (hq : QueueLaw s) (hr : ReserveLaw s) : ReserveLaw (effect c s) := by
  by_cases h : ∃ mem, c = .admission mem
  · obtain ⟨mem, rfl⟩ := h
    refine admitOne_reserve (fun n q l hf hl => ?_) ((strike_kept mem s).reserve hm hr)
    obtain ⟨-, -, hfg, -⟩ := hq
    rw [strike_fgQueue] at hf
    obtain ⟨l', hl', -, hc⟩ := (hfg n).mp (by rw [hf]; exact List.mem_cons_self)
    rw [strike_liveAt, hl'] at hl
    cases hl
    exact hc
  · exact (effect_kept (fun mem hc => h ⟨mem, hc⟩) s).reserve hm hr

/-- The end of a command keeps what its change keeps. -/
theorem commit_keeps {P : State → Prop} (hP : ∀ u v, Kept u v → P u → P v) {old u t : State} (h : commit old u = .next t) (hu : P u) : P t := by
  obtain ⟨pu, pr, out, hc⟩ := commit_eq old u
  rw [hc] at h
  cases h
  exact hP _ _ events_kept hu

/-- Every step but an admission's reserve keeps the laws that a change keeps. -/
theorem step_admits {s t : State} (h : step s = .next t) : Admits s t := by
  obtain ⟨-, rfl⟩ | ⟨c, rest, -, hc⟩ := step_cases h
  · exact (tick_kept s).admits
  · refine (pending_kept rest s).admits.trans ((effect_admits c _).trans ?_)
    exact commit_keeps (fun u v hk ha => ha.trans hk.admits) hc (Kept.refl _).admits

theorem step_reserve {s t : State} (h : step s = .next t) (hm : LaneModeLaw s) (hq : QueueLaw s) (hr : ReserveLaw s) : ReserveLaw t := by
  obtain ⟨-, rfl⟩ | ⟨c, rest, -, hc⟩ := step_cases h
  · exact (tick_kept s).reserve hm hr
  · have hm' := (effect_admits c { s with pending := rest }).laneMode hm
    exact (commit_keeps (P := fun u => LaneModeLaw u ∧ ReserveLaw u) (fun u v hk ⟨a, b⟩ => ⟨hk.laneMode a, hk.reserve a b⟩) hc
      ⟨hm', effect_reserve hm hq hr⟩).2

/-! ### The obligations on the laws of reset, of control, of the placed counts and of the tables -/

/-- Settles O57: what a cold reset leaves is the reset state. -/
theorem lawsHoldAtReset : Obligations.LawsHoldAtReset :=
  ⟨coldReset_authority State.reset, coldReset_budget State.reset, coldReset_laneMode State.reset, coldReset_placed State.reset,
    coldReset_canonical State.reset, coldReset_reserve State.reset, coldReset_freeList State.reset, coldReset_index State.reset,
    coldReset_work State.reset⟩

/-- Settles O58: the laws of control are kept by each change, the reserve's over the law of the queues. -/
theorem controlLawsAreKept : Obligations.ControlLawsAreKept := fun _ _ h =>
  ⟨(step_admits h).authority, (step_admits h).budget, (step_admits h).laneMode, step_reserve h⟩

/-- Settles O59, by the change of each command. -/
theorem placedCountsAreKept : Obligations.PlacedCountsAreKept := fun _ _ h => (step_admits h).placed

/-- Settles O60, by the change of each command. -/
theorem canonicalTablesAreKept : Obligations.CanonicalTablesAreKept := fun _ _ h =>
  ⟨(step_admits h).canonical, (step_admits h).collections⟩

/-! ### The obligation on what a step is -/

theorem Sparse.get_map {α : Type} {d : Nat → α} {g : α → α} (hg : ∀ k, g (d k) = d k) (m : Sparse α) (k : Nat) :
    Sparse.get d (m.map (fun e => (e.1, g e.2))) k = g (Sparse.get d m k) := by
  induction m with
  | nil => exact (hg k).symm
  | cons e m ih =>
    simp only [List.map_cons, Sparse.get]
    split
    · rfl
    · exact ih

theorem tick_slotAt (s : State) (k : Nat) : slotAt (tick s) k = tickSlot (slotAt s k) :=
  Sparse.get_map (d := freeSlot) (g := tickSlot) (fun _ => rfl) s.fetch k

theorem tickJob_of_gather {j : Job} (h : j.phase = .gather) : tickJob j = j := by
  obtain ⟨⟩ := j
  cases h
  rfl

theorem tickJob_of_place {j : Job} {ss : List Store} (h : j.phase = .place ss) : tickJob j = { j with phase := .place (ss.map tickStore) } := by
  rw [tickJob, h]

/-- Settles O1: the front command by the definition of a step, and the passing of time field by field. -/
theorem stepRunsTheFrontCommand : Obligations.StepRunsTheFrontCommand := by
  refine ⟨fun c rest s h => by rw [step, h], fun s h => ⟨tick s, by rw [step, h], rfl, rfl, fun k => ?_, fun k ft hk => ?_, fun k hk => ?_,
    fun i hi => ?_, fun i j hj hp => ?_, fun i j ss hj hp => ?_, fun g hg => ?_, fun hg => ?_, h, rfl, SameTable.refl s, rfl,
    SameQueues.refl s, rfl, rfl, rfl, rfl, rfl, rfl, rfl, rfl, rfl, rfl, rfl, rfl, rfl, rfl⟩⟩
  · rw [tick_slotAt, tickSlot]
  · rw [tick_slotAt, tickSlot, hk]
    rfl
  · rw [tick_slotAt, tickSlot, hk]
    rfl
  · rw [tick_laneAt, hi]
    rfl
  · rw [tick_laneAt, hj, Option.map_some, tickJob_of_gather hp]
  · rw [tick_laneAt, hj, Option.map_some, tickJob_of_place hp]
    rfl
  · simp only [tick, hg]
    rfl
  · simp only [tick, hg, Option.map_none]

end Sys2Proof.Machine

/-! SUPPORT. The queue of commands is left to the step (log entry 1): no change of a command touches it. -/

namespace Sys2Proof.Machine

/-! ### The shared operations leave the queue of commands -/

theorem Moved.pending {s t : State} (h : Moved s t) : t.pending = s.pending := h.control.1

theorem strike_pending (mem : List Damage) (s : State) : (strike mem s).pending = s.pending := (strike_steady mem s).pending

@[simp] theorem answer_pending (a : Asker) (k : Byte) (st : Status) (fl : Byte) (r : List Byte) (s : State) :
    (answer a k st fl r s).pending = s.pending := (answer_steady a k st fl r s).pending

@[simp] theorem reply_pending (f : Frame) (k : Kind) (st : Status) (r : List Byte) (s : State) : (reply f k st r s).pending = s.pending :=
  (reply_steady f k st r s).pending

@[simp] theorem settle_pending (s : State) : (settle s).pending = s.pending := (settle_handed s).control.1

@[simp] theorem finish_pending (f : Frame) (k : Kind) (st : Status) (r : List Byte) (s : State) : (finish f k st r s).pending = s.pending :=
  (reply_pending ..).trans (settle_pending s)

@[simp] theorem applied_pending (f : Frame) (k : Kind) (n : Nat) (s : State) : (applied f k n s).pending = s.pending :=
  finish_pending ..

@[simp] theorem readFields_pending (n : Nat) (fs : List RecField) (s : State) : (readFields n fs s).2.pending = s.pending :=
  (readFields_steady n fs s).pending

@[simp] theorem readWord_pending (w : TableWord) (s : State) : (readWord w s).2.pending = s.pending := (readWord_steady w s).pending

@[simp] theorem writeFields_pending (n : Nat) (fs : List RecField) (s : State) : (writeFields n fs s).pending = s.pending :=
  (writeFields_steady n fs s).pending

@[simp] theorem requestRead_pending (n : Nat) (ids work : List RecField) (s : State) : (requestRead n ids work s).2.pending = s.pending := by
  have h := (readRecordFields_steady n ids work s).pending
  unfold requestRead
  simp only
  split
  · exact h
  · exact (settle_pending _).trans h

@[simp] theorem readWork_pending (n : Nat) (work : List RecField) (s : State) : (readWork n work s).2.pending = s.pending :=
  requestRead_pending ..

@[simp] theorem enterWaiting_pending (n : Nat) (s : State) : (enterWaiting n s).pending = s.pending := (enterWaiting_steady n s).pending

@[simp] theorem enterHeld_pending (n : Nat) (c : HoldCause) (s : State) : (enterHeld n c s).pending = s.pending := (enterHeld_steady n c s).pending

@[simp] theorem enterFree_pending (n : Nat) (s : State) : (enterFree n s).pending = s.pending := (enterFree_moved n s).pending

@[simp] theorem adjustRefs_pending (old new : List Nat) (s : State) : (adjustRefs old new s).pending = s.pending :=
  (adjustRefs_steady old new s).pending

@[simp] theorem raiseRefs_pending (ks : List Nat) (s : State) : (raiseRefs ks s).pending = s.pending := (raiseRefs_steady ks s).pending

@[simp] theorem joinQueue_pending (n : Nat) (c : RecordClass) (s : State) : (joinQueue n c s).pending = s.pending :=
  (joinQueue_steady n c s).pending

@[simp] theorem leaveHolder_pending (n : Nat) (l : Live) (s : State) : (leaveHolder n l s).pending = s.pending :=
  (leaveHolder_steady n l s).pending

@[simp] theorem returnAllLanes_pending (s : State) : (returnAllLanes s).pending = s.pending := (returnAllLanes_steady s).pending

@[simp] theorem handRoom_pending (s : State) : (handRoom s).pending = s.pending := (handRoom_steady s).pending

@[simp] theorem setMode_pending (m : Mode) (s : State) : (setMode m s).pending = s.pending := (setMode_handed m s).control.1

@[simp] theorem endDrain_pending (s : State) : (endDrain s).pending = s.pending := (endDrain_handed s).control.1

theorem foldl_pending {β : Type} {f : State → β → State} (h : ∀ s b, (f s b).pending = s.pending) (bs : List β) (s : State) :
    (bs.foldl f s).pending = s.pending := by
  induction bs generalizing s with
  | nil => rfl
  | cons b bs ih => exact (ih _).trans (h s b)

/-! ### The way of a frame leaves the queue of commands -/

theorem receive_pending {f : Frame} {act : State → State} (h : ∀ s, (act s).pending = s.pending) (s : State) :
    (receive f act s).pending = s.pending := by
  unfold receive
  split
  · split
    · rfl
    · exact h s
  · rfl

theorem request_pending {ρ : Type} {k : Kind} {b : Bool} {f : Frame} {body : Option ρ} {act : ρ → State → State}
    (h : ∀ r s, (act r s).pending = s.pending) (s : State) : (request k b f body act s).pending = s.pending := by
  refine receive_pending (fun s => ?_) s
  split
  · exact reply_pending ..
  · split
    · exact reply_pending ..
    · exact h _ s

theorem nodeAnswer_pending {ρ : Type} {f : Frame} {body : Option ρ} {act : ρ → State → State}
    (h : ∀ r s, (act r s).pending = s.pending) (s : State) : (nodeAnswer f body act s).pending = s.pending := by
  refine receive_pending (fun s => ?_) s
  split
  · rfl
  · split
    · rfl
    · exact h _ s

theorem identify_pending (r : RecordName) (s : State) : (identify r s).2.pending = s.pending := by
  unfold identify
  split
  · simp only
    split
    · simp
    · split <;> simp
  · split
    · rfl
    · simp only
      split
      · simp
      · split <;> simp

theorem onRecord_pending {f : Frame} {k : Kind} {r : RecordName} {act : Live → State → State}
    (h : ∀ l s, (act l s).pending = s.pending) (s : State) : (onRecord f k r act s).pending = s.pending := by
  have hi := identify_pending r s
  unfold onRecord
  split
  · rename_i hx
    rw [hx] at hi
    exact (reply_pending ..).trans hi
  · rename_i hx
    rw [hx] at hi
    exact (h ..).trans hi

/-! ### The record requests leave the queue of commands -/

@[simp] theorem lookup_pending (key : StripeKey) (s : State) : (lookup key s).2.pending = s.pending := by
  unfold lookup
  generalize ({ hit := none, empty := none, unreadable := false } : Lookup) = a
  generalize List.range Config.waysPerBucket = ws
  induction ws generalizing a s with
  | nil => rfl
  | cons w ws ih =>
    have hw : (lookupWay key (bucketOf key) (a, s) w).2.pending = s.pending := by
      unfold lookupWay
      simp only
      split
      · split <;> simp
      · simp
    exact (ih _ _).trans hw

@[simp] theorem setWatch_pending (n : Nat) (w : Option Watch) (s : State) : (setWatch n w s).pending = s.pending := by
  unfold setWatch
  split <;> simp

@[simp] theorem createRecord_pending (n : Nat) (g : Generation) (l : Live) (s : State) : (createRecord n g l s).pending = s.pending := by
  unfold createRecord
  simp only
  split <;> simp

theorem defineChecked_pending (f : Frame) (r : DefineReq) (c : RecordClass) (e : Option Edge) (s : State) :
    (defineChecked f r c e s).pending = s.pending := by
  unfold defineChecked
  simp only
  split
  · simp
  · split
    · split
      · simp
      · split <;> simp
    · simp

theorem onDefine_pending (f : Frame) (s : State) : (onDefine f s).pending = s.pending := by
  refine request_pending (fun r s => ?_) s
  unfold applyDefine
  split
  · split
    · exact reply_pending ..
    · split
      · exact reply_pending ..
      · split
        · exact reply_pending ..
        · exact defineChecked_pending ..
  · exact reply_pending ..

@[simp] theorem changeClass_pending (n : Nat) (l : Live) (c : RecordClass) (s : State) : (changeClass n l c s).pending = s.pending := by
  unfold changeClass
  split
  · rfl
  · split <;> simp

theorem onClass_pending (f : Frame) (s : State) : (onClass f s).pending = s.pending := by
  refine request_pending (fun r s => ?_) s
  split
  · exact reply_pending ..
  · exact onRecord_pending (fun l s => (reply_pending ..).trans (changeClass_pending ..)) s

theorem locateOk_pending (f : Frame) (n : Nat) (frag : Option Byte) (s : State) : (locateOk f n frag s).pending = s.pending := by
  unfold locateOk
  split
  · exact reply_pending ..
  · simp only
    split <;> split <;> simp

theorem onLocate_pending (f : Frame) (s : State) : (onLocate f s).pending = s.pending := by
  refine request_pending (fun r s => ?_) s
  unfold applyLocate
  simp only
  split
  · simp
  · unfold locateFound
    simp only
    split
    · simp
    · split
      · simp
      · simp [locateOk_pending]

theorem onRevise_pending (f : Frame) (s : State) : (onRevise f s).pending = s.pending := by
  refine request_pending (fun r s => onRecord_pending (fun l s => ?_) s) s
  have hq : ∀ n u, (requeueRevised n l u).pending = u.pending := fun n u => by
    unfold requeueRevised
    split <;> simp
  unfold applyRevise
  simp only
  split
  · simp
  · split
    · simp
    · split
      · simp
      · split <;> simp [hq, replaceSources, setLive]

theorem onRedirect_pending (f : Frame) (s : State) : (onRedirect f s).pending = s.pending := by
  refine request_pending (fun r s => onRecord_pending (fun l s => ?_) s) s
  have hq : ∀ n u, (requeueRedirected n l u).pending = u.pending := fun n u => by
    unfold requeueRedirected
    split <;> simp
  unfold applyRedirect
  simp only
  split
  · simp
  · split
    · simp
    · split
      · simp
      · split
        · simp
        · split <;> simp [hq, replaceTargets, setLive]

theorem onHold_pending (f : Frame) (s : State) : (onHold f s).pending = s.pending := by
  refine request_pending (fun r s => onRecord_pending (fun l s => ?_) s) s
  unfold applyHold
  split <;> simp

theorem onResume_pending (f : Frame) (s : State) : (onResume f s).pending = s.pending := by
  refine request_pending (fun r s => onRecord_pending (fun l s => ?_) s) s
  unfold applyResume
  split
  · simp
  · simp only
    split
    · simp
    · split <;> simp
  · simp

theorem onCancel_pending (f : Frame) (s : State) : (onCancel f s).pending = s.pending := by
  refine request_pending (fun r s => onRecord_pending (fun l s => ?_) s) s
  unfold applyCancel
  simp only
  split <;> simp

theorem onRetire_pending (f : Frame) (s : State) : (onRetire f s).pending = s.pending := by
  refine request_pending (fun r s => onRecord_pending (fun l s => ?_) s) s
  unfold applyRetire
  split <;> simp

theorem onWatch_pending (f : Frame) (s : State) : (onWatch f s).pending = s.pending := by
  refine request_pending (fun r s => ?_) s
  split
  · simp
  · exact onRecord_pending (fun l s => by simp [applyWatch]) s

/-! ### The roster leaves the queue of commands -/

theorem onRosterSet_pending (f : Frame) (s : State) : (onRosterSet f s).pending = s.pending := by
  refine request_pending (fun r s => ?_) s
  unfold applyRosterSet rosterSetOk
  split
  · simp
  · split
    · simp
    · split
      · simp
      · split
        · simp
        · split <;> simp

theorem onRosterClear_pending (f : Frame) (s : State) : (onRosterClear f s).pending = s.pending := by
  refine request_pending (fun r s => ?_) s
  unfold applyRosterClear rosterClearOk
  split
  · simp
  · split <;> simp

theorem onFence_pending (f : Frame) (s : State) : (onFence f s).pending = s.pending := by
  refine request_pending (fun r s => ?_) s
  unfold applyFence
  split
  · simp
  · exact (finish_pending ..).trans (fenceSlots_steady _ s).pending

theorem onUnfence_pending (f : Frame) (s : State) : (onUnfence f s).pending = s.pending := by
  refine request_pending (fun r s => ?_) s
  unfold applyUnfence
  split
  · simp
  · exact (reply_pending ..).trans (foldl_pending (f := unfenceSlot) (fun _ _ => rfl) _ s)

theorem probeExpiry_pending (s : State) : (probeExpiry s).pending = s.pending := by
  unfold probeExpiry
  split
  · refine foldl_pending (fun u k => ?_) _ (startProbeTimer s)
    unfold sendProbe
    split <;> rfl
  · rfl

theorem onProbeAck_pending (f : Frame) (s : State) : (onProbeAck f s).pending = s.pending := by
  refine nodeAnswer_pending (fun a s => ?_) s
  unfold applyProbeAck
  split
  · rfl
  · split
    · refine (settle_pending _).trans ?_
      exact foldl_pending (fun u n => enterWaiting_pending n u) _ _
    · split <;> rfl

/-! ### Modes, ports, links, wake and the lease leave the queue of commands -/

@[simp] theorem changeMode_pending (m : Mode) (s : State) : (changeMode m s).pending = s.pending := by
  unfold changeMode
  split <;> simp [leaveDormant, enterDormant, enterDrain, cutDrain]

theorem onMode_pending (f : Frame) (s : State) : (onMode f s).pending = s.pending := by
  refine request_pending (fun code s => ?_) s
  unfold applyMode
  split
  · simp
  · split
    · simp
    · split <;> simp

theorem takenWake_pending (f : Frame) (s : State) : (takenWake f s).pending = s.pending := by
  unfold takenWake
  split
  · split <;> simp [leaveDormant]
  · split <;> simp

theorem onWake_pending (f : Frame) (s : State) : (onWake f s).pending = s.pending := by
  unfold onWake
  split
  · exact takenWake_pending f s
  · rfl

theorem writeMode_pending (c : Byte) (s : State) : (writeMode c s).pending = s.pending := by
  unfold writeMode
  split
  · rfl
  · split <;> simp

theorem writePort_pending (p : Port) (c : BitVec 2) (s : State) : (writePort p c s).pending = s.pending := by
  unfold writePort
  split
  · rfl
  · split <;> simp [withPortState]

theorem writeAddressHigh_pending (p : Port) (high : BitVec 16) (s : State) : (writeAddressHigh p high s).pending = s.pending := by
  unfold writeAddressHigh
  simp only
  split <;> simp

theorem writeEtherType_pending (v : BitVec 16) (s : State) : (writeEtherType v s).pending = s.pending := by
  unfold writeEtherType
  split <;> rfl

theorem linkGoesUp_pending (p : Port) (s : State) : (linkGoesUp p s).pending = s.pending := by
  unfold linkGoesUp
  split <;> simp

theorem linkGoesDown_pending (p : Port) (s : State) : (linkGoesDown p s).pending = s.pending := by
  unfold linkGoesDown
  simp only
  split
  · split <;> simp
  · rfl

theorem endLease_pending (e : Event) (s : State) : (endLease e s).pending = s.pending := by
  unfold endLease
  simp only
  split <;> simp [enterDrain]

theorem onLeaseTake_pending (f : Frame) (s : State) : (onLeaseTake f s).pending = s.pending := by
  refine request_pending (fun _ s => ?_) s
  unfold applyLeaseTake
  split <;> simp [leaseReply]

theorem onLeaseRenew_pending (f : Frame) (s : State) : (onLeaseRenew f s).pending = s.pending := by
  refine request_pending (fun _ s => ?_) s
  unfold applyLeaseRenew
  split
  · simp [leaseReply]
  · split <;> simp [leaseReply]

theorem onLeaseRelease_pending (f : Frame) (s : State) : (onLeaseRelease f s).pending = s.pending := by
  refine request_pending (fun _ s => ?_) s
  unfold applyLeaseRelease
  split <;> simp [leaseReply, endLease_pending]

theorem lapseLease_pending (s : State) : (lapseLease s).pending = s.pending := by
  unfold lapseLease
  split
  · rfl
  · split
    · exact endLease_pending ..
    · rfl

theorem writeLeaseSetting_pending (which : LeaseSetting) (v : Nat) (s : State) : (writeLeaseSetting which v s).pending = s.pending := by
  unfold writeLeaseSetting
  simp only
  split
  · split <;> rfl
  · rfl

/-! ### The Fetch Unit, the lanes and the stores leave the queue of commands -/

theorem sendFetch_pending (k : Nat) (j : Job) (l : Live) (src : Source) (s : State) : (sendFetch k j l src s).pending = s.pending := by
  unfold sendFetch
  split <;> rfl

theorem issueFetch_pending (s : State) : (issueFetch s).pending = s.pending := by
  have hp : ∀ c i u, (setPointer c i u).pending = u.pending := fun c _ _ => by cases c <;> rfl
  unfold issueFetch
  split
  · unfold grantFetch
    split
    · rfl
    · split
      · rfl
      · split
        · rfl
        · simp only
          split
          · rw [sendFetch_pending, (readRecord_steady ..).pending]
            exact hp ..
          · rw [settle_pending, (readRecord_steady ..).pending]
            exact hp ..
  · rfl

theorem onFetchData_pending (f : Frame) (s : State) : (onFetchData f s).pending = s.pending := by
  refine nodeAnswer_pending (fun c s => ?_) s
  unfold applyFetchData
  split
  · rfl
  · split
    · rfl
    · rfl
    · unfold acceptChunk
      simp only
      split
      · exact (settle_pending _).trans (completeSegment_steady ..).pending
      · rfl

theorem onFetchFail_pending (f : Frame) (s : State) : (onFetchFail f s).pending = s.pending := by
  refine nodeAnswer_pending (fun c s => ?_) s
  unfold applyFetchFail
  split
  · rfl
  · split
    · simp
    · split
      · exact (settle_pending _).trans (retryFetch_steady ..).pending
      · rfl

theorem firstChunkExpiry_pending (k : Nat) (s : State) : (firstChunkExpiry k s).pending = s.pending := by
  unfold firstChunkExpiry
  split
  · rfl
  · split
    · split
      · exact (settle_pending _).trans (muteNode_steady ..).pending
      · exact (settle_pending _).trans (retryFetch_steady ..).pending
    · rfl

theorem streamExpiry_pending (k : Nat) (s : State) : (streamExpiry k s).pending = s.pending := by
  unfold streamExpiry
  split
  · rfl
  · split
    · exact (settle_pending _).trans (muteNode_steady ..).pending
    · rfl

theorem admitOne_pending (s : State) : (admitOne s).pending = s.pending := by
  unfold admitOne
  split
  · split
    · rename_i i n _ _
      have h1 := ((takeHead_steady s).trans (readRecord_steady n [.placed, .status, .length] (takeHead s))).pending
      unfold admitRecord
      simp only
      split
      · split
        · exact (enterActive_steady ..).pending.trans h1
        · exact (enterHeld_pending ..).trans h1
        · exact (enterStalled_steady ..).pending.trans h1
      · exact h1
    · rfl
  · rfl

theorem chunkLeft_pending (i : Fin 8) (q a : Nat) (s : State) : (chunkLeft i q a s).pending = s.pending := by
  unfold chunkLeft
  split
  · rfl
  · split
    · exact (sendChunk_steady ..).pending.trans (setStore_steady ..).pending
    · rfl

theorem sendCompleted_pending (i : Fin 8) (q a : Nat) (s : State) : (sendCompleted i q a s).pending = s.pending := by
  unfold sendCompleted
  split
  · rfl
  · split
    · exact (setStore_steady ..).pending
    · rfl

theorem onStoreAck_pending (f : Frame) (s : State) : (onStoreAck f s).pending = s.pending := by
  refine nodeAnswer_pending (fun r s => ?_) s
  unfold applyStoreAck
  split
  · rfl
  · split
    · split
      · exact (settle_pending _).trans (goodReceipt_steady ..).pending
      · exact (settle_pending _).trans (failAttempt_steady ..).pending
    · split
      · exact (settle_pending _).trans (failAttempt_steady ..).pending
      · rfl

theorem storeExpiry_pending (i : Fin 8) (q : Nat) (s : State) : (storeExpiry i q s).pending = s.pending := by
  unfold storeExpiry
  split
  · rfl
  · split
    · split
      · exact (settle_pending _).trans (muteNode_steady ..).pending
      · exact (settle_pending _).trans (failAttempt_steady ..).pending
    · rfl

/-! ### The window and the resets leave the queue of commands -/

theorem warmBlocks_pending (s : State) : (warmBlocks s).pending = s.pending := by
  have h : ((Sparse.keys s.nodes).foldl calmNode s).pending = s.pending :=
    foldl_pending (f := calmNode) (fun _ _ => rfl) _ s
  unfold warmBlocks
  exact h

theorem warmReset_pending (s : State) : (warmReset s).pending = s.pending :=
  (warmBlocks_pending _).trans (returnAllLanes_pending s)

theorem writeSetting_pending (ok : Bool) (upd : Settings → Settings) (s : State) : (writeSetting ok upd s).pending = s.pending := by
  unfold writeSetting
  split <;> rfl

theorem writePacing_pending (which : PacingSetting) (v : Nat) (s : State) : (writePacing which v s).pending = s.pending := by
  unfold writePacing
  split <;> rfl

theorem writeProbePeriod_pending (v : Nat) (s : State) : (writeProbePeriod v s).pending = s.pending := by
  unfold writeProbePeriod
  split <;> rfl

theorem changeMsiEnable_pending (b : Bool) (s : State) : (changeMsiEnable b s).pending = s.pending := by
  unfold changeMsiEnable sendPendingRoutine sendPendingUrgent
  split <;> split <;> rfl

theorem writePeek_pending (n : BitVec 16) (c : BitVec 6) (s : State) : (writePeek n c s).pending = s.pending := by
  unfold writePeek
  split <;> rfl

theorem startPeek_pending (n : BitVec 16) (c : BitVec 6) (s : State) : (startPeek n c s).pending = s.pending := by
  unfold startPeek
  split
  · rfl
  · split <;> rfl

theorem completePeek_pending (s : State) : (completePeek s).pending = s.pending := by
  unfold completePeek
  simp only
  split
  · exact (settle_pending _).trans (peekReads_steady ..).pending
  · rfl

theorem ite_pending {c : Prop} [Decidable c] {s t u : State} (h : t.pending = s.pending) (g : u.pending = s.pending) :
    (if c then t else u).pending = s.pending := by
  split
  · exact h
  · exact g

theorem writeControl_pending (o : Nat) (v : BitVec 32) (s : State) : (writeControl o v s).pending = s.pending := by
  unfold writeControl
  exact ite_pending (writeMode_pending ..) (ite_pending (writePort_pending ..) (ite_pending (writePort_pending ..)
    (ite_pending (setPort_pending ..) (ite_pending (writeAddressHigh_pending ..) (ite_pending (setPort_pending ..)
      (ite_pending (writeAddressHigh_pending ..) (ite_pending rfl (ite_pending (writeEtherType_pending ..) rfl))))))))

theorem writeSettings_pending (o v : Nat) (s : State) : (writeSettings o v s).pending = s.pending := by
  unfold writeSettings
  exact ite_pending (writeSetting_pending ..) (ite_pending (writeSetting_pending ..) (ite_pending (writeSetting_pending ..)
    (ite_pending (writeProbePeriod_pending ..) (ite_pending (writePacing_pending ..) (ite_pending (writePacing_pending ..)
      (ite_pending (writePacing_pending ..) (ite_pending (writeSetting_pending ..) (ite_pending (writeSetting_pending ..)
        (ite_pending (writeSetting_pending ..) (ite_pending (writeLeaseSetting_pending ..) (ite_pending (writeLeaseSetting_pending ..)
          (ite_pending (writeSetting_pending ..) rfl))))))))))))

theorem writeOther_pending (o : Nat) (v : BitVec 32) (s : State) : (writeOther o v s).pending = s.pending := by
  unfold writeOther
  refine ite_pending rfl (ite_pending rfl (ite_pending rfl (ite_pending rfl (ite_pending (ite_pending (warmReset_pending s) rfl)
    (ite_pending ?_ rfl)))))
  split
  · rfl
  · exact ite_pending (ite_pending (startPeek_pending ..) (writePeek_pending ..)) rfl

theorem writeWindow_pending (o : Nat) (v : BitVec 32) (s : State) : (writeWindow o v s).pending = s.pending :=
  ite_pending (writeControl_pending ..) (ite_pending (writeSettings_pending ..) (writeOther_pending ..))

/-! ### Every command leaves the queue to the step -/

theorem routeKind_pending (k : Kind) (f : Frame) (s : State) : (routeKind k f s).pending = s.pending := by
  cases k with
  | define => exact onDefine_pending f s
  | locate => exact onLocate_pending f s
  | cls => exact onClass_pending f s
  | revise => exact onRevise_pending f s
  | redirect => exact onRedirect_pending f s
  | hold => exact onHold_pending f s
  | resume => exact onResume_pending f s
  | cancel => exact onCancel_pending f s
  | retire => exact onRetire_pending f s
  | watch => exact onWatch_pending f s
  | fence => exact onFence_pending f s
  | unfence => exact onUnfence_pending f s
  | rosterSet => exact onRosterSet_pending f s
  | rosterClear => exact onRosterClear_pending f s
  | mode => exact onMode_pending f s
  | leaseTake => exact onLeaseTake_pending f s
  | leaseRenew => exact onLeaseRenew_pending f s
  | leaseRelease => exact onLeaseRelease_pending f s
  | wake => exact onWake_pending f s
  | fetchData => exact onFetchData_pending f s
  | fetchFail => exact onFetchFail_pending f s
  | storeAck => exact onStoreAck_pending f s
  | probeAck => exact onProbeAck_pending f s
  | reply | notice | fetch | store | probe => rfl

theorem onRawFrame_pending (f : RawFrame) (s : State) : (onRawFrame f s).pending = s.pending := by
  unfold onRawFrame
  refine ite_pending (ite_pending (ite_pending (takenWake_pending ..) rfl) (ite_pending ?_ rfl)) rfl
  split
  · exact routeKind_pending ..
  · exact answer_pending ..

theorem effect_pending (c : Instr) (s : State) : (effect c s).pending = s.pending := by
  have struck : ∀ (mem : List Damage) {g : State → State}, (∀ u, (g u).pending = u.pending) → (g (strike mem s)).pending = s.pending :=
    fun mem g hg => (hg _).trans (strike_pending mem s)
  cases c with
  | warmReset => exact warmReset_pending s
  | define f mem => exact struck mem (onDefine_pending f)
  | locate f mem => exact struck mem (onLocate_pending f)
  | setClass f mem => exact struck mem (onClass_pending f)
  | revise f mem => exact struck mem (onRevise_pending f)
  | redirect f mem => exact struck mem (onRedirect_pending f)
  | hold f mem => exact struck mem (onHold_pending f)
  | resume f mem => exact struck mem (onResume_pending f)
  | cancel f mem => exact struck mem (onCancel_pending f)
  | retire f mem => exact struck mem (onRetire_pending f)
  | watch f mem => exact struck mem (onWatch_pending f)
  | fence f => exact onFence_pending f s
  | unfence f => exact onUnfence_pending f s
  | rosterSet f => exact onRosterSet_pending f s
  | rosterClear f => exact onRosterClear_pending f s
  | modeRequest f => exact onMode_pending f s
  | leaseTake f => exact onLeaseTake_pending f s
  | leaseRenew f => exact onLeaseRenew_pending f s
  | leaseRelease f => exact onLeaseRelease_pending f s
  | wake f => exact onWake_pending f s
  | unreadableFrame f => exact onRawFrame_pending f s
  | fetchData f mem => exact struck mem (onFetchData_pending f)
  | fetchFail f => exact onFetchFail_pending f s
  | storeAck f mem => exact struck mem (onStoreAck_pending f)
  | probeAck f => exact onProbeAck_pending f s
  | firstChunkTimerExpiry slot => exact firstChunkExpiry_pending slot.val s
  | streamTimerExpiry slot => exact streamExpiry_pending slot.val s
  | storeTimerExpiry lane target => exact storeExpiry_pending lane target.val s
  | probeTimerExpiry => exact probeExpiry_pending s
  | pacingTimerExpiry => exact ite_pending rfl rfl
  | leaseLapse => exact lapseLease_pending s
  | sendCompletion lane target attempt => exact sendCompleted_pending lane target.val attempt s
  | fetchIssue mem => exact struck mem issueFetch_pending
  | storeAttemptBegin => exact handRoom_pending s
  | admission mem => exact struck mem admitOne_pending
  | drainEnd => exact endDrain_pending s
  | linkUp p => exact linkGoesUp_pending p s
  | linkDown p => exact linkGoesDown_pending p s
  | msiEnableChange enable => exact changeMsiEnable_pending enable s
  | modeWrite code => exact writeMode_pending code s
  | portWrite p code => exact writePort_pending p code s
  | addressLowWrite p low => exact setPort_pending ..
  | addressHighWrite p high => exact writeAddressHigh_pending p high s
  | etherTypeWrite value => exact writeEtherType_pending value s
  | pacingSettingWrite which value => exact writePacing_pending which value.toNat s
  | probePeriodWrite value => exact writeProbePeriod_pending value.toNat s
  | reserveWrite value => exact writeSetting_pending ..
  | leaseSettingWrite which value => exact writeLeaseSetting_pending which value.toNat s
  | peekSet number cnt => exact writePeek_pending number cnt s
  | peekGo number cnt => exact startPeek_pending number cnt s
  | peekCompletion mem => exact struck mem completePeek_pending
  | windowWrite offset value => exact writeWindow_pending offset.toNat value s
  | storeChunkSent lane target attempt => exact chunkLeft_pending lane target.val attempt s
  | coldReset | eventFlagsWrite _ | eventEnablesWrite _ | eventClassesWrite _ | globalEnableWrite _ | counterClear _ => rfl

/-- Settles O3: every command is the end of a change, and no change touches the queue of commands. -/
theorem everyCommandEndsInANextState : Obligations.EveryCommandEndsInANextState := fun c s => by
  obtain ⟨t, ht, -, hp⟩ := commit_next s (effect c s)
  exact ⟨t, (exec_eq_commit c s).trans ht, hp.trans (effect_pending c s)⟩

end Sys2Proof.Machine

/-! SUPPORT. COLD_RESET, and the commands of the window, the ports, the links and the lease that touch no record: what each leaves once the command has
ended. -/

namespace Sys2Proof.Machine

/-! ### The end of a command -/

/-- `t` is `u` once the command has ended: the interrupt messages have followed (R194, R195). -/
def Ended (u t : State) : Prop :=
  ∃ pu pr out, t = { u with events := { u.events with pendingUrgent := pu, pendingRoutine := pr }, outputs := u.outputs ++ out }

theorem exec_ended (c : Instr) (s : State) : ∃ t, exec c s = .next t ∧ Ended (effect c s) t := by
  obtain ⟨pu, pr, out, h⟩ := commit_eq s (effect c s)
  exact ⟨_, (exec_eq_commit c s).trans h, pu, pr, out, rfl⟩

/-- A command whose change is known ends in that change's end. -/
theorem exec_ended_of {c : Instr} {s u : State} (h : effect c s = u) : ∃ t, exec c s = .next t ∧ Ended u t :=
  h ▸ exec_ended c s

/-- A command that leaves flags, enables, classes and the global enable sends no message. -/
theorem exec_silent {c : Instr} {s u : State} (h : effect c s = u) (he : u.events = s.events) :
    ∃ pu pr, exec c s = .next { u with events := { u.events with pendingUrgent := pu, pendingRoutine := pr } } := by
  obtain ⟨pu, pr, hc⟩ := commit_eq_of_events he
  exact ⟨pu, pr, (exec_eq_commit c s).trans (h.symm ▸ hc)⟩

/-- Where no interrupt condition stands, a command ends with no message pending and sends none (R194). -/
theorem commit_of_no_condition {old u : State} (hu : urgentCondition u.events = false) (hr : routineCondition u.events = false) :
    commit old u = .next { u with events := { u.events with pendingUrgent := false, pendingRoutine := false } } := by
  have h1 : signalUrgent old.events u = { u with events := { u.events with pendingUrgent := false } } := by
    rw [signalUrgent, if_neg (by rw [hu]; exact Bool.false_ne_true)]
  have h2 : routineCondition { u.events with pendingUrgent := false } = false := hr
  rw [commit, h1, signalRoutine, if_neg (by rw [h2]; exact Bool.false_ne_true)]

theorem SameWork.refl (s : State) : SameWork s s := ⟨rfl, rfl, rfl, rfl, rfl, rfl⟩

theorem Quiet.refl (s : State) : Quiet s s := ⟨SameControl.refl s, SameTable.refl s, SameWork.refl s, rfl, rfl⟩

theorem Ended.counterValue {u t : State} (h : Ended u t) (c : Counter) : counterValue c t = counterValue c u := by
  obtain ⟨_, _, _, rfl⟩ := h
  rfl

theorem Ended.counters {u t : State} (h : Ended u t) : t.counters = u.counters := by
  obtain ⟨_, _, _, rfl⟩ := h
  rfl

theorem Ended.flags {u t : State} (h : Ended u t) : t.events.flags = u.events.flags := by
  obtain ⟨_, _, _, rfl⟩ := h
  rfl

theorem Ended.flagSet {u t : State} (h : Ended u t) (e : Event) : flagSet e t = flagSet e u := by
  rw [Machine.flagSet, Machine.flagSet, h.flags]

theorem Ended.quiet {s u t : State} (h : Ended u t) (hq : Quiet s u) : Quiet s t := by
  obtain ⟨_, _, _, rfl⟩ := h
  exact hq

theorem Ended.onlyEvents {s u t : State} (h : Ended u t) (hq : OnlyEvents s u) : OnlyEvents s t := by
  obtain ⟨_, _, _, rfl⟩ := h
  exact hq

theorem Ended.sameTable {s u t : State} (h : Ended u t) (hq : SameTable s u) : SameTable s t := by
  obtain ⟨_, _, _, rfl⟩ := h
  exact hq

theorem Ended.sameWork {s u t : State} (h : Ended u t) (hq : SameWork s u) : SameWork s t := by
  obtain ⟨_, _, _, rfl⟩ := h
  exact hq

theorem Ended.sameControl {s u t : State} (h : Ended u t) (hq : SameControl s u) : SameControl s t := by
  obtain ⟨_, _, _, rfl⟩ := h
  exact hq

theorem Ended.mode {u t : State} (h : Ended u t) : t.mode = u.mode := by
  obtain ⟨_, _, _, rfl⟩ := h
  rfl

theorem Ended.lease {u t : State} (h : Ended u t) : t.lease = u.lease := by
  obtain ⟨_, _, _, rfl⟩ := h
  rfl

theorem Ended.settings {u t : State} (h : Ended u t) : t.settings = u.settings := by
  obtain ⟨_, _, _, rfl⟩ := h
  rfl

theorem Ended.portAt {u t : State} (h : Ended u t) (p : Port) : portAt t p = portAt u p := by
  obtain ⟨_, _, _, rfl⟩ := h
  cases p <;> rfl

/-- What is sent stays sent. -/
theorem Ended.sent {s u t : State} (h : Ended u t) {o : Output} (ho : ∃ out, u.outputs = s.outputs ++ out ∧ o ∈ out) : o ∈ sentBetween s t := by
  obtain ⟨_, _, msgs, rfl⟩ := h
  obtain ⟨out, hout, hmem⟩ := ho
  simp [sentBetween, hout, hmem]

/-- A command whose change is a count ends with one more, and nothing else changed. -/
theorem exec_counted {c : Instr} {d : Counter} {s : State} (h : effect c s = count d s) :
    ∃ t, exec c s = .next t ∧ OnlyEvents s t ∧ t.outputs = s.outputs ∧ t.events.flags = s.events.flags
      ∧ counterValue d t = saturatingSucc (counterValue d s) ∧ ∀ e, e ≠ d → counterValue e t = counterValue e s := by
  obtain ⟨pu, pr, hc⟩ := exec_silent h rfl
  exact ⟨_, hc, ⟨Quiet.refl s, rfl⟩, rfl, rfl, counterValue_count s d, fun e he => counterValue_count_other s he⟩

/-- A command that makes no change ends with nothing changed but the pending messages. -/
theorem exec_unchanged {c : Instr} {s : State} (h : effect c s = s) :
    ∃ t, exec c s = .next t ∧ OnlyEvents s t ∧ t.outputs = s.outputs ∧ t.counters = s.counters ∧ t.events.flags = s.events.flags
      ∧ t.peek = s.peek := by
  obtain ⟨pu, pr, hc⟩ := exec_silent h rfl
  exact ⟨_, hc, ⟨Quiet.refl s, rfl⟩, rfl, rfl, rfl, rfl⟩

/-! ### COLD_RESET (R34, R84, R110, R132, R150, R167, R178, R191 to R198) -/

/-- After a cold reset nothing is pending and nothing is sent, since no condition stands. -/
theorem exec_coldReset (s : State) : exec .coldReset s = .next (coldReset s) :=
  (exec_eq_commit .coldReset s).trans (commit_of_no_condition rfl rfl)

theorem blankImage_getD (k : Nat) : (List.replicate 32 (0 : BitVec 64)).getD k 0 = 0 := by
  rw [List.getD_eq_getElem?_getD, List.getElem?_replicate]
  split <;> rfl

/-- Settles O4: the tables of the reset state list no entry. -/
theorem coldResetClearsTheTable : Obligations.ColdResetClearsTheTable := fun s =>
  ⟨_, exec_coldReset s, fun _ => rfl, fun _ _ => rfl, rfl, rfl, fun _ _ => rfl, rfl, rfl, fun _ => rfl, rfl, rfl, fun _ => rfl⟩

/-- Settles O5: the reset state, block by block. -/
theorem coldResetClearsTheOtherBlocks : Obligations.ColdResetClearsTheOtherBlocks := fun s => by
  refine ⟨_, exec_coldReset s, fun _ => rfl, rfl, fun _ => rfl, rfl, coldReset_laneAt s, rfl, rfl, fun p => ?_, rfl, rfl, rfl, rfl, rfl, rfl, rfl, rfl,
    rfl, rfl, rfl, rfl, fun c => ?_, rfl, rfl, rfl, fun k => ?_⟩
  · cases p <;> rfl
  · cases c <;> rfl
  · exact blankImage_getD k

/-! ### DRAIN_END (R157) -/

theorem setMode_of_same {m : Mode} {s : State} (h : s.mode = m) : setMode m s = s := if_pos h

theorem setMode_of_other {m : Mode} {s : State} (h : s.mode ≠ m) : setMode m s = raise .modeChanged { s with mode := m } := if_neg h

/-- A change of mode leaves the table, the work and the rest of the control. -/
theorem setMode_leaves (m : Mode) (s : State) : SameTable s (setMode m s) ∧ SameWork s (setMode m s) ∧ SameControl s (setMode m s) := by
  unfold setMode
  split <;> exact ⟨SameTable.refl s, SameWork.refl s, SameControl.refl s⟩

theorem endDrain_of_idle {s : State} (hm : s.mode = .drain) (hi : allIdle s = true) : endDrain s = raise .modeChanged { s with mode := .ready } := by
  rw [endDrain, if_pos ⟨hm, hi⟩, setMode_of_other (by rw [hm]; decide)]

theorem endDrain_of_not {s : State} (h : s.mode ≠ .drain ∨ allIdle s = false) : endDrain s = s := by
  refine if_neg fun hd => ?_
  rcases h with hm | hi
  · exact hm hd.1
  · rw [hi] at hd
    exact Bool.false_ne_true hd.2

theorem endDrain_leaves (s : State) : SameTable s (endDrain s) ∧ SameWork s (endDrain s) ∧ SameControl s (endDrain s) := by
  unfold endDrain
  split
  · exact setMode_leaves .ready s
  · exact ⟨SameTable.refl s, SameWork.refl s, SameControl.refl s⟩

/-- Settles O32: the two cases of the end of a drain. -/
theorem drainEndsWhenEveryLaneIsIdle : Obligations.DrainEndsWhenEveryLaneIsIdle := fun s => by
  obtain ⟨t, ht, hend⟩ := exec_ended .drainEnd s
  obtain ⟨htable, hwork, hcontrol⟩ := endDrain_leaves s
  refine ⟨t, ht, hend.sameTable htable, hend.sameWork hwork, hend.sameControl hcontrol, fun hm hi => ?_, fun h => ?_⟩
  · have heff : effect .drainEnd s = _ := endDrain_of_idle hm hi
    rw [heff] at hend
    exact ⟨hend.mode, (hend.flagSet _).trans (flagSet_raise_self ..)⟩
  · have heff : effect .drainEnd s = _ := endDrain_of_not h
    rw [heff] at hend
    exact ⟨hend.mode, hend.flags⟩

/-! ### Ports and addresses (R155, R160, R192) -/

theorem setPort_leaves (p : Port) (v : PortRegs) (s : State) : SameTable s (setPort p v s) ∧ SameWork s (setPort p v s) := by
  cases p <;> exact ⟨SameTable.refl s, SameWork.refl s⟩

/-- A port that is refused: PORT_REFUSED is set, and nothing else changes. -/
theorem ended_refusal {p : Port} {s t : State} (h : Ended (raise .portRefused s) t) :
    portAt t p = portAt s p ∧ flagSet .portRefused t = true :=
  ⟨(h.portAt p).trans (by cases p <;> rfl), (h.flagSet _).trans (flagSet_raise_self ..)⟩

/-- What a write of one port's register leaves. -/
theorem ended_setPort {p : Port} {v : PortRegs} {s t : State} (h : Ended (setPort p v s) t) :
    portAt t p = v ∧ portAt t (otherPort p) = portAt s (otherPort p) ∧ t.mode = s.mode ∧ SameTable s t ∧ SameWork s t ∧ t.lease = s.lease
      ∧ t.events.flags = s.events.flags :=
  ⟨(h.portAt p).trans (setPort_same s p v), (h.portAt _).trans (setPort_other s p v), h.mode.trans (setPort_mode s p v),
    h.sameTable (setPort_leaves p v s).1, h.sameWork (setPort_leaves p v s).2, h.lease.trans (setPort_lease s p v),
    h.flags.trans (congrArg Events.flags (setPort_events s p v))⟩

theorem portWriteTaken_iff {p : Port} {v : PortState} {s : State} :
    portWriteTaken p v s = true ↔ portsAllowed (withPortState p v s) s.mode = true ∧ ¬ (v = .on ∧ (portAt s p).addr = 0) := by
  simp [portWriteTaken, imp_iff_not_or]

theorem writePort_of_taken {p : Port} {c : BitVec 2} {v : PortState} {s : State} (hc : portStateOfCode c = some v)
    (h : portWriteTaken p v s = true) : writePort p c s = setPort p { portAt s p with state := v } s := by
  rw [writePort, hc]
  exact if_pos h

theorem writePort_of_refused {p : Port} {c : BitVec 2} {v : PortState} {s : State} (hc : portStateOfCode c = some v)
    (h : ¬ portWriteTaken p v s = true) : writePort p c s = raise .portRefused s := by
  rw [writePort, hc]
  exact if_neg h

/-- Settles O34: an undefined code, a write that is taken, and one that is refused. -/
theorem portWriteIsJudged : Obligations.PortWriteIsJudged := fun p code s => by
  obtain ⟨t, ht, hend⟩ := exec_ended (.portWrite p code) s
  have heff : effect (.portWrite p code) s = writePort p code s := rfl
  rw [heff] at hend
  refine ⟨t, ht, ?_⟩
  cases hc : portStateOfCode code with
  | none =>
    have hw : writePort p code s = count .windowWriteIgnored s := by
      rw [writePort, hc]
      rfl
    rw [hw] at hend
    refine ⟨(hend.portAt _).trans (by cases otherPort p <;> rfl), hend.mode, hend.sameTable (SameTable.refl s), hend.sameWork (SameWork.refl s),
      hend.lease, fun _ => ⟨hend.portAt .a, hend.portAt .b, (hend.counterValue _).trans (counterValue_count ..)⟩, fun v hv => nomatch hv⟩
  | some v =>
    have h3 : code ≠ 3 := by
      rintro rfl
      exact nomatch (show portStateOfCode 3 = none by decide).symm.trans hc
    by_cases hok : portWriteTaken p v s = true
    · rw [writePort_of_taken hc hok] at hend
      obtain ⟨hsame, hother, hmode, htable, hwork, hlease, hflags⟩ := ended_setPort hend
      refine ⟨hother, hmode, htable, hwork, hlease, fun h => absurd h h3, fun w hw => ?_⟩
      cases hw
      exact ⟨fun _ => ⟨hsame, hflags⟩, fun h => absurd (portWriteTaken_iff.mp hok) h⟩
    · rw [writePort_of_refused hc hok] at hend
      refine ⟨(hend.portAt _).trans (by cases otherPort p <;> rfl), hend.mode, hend.sameTable (SameTable.refl s),
        hend.sameWork (SameWork.refl s), hend.lease, fun h => absurd h h3, fun w hw => ?_⟩
      cases hw
      exact ⟨fun h => absurd (portWriteTaken_iff.mpr h) hok, fun _ => ended_refusal hend⟩

theorem zeroAddressRefused_iff {p : Port} {s : State} :
    zeroAddressRefused p s = true ↔ (portAt s p).state = .on ∨ (s.mode = .dormant ∧ (portAt s p).resume = .on) := by
  simp [zeroAddressRefused]

/-- Settles O35: the staging half, and the address that the high half forms, refused or taken. -/
theorem addressWrites : Obligations.AddressWrites := fun p low high s => by
  refine ⟨?_, ?_⟩
  · obtain ⟨t, ht, hend⟩ := exec_ended (.addressLowWrite p low) s
    obtain ⟨hsame, hother, hmode, htable, hwork, -, hflags⟩ := ended_setPort hend
    exact ⟨t, ht, hsame, hother, hmode, htable, hwork, hflags⟩
  · obtain ⟨t, ht, hend⟩ := exec_ended (.addressHighWrite p high) s
    refine ⟨t, ht, ?_⟩
    by_cases hr : high ++ (portAt s p).staging = 0 ∧ zeroAddressRefused p s = true
    · have heff : effect (.addressHighWrite p high) s = raise .portRefused s := if_pos hr
      rw [heff] at hend
      refine ⟨(hend.portAt _).trans (by cases otherPort p <;> rfl), hend.mode, hend.sameTable (SameTable.refl s),
        hend.sameWork (SameWork.refl s), fun _ => ended_refusal hend, fun h => absurd ⟨hr.1, zeroAddressRefused_iff.mp hr.2⟩ h⟩
    · have heff : effect (.addressHighWrite p high) s = setPort p { portAt s p with addr := high ++ (portAt s p).staging } s := if_neg hr
      rw [heff] at hend
      obtain ⟨hsame, hother, hmode, htable, hwork, -, hflags⟩ := ended_setPort hend
      exact ⟨hother, hmode, htable, hwork, fun h => absurd ⟨h.1, zeroAddressRefused_iff.mpr h.2⟩ hr, fun _ => ⟨hsame, hflags⟩⟩

/-! ### The lease's lapse and settings (R173, R174, R176) -/

/-- The end of the lease: the holder is absent, the flag set, the epoch kept, and REBUILD becomes DRAIN, or READY where no lane is busy (R174). -/
theorem endLease_leaves (e : Event) (s : State) :
    (endLease e s).lease = { grant := none, epoch := s.lease.epoch } ∧ flagSet e (endLease e s) = true
      ∧ (endLease e s).mode = (if s.mode = .rebuild then (if allIdle s then .ready else .drain) else s.mode)
      ∧ SameTable s (endLease e s) ∧ SameWork s (endLease e s) ∧ (endLease e s).portA = s.portA ∧ (endLease e s).portB = s.portB
      ∧ (endLease e s).settings = s.settings := by
  unfold endLease
  simp only
  by_cases hm : s.mode = .rebuild
  · have hm' : (raise e { s with lease := { s.lease with grant := none } }).mode = .rebuild := hm
    have hidle : allIdle (raise e { s with lease := { s.lease with grant := none } }) = allIdle s := rfl
    rw [if_pos hm', if_pos hm, enterDrain, setMode_of_other (by rw [hm']; decide)]
    by_cases hi : allIdle s = true
    · rw [endDrain_of_idle rfl (by exact hidle.trans hi), if_pos hi]
      exact ⟨rfl, flagSet_raise_mono (flagSet_raise_mono (flagSet_raise_self ..)), rfl, SameTable.refl s, SameWork.refl s, rfl, rfl, rfl⟩
    · rw [endDrain_of_not (.inr (by exact hidle.trans (Bool.not_eq_true _ ▸ hi))), if_neg hi]
      exact ⟨rfl, flagSet_raise_mono (flagSet_raise_self ..), rfl, SameTable.refl s, SameWork.refl s, rfl, rfl, rfl⟩
  · have hm' : (raise e { s with lease := { s.lease with grant := none } }).mode ≠ .rebuild := hm
    rw [if_neg hm', if_neg hm]
    exact ⟨rfl, flagSet_raise_self .., rfl, SameTable.refl s, SameWork.refl s, rfl, rfl, rfl⟩

/-- Settles O38: the lapse that is due is the end of the lease. -/
theorem leaseLapses : Obligations.LeaseLapses := fun g s hg => by
  refine ⟨fun hdue => ?_, fun hearly => ?_⟩
  · have heff : effect .leaseLapse s = endLease .leaseLapsed s := by
      change lapseLease s = _
      rw [lapseLease, hg]
      exact if_pos hdue
    obtain ⟨t, ht, hend⟩ := exec_ended_of heff
    obtain ⟨hlease, hflag, hmode, htable, hwork, ha, hb, hset⟩ := endLease_leaves .leaseLapsed s
    exact ⟨t, ht, hend.lease.trans hlease, (hend.flagSet _).trans hflag, hend.mode.trans hmode, hend.sameTable htable, hend.sameWork hwork,
      (hend.portAt .a).trans ha, (hend.portAt .b).trans hb, hend.settings.trans hset⟩
  · have heff : effect .leaseLapse s = s := by
      change lapseLease s = _
      rw [lapseLease, hg]
      exact if_neg (Nat.not_le.mpr hearly)
    obtain ⟨t, ht, hev, -, -, hflags, -⟩ := exec_unchanged heff
    exact ⟨t, ht, hev.1, hflags⟩

theorem leaseSettingTaken_iff {which : LeaseSetting} {v : Nat} {s : State} :
    leaseSettingTaken which v s = true ↔ match which with
      | .tMin => v ≤ s.settings.tMax
      | .tMax => 100 ≤ v ∧ v ≤ 60000 ∧ s.settings.tMin ≤ v := by
  cases which <;> simp [leaseSettingTaken, and_assoc]

theorem flagSet_clearFlags (e : Event) (s : State) : flagSet e (clearFlags e.mask s) = false := by
  cases e <;> simp [flagSet, clearFlags, Event.mask, Event.bit]

/-- A lease setting that is taken: the setting, the flag and the window change. -/
theorem writeLeaseSetting_of_taken {which : LeaseSetting} {v : Nat} {s : State} (h : leaseSettingTaken which v s = true) :
    writeLeaseSetting which v s = clearFlags Event.leaseLapsed.mask
      { s with settings := withLeaseSetting which v s.settings
               lease := { s.lease with grant := s.lease.grant.map (fun g => { g with elapsed := 0 }) } } := by
  rw [writeLeaseSetting, if_pos h]
  cases hg : s.lease.grant with
  | none =>
    have hl : s.lease = { s.lease with grant := none } := by rw [← hg]
    simp only [clearFlags, hg]
    exact congrArg (fun l => clearFlags Event.leaseLapsed.mask { s with settings := withLeaseSetting which v s.settings, lease := l }) hl
  | some g =>
    simp only [clearFlags, hg]
    rfl

/-- Settles O39: a setting that is taken or ignored. -/
theorem leaseSettingWrites : Obligations.LeaseSettingWrites := fun which v s => by
  obtain ⟨t, ht, hend⟩ := exec_ended (.leaseSettingWrite which v) s
  have heff : effect (.leaseSettingWrite which v) s = writeLeaseSetting which v.toNat s := rfl
  rw [heff] at hend
  refine ⟨t, ht, ?_⟩
  by_cases hok : leaseSettingTaken which v.toNat s = true
  · rw [writeLeaseSetting_of_taken hok] at hend
    have hlease := hend.lease
    refine ⟨hend.mode, hend.sameTable (SameTable.refl s), hend.sameWork (SameWork.refl s), ?_, fun _ => ⟨?_, ?_, ?_⟩,
      fun hno => absurd (leaseSettingTaken_iff.mp hok) hno⟩
    · rw [hlease]
      rfl
    · refine hend.settings.trans ?_
      cases which <;> rfl
    · exact (hend.flagSet _).trans (flagSet_clearFlags ..)
    · rw [hlease]
      rfl
  · have hw : writeLeaseSetting which v.toNat s = count .windowWriteIgnored s := if_neg hok
    rw [hw] at hend
    exact ⟨hend.mode, hend.sameTable (SameTable.refl s), hend.sameWork (SameWork.refl s), congrArg Lease.epoch hend.lease,
      fun h => absurd (leaseSettingTaken_iff.mpr h) hok, fun _ => ⟨hend.settings, hend.lease, hend.flags,
        (hend.counterValue _).trans (counterValue_count ..)⟩⟩

/-! ### Pacing (R95 to R97) -/

theorem pacingRange_iff {which : PacingSetting} {v : Nat} :
    pacingRange which v = true ↔ match which with
      | .period => 1 ≤ v ∧ v ≤ 65535
      | .granule => v ≤ 3
      | .multiplier => v ≤ 16 := by
  cases which <;> simp [pacingRange]

/-- Settles O47: the expiry that is due, and a pacing setting taken or ignored. -/
theorem pacingReloads : Obligations.PacingReloads := fun s => by
  refine ⟨fun h0 => ?_, fun h0 => ?_, fun which v => ?_⟩
  · have heff : effect .pacingTimerExpiry s = reloadPacing s := if_pos h0
    obtain ⟨t, ht, hend⟩ := exec_ended_of heff
    obtain ⟨pu, pr, out, rfl⟩ := hend
    exact ⟨_, ht, rfl, SameTable.refl s, SameWork.refl s, rfl, rfl, rfl, rfl⟩
  · have heff : effect .pacingTimerExpiry s = s := if_neg h0
    obtain ⟨t, ht, hev, -, -, hflags, -⟩ := exec_unchanged heff
    exact ⟨t, ht, hev.1, hflags⟩
  · obtain ⟨t, ht, hend⟩ := exec_ended (.pacingSettingWrite which v) s
    have heff : effect (.pacingSettingWrite which v) s = writePacing which v.toNat s := rfl
    rw [heff] at hend
    refine ⟨t, ht, ?_⟩
    by_cases hok : pacingRange which v.toNat = true
    · have hw : writePacing which v.toNat s = reloadPacing { s with settings := withPacingSetting which v.toNat s.settings } := if_pos hok
      rw [hw] at hend
      obtain ⟨pu, pr, out, rfl⟩ := hend
      refine ⟨SameTable.refl s, SameWork.refl s, rfl, rfl, rfl, fun _ => ?_, fun hno => absurd (pacingRange_iff.mp hok) hno⟩
      cases which <;> exact ⟨rfl, rfl⟩
    · have hw : writePacing which v.toNat s = count .windowWriteIgnored s := if_neg hok
      rw [hw] at hend
      obtain ⟨pu, pr, out, rfl⟩ := hend
      exact ⟨SameTable.refl s, SameWork.refl s, rfl, rfl, rfl, fun h => absurd (pacingRange_iff.mpr h) hok,
        fun _ => ⟨rfl, rfl, counterValue_count s .windowWriteIgnored⟩⟩

end Sys2Proof.Machine

/-! SUPPORT. Frames that come to nothing (R6, R37, R68, R153, R161, R175, R181, R182, R188): the frames that no unit acts on, and the requests that are refused
before they change anything. -/

namespace Sys2Proof.Machine

/-! ### The REPLY after a change of the lease or of the mode -/

/-- The ports, the EtherType and what was sent are as a REPLY to the request of `s` needs them: what `Unanswered` asks, the rest of the control apart. -/
structure Addressed (s u : State) : Prop where
  portA : u.portA = s.portA
  portB : u.portB = s.portB
  etherType : u.etherType = s.etherType
  sent : ∃ out, u.outputs = s.outputs ++ out
  dropped : counterValue .replyDropped u = counterValue .replyDropped s

theorem Addressed.portAt {s u : State} (h : Addressed s u) (p : Port) : portAt u p = portAt s p := by
  cases p
  · exact h.portA
  · exact h.portB

theorem Addressed.choosePort {s u : State} (h : Addressed s u) (p : Port) : choosePort u p = choosePort s p := by
  have hable : ∀ q, ableToSend u q = ableToSend s q := fun q => by rw [ableToSend, ableToSend, h.portAt]
  simp only [Machine.choosePort, hable]

theorem Addressed.replyFrame {s u : State} (h : Addressed s u) (p : Port) (f : Frame) (k : Byte) (st : Status) (fl : Byte) (r : List Byte) :
    replyFrame u p f k st fl r = replyFrame s p f k st fl r := by
  simp only [Machine.replyFrame, h.portAt, h.etherType]

/-- A REPLY that ends a command which may have changed the lease or the mode. -/
theorem reply_addressed {s u : State} (h : Addressed s u) (f : Frame) (k : Kind) {st : Status} (hst : st ≠ .malformed) (r : List Byte) :
    ∃ t, commit s (reply f k st r u) = .next t ∧ Answered s t f k st 0 r ∧ Concluded u t := by
  have hport := h.choosePort f.port
  rw [reply, answer, if_neg hst]
  unfold Answered
  cases hp : Machine.choosePort s f.port with
  | some p =>
    rw [sendReply_of_port (hport.trans hp)]
    obtain ⟨pu, pr, msgs, hc⟩ := commit_eq s (emit (.frame (Machine.replyFrame u p f k.code st 0 r)) u)
    refine ⟨_, hc, ?_, ⟨_, _, _, rfl⟩, fun _ _ => rfl⟩
    obtain ⟨out, ho⟩ := h.sent
    simp [sentBetween, ho, h.replyFrame]
  | none =>
    rw [sendReply_of_no_port (hport.trans hp)]
    obtain ⟨pu, pr, msgs, hc⟩ := commit_eq s (count .replyDropped u)
    refine ⟨_, hc, ?_, ⟨_, _, _, rfl⟩, fun d hd => counterValue_count_other u hd⟩
    exact (counterValue_count u .replyDropped).trans (congrArg saturatingSucc h.dropped)

theorem Concluded.sameTable {s u t : State} (h : Concluded u t) (hs : SameTable s u) : SameTable s t := by
  obtain ⟨⟨_, _, _, rfl⟩, -⟩ := h
  exact hs

theorem Concluded.sameWork {s u t : State} (h : Concluded u t) (hs : SameWork s u) : SameWork s t := by
  obtain ⟨⟨_, _, _, rfl⟩, -⟩ := h
  exact hs

theorem Concluded.sameControl {s u t : State} (h : Concluded u t) (hs : SameControl s u) : SameControl s t := by
  obtain ⟨⟨_, _, _, rfl⟩, -⟩ := h
  exact hs

theorem Concluded.quiet {s u t : State} (h : Concluded u t) (hs : Quiet s u) : Quiet s t := by
  obtain ⟨⟨_, _, _, rfl⟩, -⟩ := h
  exact hs

theorem Concluded.mode {u t : State} (h : Concluded u t) : t.mode = u.mode := by
  obtain ⟨⟨_, _, _, rfl⟩, -⟩ := h
  rfl

theorem Concluded.lease {u t : State} (h : Concluded u t) : t.lease = u.lease := by
  obtain ⟨⟨_, _, _, rfl⟩, -⟩ := h
  rfl

/-- A request answered MALFORMED is counted, and nothing else comes of it (R181, R182); a lease request carries its report. -/
theorem malformed_reported (f : Frame) (k : Kind) (r : List Byte) (s : State) :
    ∃ t, commit s (reply f k .malformed r s) = .next t ∧ Quiet s t ∧ Answered s t f k .malformed 0 r
      ∧ counterValue .malformed t = saturatingSucc (counterValue .malformed s) := by
  have hu : Unanswered s (count .malformed s) :=
    ⟨SameControl.refl s, ⟨[], (List.append_nil _).symm⟩, counterValue_count_other s (by decide)⟩
  rw [reply, answer, if_pos rfl]
  obtain ⟨t, ht, hans, hconcl⟩ := sendReply_concluded hu f k .malformed 0 r
  exact ⟨t, ht, hconcl.quiet (Quiet.refl s), hans, (hconcl.2 .malformed (by decide)).trans (counterValue_count s .malformed)⟩

/-! ### The frames of each kind -/

theorem onClass_request (f : Frame) (s : State) : ∃ act, onClass f s = request .cls true f (parseNameCode f.body) act s := by
  unfold onClass
  exact ⟨_, rfl⟩

theorem onWatch_request (f : Frame) (s : State) : ∃ act, onWatch f s = request .watch false f (parseNameCode f.body) act s := by
  unfold onWatch
  exact ⟨_, rfl⟩

/-- A request of a kind with a body is judged by its body, its authority, and then by its own rule (R182). -/
theorem frameCommand_request {k : Kind} {f : Frame} {c : Instr} (h : frameCommand k f [] = some c) (hr : k.route = .request) (hw : k ≠ .wake)
    (s : State) : ∃ (ρ : Type) (body : Option ρ) (act : ρ → State → State),
      effect c s = request k (needsLease k) f body act s ∧ body.isSome = bodyReadable k f.body := by
  cases k with
  | wake => exact absurd rfl hw
  | fetchData | fetchFail | storeAck | probeAck | reply | notice | fetch | store | probe => exact absurd hr (by decide)
  | cls =>
    cases h
    obtain ⟨act, ha⟩ := onClass_request f s
    exact ⟨_, _, act, ha, rfl⟩
  | watch =>
    cases h
    obtain ⟨act, ha⟩ := onWatch_request f s
    exact ⟨_, _, act, ha, rfl⟩
  | _ =>
    cases h
    exact ⟨_, _, _, rfl, rfl⟩

/-- A node answer is judged by its sender, its body, and then by its own rule (R68, R188). -/
theorem frameCommand_nodeAnswer {k : Kind} {f : Frame} {c : Instr} (h : frameCommand k f [] = some c) (hr : k.route = .nodeAnswer) (s : State) :
    ∃ (ρ : Type) (body : Option ρ) (act : ρ → State → State), effect c s = nodeAnswer f body act s ∧ body.isSome = bodyReadable k f.body := by
  cases k with
  | fetchData | fetchFail | storeAck | probeAck =>
    cases h
    exact ⟨_, _, _, rfl, rfl⟩
  | _ => exact absurd hr (by decide)

/-- Every frame but WAKE is acted on only where its port takes it outside DORMANT (R153, R161). -/
theorem frameCommand_receive {k : Kind} {f : Frame} {c : Instr} (h : frameCommand k f [] = some c) (hw : k ≠ .wake) (s : State) :
    ∃ act, effect c s = receive f act s := by
  cases hr : k.route with
  | request =>
    obtain ⟨_, _, _, he, -⟩ := frameCommand_request h hr hw s
    exact ⟨_, he⟩
  | nodeAnswer =>
    obtain ⟨_, _, _, he, -⟩ := frameCommand_nodeAnswer h hr s
    exact ⟨_, he⟩
  | sentOnly =>
    cases k with
    | reply | notice | fetch | store | probe => cases h
    | _ => exact absurd hr (by decide)

/-- A frame that its port does not take makes no change (R153). -/
theorem frameCommand_of_not_taken {k : Kind} {f : Frame} {c : Instr} {s : State} (h : frameCommand k f [] = some c) (ht : taken s f = false) :
    effect c s = s := by
  have hn : ¬ taken s f = true := by rw [ht]; exact Bool.false_ne_true
  by_cases hw : k = .wake
  · subst hw
    cases h
    exact if_neg hn
  · obtain ⟨act, he⟩ := frameCommand_receive h hw s
    rw [he, receive, if_neg hn]

/-- Settles O7: a frame not taken makes no change, and one dropped in DORMANT is a count. -/
theorem framesThatReachNoUnit : Obligations.FramesThatReachNoUnit := fun k f c s h => by
  refine ⟨fun ht => ?_, fun ht hm hw => ?_⟩
  · obtain ⟨t, hex, hev, hout, hctr, hflags, -⟩ := exec_unchanged (frameCommand_of_not_taken h ht)
    exact ⟨t, hex, hev.1, hout, hctr, hflags, hev.2⟩
  · obtain ⟨act, he⟩ := frameCommand_receive h hw s
    rw [receive, if_pos ht, if_pos hm] at he
    obtain ⟨t, hex, hev, hout, hflags, hcount, hothers⟩ := exec_counted he
    exact ⟨t, hex, hev.1, hout, hcount, hflags, hothers⟩

/-! ### Bodies, authority and the fence test (R37, R68, R175, R181, R182, R188) -/

theorem request_of_unreadable {ρ : Type} {f : Frame} {body : Option ρ} {s : State} (ha : Arrives s f) (hb : body.isSome = false) (k : Kind)
    (needs : Bool) (act : ρ → State → State) : request k needs f body act s = reply f k .malformed (refusalResult k s) s := by
  cases body with
  | none => rw [request, receive_of_arrives ha]
  | some r => cases hb

theorem nodeAnswer_of_unreadable {ρ : Type} {f : Frame} {body : Option ρ} {s : State} (ha : Arrives s f) (hf : fromFenced s f.src = false)
    (hb : body.isSome = false) (act : ρ → State → State) : nodeAnswer f body act s = count .malformed s := by
  cases body with
  | none =>
    rw [nodeAnswer, receive_of_arrives ha, hf]
    rfl
  | some r => cases hb

/-- A REPLY that is not MALFORMED leaves the first four counters. -/
theorem refused_counters {s u t : State} (h : Concluded u t) (hu : u.counters = s.counters) :
    t.counters.toList.take 4 = s.counters.toList.take 4 := by
  rw [← hu]
  have hval : ∀ n (hn : n < 4), t.counters[n] = u.counters[n] := fun n hn => by
    have hd := h.2
    match n, hn with
    | 0, _ => exact hd .dormantDrop (by decide)
    | 1, _ => exact hd .malformed (by decide)
    | 2, _ => exact hd .late (by decide)
    | 3, _ => exact hd .duplicate (by decide)
  refine List.ext_getElem (by simp) fun n h1 h2 => ?_
  have hn : n < 4 := by
    rw [List.length_take] at h1
    omega
  simpa [List.getElem_take] using hval n hn

/-- Settles O8: the two checks of a request and the two of a node answer. -/
theorem malformedAndUnauthorisedRequests : Obligations.MalformedAndUnauthorisedRequests := by
  refine ⟨fun k f c s h hr ha => ⟨fun hf => ?_, fun hf hb => ?_⟩, fun k f c s h hr ha => ⟨fun hb => ?_, fun hb hl hno => ?_⟩⟩
  · obtain ⟨ρ, body, act, he, -⟩ := frameCommand_nodeAnswer h hr s
    rw [nodeAnswer_of_fenced ha hf] at he
    exact exec_counted he
  · obtain ⟨ρ, body, act, he, hread⟩ := frameCommand_nodeAnswer h hr s
    rw [nodeAnswer_of_unreadable ha hf (hread.trans hb)] at he
    exact exec_counted he
  · have hw : k ≠ .wake := by
      rintro rfl
      nomatch hb
    obtain ⟨ρ, body, act, he, hread⟩ := frameCommand_request h hr hw s
    rw [request_of_unreadable ha (hread.trans hb)] at he
    rw [exec_eq_commit, he]
    exact malformed_reported f k _ s
  · have hw : k ≠ .wake := by
      rintro rfl
      nomatch hl
    obtain ⟨ρ, body, act, he, hread⟩ := frameCommand_request h hr hw s
    obtain ⟨r, hbody⟩ := Option.isSome_iff_exists.mp (hread.trans hb)
    rw [hl, request_of_no_lease ha hbody hno] at he
    rw [exec_eq_commit, he]
    obtain ⟨t, ht, hans, hconcl⟩ := reply_concluded (Unanswered.refl s) f k (show Status.noLease ≠ .malformed by decide) []
    exact ⟨t, ht, hconcl.quiet (Quiet.refl s), hans, refused_counters hconcl rfl⟩

/-! ### The identity check (R6) -/

/-- A request that names a record comes to the identity check (R38). -/
theorem frameCommand_onRecord {k : Kind} {f : Frame} {c : Instr} {r : RecordName} {s : State} (h : frameCommand k f [] = some c)
    (hn : namedBy k f.body = some r) (ha : Arrives s f) (hl : needsLease k = true → FromHolder s f) :
    ∃ act, effect c s = onRecord f k r act s := by
  cases k with
  | cls =>
    cases h
    obtain ⟨⟨r', code⟩, hb, hc⟩ := Option.bind_eq_some_iff.mp hn
    obtain ⟨cls, hcls, rfl⟩ := Option.map_eq_some_iff.mp hc
    simp only at hcls
    refine ⟨applyClass f r'.number cls, ?_⟩
    change onClass f s = _
    rw [onClass, request_of_readable (needs := true) ha hb hl]
    simp only [hcls]
  | watch =>
    cases h
    obtain ⟨⟨r', code⟩, hb, hc⟩ := Option.bind_eq_some_iff.mp hn
    obtain ⟨e, hedge, rfl⟩ := Option.map_eq_some_iff.mp hc
    simp only at hedge
    refine ⟨applyWatch f r'.number e, ?_⟩
    change onWatch f s = _
    rw [onWatch, request_of_readable (needs := false) ha hb hl]
    simp only [hedge]
  | revise =>
    cases h
    obtain ⟨r', hb, rfl⟩ := Option.map_eq_some_iff.mp hn
    exact ⟨applyRevise f r', request_of_readable ha hb hl _ _⟩
  | redirect =>
    cases h
    obtain ⟨r', hb, rfl⟩ := Option.map_eq_some_iff.mp hn
    exact ⟨applyRedirect f r', request_of_readable ha hb hl _ _⟩
  | hold =>
    cases h
    exact ⟨applyHold f r.number, request_of_readable ha hn hl _ _⟩
  | resume =>
    cases h
    exact ⟨applyResume f r.number, request_of_readable ha hn hl _ _⟩
  | cancel =>
    cases h
    exact ⟨fun _ => applyCancel f r.number, request_of_readable ha hn hl _ _⟩
  | retire =>
    cases h
    exact ⟨applyRetire f r.number, request_of_readable ha hn hl _ _⟩
  | _ => nomatch hn

theorem identify_of_fixed {r : RecordName} {l : Live} {s : State} (hl : liveAt s r.number = some l) (hf : l.fixed = true) :
    identify r s = (.error .wrongState, s) := by
  simp [identify, hl, hf]

theorem identify_of_free {r : RecordName} {s : State} (hd : s.dram = []) (hl : liveAt s r.number = none)
    (hg : generationAt s r.number = r.generation) : identify r s = (.error .wrongState, s) := by
  simp [identify, hl, readFields_of_sound hd, hg]

theorem identify_of_stale {r : RecordName} {s : State} (hd : s.dram = []) (hf : ∀ l, liveAt s r.number = some l → l.fixed = false)
    (hg : generationAt s r.number ≠ r.generation) : identify r s = (.error .staleGen, count .staleGen s) := by
  cases hl : liveAt s r.number with
  | none => simp [identify, hl, readFields_of_sound hd, hg]
  | some l => simp [identify, hl, hf l hl, requestRead_of_sound hd hl, hg]

theorem onRecord_of_error {r : RecordName} {st : Status} {s s1 : State} (h : identify r s = (.error st, s1)) (f : Frame) (k : Kind)
    (act : Live → State → State) : onRecord f k r act s = reply f k st [] s1 := by
  rw [onRecord, h]

/-- A refusal by the identity check that counts nothing. -/
theorem wrongState_concluded (f : Frame) (k : Kind) (s : State) : ∃ t, commit s (reply f k .wrongState [] s) = .next t ∧ Quiet s t
    ∧ Answered s t f k .wrongState 0 [] ∧ counterValue .staleGen t = counterValue .staleGen s := by
  obtain ⟨t, ht, hans, hconcl⟩ := reply_concluded (Unanswered.refl s) f k (show Status.wrongState ≠ .malformed by decide) []
  exact ⟨t, ht, hconcl.quiet (Quiet.refl s), hans, hconcl.2 .staleGen (by decide)⟩

/-- Settles O9, by the three refusals of the identity check. -/
theorem identityCheckRefuses : Obligations.IdentityCheckRefuses := fun k f c r s h hn ha hd hl => by
  obtain ⟨act, he⟩ := frameCommand_onRecord h hn ha hl
  rw [exec_eq_commit, he]
  refine ⟨fun l hlive hfixed => ?_, fun hnot hg => ?_, fun hfree hg => ?_⟩
  · rw [onRecord_of_error (identify_of_fixed hlive hfixed)]
    exact wrongState_concluded f k s
  · rw [onRecord_of_error (identify_of_stale hd hnot hg)]
    have hu : Unanswered s (count .staleGen s) :=
      ⟨SameControl.refl s, ⟨[], (List.append_nil _).symm⟩, counterValue_count_other s (by decide)⟩
    obtain ⟨t, ht, hans, hconcl⟩ := reply_concluded hu f k (show Status.staleGen ≠ .malformed by decide) []
    exact ⟨t, ht, hconcl.quiet (Quiet.refl s), hans, (hconcl.2 .staleGen (by decide)).trans (counterValue_count ..)⟩
  · rw [onRecord_of_error (identify_of_free hd hfree hg)]
    exact wrongState_concluded f k s

/-! ### Refusals by state and by parameters (R48, R50, R52, R53, R55) -/

theorem Reaches.onNamed {f : Frame} {r : RecordName} {l : Live} {s : State} (h : Reaches s f r l) (hf : FromHolder s f) {ρ : Type}
    {body : Option ρ} {b : ρ} (hb : body = some b) (k : Kind) (name : ρ → RecordName) (hname : name b = r) (act : ρ → Live → State → State) :
    request k true f body (fun b s => onRecord f k (name b) (act b) s) s = act b l s := by
  rw [request_of_readable h.arrives hb fun _ => hf, hname, onRecord_of_reaches h]

/-- What REVISE refuses. -/
theorem revise_refused {f : Frame} {r : ReviseReq} {l : Live} {s : State} (h : Reaches s f r.name l) (hf : FromHolder s f)
    (hb : parseRevise f.body = some r) {st : Status} (hst : st ≠ .malformed) (hr : applyRevise f r l s = reply f .revise st [] s) :
    ∃ t, exec (.revise f []) s = .next t ∧ Quiet s t ∧ Answered s t f .revise st 0 [] := by
  have he : effect (.revise f []) s = reply f .revise st [] s := (h.onNamed hf hb .revise ReviseReq.name rfl (applyRevise f)).trans hr
  rw [exec_eq_commit, he]
  exact refused_concluded f .revise hst [] s

theorem redirect_refused {f : Frame} {r : RedirectReq} {l : Live} {s : State} (h : Reaches s f r.name l) (hf : FromHolder s f)
    (hb : parseRedirect f.body = some r) {st : Status} (hst : st ≠ .malformed) (hr : applyRedirect f r l s = reply f .redirect st [] s) :
    ∃ t, exec (.redirect f []) s = .next t ∧ Quiet s t ∧ Answered s t f .redirect st 0 [] := by
  have he : effect (.redirect f []) s = reply f .redirect st [] s :=
    (h.onNamed hf hb .redirect RedirectReq.name rfl (applyRedirect f)).trans hr
  rw [exec_eq_commit, he]
  exact refused_concluded f .redirect hst [] s

theorem memoryHeld_iff {l : Live} : memoryHeld l = true ↔ l.state = .held .memory := by
  simp [memoryHeld]

theorem stateReadWork {f : Frame} {r : RecordName} {l : Live} {s : State} (h : Reaches s f r l) (work : List RecField) :
    readWork r.number work s = (true, s) :=
  readWork_of_sound h.sound h.live work

/-- Settles O19: each refusal is a REPLY before any change. -/
theorem stateAndParameterRefusals : Obligations.StateAndParameterRefusals := fun f l s hf => by
  refine ⟨fun r h hb => ⟨fun hst => ?_, fun hp hm => ⟨fun hlist => ?_, fun hc hlist hslot => ?_⟩⟩, fun r h hb => ⟨fun hm => ?_, fun hm hlen => ?_,
    fun x hx hst => ?_, fun x hm hx hst hslot => ?_⟩, fun r h hb => ⟨fun hst => ?_, fun hst => ?_, fun hp => ?_⟩⟩
  · exact revise_refused h hf hb (by decide) (by simp [applyRevise, hst])
  · refine revise_refused h hf hb (by decide) ?_
    simp [applyRevise, hp, hm, stateReadWork h, hlist]
  · refine revise_refused h hf hb (by decide) ?_
    simp [applyRevise, hp, hm, stateReadWork h, hc, hlist, hslot]
  · exact redirect_refused h hf hb (by decide) (by simp [applyRedirect, hm])
  · refine redirect_refused h hf hb (by decide) ?_
    simp [applyRedirect, hm, List.getElem?_eq_none hlen]
  · refine redirect_refused h hf hb (by decide) ?_
    by_cases hm : memoryHeld l = true
    · simp [applyRedirect, hm]
    · simp [applyRedirect, hm, hx, stateReadWork h, hst]
  · refine redirect_refused h hf hb (by decide) ?_
    simp [applyRedirect, hm, hx, stateReadWork h, hst, hslot]
  · have he : effect (.hold f []) s = reply f .hold .wrongState [] s := by
      refine (h.onNamed hf hb .hold id rfl (fun r => applyHold f r.number)).trans ?_
      obtain ⟨c, hc⟩ | hp := hst
      · simp [applyHold, hc]
      · simp [applyHold, hp]
    rw [exec_eq_commit, he]
    exact refused_concluded f .hold (by decide) [] s
  · have he : effect (.resume f []) s = reply f .resume .wrongState [] s := by
      refine (h.onNamed hf hb .resume id rfl (fun r => applyResume f r.number)).trans ?_
      unfold applyResume
      split
      · rfl
      · rename_i c hmem hc
        rcases hst with hno | hm | hlost
        · exact absurd hc (hno c)
        · exact absurd (RecState.held.inj (hc.symm.trans (memoryHeld_iff.mp hm))) hmem
        · have : (l.targets.any fun t => t.status == .lost) = true := by simpa using hlost
          simp [stateReadWork h, this]
      · rfl
    rw [exec_eq_commit, he]
    exact refused_concluded f .resume (by decide) [] s
  · have he : effect (.retire f []) s = reply f .retire .wrongState [] s :=
      (h.onNamed hf hb .retire id rfl (fun r => applyRetire f r.number)).trans (if_neg hp)
    rw [exec_eq_commit, he]
    exact refused_concluded f .retire (by decide) [] s

/-! ### Selectors (R80, R182) -/

theorem selectSlots_rack {s : State} {r : SelectorReq} (hk : r.kind = 0) (hn : r.number ≤ 63) : ∃ ks, selectSlots s r = .ok ks ∧ ∀ k, k ∈ ks ↔
    ∃ v, (k, v) ∈ s.nodes ∧ v.state ≠ .absent ∧ v.rack = r.number := by
  refine ⟨_, by rw [selectSlots, if_pos hk, if_neg (Nat.not_lt.mpr hn)], fun k => ?_⟩
  simp [Sparse.keys]

theorem selectSlots_slot {s : State} {r : SelectorReq} (hk : r.kind = 1) (hn : r.number ≤ 1023) :
    selectSlots s r = .ok (if (nodeAt s r.number).state = .absent then [] else [r.number]) := by
  rw [selectSlots, if_neg (by rw [hk]; decide), if_pos hk, if_neg (nodeSlots_not_le hn)]
  split <;> rfl

theorem selectSlots_malformed {s : State} {r : SelectorReq} (h : (r.kind = 0 ∧ 63 < r.number) ∨ (r.kind ≠ 0 ∧ r.kind ≠ 1)) :
    selectSlots s r = .error .malformed := by
  rcases h with ⟨hk, hn⟩ | ⟨h0, h1⟩
  · rw [selectSlots, if_pos hk, if_pos hn]
  · rw [selectSlots, if_neg h0, if_neg h1]

theorem selectSlots_bad_slot {s : State} {r : SelectorReq} (hk : r.kind = 1) (hn : 1023 < r.number) : selectSlots s r = .error .badSlot := by
  rw [selectSlots, if_neg (by rw [hk]; decide), if_pos hk, if_pos (show Config.nodeSlots ≤ r.number from hn)]

theorem fence_of_error {f : Frame} {r : SelectorReq} {st : Status} {s : State} (ha : Arrives s f) (hf : FromHolder s f)
    (hb : parseSelector f.body = some r) (h : selectSlots s r = .error st) : effect (.fence f) s = reply f .fence st [] s := by
  refine (request_of_readable ha hb (fun _ => hf) .fence _).trans ?_
  rw [applyFence, h]

theorem unfence_of_error {f : Frame} {r : SelectorReq} {st : Status} {s : State} (ha : Arrives s f) (hf : FromHolder s f)
    (hb : parseSelector f.body = some r) (h : selectSlots s r = .error st) : effect (.unfence f) s = reply f .unfence st [] s := by
  refine (request_of_readable ha hb (fun _ => hf) .unfence _).trans ?_
  rw [applyUnfence, h]

/-- A request whose change is a MALFORMED REPLY, or another refusal. -/
theorem exec_malformed {c : Instr} {f : Frame} {k : Kind} {s : State} (h : effect c s = reply f k .malformed [] s) :
    ∃ t, exec c s = .next t ∧ Quiet s t ∧ Answered s t f k .malformed 0 [] := by
  rw [exec_eq_commit, h]
  obtain ⟨t, ht, hq, hans, -⟩ := malformed_concluded f k s
  exact ⟨t, ht, hq, hans⟩

theorem exec_refused {c : Instr} {f : Frame} {k : Kind} {st : Status} {r : List Byte} {s : State} (h : effect c s = reply f k st r s)
    (hst : st ≠ .malformed) : ∃ t, exec c s = .next t ∧ Quiet s t ∧ Answered s t f k st 0 r := by
  rw [exec_eq_commit, h]
  exact refused_concluded f k hst r s

/-- Settles O26, by the four outcomes of a selector. -/
theorem selectorChecks : Obligations.SelectorChecks := fun f r s ha hf hb =>
  ⟨selectSlots_rack, selectSlots_slot, fun h => exec_malformed (fence_of_error ha hf hb (selectSlots_malformed h)),
    fun h => exec_malformed (unfence_of_error ha hf hb (selectSlots_malformed h)),
    fun hk hn => exec_refused (fence_of_error ha hf hb (selectSlots_bad_slot hk hn)) (by decide),
    fun hk hn => exec_refused (unfence_of_error ha hf hb (selectSlots_bad_slot hk hn)) (by decide)⟩

end Sys2Proof.Machine

/-! SUPPORT. Frames as bytes (R181), the wake filter (R161 to R163), the lease requests (R169 to R174) and the event registers (R193 to R196): what each leaves
once the command has ended. -/

namespace Sys2Proof.Machine

/-! ### What DEFINE refuses, in the words of R40 -/

theorem badLength_iff (len : Nat) : badLength len = true ↔ len = 0 ∨ len % 4096 ≠ 0 ∨ 67108864 < len := by
  simp only [badLength, Bool.or_eq_true, beq_iff_eq, bne_iff_ne, decide_eq_true_eq, or_assoc]
  rfl

theorem badSlot_iff (s : State) (k : Nat) : badSlot s k = true ↔ 1023 < k ∨ (nodeAt s k).state = .absent := by
  simp only [badSlot, Bool.or_eq_true, beq_iff_eq, decide_eq_true_eq]
  rfl

theorem badSources_iff (ss : List Source) (frags : List Byte) : badSources ss frags = true ↔
    ss.length = 0 ∨ 16 < ss.length ∨ (∃ x ∈ ss.map (fun e => e.frag) ++ frags, 19 < x.toNat)
      ∨ ¬ (ss.map (fun e => e.frag) ++ frags).Nodup ∨ (∃ e ∈ ss, ∀ x ∈ e.coefs, x = 0)
      ∨ ∃ q, q < frags.length ∧ ∀ e ∈ ss, e.coefs.getD q 0 = 0 := by
  simp only [badSources, Bool.or_eq_true, List.isEmpty_iff, ← List.length_eq_zero_iff, decide_eq_true_eq, List.any_eq_true, List.all_eq_true,
    Bool.not_eq_true', decide_eq_false_iff_not, beq_iff_eq, List.mem_range, or_assoc]

theorem badDefineList_iff (r : DefineReq) : badDefineList r = true ↔
    r.sources.length = 0 ∨ 16 < r.sources.length ∨ r.targets.length = 0 ∨ 4 < r.targets.length
      ∨ (∃ x ∈ r.sources.map (fun e => e.frag) ++ r.targets.map (fun t => t.1), 19 < x.toNat)
      ∨ ¬ (r.sources.map (fun e => e.frag) ++ r.targets.map (fun t => t.1)).Nodup
      ∨ (∃ e ∈ r.sources, ∀ x ∈ e.coefs, x = 0)
      ∨ ∃ q, q < r.targets.length ∧ ∀ e ∈ r.sources, e.coefs.getD q 0 = 0 := by
  have front : ∀ {t t4 z l q : Prop}, ((t ∨ t4) ∨ (z ∨ l ∨ q)) ↔ (z ∨ l ∨ t ∨ t4 ∨ q) := by tauto
  simp only [badDefineList, Bool.or_eq_true, List.isEmpty_iff, ← List.length_eq_zero_iff, decide_eq_true_eq, badSources_iff, List.length_map, front]

theorem badDefineSlot_iff (s : State) (r : DefineReq) : badDefineSlot s r = true ↔
    (∃ e ∈ r.sources, 1023 < e.slot ∨ (nodeAt s e.slot).state = .absent) ∨ ∃ x ∈ r.targets, 1023 < x.2 ∨ (nodeAt s x.2).state = .absent := by
  simp only [badDefineSlot, List.any_append, List.any_map, Bool.or_eq_true, List.any_eq_true, Function.comp_apply, badSlot_iff]

/-- Settles O10: the model's checks, each as R40 says it. -/
theorem defineListChecks : Obligations.DefineListChecks :=
  ⟨badLength_iff, fun _ r _ => badDefineList_iff r, badSlot_iff, badDefineSlot_iff⟩

/-! ### Frames as bytes (R180, R181) -/

theorem onRawFrame_of_not_taken {f : RawFrame} {s : State} (h : rawTaken s f = false) : onRawFrame f s = s :=
  if_neg (by rw [h]; exact Bool.false_ne_true)

theorem onRawFrame_of_dormant {f : RawFrame} {s : State} (h : rawTaken s f = true) (hm : s.mode = .dormant) : onRawFrame f s = dormantFrame f s := by
  rw [onRawFrame, if_pos h, if_pos hm]

theorem onRawFrame_of_awake {f : RawFrame} {s : State} (h : rawTaken s f = true) (hm : s.mode ≠ .dormant) : onRawFrame f s = awakeFrame f s := by
  rw [onRawFrame, if_pos h, if_neg hm]

/-- An answer to a frame of an undefined kind: MALFORMED, with the frame's own code, and counted (R181). -/
theorem undefined_answered (f : RawFrame) (s : State) :
    ∃ t, commit s (answer (askerOf (rawParse f)) (rawKind f) .malformed 0 [] s) = .next t ∧ OnlyEvents s t
      ∧ counterValue .malformed t = saturatingSucc (counterValue .malformed s)
      ∧ match choosePort s f.port with
        | some p => Output.frame (replyFrame s p (rawParse f) (byteAt f.payload 1) .malformed 0 []) ∈ sentBetween s t
        | none => counterValue .replyDropped t = saturatingSucc (counterValue .replyDropped s) := by
  have hport : choosePort (count .malformed s) (askerOf (rawParse f)).port = choosePort s f.port := rfl
  rw [answer, if_pos rfl, sendReply, hport]
  cases hp : choosePort s f.port with
  | some p =>
    obtain ⟨pu, pr, msgs, hc⟩ := commit_eq s (sendFrame p (askerOf (rawParse f)).src .reply 0 (askerOf (rawParse f)).tag
      ([rawKind f, Status.malformed.code] ++ be 2 ([] : List Byte).length ++ []) (count .malformed s))
    refine ⟨_, hc, ⟨Quiet.refl s, rfl⟩, counterValue_count s .malformed, ?_⟩
    refine Ended.sent (u := sendFrame p (askerOf (rawParse f)).src .reply 0 (askerOf (rawParse f)).tag
      ([rawKind f, Status.malformed.code] ++ be 2 ([] : List Byte).length ++ []) (count .malformed s)) ⟨pu, pr, msgs, rfl⟩
      ⟨_, rfl, List.mem_singleton.mpr ?_⟩
    cases p <;> rfl
  | none =>
    obtain ⟨pu, pr, msgs, hc⟩ := commit_eq s (count .replyDropped (count .malformed s))
    refine ⟨_, hc, ⟨Quiet.refl s, rfl⟩, ?_, ?_⟩
    · exact (counterValue_count_other (count .malformed s) (by decide)).trans (counterValue_count s .malformed)
    · refine (counterValue_count (count .malformed s) .replyDropped).trans ?_
      rw [counterValue_count_other s (by decide)]

theorem awakeFrame_of_unreadable {f : RawFrame} {s : State} (h : headerReadable f.payload = false) : awakeFrame f s = count .malformed s :=
  if_neg (by rw [h]; exact Bool.false_ne_true)

theorem awakeFrame_of_readable {f : RawFrame} {s : State} (h : headerReadable f.payload = true) :
    awakeFrame f s = match kindOfCode (rawKind f) with
      | some k => routeKind k (rawParse f) s
      | none => answer (askerOf (rawParse f)) (rawKind f) .malformed 0 [] s :=
  if_pos h

/-- Settles O53, by the way of a frame given as bytes. -/
theorem unreadableFrameOutcomes : Obligations.UnreadableFrameOutcomes := fun f s => by
  have counts : ∀ {d : Counter}, onRawFrame f s = count d s → ∃ t, exec (.unreadableFrame f) s = .next t ∧ OnlyEvents s t ∧ t.outputs = s.outputs
      ∧ t.events.flags = s.events.flags ∧ counterValue d t = saturatingSucc (counterValue d s) := fun h => by
    obtain ⟨t, ht, hev, hout, hflags, hcount, -⟩ := exec_counted (c := .unreadableFrame f) h
    exact ⟨t, ht, hev, hout, hflags, hcount⟩
  refine ⟨fun ht => ?_, fun ht hm hk => counts ?_, fun ht hm hr => counts ?_, fun ht hm hr => ⟨fun k hk hmem => counts ?_, fun hk => ?_⟩⟩
  · obtain ⟨t, hex, hev, hout, hctr, -, -⟩ := exec_unchanged (c := .unreadableFrame f) (onRawFrame_of_not_taken ht)
    exact ⟨t, hex, hev, hout, hctr⟩
  · rw [onRawFrame_of_dormant ht hm]
    refine if_neg fun hw => ?_
    rcases hk with hr | hk
    · rw [hr] at hw
      exact Bool.false_ne_true hw.1
    · exact hk hw.2
  · rw [onRawFrame_of_awake ht hm, awakeFrame_of_unreadable hr]
  · rw [onRawFrame_of_awake ht hm, awakeFrame_of_readable hr]
    have hk : kindOfCode (rawKind f) = some k := hk
    simp only [hk]
    simp only [List.mem_cons, List.not_mem_nil, or_false] at hmem
    rcases hmem with rfl | rfl | rfl | rfl | rfl <;> rfl
  · have hk : kindOfCode (rawKind f) = none := hk
    have heff : effect (.unreadableFrame f) s = answer (askerOf (rawParse f)) (rawKind f) .malformed 0 [] s := by
      refine (onRawFrame_of_awake ht hm).trans ((awakeFrame_of_readable hr).trans ?_)
      rw [hk]
    rw [exec_eq_commit, heff]
    exact undefined_answered f s

/-! ### WAKE (R161 to R163) -/

theorem wakeMatches_iff {s : State} {f : Frame} :
    wakeMatches s f = true ↔ f.cluster = s.wakeCluster ∧ (f.wakeUnit = s.wakeUnit ∨ f.wakeUnit = 0xFFFF) := by
  simp [wakeMatches]

theorem leaveDormant_of_dormant {s : State} (h : s.mode = .dormant) :
    leaveDormant s = raise .modeChanged { s with portA := resumePort s.portA, portB := resumePort s.portB, mode := .ready } :=
  setMode_of_other (s := { s with portA := resumePort s.portA, portB := resumePort s.portB }) (by rw [h]; decide)

/-- The end of a command sends interrupt messages and no frame (R194). -/
theorem commit_sends_messages (old u : State) : ∃ pu pr msgs, commit old u =
      .next { u with events := { u.events with pendingUrgent := pu, pendingRoutine := pr }, outputs := u.outputs ++ msgs }
    ∧ ∀ x, Output.frame x ∉ msgs := by
  obtain ⟨pu, msgs, hu, hno⟩ : ∃ pu msgs, signalUrgent old.events u = { u with events := { u.events with pendingUrgent := pu }, outputs := u.outputs ++ msgs }
      ∧ ∀ x, Output.frame x ∉ msgs := by
    unfold signalUrgent emit
    split
    · split
      · exact ⟨_, [], by rw [List.append_nil], fun _ => List.not_mem_nil⟩
      · split
        · exact ⟨_, [.urgentMessage], rfl, fun _ h => nomatch List.mem_singleton.mp h⟩
        · exact ⟨_, [], by rw [List.append_nil], fun _ => List.not_mem_nil⟩
    · exact ⟨_, [], by rw [List.append_nil], fun _ => List.not_mem_nil⟩
  obtain ⟨pr, more, hr, hnone⟩ : ∃ pr more, signalRoutine old.events (signalUrgent old.events u) =
      { u with events := { u.events with pendingUrgent := pu, pendingRoutine := pr }, outputs := u.outputs ++ (msgs ++ more) }
      ∧ ∀ x, Output.frame x ∉ more := by
    rw [hu]
    unfold signalRoutine emit
    split
    · split
      · exact ⟨_, [], by rw [List.append_nil], fun _ => List.not_mem_nil⟩
      · split
        · exact ⟨_, [.routineMessage], by rw [← List.append_assoc], fun _ h => nomatch List.mem_singleton.mp h⟩
        · exact ⟨_, [], by rw [List.append_nil], fun _ => List.not_mem_nil⟩
    · exact ⟨_, [], by rw [List.append_nil], fun _ => List.not_mem_nil⟩
  refine ⟨pu, pr, msgs ++ more, by rw [commit, hr], fun x hx => ?_⟩
  rcases List.mem_append.mp hx with h | h
  · exact hno x h
  · exact hnone x h

theorem Quiet.lease {s t : State} (h : Quiet s t) : t.lease = s.lease := by
  obtain ⟨⟨_, _, _, _, _, _, _, _, hlease, _⟩, _⟩ := h
  exact hlease

theorem exec_wake_of_taken {f : Frame} {s : State} (h : taken s f = true) : effect (.wake f) s = takenWake f s := if_pos h

/-- A WAKE that matches in DORMANT. -/
theorem takenWake_of_hit {f : Frame} {s : State} (hm : s.mode = .dormant) (h : wakeMatches s f = true) :
    takenWake f s = raise .wake (raise .modeChanged { s with portA := resumePort s.portA, portB := resumePort s.portB, mode := .ready }) := by
  rw [takenWake, if_pos hm, if_pos h, leaveDormant_of_dormant hm]

theorem takenWake_of_awake {f : Frame} {s : State} (hm : s.mode ≠ .dormant) (h : wakeMatches s f = true) :
    takenWake f s = reply f .wake .ok ([modeCode s.mode] ++ reserved 3) s := by
  rw [takenWake, if_neg hm, if_pos h]

/-- A REPLY leaves the flags. -/
theorem reply_flags (f : Frame) (k : Kind) (st : Status) (r : List Byte) (u : State) : (reply f k st r u).events = u.events := by
  obtain ⟨ctr, out, h⟩ := reply_eq f k st r u
  rw [h]

/-- A WAKE that matches outside DORMANT is answered with the mode. -/
theorem wake_answered {f : Frame} {s : State} (ht : taken s f = true) (hm : s.mode ≠ .dormant) (h : wakeMatches s f = true) :
    ∃ t, exec (.wake f) s = .next t ∧ Quiet s t ∧ t.events.flags = s.events.flags ∧ Answered s t f .wake .ok 0 [modeCode s.mode, 0, 0, 0] := by
  have heff : effect (.wake f) s = reply f .wake .ok ([modeCode s.mode] ++ reserved 3) s :=
    (exec_wake_of_taken ht).trans (takenWake_of_awake hm h)
  obtain ⟨t, hc, hans, hcon⟩ := reply_concluded (Unanswered.refl s) f .wake (st := .ok) (by decide) ([modeCode s.mode] ++ reserved 3)
  obtain ⟨t', ht', hend⟩ := exec_ended_of heff
  obtain rfl : t' = t := Host.Outcome.next.inj (ht'.symm.trans ((exec_eq_commit _ s).trans (heff ▸ hc)))
  exact ⟨t', ht', hcon.quiet (Quiet.refl s), hend.flags.trans (congrArg Events.flags (reply_flags ..)), hans⟩

/-- Settles O36: the four cases of mode and match. -/
theorem wakeFilter : Obligations.WakeFilter := fun f s htaken => by
  have heff := exec_wake_of_taken htaken
  by_cases hm : s.mode = .dormant
  · by_cases hw : wakeMatches s f = true
    · obtain ⟨pu, pr, msgs, hc, hno⟩ := commit_sends_messages s (effect (.wake f) s)
      rw [← exec_eq_commit, heff, takenWake_of_hit hm hw] at hc
      refine ⟨_, hc, SameTable.refl s, SameWork.refl s, rfl,
        fun _ _ => ⟨rfl, ?_, flagSet_raise_mono (flagSet_raise_self ..), rfl, rfl, fun x hx => hno x ?_, fun p => ?_⟩,
        fun _ hnot => absurd (wakeMatches_iff.mp hw) hnot, fun h => absurd hm h, fun h => absurd hm h⟩
      · exact flagSet_raise_self .wake (raise .modeChanged _)
      · rw [sentBetween] at hx
        exact (List.drop_left (l₁ := s.outputs) (l₂ := msgs)) ▸ hx
      · cases p <;> rfl
    · have heff : effect (.wake f) s = count .dormantDrop s := by
        rw [heff, takenWake, if_pos hm, if_neg hw]
      obtain ⟨t, ht, hev, hout, -, hcount, -⟩ := exec_counted heff
      exact ⟨t, ht, hev.1.2.1, hev.1.2.2.1, hev.1.lease, fun _ h => absurd (wakeMatches_iff.mpr h) hw,
        fun _ _ => ⟨hev.1, hout, hcount⟩, fun h => absurd hm h, fun h => absurd hm h⟩
  · by_cases hw : wakeMatches s f = true
    · obtain ⟨t, ht, hq, hflags, hans⟩ := wake_answered htaken hm hw
      exact ⟨t, ht, hq.2.1, hq.2.2.1, hq.lease, fun h => absurd h hm, fun h => absurd h hm, fun _ _ => ⟨hq, hans, hflags⟩,
        fun _ h => absurd (wakeMatches_iff.mp hw) h⟩
    · have heff : effect (.wake f) s = s := by
        rw [heff, takenWake, if_neg hm, if_neg hw]
      obtain ⟨t, ht, hev, hout, hctr, -⟩ := exec_unchanged heff
      exact ⟨t, ht, hev.1.2.1, hev.1.2.2.1, hev.1.lease, fun h => absurd h hm, fun h => absurd h hm,
        fun _ h => absurd (wakeMatches_iff.mpr h) hw, fun _ _ => ⟨hev.1, hout, hctr⟩⟩

end Sys2Proof.Machine

/-! SUPPORT. The lease requests (R169 to R174): each check of R171, and what the request that passes them does. -/

namespace Sys2Proof.Machine

theorem Concluded.settings {u t : State} (h : Concluded u t) : t.settings = u.settings := by
  obtain ⟨⟨_, _, _, rfl⟩, -⟩ := h
  rfl

theorem Concluded.leaseReport {u t : State} (h : Concluded u t) : leaseReport t = leaseReport u := by
  obtain ⟨⟨_, _, _, rfl⟩, -⟩ := h
  rfl

/-- A lease request that is refused: its report, and nothing else. -/
theorem leaseReply_refused {c : Instr} {f : Frame} {k : Kind} {st : Status} (hst : st ≠ .malformed) {s : State}
    (h : effect c s = leaseReply f k st s) : ∃ t, exec c s = .next t ∧ Quiet s t ∧ Answered s t f k st 0 (leaseReport s) := by
  obtain ⟨t, ht, hans, hcon⟩ := reply_concluded (Unanswered.refl s) f k hst (leaseReport s)
  exact ⟨t, (exec_eq_commit c s).trans (h ▸ ht), hcon.quiet (Quiet.refl s), hans⟩

/-- A lease request that is granted: its change, and the report after it. -/
theorem leaseReply_granted {c : Instr} {f : Frame} {k : Kind} {s u : State} (h : effect c s = leaseReply f k .ok u) (ha : Addressed s u)
    (ht : SameTable s u) (hw : SameWork s u) : ∃ t, exec c s = .next t ∧ t.lease = u.lease ∧ t.mode = u.mode ∧ SameTable s t ∧ SameWork s t
      ∧ Answered s t f k .ok 0 (leaseReport t) ∧ ∀ e, flagSet e t = flagSet e u := by
  obtain ⟨t, hc, hans, hcon⟩ := reply_addressed ha f k (st := .ok) (by decide) (leaseReport u)
  exact ⟨t, (exec_eq_commit c s).trans (h ▸ hc), hcon.lease, hcon.mode, hcon.sameTable ht, hcon.sameWork hw, hcon.leaseReport ▸ hans,
    flagSet_concluded hc⟩

theorem Addressed.with_lease (s : State) (v : Lease) : Addressed s { s with lease := v } :=
  ⟨rfl, rfl, rfl, ⟨[], (List.append_nil _).symm⟩, rfl⟩

theorem Addressed.setMode {s u : State} (h : Addressed s u) (m : Mode) : Addressed s (setMode m u) := by
  unfold Machine.setMode
  split
  · exact h
  · exact ⟨h.portA, h.portB, h.etherType, h.sent, h.dropped⟩

theorem Addressed.endDrain {s u : State} (h : Addressed s u) : Addressed s (endDrain u) := by
  unfold Machine.endDrain
  split
  · exact h.setMode _
  · exact h

theorem endLease_addressed (e : Event) (s : State) : Addressed s (endLease e s) := by
  have hend : Addressed s (raise e { s with lease := { s.lease with grant := none } }) :=
    ⟨rfl, rfl, rfl, ⟨[], (List.append_nil _).symm⟩, rfl⟩
  unfold endLease
  simp only
  split
  · exact (hend.setMode .drain).endDrain
  · exact hend

theorem leaseNamed_of_other {f : Frame} {s : State} (h : ∀ g, s.lease.grant = some g → g.holder ≠ f.src) (epoch : BitVec 32) :
    leaseNamed f epoch s = .error .notHolder := by
  rw [leaseNamed]
  cases hg : s.lease.grant with
  | none => rfl
  | some g => exact if_pos (h g hg)

theorem leaseNamed_of_stale {f : Frame} {s : State} {g : Grant} {epoch : BitVec 32} (hg : s.lease.grant = some g) (hh : g.holder = f.src)
    (he : s.lease.epoch ≠ epoch) : leaseNamed f epoch s = .error .staleEpoch := by
  rw [leaseNamed, hg]
  exact (if_neg (not_not.mpr hh)).trans (if_pos he)

theorem leaseNamed_of_holder {f : Frame} {s : State} {g : Grant} {epoch : BitVec 32} (hg : s.lease.grant = some g) (hh : g.holder = f.src)
    (he : s.lease.epoch = epoch) : leaseNamed f epoch s = .ok g := by
  rw [leaseNamed, hg]
  exact (if_neg (not_not.mpr hh)).trans (if_neg (not_not.mpr he))

theorem effect_leaseTake {f : Frame} {s : State} (ha : Arrives s f) (hb : f.body = []) : effect (.leaseTake f) s = applyLeaseTake f s :=
  request_of_readable (needs := false) ha (r := ()) (body := parseEmpty f.body) (by rw [hb]; rfl) (fun h => nomatch h) .leaseTake _

theorem effect_leaseRenew {f : Frame} {epoch : BitVec 32} {s : State} (ha : Arrives s f) (hb : parseEpoch f.body = some epoch) :
    effect (.leaseRenew f) s = applyLeaseRenew f epoch s :=
  request_of_readable (needs := false) ha hb (fun h => nomatch h) .leaseRenew _

theorem effect_leaseRelease {f : Frame} {epoch : BitVec 32} {s : State} (ha : Arrives s f) (hb : parseEpoch f.body = some epoch) :
    effect (.leaseRelease f) s = applyLeaseRelease f epoch s :=
  request_of_readable (needs := false) ha hb (fun h => nomatch h) .leaseRelease _

/-- A LEASE_RENEW or LEASE_RELEASE that R171 steps 1 and 2 refuse. -/
theorem leaseNamed_refused {f : Frame} {epoch : BitVec 32} {s : State} {st : Status} (hst : st ≠ .malformed) (ha : Arrives s f)
    (hb : parseEpoch f.body = some epoch) (h : leaseNamed f epoch s = .error st) :
    (∃ t, exec (.leaseRenew f) s = .next t ∧ Quiet s t ∧ Answered s t f .leaseRenew st 0 (leaseReport s))
      ∧ ∃ t, exec (.leaseRelease f) s = .next t ∧ Quiet s t ∧ Answered s t f .leaseRelease st 0 (leaseReport s) :=
  ⟨leaseReply_refused hst ((effect_leaseRenew ha hb).trans (by rw [applyLeaseRenew, h])),
    leaseReply_refused hst ((effect_leaseRelease ha hb).trans (by rw [applyLeaseRelease, h]))⟩

theorem leaseReport_of_held {s : State} {g : Grant} (hg : s.lease.grant = some g) : leaseReport s =
    be 6 g.holder.toNat ++ [0, 0] ++ be 4 s.lease.epoch.toNat ++ be 2 s.settings.tMax ++ be 2 s.settings.tMin
      ++ be 2 ((s.settings.tMax * 100 - g.elapsed) / 100) ++ [modeCode s.mode, 0] := by
  rw [leaseReport, leaseHolder, leaseTimeLeft, hg, List.append_assoc (bs := [modeCode s.mode])]
  rfl

theorem leaseReport_of_free {s : State} (hg : s.lease.grant = none) : leaseReport s =
    [0, 0, 0, 0, 0, 0, 0, 0] ++ be 4 s.lease.epoch.toNat ++ be 2 s.settings.tMax ++ be 2 s.settings.tMin ++ [0, 0] ++ [modeCode s.mode, 0] := by
  have h6 : be 6 (0 : EthAddr).toNat = [0, 0, 0, 0, 0, 0] := by decide
  have h2 : be 2 0 = [0, 0] := by decide
  rw [leaseReport, leaseHolder, leaseTimeLeft, hg, List.append_assoc (bs := [modeCode s.mode])]
  simp only [h6, h2]
  rfl

/-- Settles O37: the report, and each request by the checks that it passes. -/
theorem leaseRequests : Obligations.LeaseRequests := by
  refine ⟨fun s => ?_, fun f epoch s ha => ⟨fun hb => ⟨fun hfree => ?_, fun hheld => ?_⟩, fun hb => ⟨fun hother => ?_, fun g hg hh =>
    ⟨fun hstale => ?_, fun he hearly => ?_, fun he hlate => ?_, fun he => ?_⟩⟩⟩⟩
  · cases hg : s.lease.grant with
    | none => exact leaseReport_of_free hg
    | some g => exact leaseReport_of_held hg
  · have heff : effect (.leaseTake f) s = leaseReply f .leaseTake .ok (grantLease f.src s) := by
      rw [effect_leaseTake ha hb, applyLeaseTake, hfree]
    obtain ⟨t, ht, hlease, hmode, htable, hwork, hans, -⟩ :=
      leaseReply_granted heff (Addressed.with_lease s _) (SameTable.refl s) (SameWork.refl s)
    exact ⟨t, ht, hlease, hmode, htable, hwork, hans⟩
  · obtain ⟨g, hg⟩ := Option.ne_none_iff_exists'.mp hheld
    exact leaseReply_refused (by decide) ((effect_leaseTake ha hb).trans (by rw [applyLeaseTake, hg]))
  · exact leaseNamed_refused (by decide) ha hb (leaseNamed_of_other hother epoch)
  · exact leaseNamed_refused (by decide) ha hb (leaseNamed_of_stale hg hh hstale)
  · refine leaseReply_refused (by decide) ((effect_leaseRenew ha hb).trans ?_)
    rw [applyLeaseRenew, leaseNamed_of_holder hg hh he]
    exact if_pos hearly
  · have heff : effect (.leaseRenew f) s = leaseReply f .leaseRenew .ok (restartWindow g s) := by
      rw [effect_leaseRenew ha hb, applyLeaseRenew, leaseNamed_of_holder hg hh he]
      exact if_neg (Nat.not_lt.mpr hlate)
    obtain ⟨t, ht, hlease, hmode, htable, hwork, hans, -⟩ :=
      leaseReply_granted heff (Addressed.with_lease s _) (SameTable.refl s) (SameWork.refl s)
    exact ⟨t, ht, hlease.trans (by rw [← he]; rfl), hmode, htable, hwork, hans⟩
  · have heff : effect (.leaseRelease f) s = leaseReply f .leaseRelease .ok (endLease .leaseReleased s) := by
      rw [effect_leaseRelease ha hb, applyLeaseRelease, leaseNamed_of_holder hg hh he]
    obtain ⟨hl, hflag, hm, htab, hwk, -⟩ := endLease_leaves .leaseReleased s
    obtain ⟨t, ht, hlease, hmode, htable, hwork, hans, hflags⟩ := leaseReply_granted heff (endLease_addressed _ s) htab hwk
    exact ⟨t, ht, hlease.trans (by rw [hl, he]), (hflags _).trans hflag, hmode.trans hm, htable, hwork, hans⟩

end Sys2Proof.Machine

/-! SUPPORT. Every busy lane given up and its record returned to WAITING, in lane-number order (R129, R133, R158, R164). -/

namespace Sys2Proof.Machine

/-! ### Records returned one after another -/

/-- What returning records to WAITING does to everything else: no slot changes but in its outstanding count and stall list, no flag is set, and nothing is
counted but dropped notices. -/
structure Returning (s t : State) : Prop where
  unanswered : Unanswered s t
  steady : Steady s t
  node : ∀ k, ∃ o ns, nodeAt t k = { nodeAt s k with outstanding := o, stallList := ns }
  events : t.events = s.events
  counters : ∀ c, c ≠ .noticeDropped → counterValue c t = counterValue c s

theorem Returning.refl (s : State) : Returning s s :=
  ⟨Unanswered.refl s, Steady.refl s, fun _ => ⟨_, _, rfl⟩, rfl, fun _ _ => rfl⟩

theorem Returning.trans {s t u : State} (h : Returning s t) (g : Returning t u) : Returning s u := by
  refine ⟨h.unanswered.trans g.unanswered, h.steady.trans g.steady, fun k => ?_, g.events.trans h.events,
    fun c hc => (g.counters c hc).trans (h.counters c hc)⟩
  obtain ⟨o, ns, ht⟩ := h.node k
  obtain ⟨o', ns', hu⟩ := g.node k
  exact ⟨o', ns', by rw [hu, ht]⟩

theorem Returning.foldl {β : Type} {f : State → β → State} (h : ∀ s b, Returning s (f s b)) (bs : List β) (s : State) : Returning s (bs.foldl f s) := by
  induction bs generalizing s with
  | nil => exact Returning.refl s
  | cons b bs ih => exact (h s b).trans (ih _)

theorem abandonLane_returning (i : Fin 8) (s : State) : Returning s (abandonLane i s) := by
  have h := abandonLane_abandoned i s
  refine ⟨?_, abandonLane_steady i s, fun k => ⟨_, _, h.node k⟩, ?_, fun c _ => ?_⟩
  · rw [h.same]
    exact .of_same (SameControl.refl s) rfl rfl
  · rw [h.same]
  · rw [h.same]
    rfl

theorem leaveHolder_counters (n : Nat) (l : Live) (s : State) : (leaveHolder n l s).counters = s.counters := by
  unfold leaveHolder
  split
  · rfl
  · rfl
  · split
    · rw [(abandonLane_abandoned _ s).same]
    · rfl
  · rfl
  · rfl

theorem enterWaiting_counters {n : Nat} {l : Live} {s : State} (hl : liveAt s n = some l) {c : Counter} (hc : c ≠ .noticeDropped) :
    counterValue c (enterWaiting n s) = counterValue c s := by
  unfold enterWaiting
  simp only [hl]
  obtain ⟨d, hd⟩ := writeFields_eq n [.state, .holdCause, .stallNode, .stamp]
    (setLive n { l with state := .waiting, stamp := (leaveHolder n l s).queueSeq } (leaveHolder n l s))
  obtain ⟨_, _, _, -, hcount⟩ := notify_eq n (generationAt s n) l.watch (stateCode (some l.state)) (some .waiting)
    (joinQueue n l.cls (writeFields n [.state, .holdCause, .stallNode, .stamp]
      (setLive n { l with state := .waiting, stamp := (leaveHolder n l s).queueSeq } (leaveHolder n l s))))
  rw [hcount c hc, hd, counterValue, counterValue, ← leaveHolder_counters n l s]
  cases l.cls <;> rfl

theorem enterWaiting_returning (n : Nat) (s : State) : Returning s (enterWaiting n s) := by
  cases hl : liveAt s n with
  | none =>
    rw [enterWaiting, hl]
    exact Returning.refl s
  | some l =>
    refine ⟨(enterWaiting_onlyRecord hl).toUnanswered, enterWaiting_steady n s, fun k => ?_, ?_, fun c hc => enterWaiting_counters hl hc⟩
    · rw [enterWaiting_nodeAt hl]
      exact leaveHolder_node n l s k
    · obtain ⟨d, nc, ctr, out, heq, -⟩ := enterWaiting_eq hl
      rw [heq, ← leaveHolder_events n l s]
      cases l.cls <;> rfl

theorem returnLane_of_idle {s : State} {i : Fin 8} (h : laneAt s i = none) : returnLane s i = s := by
  rw [returnLane, h]

theorem returnLane_of_busy {s : State} {i : Fin 8} {j : Job} (h : laneAt s i = some j) : returnLane s i = enterWaiting j.record (abandonLane i s) := by
  rw [returnLane, h]

theorem returnLane_returning (s : State) (i : Fin 8) : Returning s (returnLane s i) := by
  cases h : laneAt s i with
  | none =>
    rw [returnLane_of_idle h]
    exact Returning.refl s
  | some j =>
    rw [returnLane_of_busy h]
    exact (abandonLane_returning i s).trans (enterWaiting_returning ..)

theorem returnAllLanes_returning (s : State) : Returning s (returnAllLanes s) :=
  Returning.foldl returnLane_returning laneNumbers s

/-! ### The lanes given up -/

theorem LanesLeft.of_perm {ls ms : List (Fin 8)} (h : ls.Perm ms) {s t : State} (hl : LanesLeft ls s t) : LanesLeft ms s t := by
  have hmem : ∀ i, i ∈ ms ↔ i ∈ ls := fun i => h.symm.mem_iff
  refine ⟨⟨fun i hi => hl.abandoned.1 i ((hmem i).mp hi), fun k => ?_⟩, fun i hi => hl.other i (mt (hmem i).mpr hi), hl.waits, fun k => ?_⟩
  · simp only [hmem]
    exact hl.abandoned.2 k
  · have hf : fetchesOn s ms k = fetchesOn s ls k := List.countP_congr fun x _ => by
      cases (slotAt s x).use with
      | none => simp
      | some ft => simp [hmem]
    rw [hl.fall k, hf, storesOn, storesOn, (h.map _).sum_eq]

/-- The lanes `ms` of those that were busy have been given up, each once. -/
def GivenUp (ms : List (Fin 8)) (s t : State) : Prop :=
  LanesLeft ms s t ∧ ms.Nodup ∧ ∀ i ∈ ms, laneAt s i ≠ none

theorem GivenUp.nil (s : State) : GivenUp [] s s := ⟨LanesLeft.nil s, List.nodup_nil, fun _ h => absurd h List.not_mem_nil⟩

theorem GivenUp.abandon {s : State} {i : Fin 8} {j : Job} (h : laneAt s i = some j) : GivenUp [i] s (abandonLane i s) :=
  ⟨abandonLane_left h, List.nodup_singleton i, fun i' hi => by rw [List.mem_singleton.mp hi, h]; exact Option.some_ne_none j⟩

theorem GivenUp.cons {i : Fin 8} {ms : List (Fin 8)} {s u t : State} (h : GivenUp [i] s u) (g : GivenUp ms u t) : GivenUp (i :: ms) s t := by
  obtain ⟨hleft, -, hbusy⟩ := h
  obtain ⟨gleft, gnodup, gbusy⟩ := g
  have hi : i ∉ ms := fun hmem => gbusy i hmem (hleft.abandoned.1 i (List.mem_singleton_self i)).1
  refine ⟨hleft.cons gleft hi, List.nodup_cons.mpr ⟨hi, gnodup⟩, fun i' hi' => ?_⟩
  rcases List.mem_cons.mp hi' with rfl | hmem
  · exact hbusy i' (List.mem_singleton_self i')
  · rw [← hleft.other i' fun e => hi (List.mem_singleton.mp e ▸ hmem)]
    exact gbusy i' hmem

theorem GivenUp.of_sameLaneWork {ms : List (Fin 8)} {s u v t : State} (h : GivenUp ms u v) (hs : SameLaneWork s u) (ht : SameLaneWork v t) :
    GivenUp ms s t :=
  ⟨h.1.of_sameLaneWork hs ht, h.2.1, fun i hi => hs.laneAt_eq i ▸ h.2.2 i hi⟩

/-- What leaves a lane leaves it before the lanes that are given up after it. -/
theorem enterWaiting_givenUp {n : Nat} {ms : List (Fin 8)} {s t : State} (g : GivenUp ms (enterWaiting n s) t) : ∃ ns, GivenUp ns s t := by
  cases hl : liveAt s n with
  | none =>
    rw [enterWaiting, hl] at g
    exact ⟨ms, g⟩
  | some l =>
    have hwork := (enterWaiting_work hl).1
    by_cases ha : l.state = .active
    · cases hh : laneHolding s n with
      | none =>
        rw [leaveHolder, ha] at hwork
        simp only [hh] at hwork
        exact ⟨ms, g.of_sameLaneWork hwork (SameLaneWork.refl t)⟩
      | some i =>
        obtain ⟨j, hj, -⟩ := laneHolding_some hh
        rw [leaveHolder_active ha hh] at hwork
        exact ⟨i :: ms, ((GivenUp.abandon hj).of_sameLaneWork (SameLaneWork.refl s) hwork).cons g⟩
    · exact ⟨ms, g.of_sameLaneWork ((leaveHolder_laneWork ha s).trans hwork) (SameLaneWork.refl t)⟩

theorem returnLane_givenUp {i : Fin 8} {ms : List (Fin 8)} {s t : State} (g : GivenUp ms (returnLane s i) t) : ∃ ns, GivenUp ns s t := by
  cases hj : laneAt s i with
  | none => exact ⟨ms, returnLane_of_idle hj ▸ g⟩
  | some j =>
    rw [returnLane_of_busy hj] at g
    obtain ⟨ns, hns⟩ := enterWaiting_givenUp g
    exact ⟨i :: ns, (GivenUp.abandon hj).cons hns⟩

theorem foldl_returnLane_givenUp (is : List (Fin 8)) (s : State) : ∃ ms, GivenUp ms s (is.foldl returnLane s) := by
  induction is generalizing s with
  | nil => exact ⟨[], GivenUp.nil s⟩
  | cons i is ih =>
    obtain ⟨ms, g⟩ := ih (returnLane s i)
    exact returnLane_givenUp g

theorem laneNumbers_nodup : laneNumbers.Nodup := laneNumbers_sorted.imp (fun h => ne_of_lt h)

theorem mem_busyLanes {s : State} {i : Fin 8} : i ∈ busyLanes s ↔ laneAt s i ≠ none := by
  simp only [busyLanes, List.mem_filter, mem_laneNumbers i, true_and, Option.isSome_iff_ne_none, ne_eq]

/-- The lanes given up are the busy lanes: no lane is busy in the end. -/
theorem returnAllLanes_left (s : State) : LanesLeft (busyLanes s) s (returnAllLanes s) := by
  obtain ⟨ms, hleft, hnodup, hbusy⟩ := foldl_returnLane_givenUp laneNumbers s
  refine hleft.of_perm ((List.perm_ext_iff_of_nodup hnodup (laneNumbers_nodup.filter _)).mpr fun i => ⟨fun hi => mem_busyLanes.mpr (hbusy i hi),
    fun hi => ?_⟩)
  by_contra hno
  exact mem_busyLanes.mp hi ((hleft.other i hno).symm.trans ((allIdle_iff _).mp (returnAllLanes_idle s) i))

theorem LanesLeft.countsFall {ls : List (Fin 8)} {s t : State} (h : LanesLeft ls s t) : CountsFall s t ls :=
  fun _ => ⟨h.other, h.fall⟩

/-! ### The records returned -/

theorem EnteredWaiting.nil {s t : State} (hr : t.records = s.records) (hq : SameQueues s t) : EnteredWaiting s t [] := by
  obtain ⟨hseq, hfg, hbg⟩ := hq
  refine ⟨fun p n l hp => ?_, ?_, ?_, ?_, fun n _ => ?_, fun n => ?_⟩
  · exact nomatch hp
  · exact hseq.trans (by simp)
  · exact hfg.trans (List.append_nil _).symm
  · exact hbg.trans (List.append_nil _).symm
  · rw [recordAt, recordAt, hr]
  · rw [generationAt, generationAt, recordAt, recordAt, hr]

theorem stamp_succ (p : Nat) : (1 : BitVec 32) + BitVec.ofNat 32 p = BitVec.ofNat 32 (p + 1) := by
  rw [Nat.add_comm, BitVec.ofNat_add]
  rfl

/-- One record enters WAITING and then others do: they have entered in turn. -/
theorem EnteredWaiting.cons {n : Nat} {l : Live} {ns : List Nat} {s u t : State} (hl : liveAt s n = some l) (hn : n ∉ ns)
    (h : Requeued s u n l) (ho : OtherRecords s u n) (hg : ∀ m, generationAt u m = generationAt s m) (g : EnteredWaiting u t ns) :
    EnteredWaiting s t (n :: ns) := by
  obtain ⟨hlive, hseq, hjoin⟩ := h
  obtain ⟨glive, gseq, gfg, gbg, gother, ggen⟩ := g
  have hsame : ∀ m, m ≠ n → liveAt u m = liveAt s m := fun m hm => by rw [liveAt, liveAt, ho m hm]
  have hclass : ∀ c, ns.filter (fun m => (liveAt u m).any (fun l => l.cls == c)) = ns.filter (fun m => (liveAt s m).any (fun l => l.cls == c)) :=
    fun c => List.filter_congr fun m hm => by rw [hsame m fun e => hn (e ▸ hm)]
  refine ⟨fun p m x hp hx => ?_, ?_, ?_, ?_, fun m hm => ?_, fun m => (ggen m).trans (hg m)⟩
  · cases p with
    | zero =>
      obtain rfl : n = m := Option.some.inj hp
      cases hl.symm.trans hx
      have hrec := gother n hn
      rw [liveAt, hrec]
      exact hlive.trans (by simp)
    | succ p =>
      have hp : ns[p]? = some m := hp
      have hm : m ≠ n := fun e => hn (e ▸ List.mem_of_getElem? hp)
      rw [glive p m x hp ((hsame m hm).trans hx), hseq, BitVec.add_assoc]
      congr 3
      exact stamp_succ p
  · rw [gseq, hseq, BitVec.add_assoc, List.length_cons, stamp_succ]
  · rw [gfg, hclass, List.filter_cons]
    cases hc : l.cls <;> simp only [hc] at hjoin <;> simp [hl, hc, hjoin.1, hjoin.2]
  · rw [gbg, hclass, List.filter_cons]
    cases hc : l.cls <;> simp only [hc] at hjoin <;> simp [hl, hc, hjoin.1, hjoin.2]
  · obtain ⟨hmn, hmns⟩ := not_or.mp (mt List.mem_cons.mpr hm)
    exact (gother m hmns).trans (ho m hmn)

/-- Once its lane is given up, no lane holds the record. -/
theorem LanesHold.not_held {s : State} (h : LanesHold s) {i : Fin 8} {j : Job} (hj : laneAt s i = some j) :
    laneHolding (abandonLane i s) j.record = none := by
  cases hh : laneHolding (abandonLane i s) j.record with
  | none => rfl
  | some x =>
    obtain ⟨y, hy, hrec⟩ := laneHolding_some hh
    by_cases hx : x = i
    · rw [hx, abandonLane_idle] at hy
      exact nomatch hy
    · rw [(abandonLane_abandoned i s).other x hx] at hy
      exact absurd (h.2 x i y j hy hj hrec) hx

/-- What the return of one lane's record does, where the lane alone holds it. -/
structure LaneReturned (i : Fin 8) (n : Nat) (l : Live) (s u : State) : Prop where
  requeued : Requeued s u n l
  others : OtherRecords s u n
  generation : ∀ m, generationAt u m = generationAt s m
  idle : laneAt u i = none
  lanes : ∀ x, x ≠ i → laneAt u x = laneAt s x
  stallList : ∀ k, (nodeAt u k).stallList = (nodeAt s k).stallList

theorem returnLane_returned {s : State} (h : LanesHold s) {i : Fin 8} {j : Job} {l : Live} (hj : laneAt s i = some j)
    (hl : liveAt s j.record = some l) (ha : l.state = .active) : LaneReturned i j.record l s (returnLane s i) := by
  have habandoned := abandonLane_abandoned i s
  have hrecs := abandonLane_records i s
  have hl' : liveAt (abandonLane i s) j.record = some l := (liveAt_congr hrecs j.record).trans hl
  have hleave : leaveHolder j.record l (abandonLane i s) = abandonLane i s := by
    rw [leaveHolder, ha]
    simp only [h.not_held hj]
  obtain ⟨hwork, hnodes⟩ := enterWaiting_work hl'
  rw [hleave] at hwork hnodes
  have hrequeued := enterWaiting_requeued hl' (by rw [ha]; decide)
  rw [returnLane_of_busy hj]
  refine ⟨?_, fun m hm => ?_, (returnLane_of_busy hj ▸ returnLane_steady s i).generation, ?_, fun x hx => ?_, fun k => ?_⟩
  · unfold Requeued JoinedQueue at hrequeued ⊢
    have hseq : (abandonLane i s).queueSeq = s.queueSeq := by rw [habandoned.same]
    have hfg : (abandonLane i s).fgQueue = s.fgQueue := by rw [habandoned.same]
    have hbg : (abandonLane i s).bgQueue = s.bgQueue := by rw [habandoned.same]
    rw [hseq, hfg, hbg] at hrequeued
    exact hrequeued
  · refine ((enterWaiting_onlyRecord hl').others m hm).trans ?_
    rw [recordAt, recordAt, hrecs]
  · rw [hwork.laneAt_eq]
    exact abandonLane_idle i s
  · rw [hwork.laneAt_eq]
    exact habandoned.other x hx
  · rw [nodeAt, hnodes]
    change (nodeAt (abandonLane i s) k).stallList = _
    rw [habandoned.node k]

theorem LaneReturned.lanesHold {s u : State} {i : Fin 8} {j : Job} {l : Live} (h : LanesHold s) (hj : laneAt s i = some j)
    (hu : LaneReturned i j.record l s u) : LanesHold u := by
  have hlane : ∀ {x : Fin 8} {y : Job}, laneAt u x = some y → x ≠ i ∧ laneAt s x = some y := fun {x y} hy => by
    by_cases hx : x = i
    · rw [hx, hu.idle] at hy
      exact nomatch hy
    · exact ⟨hx, (hu.lanes x hx).symm.trans hy⟩
  refine ⟨fun x y hy => ?_, fun x x' y y' hy hy' hrec => h.2 x x' y y' (hlane hy).2 (hlane hy').2 hrec⟩
  obtain ⟨hx, hy⟩ := hlane hy
  have hne : y.record ≠ j.record := fun e => hx (h.2 x i y j hy hj e)
  rw [liveAt, hu.others y.record hne]
  exact h.1 x y hy

/-- The records of lanes given up in turn return in that order (R129). -/
theorem foldl_returnLane_entered {is : List (Fin 8)} (hn : is.Nodup) {s : State} (h : LanesHold s) :
    EnteredWaiting s (is.foldl returnLane s) (recordsOf s is) ∧ ∀ k, (nodeAt (is.foldl returnLane s) k).stallList = (nodeAt s k).stallList := by
  induction is generalizing s with
  | nil => exact ⟨EnteredWaiting.nil rfl ⟨rfl, rfl, rfl⟩, fun _ => rfl⟩
  | cons i is ih =>
    obtain ⟨hi, hn⟩ := List.nodup_cons.mp hn
    cases hj : laneAt s i with
    | none =>
      have hrecs : recordsOf s (i :: is) = recordsOf s is := List.filterMap_cons_none (by rw [hj]; rfl)
      rw [List.foldl_cons, returnLane_of_idle hj, hrecs]
      exact ih hn h
    | some j =>
      obtain ⟨l, hl, ha⟩ := h.1 i j hj
      have hu := returnLane_returned h hj hl ha
      have hrecs : recordsOf s (i :: is) = j.record :: recordsOf (returnLane s i) is := by
        rw [recordsOf, List.filterMap_cons_some (by rw [hj]; rfl)]
        exact congrArg _ (List.filterMap_congr fun x hx => by rw [hu.lanes x fun e => hi (e ▸ hx)])
      obtain ⟨hentered, hstalls⟩ := ih hn (hu.lanesHold h hj)
      rw [hrecs, List.foldl_cons]
      refine ⟨EnteredWaiting.cons hl (fun hmem => ?_) hu.requeued hu.others hu.generation hentered, fun k => (hstalls k).trans (hu.stallList k)⟩
      obtain ⟨x, hx, hrec⟩ := List.mem_filterMap.mp hmem
      rw [hu.lanes x fun e => hi (e ▸ hx)] at hrec
      obtain ⟨y, hy, hrec⟩ := Option.map_eq_some_iff.mp hrec
      exact hi (h.2 x i y j hy hj hrec ▸ hx)

theorem returnAllLanes_returned (s : State) : ReturnedInOrder s (returnAllLanes s) :=
  ⟨(returnAllLanes_left s).abandoned, fun h => foldl_returnLane_entered laneNumbers_nodup h⟩

end Sys2Proof.Machine

/-! SUPPORT. WARM_RESET, the mode table, a MODE request and the links (R35, R85, R111, R133, R150 to R168, R197, R198). -/

namespace Sys2Proof.Machine

/-! ### WARM_RESET -/

theorem nodeAt_foldl_calmNode (s : State) (k : Nat) :
    nodeAt ((Sparse.keys s.nodes).foldl calmNode s) k = { nodeAt s k with outstanding := 0, consecutive := 0 } := by
  refine (nodeAt_foldl_setNode (g := fun v => { v with outstanding := 0, consecutive := 0 }) (fun _ => rfl) (Sparse.keys s.nodes) k s).trans ?_
  rcases Sparse.get_cases (d := absentNode) s.nodes k with h | h
  · have habsent : nodeAt s k = absentNode k := h
    rw [habsent]
    exact ite_self _
  · exact if_pos (List.mem_map.mpr ⟨_, h, rfl⟩)

/-- The blocks' own effects, once the nodes are calm. -/
theorem warmBlocks_eq (s : State) : ∃ ns, (∀ k, Sparse.get absentNode ns k = { nodeAt s k with outstanding := 0, consecutive := 0 })
    ∧ warmBlocks s = { s with nodes := ns, waitList := [], mode := warmMode s.mode, lease := { s.lease with grant := none }, peek := warmPeek s.peek
                              events := { s.events with flags := 0, pendingUrgent := false, pendingRoutine := false }
                              pacing := { budget := refillValue s.settings, timer := s.settings.pacingN, fgPtr := 7, bgPtr := 7 }
                              probeTimer := 10 * s.settings.probePeriod * 100 } := by
  obtain ⟨ns, hns⟩ := foldl_setNode_eq (fun v => { v with outstanding := 0, consecutive := 0 }) (Sparse.keys s.nodes) s
  have hns : (Sparse.keys s.nodes).foldl calmNode s = { s with nodes := ns } := hns
  refine ⟨ns, fun k => ?_, ?_⟩
  · rw [← nodeAt_foldl_calmNode, hns]
    rfl
  · rw [warmBlocks, hns]
    rfl

theorem warmMode_eq (m : Mode) : warmMode m = if m = .dormant then .dormant else .ready := by
  cases m <;> rfl

theorem urgentCondition_of_no_flag {e : Events} (h : e.flags = 0) : urgentCondition e = false := by
  simp [urgentCondition, h]

theorem routineCondition_of_no_flag {e : Events} (h : e.flags = 0) : routineCondition e = false := by
  simp [routineCondition, h]

/-- With no flag set no condition stands, so that nothing is sent. -/
theorem commit_of_no_flag {old u : State} (hf : u.events.flags = 0) (hu : u.events.pendingUrgent = false) (hr : u.events.pendingRoutine = false) :
    commit old u = .next u := by
  have hsame : ∀ e : Events, e.pendingUrgent = false → e.pendingRoutine = false → { e with pendingUrgent := false, pendingRoutine := false } = e :=
    fun e he he' => by rw [Events.mk.injEq]; exact ⟨rfl, rfl, rfl, rfl, rfl, he.symm, he'.symm⟩
  rw [commit_of_no_condition (urgentCondition_of_no_flag hf) (routineCondition_of_no_flag hf), hsame u.events hu hr]

theorem exec_warmReset (s : State) : exec .warmReset s = .next (warmReset s) := by
  obtain ⟨ns, -, h⟩ := warmBlocks_eq (returnAllLanes s)
  have hw : (warmReset s).events = { (returnAllLanes s).events with flags := 0, pendingUrgent := false, pendingRoutine := false } :=
    congrArg State.events h
  exact (exec_eq_commit .warmReset s).trans (commit_of_no_flag (by rw [show effect .warmReset s = warmReset s from rfl, hw])
    (by rw [show effect .warmReset s = warmReset s from rfl, hw]) (by rw [show effect .warmReset s = warmReset s from rfl, hw]))

theorem warmPeek_idle (p : Peek) : (warmPeek p).busy = false := by
  unfold warmPeek
  split
  · rfl
  · rename_i h
    exact Bool.eq_false_iff.mpr h

theorem warmPeek_named (p : Peek) : (warmPeek p).number = p.number ∧ (warmPeek p).count = p.count := by
  unfold warmPeek
  split <;> exact ⟨rfl, rfl⟩

/-- Settles O6: the lanes' records return, and each block has its own effects. -/
theorem warmResetClearsAndKeeps : Obligations.WarmResetClearsAndKeeps := fun s => by
  have hret := returnAllLanes_returning s
  obtain ⟨habandoned, hentered⟩ := returnAllLanes_returned s
  have hidle := (allIdle_iff _).mp (returnAllLanes_idle s)
  obtain ⟨-, -, -, ha, hb, hc, hu, het, hlease, hset, hpeek⟩ := hret.steady.control
  obtain ⟨ns, hns, heq⟩ := warmBlocks_eq (returnAllLanes s)
  have hex : exec .warmReset s = .next (warmBlocks (returnAllLanes s)) := exec_warmReset s
  generalize returnAllLanes s = u at hret habandoned hentered hidle hns heq hex ha hb hc hu het hlease hset hpeek
  rw [hret.events, hlease, hset, hpeek, hret.steady.mode, warmMode_eq] at heq
  rw [heq] at hex
  have hnode : ∀ k, Sparse.get absentNode ns k = { nodeAt u k with outstanding := 0, consecutive := 0 } := hns
  refine ⟨_, hex, ?_⟩
  refine ⟨rfl, rfl, rfl, hidle, rfl, rfl, rfl, fun k => ?_, ⟨hret.steady.freeList, hret.steady.liveCount, hret.steady.index⟩,
    fun n => ⟨hret.steady.generation n, hret.steady.live n⟩, ⟨⟨fun i hi => ⟨(habandoned.1 i hi).1, fun _ => List.not_mem_nil⟩, habandoned.2⟩,
      fun h => ⟨(hentered h).1, fun k => ?_⟩⟩, fun k => ?_, hret.counters, rfl, ha, hb, hc, hu, het, warmPeek_idle _, (warmPeek_named _).1,
    (warmPeek_named _).2, fun hbusy k => ?_, fun hbusy => ?_⟩
  · rw [nodeAt, hnode]
    obtain ⟨o, sl, h⟩ := hret.node k
    rw [h]
    exact ⟨rfl, rfl, rfl, rfl, rfl, rfl, rfl, rfl, rfl⟩
  · rw [nodeAt, hnode]
    exact (hentered h).2 k
  · have h := habandoned.2 k
    change (slotAt u k).generation = _
    rw [h]
    cases hu : (slotAt s k).use with
    | none => rfl
    | some ft => 
      simp only
      split <;> rfl
  · change (warmPeek s.peek).image.getD k 0 = 0
    rw [warmPeek, if_pos hbusy]
    exact blankImage_getD k
  · change (warmPeek s.peek).image = _
    rw [warmPeek, if_neg (by rw [hbusy]; exact Bool.false_ne_true)]

/-! ### The mode table (R156 to R159, R162) -/

theorem modeOfCode_undefined {code : Byte} (h : 3 < code.toNat) : modeOfCode code = none := by
  have hne : ∀ c : Byte, c.toNat ≤ 3 → code ≠ c := fun c hc e => absurd hc (by rw [← e]; omega)
  rw [modeOfCode, if_neg (hne 0 (by decide)), if_neg (hne 1 (by decide)), if_neg (hne 2 (by decide)), if_neg (hne 3 (by decide))]

theorem writeMode_undefined {code : Byte} (h : 3 < code.toNat) (s : State) : writeMode code s = count .windowWriteIgnored s := by
  rw [writeMode, modeOfCode_undefined h]
  rfl

theorem writeMode_code (m : Mode) (s : State) :
    writeMode (modeCode m) s = if modeChangeTaken s m = true then changeMode m s else raise .modeRefused s := by
  cases m <;> rfl

theorem changeMode_self {m : Mode} {s : State} (h : s.mode = m) : modeChangeTaken s m = true ∧ changeMode m s = s := by
  cases m <;> simp [modeChangeTaken, changeMode, h]

/-- The changes that the table of R156 refuses. -/
theorem modeChange_refused {m : Mode} {s : State}
    (h : (s.mode = .dormant ∧ (m = .rebuild ∨ m = .drain)) ∨ (s.mode = .ready ∧ m = .drain) ∨ (s.mode = .rebuild ∧ (m = .ready ∨ m = .dormant))
      ∨ (s.mode = .drain ∧ m = .dormant)
      ∨ ((s.mode = .ready ∨ s.mode = .drain) ∧ m = .rebuild ∧ ¬ (s.lease.grant.isSome = true ∧ portsAllowed s .rebuild = true))) :
    modeChangeTaken s m = false := by
  have hno : ¬ (s.lease.grant.isSome = true ∧ portsAllowed s .rebuild = true) → rebuildAllowed s = false := fun hn =>
    Bool.eq_false_iff.mpr fun hr => hn (Bool.and_eq_true_iff.mp hr)
  rcases h with ⟨hs, rfl | rfl⟩ | ⟨hs, rfl⟩ | ⟨hs, rfl | rfl⟩ | ⟨hs, rfl⟩ | ⟨hs | hs, rfl, hn⟩
  all_goals simp only [modeChangeTaken, hs]
  · exact hno hn
  · exact hno hn

theorem changeMode_rebuild {s : State} (h : s.mode = .ready ∨ s.mode = .drain) (hr : rebuildAllowed s = true) :
    modeChangeTaken s .rebuild = true ∧ changeMode .rebuild s = raise .modeChanged { s with mode := .rebuild } := by
  have hne : s.mode ≠ .rebuild := by rcases h with h | h <;> rw [h] <;> decide
  rw [← setMode_of_other hne]
  rcases h with h | h <;> simp [modeChangeTaken, changeMode, h, hr]

theorem changeMode_leaveDormant {s : State} (h : s.mode = .dormant) : modeChangeTaken s .ready = true
    ∧ changeMode .ready s = raise .modeChanged { s with portA := resumePort s.portA, portB := resumePort s.portB, mode := .ready } := by
  rw [← leaveDormant_of_dormant h]
  simp [modeChangeTaken, changeMode, h]

theorem changeMode_enterDormant {s : State} (h : s.mode = .ready) : modeChangeTaken s .dormant = true
    ∧ changeMode .dormant s = raise .modeChanged { s with portA := parkPort s.portA, portB := parkPort s.portB, mode := .dormant } := by
  have hset := setMode_of_other (m := .dormant) (s := { s with portA := parkPort s.portA, portB := parkPort s.portB }) (by rw [h]; decide)
  exact ⟨by simp only [modeChangeTaken, h], by simp only [changeMode, h]; exact hset⟩

theorem changeMode_enterDrain {s : State} (h : s.mode = .rebuild) :
    modeChangeTaken s .drain = true ∧ changeMode .drain s = endDrain (raise .modeChanged { s with mode := .drain }) := by
  have hset := setMode_of_other (m := .drain) (s := s) (by rw [h]; decide)
  exact ⟨by simp only [modeChangeTaken, h], by simp only [changeMode, h]; exact congrArg endDrain hset⟩

theorem changeMode_cutDrain {s : State} (h : s.mode = .drain) : modeChangeTaken s .ready = true
    ∧ changeMode .ready s = raise .modeChanged { returnAllLanes s with mode := .ready } := by
  have hset := setMode_of_other (m := .ready) (s := returnAllLanes s) (by rw [(returnAllLanes_steady s).mode, h]; decide)
  exact ⟨by simp only [modeChangeTaken, h], by simp only [changeMode, h]; exact hset⟩

/-- The entry into DRAIN ends at once where every lane is IDLE (R157). -/
theorem enterDrain_leaves (s : State) : let u := endDrain (raise .modeChanged { s with mode := .drain })
    u.mode = (if allIdle s then .ready else .drain) ∧ flagSet .modeChanged u = true ∧ SameTable s u ∧ SameWork s u ∧ SameControl s u := by
  intro u
  have hidle : allIdle (raise .modeChanged { s with mode := .drain }) = allIdle s := rfl
  obtain ⟨htable, hwork, hcontrol⟩ := endDrain_leaves (raise .modeChanged { s with mode := .drain })
  refine ⟨?_, ?_, htable, hwork, hcontrol⟩
  all_goals
    by_cases hi : allIdle s = true
  · rw [show u = _ from endDrain_of_idle rfl (hidle.trans hi), if_pos hi]
    rfl
  · rw [show u = _ from endDrain_of_not (.inr (hidle.trans (Bool.eq_false_iff.mpr hi))), if_neg hi]
    rfl
  · rw [show u = _ from endDrain_of_idle rfl (hidle.trans hi)]
    exact flagSet_raise_self ..
  · rw [show u = _ from endDrain_of_not (.inr (hidle.trans (Bool.eq_false_iff.mpr hi)))]
    exact flagSet_raise_self ..

/-- What is returned stays returned at the end of the command. -/
theorem Ended.returned {s u t : State} (h : Ended u t) (hr : ReturnedInOrder s u) (hf : CountsFall s u (busyLanes s)) :
    ReturnedInOrder s t ∧ CountsFall s t (busyLanes s) := by
  obtain ⟨_, _, _, rfl⟩ := h
  exact ⟨hr, hf⟩

theorem Ended.allIdle {u t : State} (h : Ended u t) : allIdle t = allIdle u := by
  obtain ⟨_, _, _, rfl⟩ := h
  rfl

theorem Ended.collections {s u t : State} (h : Ended u t) (hc : SameCollections s u) : SameCollections s t := by
  obtain ⟨_, _, _, rfl⟩ := h
  exact hc

/-- Every busy lane is given up and the mode becomes READY (R158, R164). -/
theorem ended_returnAllLanes {s t : State} (h : Ended (raise .modeChanged { returnAllLanes s with mode := .ready }) t) :
    t.mode = .ready ∧ flagSet .modeChanged t = true ∧ allIdle t = true ∧ SameControl s t ∧ SameCollections s t ∧ ReturnedInOrder s t
      ∧ CountsFall s t (busyLanes s) := by
  have hsteady := returnAllLanes_steady s
  have hidle := returnAllLanes_idle s
  have hret := returnAllLanes_returned s
  have hfall := (returnAllLanes_left s).countsFall
  generalize returnAllLanes s = u at h hsteady hidle hret hfall
  obtain ⟨hr, hf⟩ := h.returned (s := s) hret hfall
  exact ⟨h.mode, (h.flagSet _).trans (flagSet_raise_self ..), h.allIdle.trans hidle, h.sameControl hsteady.control,
    h.collections ⟨hsteady.freeList, hsteady.liveCount, hsteady.index⟩, hr, hf⟩

/-- Settles O30: each row of the table. -/
theorem modeWriteFollowsTheTable : Obligations.ModeWriteFollowsTheTable := by
  refine ⟨fun s code hcode => ?_, fun s m => ?_⟩
  · obtain ⟨t, ht, hev, -, hflags, hcount, -⟩ := exec_counted (c := .modeWrite code) (writeMode_undefined hcode s)
    exact ⟨t, ht, hev.1, hcount, hflags⟩
  · obtain ⟨t, ht, hend⟩ := exec_ended (.modeWrite (modeCode m)) s
    have heff : effect (.modeWrite (modeCode m)) s = _ := writeMode_code m s
    rw [heff] at hend
    have htaken : ∀ {u}, modeChangeTaken s m = true ∧ changeMode m s = u → Ended u t := fun h => by
      rw [if_pos h.1, h.2] at hend
      exact hend
    refine ⟨t, ht, fun hm => ?_, fun hm => ?_, fun ⟨hs, hm, hlease, hports⟩ => ?_, fun hs hm => ?_, fun hs hm => ?_, fun hs hm => ?_, fun hs hm => ?_⟩
    · have hend := htaken (changeMode_self hm)
      exact ⟨hend.quiet (Quiet.refl s), hend.flags⟩
    · rw [if_neg (by rw [modeChange_refused hm]; exact Bool.false_ne_true)] at hend
      exact ⟨hend.quiet (Quiet.refl s), (hend.flagSet _).trans (flagSet_raise_self ..)⟩
    · subst hm
      have hend := htaken (changeMode_rebuild hs (Bool.and_eq_true_iff.mpr ⟨hlease, hports⟩))
      exact ⟨hend.mode, (hend.flagSet _).trans (flagSet_raise_self ..), hend.sameTable (SameTable.refl s), hend.sameWork (SameWork.refl s),
        hend.sameControl (SameControl.refl s)⟩
    · subst hm
      have hend := htaken (changeMode_leaveDormant hs)
      exact ⟨hend.mode, (hend.flagSet _).trans (flagSet_raise_self ..), hend.sameTable (SameTable.refl s), hend.sameWork (SameWork.refl s),
        fun p => (hend.portAt p).trans (by cases p <;> rfl)⟩
    · subst hm
      have hend := htaken (changeMode_enterDormant hs)
      exact ⟨hend.mode, (hend.flagSet _).trans (flagSet_raise_self ..), hend.sameTable (SameTable.refl s), hend.sameWork (SameWork.refl s),
        fun p => (hend.portAt p).trans (by cases p <;> rfl)⟩
    · subst hm
      have hend := htaken (changeMode_enterDrain hs)
      obtain ⟨hmode, hflag, htable, hwork, hcontrol⟩ := enterDrain_leaves s
      exact ⟨hend.mode.trans hmode, (hend.flagSet _).trans hflag, hend.sameTable htable, hend.sameWork hwork, hend.sameControl hcontrol⟩
    · subst hm
      exact ended_returnAllLanes (htaken (changeMode_cutDrain hs))

end Sys2Proof.Machine

/-! SUPPORT. A MODE request (R156, R185), the links (R164, R165), and the probes and their answers (R78, R79). -/

namespace Sys2Proof.Machine

/-! ### A MODE request -/

theorem Unanswered.addressed {s u : State} (h : Unanswered s u) : Addressed s u := by
  obtain ⟨⟨-, -, -, ha, hb, -, -, het, -⟩, hsent, hdropped⟩ := h
  exact ⟨ha, hb, het, hsent, hdropped⟩

theorem changeMode_addressed {m : Mode} {s : State} (hs : s.mode ≠ .dormant) (hm : m ≠ .dormant) : Addressed s (changeMode m s) := by
  have hself : Addressed s s := (Unanswered.refl s).addressed
  unfold changeMode
  split
  · contradiction
  · exact hself.setMode _
  · contradiction
  · exact (hself.setMode _).endDrain
  · exact hself.setMode _
  · exact (returnAllLanes_returning s).unanswered.addressed.setMode _
  · exact hself

theorem Concluded.modeReport {u t : State} (h : Concluded u t) (m : Mode) : modeReport t m = modeReport u m := by
  obtain ⟨⟨_, _, _, rfl⟩, -⟩ := h
  rfl

theorem Concluded.ports {u t : State} (h : Concluded u t) : t.portA = u.portA ∧ t.portB = u.portB := by
  obtain ⟨⟨_, _, _, rfl⟩, -⟩ := h
  exact ⟨rfl, rfl⟩

theorem effect_modeRequest {f : Frame} {code : Byte} {s : State} (ha : Arrives s f) (hf : FromHolder s f) (hb : parseMode f.body = some code) :
    effect (.modeRequest f) s = applyMode f code s :=
  request_of_readable (needs := true) ha hb (fun _ => hf) .mode _

theorem applyMode_of_undefined {code : Byte} (h : 3 < code.toNat) (f : Frame) (s : State) : applyMode f code s = reply f .mode .malformed [] s := by
  rw [applyMode, modeOfCode_undefined h]

theorem applyMode_of_refused {m : Mode} {s : State} (h : modeChangeTaken s m = false) (f : Frame) :
    applyMode f (modeCode m) s = reply f .mode .modeRefused (modeReport s s.mode) (raise .modeRefused s) := by
  cases m <;> exact if_pos (by rw [h]; rfl)

theorem applyMode_of_taken {m : Mode} {s : State} (h : modeChangeTaken s m = true) (hm : m ≠ .dormant) (f : Frame) :
    applyMode f (modeCode m) s = reply f .mode .ok (modeReport (changeMode m s) (changeMode m s).mode) (changeMode m s) := by
  have hn : ¬ (!modeChangeTaken s m) = true := by rw [h]; exact Bool.false_ne_true
  cases m <;> exact (if_neg hn).trans (if_neg hm)

theorem applyMode_dormant {s : State} (h : modeChangeTaken s .dormant = true) (f : Frame) :
    applyMode f (modeCode .dormant) s = changeMode .dormant (reply f .mode .ok (modeReport s .dormant) s) :=
  (if_neg (by rw [h]; exact Bool.false_ne_true)).trans (if_pos rfl)

theorem parkPort_off (p : PortRegs) : (parkPort p).state ≠ .on := by
  unfold parkPort
  simp only
  split
  · decide
  · assumption

/-- Settles O31: the report, and the request against the write of the mode field. -/
theorem modeRequestFollowsTheTable : Obligations.ModeRequestFollowsTheTable := by
  refine ⟨fun s m => rfl, fun f code s ha hf hb => ⟨fun hcode => ?_, fun m hm => ?_⟩⟩
  · obtain ⟨t, ht, hq, hans, -⟩ := malformed_reported f .mode [] s
    exact ⟨t, (exec_eq_commit _ s).trans ((effect_modeRequest ha hf hb).trans (applyMode_of_undefined hcode f s) ▸ ht), hq, hans⟩
  · subst hm
    have heff := effect_modeRequest ha hf hb
    refine ⟨fun hrefused => ?_, fun htaken hm => ?_, fun hs hm => ?_⟩
    · rw [applyMode_of_refused hrefused] at heff
      have hu : Addressed s (raise .modeRefused s) := ⟨rfl, rfl, rfl, ⟨[], (List.append_nil _).symm⟩, rfl⟩
      obtain ⟨t, ht, hans, hcon⟩ := reply_addressed hu f .mode (st := .modeRefused) (by decide) (modeReport s s.mode)
      exact ⟨t, (exec_eq_commit _ s).trans (heff ▸ ht), hcon.quiet (Quiet.refl s), (flagSet_concluded ht _).trans (flagSet_raise_self ..), hans⟩
    · rw [applyMode_of_taken htaken hm] at heff
      obtain ⟨t, ht, hans, hcon⟩ := reply_addressed (changeMode_addressed ha.2 hm) f .mode (st := .ok) (by decide)
        (modeReport (changeMode m s) (changeMode m s).mode)
      have hwrite : effect (.modeWrite (modeCode m)) s = changeMode m s := (writeMode_code m s).trans (if_pos htaken)
      obtain ⟨u, hu, hend⟩ := exec_ended_of hwrite
      obtain ⟨hpa, hpb⟩ := hcon.ports
      have hends : ∀ {u v : State}, Ended u v → SameTable v u ∧ SameWork v u := fun h => by
        obtain ⟨_, _, _, rfl⟩ := h
        exact ⟨SameTable.refl _, SameWork.refl _⟩
      refine ⟨t, u, (exec_eq_commit _ s).trans (heff ▸ ht), hu, hcon.mode.trans hend.mode.symm, hcon.sameTable (hends hend).1,
        hcon.sameWork (hends hend).2, hpa.trans (hend.portAt .a).symm, hpb.trans (hend.portAt .b).symm, hcon.lease.trans hend.lease.symm, ?_⟩
      rw [hcon.modeReport, hcon.mode]
      exact hans
    · subst hm
      rw [applyMode_dormant (changeMode_enterDormant hs).1] at heff
      obtain ⟨ctr, out, hv⟩ := reply_eq f .mode .ok (modeReport s .dormant) s
      have hready : (reply f .mode .ok (modeReport s .dormant) s).mode = .ready := by rw [hv]; exact hs
      rw [(changeMode_enterDormant hready).2, hv] at heff
      obtain ⟨t, ht, hend⟩ := exec_ended_of heff
      refine ⟨t, ht, hend.mode, ?_, ?_, hend.sameTable (SameTable.refl s), hend.sameWork (SameWork.refl s)⟩
      · rw [show t.portA = _ from hend.portAt .a]
        exact parkPort_off s.portA
      · rw [show t.portB = _ from hend.portAt .b]
        exact parkPort_off s.portB

/-! ### LINK_UP and LINK_DOWN -/

theorem lastLinkLost_iff {p : Port} {s : State} : lastLinkLost p s = true ↔
    (portAt s p).state = .on ∧ (s.mode = .rebuild ∨ s.mode = .drain) ∧ ableToSend s (otherPort p) = false := by
  simp [lastLinkLost, and_assoc]

/-- The state after a port's link has gone down, before the lanes are looked at. -/
def linkLost (p : Port) (s : State) : State :=
  raise .linkDown (setPort p { portAt s p with linkUp := false } s)

theorem lastLinkLost_linkLost (p : Port) (s : State) : lastLinkLost p (linkLost p s) = lastLinkLost p s := by
  cases p <;> rfl

theorem linkGoesDown_of_spare {p : Port} {s : State} (h : (portAt s p).linkUp = true) (hn : ¬ lastLinkLost p s = true) :
    linkGoesDown p s = linkLost p s :=
  (if_pos h).trans (if_neg (by rw [← lastLinkLost_linkLost] at hn; exact hn))

theorem linkGoesDown_of_last {p : Port} {s : State} (h : (portAt s p).linkUp = true) (hl : lastLinkLost p s = true) :
    linkGoesDown p s = raise .modeChanged { returnAllLanes (linkLost p s) with mode := .ready } := by
  have hmode : (returnAllLanes (linkLost p s)).mode = s.mode :=
    (returnAllLanes_steady (linkLost p s)).mode.trans (by cases p <;> rfl)
  have hne : (returnAllLanes (linkLost p s)).mode ≠ .ready := by
    rw [hmode]
    rcases (lastLinkLost_iff.mp hl).2.1 with e | e <;> rw [e] <;> decide
  rw [← setMode_of_other hne]
  rw [← lastLinkLost_linkLost] at hl
  exact (if_pos h).trans (if_pos hl)

/-- What `ReturnedInOrder` and `CountsFall` read, the change of a port leaves. -/
theorem returned_of_linkLost {p : Port} {s t : State} (hr : ReturnedInOrder (linkLost p s) t) (hf : CountsFall (linkLost p s) t (busyLanes (linkLost p s))) :
    ReturnedInOrder s t ∧ CountsFall s t (busyLanes s) := by
  cases p <;> exact ⟨hr, hf⟩

/-- Settles O33: a link up, the last working link down, and another down. -/
theorem linkChanges : Obligations.LinkChanges := fun p s => by
  refine ⟨fun hup => ?_, fun hup => ?_⟩
  · have heff : effect (.linkUp p) s = raise .linkUp (setPort p { portAt s p with linkUp := true } s) :=
      if_neg (by rw [hup]; exact Bool.false_ne_true)
    obtain ⟨t, ht, hend⟩ := exec_ended_of heff
    obtain ⟨htable, hwork⟩ := setPort_leaves p { portAt s p with linkUp := true } s
    refine ⟨t, ht, (hend.portAt p).trans (by cases p <;> rfl), (hend.portAt _).trans (by cases p <;> rfl),
      (hend.flagSet _).trans (flagSet_raise_self ..), hend.mode.trans (by cases p <;> rfl), hend.sameTable htable, hend.sameWork hwork,
      hend.lease.trans (by cases p <;> rfl), hend.settings.trans (by cases p <;> rfl)⟩
  · obtain ⟨htable, hwork⟩ := setPort_leaves p { portAt s p with linkUp := false } s
    have hsame : portAt (linkLost p s) p = { portAt s p with linkUp := false } := by cases p <;> rfl
    have hother : portAt (linkLost p s) (otherPort p) = portAt s (otherPort p) := by cases p <;> rfl
    by_cases hlast : lastLinkLost p s = true
    · obtain ⟨t, ht, hend⟩ := exec_ended_of (c := .linkDown p) (linkGoesDown_of_last hup hlast)
      have hflag : flagSet .linkDown t = true := (hend.flagSet _).trans (flagSet_raise_mono (by
        rw [flagSet, (returnAllLanes_returning (linkLost p s)).events]
        exact flagSet_raise_self .linkDown (setPort p { portAt s p with linkUp := false } s)))
      obtain ⟨hmode, hchanged, hidle, hcontrol, hcoll, hret, hfall⟩ := ended_returnAllLanes hend
      obtain ⟨hret, hfall⟩ := returned_of_linkLost hret hfall
      have hport : ∀ q, portAt t q = portAt (linkLost p s) q := portAt_of_control hcontrol
      obtain ⟨-, -, -, -, -, -, -, -, hlease, hset, -⟩ := hcontrol
      exact ⟨t, ht, (hport p).trans hsame, (hport _).trans hother, hflag, hlease.trans (by cases p <;> rfl), hset.trans (by cases p <;> rfl),
        ⟨hcoll.1.trans (by cases p <;> rfl), hcoll.2.1.trans (by cases p <;> rfl), hcoll.2.2.trans (by cases p <;> rfl)⟩,
        fun _ => ⟨hmode, hidle, hchanged, hret, hfall⟩, fun h => absurd (lastLinkLost_iff.mp hlast) h⟩
    · obtain ⟨t, ht, hend⟩ := exec_ended_of (c := .linkDown p) (linkGoesDown_of_spare hup hlast)
      refine ⟨t, ht, (hend.portAt p).trans hsame, (hend.portAt _).trans hother, (hend.flagSet _).trans (flagSet_raise_self ..),
        hend.lease.trans (by cases p <;> rfl), hend.settings.trans (by cases p <;> rfl), hend.collections (by cases p <;> exact ⟨rfl, rfl, rfl⟩),
        fun h => absurd (lastLinkLost_iff.mpr h) hlast, fun _ => ⟨hend.mode.trans (by cases p <;> rfl), hend.sameTable htable, hend.sameWork hwork⟩⟩

/-! ### PROBE_TIMER_EXPIRY (R78) -/

/-- The PROBE to slot `k` by port `p`, with the next probe sequence. -/
def probeFrame (s : State) (k : Nat) (p : Port) : SentFrame :=
  { port := p, dst := (nodeAt s k).addr, src := (portAt s p).addr, etherType := s.etherType, kind := 0x35, flags := 0, tag := 0,
    body := be 2 k ++ [(nodeAt s k).probeSeq + 1, 0] }

theorem sendProbe_of_no_port {s : State} {k : Nat} (h : nodePort s (nodeAt s k).pref = none) : sendProbe s k = s := by
  rw [sendProbe, h]

theorem sendProbe_of_port {s : State} {k : Nat} {p : Port} (h : nodePort s (nodeAt s k).pref = some p) :
    sendProbe s k = emit (.frame (probeFrame s k p)) (setNode k { nodeAt s k with probeSeq := (nodeAt s k).probeSeq + 1 } s) := by
  rw [sendProbe, h]
  cases p <;> rfl

/-- What probing the slots `ks` does: each for which a port is found has its PROBE and a new sequence; the rest of the state is as it was. -/
structure Probed (ks : List Nat) (s t : State) : Prop where
  same : ∃ ns out, t = { s with nodes := ns, outputs := s.outputs ++ out }
    ∧ ∀ k p, k ∈ ks → nodePort s (nodeAt s k).pref = some p → Output.frame (probeFrame s k p) ∈ out
  probed : ∀ k p, k ∈ ks → nodePort s (nodeAt s k).pref = some p → nodeAt t k = { nodeAt s k with probeSeq := (nodeAt s k).probeSeq + 1 }
  other : ∀ k, k ∉ ks ∨ nodePort s (nodeAt s k).pref = none → nodeAt t k = nodeAt s k

theorem Probed.cons {k : Nat} {ks : List Nat} {s t : State} (hk : k ∉ ks) (h : Probed ks (sendProbe s k) t) : Probed (k :: ks) s t := by
  obtain ⟨⟨ns, out, rfl, hsent⟩, hprobed, hother⟩ := h
  cases hp : nodePort s (nodeAt s k).pref with
  | none =>
    rw [sendProbe_of_no_port hp] at hsent hprobed hother ⊢
    have hne : ∀ {x p}, nodePort s (nodeAt s x).pref = some p → x ∈ k :: ks → x ∈ ks := fun {x p} hx hmem => by
      rcases List.mem_cons.mp hmem with rfl | hmem
      · exact nomatch hp.symm.trans hx
      · exact hmem
    exact ⟨⟨ns, out, rfl, fun x p hx hpx => hsent x p (hne hpx hx) hpx⟩, fun x p hx hpx => hprobed x p (hne hpx hx) hpx,
      fun x hx => hother x (hx.imp_left fun hno hmem => hno (List.mem_cons_of_mem k hmem))⟩
  | some q =>
    have hnode : ∀ {x}, x ≠ k → nodeAt (sendProbe s k) x = nodeAt s x := fun {x} hx => by
      rw [sendProbe_of_port hp]
      exact nodeAt_setNode_other s hx _
    have hsame : nodeAt (sendProbe s k) k = { nodeAt s k with probeSeq := (nodeAt s k).probeSeq + 1 } := by
      rw [sendProbe_of_port hp]
      exact nodeAt_setNode_same ..
    have hport : ∀ pref, nodePort (sendProbe s k) pref = nodePort s pref := fun pref => by
      rw [sendProbe_of_port hp]
      cases pref <;> rfl
    have hframe : ∀ {x p}, x ≠ k → probeFrame (sendProbe s k) x p = probeFrame s x p := fun {x p} hx => by
      rw [probeFrame, hnode hx, sendProbe_of_port hp]
      cases p <;> rfl
    have hne : ∀ {x}, x ∈ ks → x ≠ k := fun hx e => hk (e ▸ hx)
    refine ⟨⟨ns, .frame (probeFrame s k q) :: out, ?_, fun x p hx hpx => ?_⟩, fun x p hx hpx => ?_, fun x hx => ?_⟩
    · rw [sendProbe_of_port hp]
      simp [emit]
    · rcases List.mem_cons.mp hx with rfl | hx
      · cases hp.symm.trans hpx
        exact List.mem_cons_self
      · rw [← hframe (hne hx)]
        exact List.mem_cons_of_mem _ (hsent x p hx (by rw [hport, hnode (hne hx)]; exact hpx))
    · rcases List.mem_cons.mp hx with rfl | hx
      · exact (hother x (.inl hk)).trans hsame
      · exact (hprobed x p hx (by rw [hport, hnode (hne hx)]; exact hpx)).trans (by rw [hnode (hne hx)])
    · have hxk : x ≠ k := by
        rintro rfl
        rcases hx with hx | hx
        · exact hx List.mem_cons_self
        · exact nomatch hp.symm.trans hx
      refine (hother x (hx.imp (fun hno hmem => hno (List.mem_cons_of_mem k hmem)) fun hnone => ?_)).trans (hnode hxk)
      rw [hport, hnode hxk]
      exact hnone

theorem foldl_sendProbe_probed {ks : List Nat} (hn : ks.Nodup) (s : State) : Probed ks s (ks.foldl sendProbe s) := by
  induction ks generalizing s with
  | nil => exact ⟨⟨s.nodes, [], by rw [List.append_nil]; rfl, fun _ _ h => absurd h List.not_mem_nil⟩, fun _ _ h => absurd h List.not_mem_nil, fun _ _ => rfl⟩
  | cons k ks ih =>
    obtain ⟨hk, hn⟩ := List.nodup_cons.mp hn
    exact Probed.cons hk (ih hn (sendProbe s k))

/-- The MUTED slots, each once (R78). -/
theorem mem_mutedSlots {s : State} (h : Sparse.wf absentNode s.nodes) {k : Nat} : k ∈ mutedSlots s ↔ (nodeAt s k).state = .muted := by
  constructor
  · intro hk
    obtain ⟨e, he, rfl⟩ := List.mem_map.mp hk
    obtain ⟨hmem, hmuted⟩ := List.mem_filter.mp he
    rw [nodeAt, Sparse.get_of_mem h.1 hmem]
    exact of_decide_eq_true hmuted
  · intro hk
    rcases Sparse.get_cases (d := absentNode) s.nodes k with hd | hmem
    · have hd : nodeAt s k = absentNode k := hd
      rw [hd] at hk
      exact nomatch hk
    · exact List.mem_map.mpr ⟨_, List.mem_filter.mpr ⟨hmem, decide_eq_true hk⟩, rfl⟩

theorem mutedSlots_nodup {s : State} (h : Sparse.wf absentNode s.nodes) : (mutedSlots s).Nodup :=
  ((h.1.filter _).imp fun hlt => ne_of_lt hlt).map _ fun _ _ hne => hne

/-! ### PROBE_ACK (R68, R79) -/

theorem probeMatches_iff {s : State} {src : EthAddr} {a : ProbeAnswer} : probeMatches s src a = true ↔
    a.slot ≤ 1023 ∧ (nodeAt s a.slot).state = .muted ∧ a.sequence = (nodeAt s a.slot).probeSeq ∧ src = (nodeAt s a.slot).addr := by
  simp only [probeMatches, Bool.and_eq_true, decide_eq_true_eq, beq_iff_eq, and_assoc]
  exact and_congr_left' (Nat.lt_succ_iff (n := 1023))

/-- Records enter WAITING in turn, each leaving a stall list, or whatever else holds a record that is neither WAITING nor ACTIVE. -/
theorem foldl_enterWaiting_entered {ns : List Nat} (hn : ns.Nodup) {s : State} (hl : ∀ n ∈ ns, ∃ l, liveAt s n = some l ∧ l.state ≠ .waiting) :
    EnteredWaiting s (ns.foldl (fun s n => enterWaiting n s) s) ns := by
  induction ns generalizing s with
  | nil => exact EnteredWaiting.nil rfl ⟨rfl, rfl, rfl⟩
  | cons n ns ih =>
    obtain ⟨hnm, hn⟩ := List.nodup_cons.mp hn
    obtain ⟨l, hlive, hw⟩ := hl n List.mem_cons_self
    have hone := enterWaiting_onlyRecord hlive
    refine EnteredWaiting.cons hlive hnm (enterWaiting_requeued hlive hw) hone.others (enterWaiting_steady n s).generation (ih hn fun m hm => ?_)
    have hne : m ≠ n := fun e => hnm (e ▸ hm)
    rw [liveAt, hone.others m hne]
    exact hl m (List.mem_cons_of_mem n hm)

/-- The stall list that is released is empty at the end. -/
theorem foldl_enterWaiting_stallList {k : Nat} {ns : List Nat} (hn : ns.Nodup) {s : State}
    (hl : ∀ n ∈ ns, ∃ l, liveAt s n = some l ∧ l.state = .stalled k) (hs : (nodeAt s k).stallList = ns) :
    (nodeAt (ns.foldl (fun s n => enterWaiting n s) s) k).stallList = [] := by
  induction ns generalizing s with
  | nil => exact hs
  | cons n ns ih =>
    obtain ⟨hnm, hn⟩ := List.nodup_cons.mp hn
    obtain ⟨l, hlive, hst⟩ := hl n List.mem_cons_self
    refine ih hn (fun m hm => ?_) ?_
    · rw [liveAt, (enterWaiting_onlyRecord hlive).others m fun e => hnm (e ▸ hm)]
      exact hl m (List.mem_cons_of_mem n hm)
    · rw [enterWaiting_nodeAt hlive, leaveHolder_stallList hst, hs, List.erase_cons_head]

theorem EnteredWaiting.of_same {s u t : State} {ns : List Nat} (h : EnteredWaiting s u ns) (ht : SameTable u t) (hf : t.fgQueue = u.fgQueue)
    (hb : t.bgQueue = u.bgQueue) : EnteredWaiting s t ns := by
  obtain ⟨hrec, -, -, -, -, hseq⟩ := ht
  unfold EnteredWaiting liveAt generationAt recordAt at h ⊢
  rw [hrec, hseq, hf, hb]
  exact h

/-- The state of a node that is restored, before its stall list is released (R79). -/
def servingNode (k : Nat) (s : State) : State :=
  setNode k { nodeAt s k with state := .serving, consecutive := 0 } s

theorem restoreNode_eq (k : Nat) (s : State) :
    restoreNode k s = raise .nodeRestored ((nodeAt s k).stallList.foldl (fun s n => enterWaiting n s) (servingNode k s)) := rfl

/-- What the release of node `k` does, with the room that it makes handed on (R79, R138). -/
theorem restoreNode_settled (k : Nat) (s : State) : let u := settle (restoreNode k s)
    (nodeAt u k).state = .serving ∧ (nodeAt u k).consecutive = 0 ∧ flagSet .nodeRestored u = true ∧ SameCollections s u ∧ SameControl s u
      ∧ ((nodeAt s k).stallList.Nodup → (∀ n ∈ (nodeAt s k).stallList, ∃ l, liveAt s n = some l ∧ l.state = .stalled k) →
          EnteredWaiting s u (nodeAt s k).stallList ∧ (nodeAt u k).stallList = []) := by
  intro u
  have hroom : RoomHanded (restoreNode k s) u := settle_handed (restoreNode k s)
  have hfold := Returning.foldl (f := fun s n => enterWaiting n s) (fun s n => enterWaiting_returning n s) (nodeAt s k).stallList (servingNode k s)
  have hserving : nodeAt (servingNode k s) k = { nodeAt s k with state := .serving, consecutive := 0 } := nodeAt_setNode_same ..
  obtain ⟨o, -, hnode⟩ := hroom.node k
  obtain ⟨o', ns, hreleased⟩ := hfold.node k
  have hrestored : nodeAt (restoreNode k s) k = { nodeAt s k with state := .serving, consecutive := 0, outstanding := o', stallList := ns } :=
    hreleased.trans (by rw [hserving])
  rw [hrestored] at hnode
  obtain ⟨-, hfree, hcount, hindex, -⟩ := hroom.table
  refine ⟨by rw [hnode], by rw [hnode], hroom.flags _ (flagSet_raise_self ..), ⟨hfree.trans hfold.steady.freeList, hcount.trans hfold.steady.liveCount,
    hindex.trans hfold.steady.index⟩, hfold.steady.control.trans hroom.control, fun hn hl => ⟨?_, ?_⟩⟩
  · have hentered := foldl_enterWaiting_entered hn (s := servingNode k s) fun n hmem => by
      obtain ⟨l, hlive, hst⟩ := hl n hmem
      exact ⟨l, hlive, by rw [hst]; exact RecState.noConfusion⟩
    have hentered : EnteredWaiting s (restoreNode k s) (nodeAt s k).stallList := hentered
    obtain ⟨-, hfg, hbg⟩ := hroom.queues
    exact hentered.of_same hroom.table hfg hbg
  · have hempty := foldl_enterWaiting_stallList hn (s := servingNode k s) hl (by rw [hserving])
    rw [settle_stallList]
    exact hempty

theorem Ended.nodeAt {u t : State} (h : Ended u t) (k : Nat) : nodeAt t k = nodeAt u k := by
  obtain ⟨_, _, _, rfl⟩ := h
  rfl

theorem Ended.entered {s u t : State} {ns : List Nat} (h : Ended u t) (he : EnteredWaiting s u ns) : EnteredWaiting s t ns := by
  obtain ⟨_, _, _, rfl⟩ := h
  exact he

/-- Settles O29: the timer's probes, and each answer by the tests of R68 and R79. -/
theorem probesAndTheirAnswers : Obligations.ProbesAndTheirAnswers := by
  refine ⟨fun s hdue hwf => ?_, fun f a s ha hb => ⟨fun hf => ?_, fun hf hno => ?_, fun hf hk hm hq hsrc => ⟨fun h0 => ?_, fun h1 => ?_, fun h0 h1 => ?_⟩⟩⟩
  · have heff : effect .probeTimerExpiry s = (mutedSlots s).foldl sendProbe (startProbeTimer s) := if_pos hdue
    obtain ⟨⟨ns, out, hsame, hsent⟩, hprobed, hother⟩ := foldl_sendProbe_probed (mutedSlots_nodup hwf) (startProbeTimer s)
    rw [hsame] at heff hprobed hother
    obtain ⟨t, ht, hend⟩ := exec_ended_of heff
    have hport : ∀ pref, nodePort (startProbeTimer s) pref = nodePort s pref := fun pref => by cases pref <;> rfl
    have hnode : ∀ k, nodeAt t k = Sparse.get absentNode ns k := fun k => by
      obtain ⟨_, _, _, rfl⟩ := hend
      rfl
    refine ⟨t, ht, ?_, fun k p hm hp => ⟨(hnode k).trans (hprobed k p ((mem_mutedSlots hwf).mpr hm) ((hport _).trans hp)), ?_⟩, fun k hk =>
      (hnode k).trans (hother k (hk.imp (mt (mem_mutedSlots hwf).mp) (hport _).trans)), hend.sameTable (SameTable.refl s), hend.mode, ?_⟩
    · obtain ⟨_, _, _, rfl⟩ := hend
      rfl
    · have hframe := hsent k p ((mem_mutedSlots hwf).mpr hm) ((hport _).trans hp)
      refine hend.sent ⟨out, rfl, ?_⟩
      cases p <;> exact hframe
    · obtain ⟨_, _, _, rfl⟩ := hend
      exact ⟨rfl, rfl, ⟨rfl, rfl, rfl⟩, rfl⟩
  · obtain ⟨t, ht, hev, hout, -, hcount, -⟩ := exec_counted (c := .probeAck f) (nodeAnswer_of_fenced ha hf _ _)
    exact ⟨t, ht, hev.1, hout, hcount⟩
  all_goals have heff : effect (.probeAck f) s = applyProbeAck f a s := nodeAnswer_of_readable ha hf hb _
  · rw [applyProbeAck, if_pos (by rw [Bool.eq_false_iff.mpr (mt probeMatches_iff.mp hno)]; rfl)] at heff
    obtain ⟨t, ht, hev, -, -, hcount, -⟩ := exec_counted heff
    exact ⟨t, ht, hev.1, hcount⟩
  all_goals rw [applyProbeAck, if_neg (by rw [probeMatches_iff.mpr ⟨hk, hm, hq, hsrc⟩]; exact Bool.false_ne_true)] at heff
  · rw [if_pos h0] at heff
    obtain ⟨t, ht, hend⟩ := exec_ended_of heff
    obtain ⟨hstate, hcons, hflag, hcoll, hcontrol, hreleased⟩ := restoreNode_settled a.slot s
    have hnode : nodeAt t a.slot = nodeAt (settle (restoreNode a.slot s)) a.slot := hend.nodeAt a.slot
    refine ⟨t, ht, by rw [hnode, hstate], by rw [hnode, hcons], fun hn hl => ?_, (hend.flagSet _).trans hflag, hend.collections hcoll,
      hend.sameControl hcontrol⟩
    obtain ⟨hentered, hempty⟩ := hreleased hn hl
    exact ⟨hend.entered hentered, by rw [hnode, hempty]⟩
  · rw [if_neg (by rw [h1]; decide), if_pos h1] at heff
    obtain ⟨t, ht, hev, hout, hctr, -⟩ := exec_unchanged heff
    exact ⟨t, ht, hev.1, hctr, hout⟩
  · rw [if_neg h0, if_neg h1] at heff
    obtain ⟨t, ht, hev, -, -, hcount, -⟩ := exec_counted heff
    exact ⟨t, ht, hev.1, hcount⟩

end Sys2Proof.Machine

/-! SUPPORT. The event and counter registers (R193 to R196) and the writes of the other settings (R78, R117, R190, R191). -/

namespace Sys2Proof.Machine

/-! ### The messages at the end of a command (R194, R195) -/

/-- Whether a class's message is held pending after a command that took its condition from `before` to `after`. -/
def pendingAfter (before after msi pending : Bool) : Bool :=
  after && (pending || (!before && !msi))

/-- The messages of one class that such a command sends. -/
def messagesSent (before after msi : Bool) (o : Output) : List Output :=
  if after && !before && msi then [o] else []

theorem signalUrgent_eq (old : Events) (u : State) : signalUrgent old u =
    { u with events := { u.events with pendingUrgent := pendingAfter (urgentCondition old) (urgentCondition u.events) u.events.msiEnable u.events.pendingUrgent }
             outputs := u.outputs ++ messagesSent (urgentCondition old) (urgentCondition u.events) u.events.msiEnable .urgentMessage } := by
  unfold signalUrgent
  cases hu : urgentCondition u.events <;> cases ho : urgentCondition old <;> cases hm : u.events.msiEnable <;>
    simp [pendingAfter, messagesSent, emit, hm]
  all_goals rw [← hm]

theorem signalRoutine_eq (old : Events) (u : State) : signalRoutine old u =
    { u with events := { u.events with pendingRoutine := pendingAfter (routineCondition old) (routineCondition u.events) u.events.msiEnable u.events.pendingRoutine }
             outputs := u.outputs ++ messagesSent (routineCondition old) (routineCondition u.events) u.events.msiEnable .routineMessage } := by
  unfold signalRoutine
  cases hu : routineCondition u.events <;> cases ho : routineCondition old <;> cases hm : u.events.msiEnable <;>
    simp [pendingAfter, messagesSent, emit, hm]
  all_goals rw [← hm]

/-- The end of a command, in full. -/
theorem commit_signals (old u : State) : commit old u = .next
    { u with events := { u.events with
                pendingUrgent := pendingAfter (urgentCondition old.events) (urgentCondition u.events) u.events.msiEnable u.events.pendingUrgent
                pendingRoutine := pendingAfter (routineCondition old.events) (routineCondition u.events) u.events.msiEnable u.events.pendingRoutine }
             outputs := u.outputs ++ (messagesSent (urgentCondition old.events) (urgentCondition u.events) u.events.msiEnable .urgentMessage
                ++ messagesSent (routineCondition old.events) (routineCondition u.events) u.events.msiEnable .routineMessage) } := by
  rw [commit, signalUrgent_eq, signalRoutine_eq, ← List.append_assoc]
  rfl

theorem mem_messagesSent {before after msi : Bool} {o x : Output} : x ∈ messagesSent before after msi o ↔ (after && !before && msi) = true ∧ x = o := by
  unfold messagesSent
  split
  · rename_i h
    simp [h]
  · rename_i h
    simp [h]

theorem messageFollows_of_end (before after msi pending : Bool) :
    MessageFollows before after msi (pending = true) (pendingAfter before after msi pending = true) ((after && !before && msi) = true) := by
  cases before <;> cases after <;> cases msi <;> simp [MessageFollows, pendingAfter]

/-- A write of an event register: the messages follow the conditions. -/
theorem eventWrite_follows {c : Instr} {s : State} {e : Events} (h : effect c s = { s with events := e }) (hm : e.msiEnable = s.events.msiEnable)
    (hu : e.pendingUrgent = s.events.pendingUrgent) (hr : e.pendingRoutine = s.events.pendingRoutine) :
    ∃ t, exec c s = .next t ∧ OnlyEvents s t ∧ t.counters = s.counters
      ∧ t.events = { e with pendingUrgent := t.events.pendingUrgent, pendingRoutine := t.events.pendingRoutine }
      ∧ MessageFollows (urgentCondition s.events) (urgentCondition e) s.events.msiEnable (s.events.pendingUrgent = true)
          (t.events.pendingUrgent = true) (Output.urgentMessage ∈ sentBetween s t)
      ∧ MessageFollows (routineCondition s.events) (routineCondition e) s.events.msiEnable (s.events.pendingRoutine = true)
          (t.events.pendingRoutine = true) (Output.routineMessage ∈ sentBetween s t) := by
  refine ⟨_, (exec_eq_commit c s).trans ((congrArg (commit s) h).trans (commit_signals s _)), ⟨Quiet.refl s, rfl⟩, rfl, rfl, ?_, ?_⟩
  all_goals simp only [sentBetween, List.drop_left, List.mem_append, mem_messagesSent, reduceCtorEq, and_false, or_false, false_or, and_true, hm, hu, hr]
  · exact messageFollows_of_end ..
  · exact messageFollows_of_end ..

/-! ### MSI_ENABLE_CHANGE (R195) -/

theorem changeMsiEnable_off (s : State) : changeMsiEnable false s = { s with events := { s.events with msiEnable := false } } := rfl

/-- While message signalling comes on, a pending message is sent where its condition stands. -/
theorem changeMsiEnable_on (s : State) : changeMsiEnable true s =
    { s with events := { s.events with msiEnable := true
                                       pendingUrgent := s.events.pendingUrgent && !urgentCondition s.events
                                       pendingRoutine := s.events.pendingRoutine && !routineCondition s.events }
             outputs := s.outputs ++ ((if s.events.pendingUrgent && urgentCondition s.events then [Output.urgentMessage] else [])
                ++ (if s.events.pendingRoutine && routineCondition s.events then [Output.routineMessage] else [])) } := by
  have hsent : ∀ p c : Bool, (p && c) = true → (p && !c) = false := by decide
  have hkept : ∀ p c : Bool, ¬ (p && c) = true → (p && !c) = p := by decide
  have hu : ∀ u : State, u.events.msiEnable = true → sendPendingUrgent u =
      { u with events := { u.events with pendingUrgent := u.events.pendingUrgent && !urgentCondition u.events }
               outputs := u.outputs ++ if u.events.pendingUrgent && urgentCondition u.events then [Output.urgentMessage] else [] } := fun u hm => by
    rw [sendPendingUrgent, hm, Bool.true_and]
    by_cases h : (u.events.pendingUrgent && urgentCondition u.events) = true
    · rw [if_pos h, if_pos h, hsent _ _ h]
      rfl
    · rw [if_neg h, if_neg h, hkept _ _ h, List.append_nil]
  have hr : ∀ u : State, u.events.msiEnable = true → sendPendingRoutine u =
      { u with events := { u.events with pendingRoutine := u.events.pendingRoutine && !routineCondition u.events }
               outputs := u.outputs ++ if u.events.pendingRoutine && routineCondition u.events then [Output.routineMessage] else [] } := fun u hm => by
    rw [sendPendingRoutine, hm, Bool.true_and]
    by_cases h : (u.events.pendingRoutine && routineCondition u.events) = true
    · rw [if_pos h, if_pos h, hsent _ _ h]
      rfl
    · rw [if_neg h, if_neg h, hkept _ _ h, List.append_nil]
  rw [changeMsiEnable, hu _ rfl, hr _ rfl, ← List.append_assoc]
  rfl

theorem counterAt_counterIndex (c : Counter) : counterAt (counterIndex c).val = some c := by
  cases c <;> rfl

theorem counterValue_clear_other {c d : Counter} (h : d ≠ c) (s : State) : counterValue d (clearCounter c s) = counterValue d s := by
  have hne : ¬ (counterIndex c).val = (counterIndex d).val := fun he =>
    h (Option.some.inj ((counterAt_counterIndex d).symm.trans (he ▸ counterAt_counterIndex c)))
  simp [counterValue, clearCounter, hne]

theorem messagesSent_of_same (b msi : Bool) (o : Output) : messagesSent b b msi o = [] := by
  cases b <;> rfl

theorem pendingAfter_of_same (b msi p : Bool) : pendingAfter b b msi p = (b && p) := by
  cases b <;> simp [pendingAfter]

/-- Settles O54: the registers written, the signalling enable, and a counter cleared. -/
theorem eventAndCounterWrites : Obligations.EventAndCounterWrites := fun s => by
  refine ⟨fun m b w hw => ?_, fun b => ?_, fun c => ?_⟩
  · simp only [List.mem_cons, List.not_mem_nil, or_false] at hw
    rcases hw with rfl | rfl | rfl | rfl <;> exact eventWrite_follows rfl rfl rfl rfl
  · cases b with
    | false =>
      refine ⟨_, (exec_eq_commit _ s).trans ((congrArg (commit s) (changeMsiEnable_off s)).trans (commit_signals s _)), ⟨Quiet.refl s, rfl⟩, rfl, rfl, rfl,
        rfl, rfl, rfl, fun _ => ?_, fun h => absurd h Bool.false_ne_true⟩
      exact (congrArg (s.outputs ++ ·) (congrArg₂ (· ++ ·) (messagesSent_of_same ..) (messagesSent_of_same ..))).trans (List.append_nil _)
    | true =>
      refine ⟨_, (exec_eq_commit _ s).trans ((congrArg (commit s) (changeMsiEnable_on s)).trans (commit_signals s _)), ⟨Quiet.refl s, rfl⟩, rfl, rfl, rfl,
        rfl, rfl, rfl, fun h => absurd h.symm Bool.false_ne_true, fun _ => ?_⟩
      have hcond : ∀ p q, urgentCondition { s.events with msiEnable := true, pendingUrgent := p, pendingRoutine := q } = urgentCondition s.events
          ∧ routineCondition { s.events with msiEnable := true, pendingUrgent := p, pendingRoutine := q } = routineCondition s.events :=
        fun _ _ => ⟨rfl, rfl⟩
      have hdrop : ∀ b p : Bool, (b && (p && !b)) = false := by decide
      have hmem : ∀ (c : Prop) [Decidable c] (o x : Output), x ∈ (if c then [o] else []) ↔ c ∧ x = o := fun c _ o x => by
        by_cases hc : c <;> simp [hc]
      simp only [sentBetween, List.drop_left, hcond, messagesSent_of_same, pendingAfter_of_same, List.append_nil, hdrop, List.mem_append, hmem,
        reduceCtorEq, and_false, or_false, false_or, and_true, Bool.and_eq_true]
  · obtain ⟨pu, pr, hc⟩ := exec_silent (c := .counterClear c) (u := clearCounter c s) rfl rfl
    exact ⟨_, hc, ⟨Quiet.refl s, rfl⟩, rfl, rfl, counterValue_clear s c, fun d hd => counterValue_clear_other hd s⟩

/-! ### What the window reads after a write (R190) -/

theorem Ended.windowRead {u t : State} (h : Ended u t) (o : Nat) : windowRead o t = windowRead o u := by
  obtain ⟨_, _, _, rfl⟩ := h
  rfl

/-- A settings register, at place `i` of R191's order. -/
theorem windowRead_register {s : State} {i : Nat} (h : i < 13) :
    windowRead (0x040 + 4 * i) s = BitVec.ofNat 32 ((settingsRegisters s.settings).getD i 0) := by
  have hplace : (0x040 + 4 * i - 0x040) / 4 = i := by omega
  rw [windowRead, if_neg (by omega), if_neg (by omega), if_pos (by omega), hplace]

/-- A write of the register at place `i` leaves every other register, where the longest lease time stays. -/
theorem windowRead_of_settings {s : State} {st : Settings} {i v : Nat} (hreg : settingsRegisters st = (settingsRegisters s.settings).set i v)
    (hmax : st.tMax = s.settings.tMax) {o : Nat} (ho : o ≠ 0x040 + 4 * i) : windowRead o { s with settings := st } = windowRead o s := by
  have hleft : leaseTimeLeft { s with settings := st } = leaseTimeLeft s := by rw [leaseTimeLeft, leaseTimeLeft, ← hmax]
  by_cases h4 : o % 4 = 0
  · by_cases hlow : o < 0x040
    · rw [windowRead, windowRead, if_neg (not_not.mpr h4), if_neg (not_not.mpr h4), if_pos hlow, if_pos hlow]
      rfl
    · by_cases hset : o < 0x080
      · have hne : ¬ i = (o - 0x040) / 4 := fun h => ho (by omega)
        rw [windowRead, windowRead, if_neg (not_not.mpr h4), if_neg (not_not.mpr h4), if_neg hlow, if_neg hlow, if_pos hset, if_pos hset]
        change BitVec.ofNat 32 ((settingsRegisters st).getD _ 0) = _
        rw [hreg, List.getD_eq_getElem?_getD, List.getD_eq_getElem?_getD, List.getElem?_set_ne hne]
      · rw [windowRead, windowRead, if_neg (not_not.mpr h4), if_neg (not_not.mpr h4), if_neg hlow, if_neg hlow, if_neg hset, if_neg hset, readStatus,
          readStatus, hleft]
        rfl
  · rw [windowRead, windowRead, if_pos h4, if_pos h4]

/-- What a write that sets the register at offset `o` to `v` does (R191). -/
def Sets (s : State) (c : Instr) (o : Nat) (v : BitVec 32) : Prop :=
  ∃ t, exec c s = .next t ∧ windowRead o t = v
    ∧ (∀ x, x ≠ o → windowRead x t = windowRead x s) ∧ SameTable s t ∧ SameWork s t ∧ t.mode = s.mode ∧ t.lease = s.lease
    ∧ t.pacing = s.pacing ∧ t.portA = s.portA ∧ t.portB = s.portB ∧ t.counters = s.counters

/-- A setting that is taken. -/
theorem sets_setting {s : State} {c : Instr} {st : Settings} {i v pt : Nat} (h : effect c s = { s with settings := st, probeTimer := pt })
    (hi : i < 13) (hreg : settingsRegisters st = (settingsRegisters s.settings).set i v) (hmax : st.tMax = s.settings.tMax) :
    Sets s c (0x040 + 4 * i) (BitVec.ofNat 32 v) := by
  obtain ⟨t, ht, hend⟩ := exec_ended_of h
  have hread : ∀ o, windowRead o t = windowRead o { s with settings := st } := fun o => (hend.windowRead o).trans rfl
  refine ⟨t, ht, ?_, fun x hx => (hread x).trans (windowRead_of_settings hreg hmax hx), hend.sameTable (SameTable.refl s),
    hend.sameWork (SameWork.refl s), hend.mode, hend.lease, ?_, hend.portAt .a, hend.portAt .b, hend.counters⟩
  · rw [hread, windowRead_register hi]
    change BitVec.ofNat 32 ((settingsRegisters st).getD i 0) = _
    rw [hreg, List.getD_eq_getElem?_getD, List.getElem?_set_self (by exact hi)]
    rfl
  · obtain ⟨_, _, _, rfl⟩ := hend
    rfl

/-- A write that is ignored is counted, and does nothing else (R191). -/
theorem write_ignored {s : State} {c : Instr} (h : effect c s = ignoreWrite s) : ∃ t, exec c s = .next t ∧ OnlyEvents s t
    ∧ t.events.flags = s.events.flags ∧ counterValue .windowWriteIgnored t = saturatingSucc (counterValue .windowWriteIgnored s) := by
  obtain ⟨t, ht, hev, -, hflags, hcount, -⟩ := exec_counted (d := .windowWriteIgnored) h
  exact ⟨t, ht, hev, hflags, hcount⟩

theorem settingField_eq (v : BitVec 32) : settingField v = v.toNat % 131072 := BitVec.toNat_setWidth 17 v

theorem writeSetting_of_ok {ok : Bool} (h : ok = true) (upd : Settings → Settings) (s : State) :
    writeSetting ok upd s = { s with settings := upd s.settings } := if_pos h

theorem writeSetting_of_not {ok : Bool} (h : ¬ ok = true) (upd : Settings → Settings) (s : State) : writeSetting ok upd s = ignoreWrite s := if_neg h

/-- A settings register with a range and no rule of its own. -/
theorem settingWrite {s : State} {c : Instr} {i n lo hi : Nat} {ok : Bool} {upd : Settings → Settings} (h : effect c s = writeSetting ok upd s)
    (hok : ok = true ↔ lo ≤ n ∧ n ≤ hi) (hi13 : i < 13) (hreg : settingsRegisters (upd s.settings) = (settingsRegisters s.settings).set i n)
    (hmax : (upd s.settings).tMax = s.settings.tMax) :
    ((lo ≤ n ∧ n ≤ hi) → Sets s c (0x040 + 4 * i) (BitVec.ofNat 32 n))
      ∧ (¬ (lo ≤ n ∧ n ≤ hi) → ∃ t, exec c s = .next t ∧ OnlyEvents s t ∧ t.events.flags = s.events.flags
          ∧ counterValue .windowWriteIgnored t = saturatingSucc (counterValue .windowWriteIgnored s)) :=
  ⟨fun hr => sets_setting (h.trans (writeSetting_of_ok (hok.mpr hr) upd s)) hi13 hreg hmax,
    fun hr => write_ignored (h.trans (writeSetting_of_not (mt hok.mp hr) upd s))⟩

theorem decide_range {lo n hi : Nat} : (decide (lo ≤ n) && decide (n ≤ hi)) = true ↔ lo ≤ n ∧ n ≤ hi := by simp

/-- The wake and EtherType registers, whose reads no other register shares. -/
theorem windowRead_of_wake {s : State} (v : BitVec 32) {o : Nat} (ho : o ≠ 0x030) :
    windowRead o { s with wakeCluster := (v >>> 16).setWidth 16, wakeUnit := v.setWidth 16 } = windowRead o s := by
  simp only [windowRead, readControl, if_neg ho]
  rfl

theorem windowRead_of_etherType {s : State} (v : BitVec 16) {o : Nat} (ho : o ≠ 0x034) : windowRead o { s with etherType := v } = windowRead o s := by
  simp only [windowRead, readControl, if_neg ho]
  rfl

/-- The offsets of the registers that a write acts on (R190). -/
def writableOffsets : List Nat :=
  [0x010, 0x014, 0x018, 0x020, 0x024, 0x028, 0x02C, 0x030, 0x034, 0x040, 0x044, 0x048, 0x04C, 0x050, 0x054, 0x058, 0x05C, 0x060, 0x064, 0x068,
    0x06C, 0x070, 0x080, 0x084, 0x088, 0x08C, 0x090, 0x100, 0x104, 0x108, 0x10C, 0x110, 0x114, 0x118, 0x11C, 0x120, 0x124, 0x128, 0x12C, 0x200]

/-- The counters stand at writable offsets, so no other offset is a counter's. -/
theorem counterAt_of_unwritable {o : Nat} (h : o ∉ writableOffsets) (hlow : 0x100 ≤ o) (h4 : o % 4 = 0) : counterAt ((o - 0x100) / 4) = none := by
  have hcounters : ∀ x ∈ (List.range 12).map (fun k => 0x100 + 4 * k), x ∈ writableOffsets := by decide
  refine List.getElem?_eq_none (not_lt.mp fun hlt => h (hcounters o ?_))
  exact List.mem_map.mpr ⟨(o - 0x100) / 4, List.mem_range.mpr hlt, by omega⟩

theorem writeWindow_of_unwritable {o : Nat} (h : o ∉ writableOffsets) (v : BitVec 32) (s : State) : writeWindow o v s = ignoreWrite s := by
  have hcounter := counterAt_of_unwritable h
  simp only [writableOffsets, List.mem_cons, List.not_mem_nil, or_false, not_or] at h
  unfold writeWindow
  split
  · simp only [writeControl, h, if_false]
  · split
    · simp only [writeSettings, h, if_false]
    · simp only [writeOther, h, if_false]
      split
      · rename_i hat
        rw [hcounter hat.1 hat.2]
      · rfl

/-- Settles O56: each register by its own rule. -/
theorem windowWrites : Obligations.WindowWrites := fun s => by
  refine ⟨fun v row hrow => ?_, fun v => ?_, fun v hv => ?_, fun o v ho => ?_, fun v => ⟨fun hok => ?_, fun hno => ?_⟩,
    fun v => ⟨fun hok => ?_, fun hno => ?_⟩, fun v => ?_⟩
  · intro n
    have hn : n = settingField v := (settingField_eq v).symm
    clear_value n
    subst hn
    simp only [List.mem_cons, List.not_mem_nil, or_false] at hrow
    rcases hrow with rfl | rfl | rfl | rfl | rfl | rfl
    · exact settingWrite (i := 0) (upd := fun st => { st with tFirst := settingField v }) rfl decide_range (by decide) rfl rfl
    · exact settingWrite (i := 1) (upd := fun st => { st with tStream := settingField v }) rfl decide_range (by decide) rfl rfl
    · exact settingWrite (i := 2) (upd := fun st => { st with tStore := settingField v }) rfl decide_range (by decide) rfl rfl
    · exact settingWrite (i := 7) (upd := fun st => { st with quantum := settingField v }) rfl decide_range (by decide) rfl rfl
    · exact settingWrite (i := 9) (upd := fun st => { st with threshold := settingField v }) rfl decide_range (by decide) rfl rfl
    · exact settingWrite (i := 12) (ok := decide (settingField v ≤ 65536)) (upd := fun st => { st with tableHigh := settingField v }) rfl (by simp)
        (by decide) rfl rfl
  · obtain ⟨t, ht, hend⟩ := exec_ended (.windowWrite 0x030 v) s
    refine ⟨t, ht, (hend.windowRead _).trans ?_, fun x hx => (hend.windowRead x).trans (windowRead_of_wake v hx), hend.sameTable (SameTable.refl s),
      hend.sameWork (SameWork.refl s), hend.mode, hend.lease, ?_, hend.portAt .a, hend.portAt .b, hend.counters⟩
    · change (v >>> 16).setWidth 16 ++ v.setWidth 16 = v
      refine BitVec.eq_of_getLsbD_eq fun i hi => ?_
      rw [BitVec.getLsbD_append]
      by_cases h16 : i < 16
      · simp [h16]
      · simp [h16, show 16 + (i - 16) = i by omega, show i - 16 < 16 by omega]
    · obtain ⟨_, _, _, rfl⟩ := hend
      rfl
  · have heff : effect (.windowWrite 0x090 v) s = s := if_neg (by rw [hv]; exact Bool.false_ne_true)
    obtain ⟨t, ht, hev, -, hctr, hflags, -⟩ := exec_unchanged heff
    exact ⟨t, ht, hev, hctr, hflags⟩
  · exact write_ignored (writeWindow_of_unwritable ho v s)
  · have heff : effect (.etherTypeWrite v) s = { s with etherType := v } := if_neg (Nat.not_lt.mpr hok)
    obtain ⟨t, ht, hend⟩ := exec_ended_of heff
    refine ⟨t, ht, hend.windowRead _, fun x hx => (hend.windowRead x).trans (windowRead_of_etherType v hx), hend.sameTable (SameTable.refl s),
      hend.sameWork (SameWork.refl s), hend.mode, hend.lease, ?_, hend.portAt .a, hend.portAt .b, hend.counters⟩
    obtain ⟨_, _, _, rfl⟩ := hend
    rfl
  · exact write_ignored (if_pos hno)
  · have heff : effect (.probePeriodWrite v) s = { s with settings := { s.settings with probePeriod := v.toNat }, probeTimer := 10 * v.toNat * 100 } :=
      if_pos hok
    refine ⟨BitVec.ofNat_toNat 32 v ▸ sets_setting (i := 3) heff (by decide) rfl rfl, ?_⟩
    obtain ⟨t, ht, hend⟩ := exec_ended_of heff
    refine ⟨t, ht, ?_⟩
    obtain ⟨_, _, _, rfl⟩ := hend
    rfl
  · exact write_ignored (if_neg hno)
  · have hok : ((s.mode == .dormant || s.mode == .ready) && decide (v.toNat ≤ 7)) = true ↔ (s.mode = .dormant ∨ s.mode = .ready) ∧ v.toNat ≤ 7 := by
      simp
    have heff : effect (.reserveWrite v) s = writeReserve v.toNat s := rfl
    refine ⟨fun h => ?_, fun h => write_ignored (heff.trans (writeSetting_of_not (mt hok.mp h) _ s))⟩
    exact BitVec.ofNat_toNat 32 v ▸ sets_setting (i := 8) (heff.trans (writeSetting_of_ok (hok.mpr h) _ s)) (by decide) rfl rfl

end Sys2Proof.Machine

/-! SUPPORT. The reads of two copies (R30) and the peek engine (R198, R199). -/

namespace Sys2Proof.Machine

/-! ### Reads of a word with two copies (R30) -/

theorem readWord_of_clean {s : State} {w : TableWord} (h : (healthOf s w).first = .clean) : readWord w s = (true, s) := by
  rw [readWord]
  simp only [h]

theorem readWord_of_correctable {s : State} {w : TableWord} (h : (healthOf s w).first = .correctable) :
    readWord w s = (true, count .eccCorrected (setHealth w { first := .clean, second := (healthOf s w).second } s)) := by
  rw [readWord]
  simp only [h]

theorem readWord_of_second {s : State} {w : TableWord} (h : (healthOf s w).first = .uncorrectable) (h2 : (healthOf s w).second ≠ .uncorrectable) :
    readWord w s = (true, count .eccCorrected (writeWord w s)) := by
  rw [readWord]
  cases hs : (healthOf s w).second with
  | uncorrectable => exact absurd hs h2
  | clean => simp only [h]
  | correctable => simp only [h]

theorem readWord_of_lost {s : State} {w : TableWord} (h : (healthOf s w).first = .uncorrectable) (h2 : (healthOf s w).second = .uncorrectable) :
    readWord w s = (false, raise .memoryError s) := by
  rw [readWord]
  simp only [h, h2]

theorem healthOf_count_setHealth (c : Counter) (w : TableWord) (h : WordHealth) (s : State) : healthOf (count c (setHealth w h s)) w = h :=
  healthOf_setHealth_same s w h

/-- Settles O23: a read by the health of the two copies. -/
theorem readsOfTwoCopies : Obligations.ReadsOfTwoCopies := fun w s => by
  refine ⟨readWord_of_clean, fun h => ?_, fun h h2 => ?_, fun h h2 => ?_, healthOf_writeWord s w⟩
  · rw [readWord_of_correctable h]
    exact ⟨rfl, healthOf_count_setHealth .eccCorrected w _ s, counterValue_count (setHealth w _ s) .eccCorrected⟩
  · rw [readWord_of_second h h2]
    exact ⟨rfl, healthOf_count_setHealth .eccCorrected w _ s, counterValue_count (writeWord w s) .eccCorrected⟩
  · rw [readWord_of_lost h h2]
    exact ⟨rfl, flagSet_raise_self .memoryError s⟩

/-! ### The peek engine: its control register (R198) -/

theorem peekWrite_of_busy {n : BitVec 16} {c : BitVec 6} {s : State} (h : s.peek.busy = true) :
    writePeek n c s = ignoreWrite s ∧ startPeek n c s = ignoreWrite s :=
  ⟨if_pos h, if_pos h⟩

theorem not_busy {s : State} (h : s.peek.busy = false) : ¬ s.peek.busy = true := by
  rw [h]
  exact Bool.false_ne_true

theorem startPeek_of_range {n : BitVec 16} {c : BitVec 6} {s : State} (h : s.peek.busy = false) (hc : 1 ≤ c.toNat ∧ c.toNat ≤ 32) :
    startPeek n c s = { s with peek := { busy := true, number := n, count := c, image := List.replicate 32 0 } } :=
  (if_neg (not_busy h)).trans (if_pos hc)

theorem startPeek_of_bad_count {n : BitVec 16} {c : BitVec 6} {s : State} (h : s.peek.busy = false) (hc : ¬ (1 ≤ c.toNat ∧ c.toNat ≤ 32)) :
    startPeek n c s = count .peekRefused { s with peek := { s.peek with number := n, count := c } } :=
  (if_neg (not_busy h)).trans (if_neg hc)

theorem Ended.peek {u t : State} (h : Ended u t) : t.peek = u.peek := by
  obtain ⟨_, _, _, rfl⟩ := h
  rfl

/-! ### The peek engine: the image (R199) -/

theorem peekReads_of_sound {s : State} (h : s.dram = []) (n c : Nat) :
    ∃ g, peekReads n c s = (s, g) ∧ (liveAt s n = none → g = generationAt s n) := by
  unfold peekReads
  cases hl : liveAt s n with
  | none =>
    refine ⟨generationAt s n, ?_, fun _ => rfl⟩
    simp only [readFields_of_sound h]
    rfl
  | some l =>
    refine ⟨0, ?_, fun h => nomatch h⟩
    simp [readRecordFields, hl, readFields_of_sound h]

/-- The end of a peek over sound memory. -/
theorem completePeek_of_sound {s : State} (hb : s.peek.busy = true) (h : s.dram = []) :
    ∃ g, completePeek s = raise .peekDone (settle { s with peek := { s.peek with busy := false, image := peekImage s s.peek.number.toNat g s.peek.count.toNat } })
      ∧ (liveAt s s.peek.number.toNat = none → g = generationAt s s.peek.number.toNat) := by
  obtain ⟨g, hg, hfree⟩ := peekReads_of_sound h s.peek.number.toNat s.peek.count.toNat
  refine ⟨g, (if_pos hb).trans ?_, hfree⟩
  simp only [hg]

theorem peekImage_getD (s : State) (n : Nat) (g : Generation) (c k : Nat) :
    (peekImage s n g c).getD k 0 = if k < 32 ∧ k < c then imageWord s n g k else 0 := by
  rw [peekImage, List.getD_eq_getElem?_getD, List.getElem?_map]
  by_cases hk : k < 32
  · rw [List.getElem?_range hk]
    simp only [hk, true_and, Option.map_some, Option.getD_some]
  · rw [List.getElem?_eq_none (by simpa using hk)]
    simp [hk]

/-! The words of a live record, one after another. -/

theorem shown_eq (l : Live) (fd : RecField) (v : Nat) : shown l fd v = if fd ∈ l.lostFields then 0 else v := by
  simp only [shown, List.contains_iff_mem]

theorem shownGeneration_toNat {s : State} {n : Nat} {l : Live} (hl : liveAt s n = some l) :
    (shownGeneration s n).toNat = if .generation ∈ l.lostFields then 0 else (generationAt s n).toNat := by
  rw [shownGeneration, hl]
  simp only [List.contains_iff_mem]
  split <;> rfl

theorem memoryHeld_eq (l : Live) : memoryHeld l = decide (l.state = .held .memory) := rfl

/-- Bytes packed from bit 0 up, up to four of them. -/
theorem packBytes_four {bs : List Byte} (h : bs.length ≤ 4) :
    packBytes bs = (bs.getD 0 0).toNat + 2 ^ 8 * (bs.getD 1 0).toNat + 2 ^ 16 * (bs.getD 2 0).toNat + 2 ^ 24 * (bs.getD 3 0).toNat := by
  match bs, h with
  | [], _ => rfl
  | [a], _ => simp [packBytes]
  | [a, b], _ => simp [packBytes]
  | [a, b, c], _ => simp [packBytes]; omega
  | [a, b, c, d], _ => simp [packBytes]; omega

theorem sourceWord_eq {n : Nat} {e : Source} (hn : n ≤ 4) (he : e.coefs.length = n) : sourceWord n e =
    e.slot + 2 ^ 16 * e.frag.toNat + 2 ^ 32 * (e.coefs.getD 0 0).toNat + 2 ^ 40 * (e.coefs.getD 1 0).toNat
      + 2 ^ 48 * (e.coefs.getD 2 0).toNat + 2 ^ 56 * (e.coefs.getD 3 0).toNat := by
  rw [sourceWord, ← he, List.take_length, packBytes_four (he ▸ hn)]
  omega

theorem liveWord_zero {s : State} {n : Nat} {l : Live} (hl : liveAt s n = some l) : liveWord s n l 0 =
    (stateCode (some l.state)).toNat + 2 ^ 8 * (if .cls ∈ l.lostFields then 0 else (classCode l.cls).toNat)
      + 2 ^ 16 * (if .generation ∈ l.lostFields then 0 else (generationAt s n).toNat) + 2 ^ 32 * (if l.state = .held .memory then 0 else l.segTotal)
      + 2 ^ 48 * (if l.state = .held .memory then 0 else l.sources.length) + 2 ^ 56 * (if l.state = .held .memory then 0 else l.targets.length) := by
  simp only [liveWord, shown_eq, shownGeneration_toNat hl, memoryHeld_eq, if_true, decide_eq_true_eq]
  by_cases hm : l.state = .held .memory
  · simp only [if_pos hm]
    omega
  · simp only [if_neg hm]
    omega

theorem liveWord_target {s : State} {n : Nat} {l : Live} {q : Nat} (hq : q < 4) : liveWord s n l (4 + q) =
    match (if l.state = .held .memory then [] else l.targets)[q]? with
    | some x => x.frag.toNat + 2 ^ 8 * (statusCode x.status).toNat + 2 ^ 16 * x.placed + 2 ^ 32 * x.dest
    | none => 0 := by
  simp only [liveWord, memoryHeld_eq, decide_eq_true_eq, show ¬ 4 + q = 0 by omega, show ¬ 4 + q = 1 by omega, show ¬ 4 + q = 2 by omega,
    show ¬ 4 + q = 3 by omega, show 4 + q < 8 by omega, if_false, if_true, Nat.add_sub_cancel_left]
  split
  · rfl
  · cases l.targets[q]? <;> rfl

theorem liveWord_source {s : State} {n : Nat} {l : Live} {p : Nat} (hp : p < 16) : liveWord s n l (8 + p) =
    match (if l.state = .held .memory then [] else l.sources)[p]? with
    | some e => sourceWord l.targets.length e
    | none => 0 := by
  simp only [liveWord, memoryHeld_eq, decide_eq_true_eq, show ¬ 8 + p = 0 by omega, show ¬ 8 + p = 1 by omega, show ¬ 8 + p = 2 by omega,
    show ¬ 8 + p = 3 by omega, show ¬ 8 + p < 8 by omega, show 8 + p < 24 by omega, if_false, if_true, Nat.add_sub_cancel_left]
  split
  · rfl
  · cases l.sources[p]? <;> rfl

theorem liveWord_cause {s : State} {n : Nat} {l : Live} {b0 b1 : Byte} (h : causeBytes (some l.state) = [b0, b1]) : liveWord s n l 3 =
    b0.toNat + 2 ^ 8 * b1.toNat + 2 ^ 16 * (if .stallNode ∈ l.lostFields then 0 else stallField (some l.state))
      + 2 ^ 32 * (if l.watch.isSome then 1 else 0) + 2 ^ 33 * (if l.fixed then 1 else 0) := by
  simp only [liveWord, shown_eq, h, packBytes, List.foldr_cons, List.foldr_nil]
  rfl

theorem liveWord_last {s : State} {n : Nat} {l : Live} {k : Nat} (hk : 25 ≤ k) : liveWord s n l k = 0 := by
  simp only [liveWord, show ¬ k = 0 by omega, show ¬ k = 1 by omega, show ¬ k = 2 by omega, show ¬ k = 3 by omega, show ¬ k < 8 by omega,
    show ¬ k < 24 by omega, show ¬ k = 24 by omega, if_false]

theorem exec_peekCompletion (s : State) : effect (.peekCompletion []) s = completePeek s := rfl

/-- Settles O55: the control register, a peek that begins, and one that ends. -/
theorem peekEngine : Obligations.PeekEngine := fun n c s => by
  refine ⟨fun hb w hw => ?_, fun hb => ⟨?_, fun h1 h32 => ?_, fun hc => ?_⟩, fun hb => ?_, fun hb hs => ?_⟩
  · have ignored : ∀ {w : Instr}, effect w s = ignoreWrite s → ∃ t, exec w s = .next t ∧ OnlyEvents s t ∧ t.peek = s.peek
        ∧ counterValue .windowWriteIgnored t = saturatingSucc (counterValue .windowWriteIgnored s) := fun h => by
      obtain ⟨t, ht, hev, -, hcount⟩ := write_ignored h
      obtain ⟨⟨-, -, -, -, -, -, -, -, -, -, hpeek⟩, -⟩ := hev.1
      exact ⟨t, ht, hev, hpeek, hcount⟩
    simp only [List.mem_cons, List.not_mem_nil, or_false] at hw
    rcases hw with rfl | rfl
    · exact ignored (peekWrite_of_busy hb).1
    · exact ignored (peekWrite_of_busy hb).2
  · obtain ⟨t, ht, hend⟩ := exec_ended_of (c := .peekSet n c) (if_neg (not_busy hb))
    exact ⟨t, ht, hend.peek, hend.sameTable (SameTable.refl s), hend.sameWork (SameWork.refl s), hend.mode, hend.counters, hend.flags⟩
  · obtain ⟨t, ht, hend⟩ := exec_ended_of (c := .peekGo n c) (startPeek_of_range hb ⟨h1, h32⟩)
    have hpeek := hend.peek
    refine ⟨t, ht, by rw [hpeek], by rw [hpeek], by rw [hpeek], fun k => ?_, hend.sameTable (SameTable.refl s), hend.sameWork (SameWork.refl s),
      hend.mode, hend.counters, hend.flags⟩
    rw [imageRead, hpeek]
    exact blankImage_getD k
  · obtain ⟨t, ht, hend⟩ := exec_ended_of (c := .peekGo n c) (startPeek_of_bad_count hb (by omega))
    exact ⟨t, ht, hend.peek, hend.sameTable (SameTable.refl s), hend.sameWork (SameWork.refl s), hend.mode,
      (hend.counterValue _).trans (counterValue_count ..)⟩
  · obtain ⟨t, ht, hev, -, -, hflags, hpeek⟩ := exec_unchanged (c := .peekCompletion []) (if_neg (not_busy hb))
    exact ⟨t, ht, hev, hpeek, hflags⟩
  · obtain ⟨g, heff, hfree⟩ := completePeek_of_sound hb hs
    obtain ⟨t, ht, hend⟩ := exec_ended_of (c := .peekCompletion []) heff
    have hroom := settle_handed { s with peek := { s.peek with busy := false, image := peekImage s s.peek.number.toNat g s.peek.count.toNat } }
    obtain ⟨-, -, -, -, -, -, -, -, -, -, hpeek⟩ := hroom.control
    have hpeek := hend.peek.trans hpeek
    have himage : ∀ k, imageRead k t = if k < 32 ∧ k < s.peek.count.toNat then imageWord s s.peek.number.toNat g k else 0 := fun k => by
      rw [imageRead, hpeek]
      exact peekImage_getD ..
    refine ⟨t, ht, by rw [hpeek], by rw [hpeek], by rw [hpeek], (hend.flagSet _).trans (flagSet_raise_self ..), hend.sameTable hroom.table,
      fun k hk => ?_, fun hl k hk hkc => ?_, fun l hl => ?_⟩
    · rw [himage, if_neg (by omega)]
    · rw [himage, if_pos ⟨hk, hkc⟩, imageWord, hl, hfree hl]
    · have hword : ∀ {k v}, k < 32 → liveWord s s.peek.number.toNat l k = v → k < s.peek.count.toNat → imageRead k t = BitVec.ofNat 64 v :=
        fun hk hv hkc => by rw [himage, if_pos ⟨hk, hkc⟩, imageWord, hl, ← hv]
      refine ⟨hword (by decide) (liveWord_zero hl), hword (by decide) ?_, hword (by decide) ?_, fun b0 b1 hb01 => hword (by decide) (liveWord_cause hb01),
        fun q hq => hword (by omega) (liveWord_target hq), fun p hp e he hn hlen => hword (by omega) ?_, fun p hp hnone => hword (by omega) ?_,
        hword (by decide) ?_, fun k hk hk32 => hword hk32 (liveWord_last hk)⟩
      · simp only [liveWord, shown_eq]
        rfl
      · simp only [liveWord, shown_eq, memoryHeld_eq, decide_eq_true_eq]
        rfl
      · rw [liveWord_source hp, he]
        exact sourceWord_eq hn hlen
      · rw [liveWord_source hp, hnone]
      · simp only [liveWord, shown_eq]
        rfl

end Sys2Proof.Machine

/-! SUPPORT. The lookup of a key (R29), over sound memory and with ways that cannot be read (R33). -/

namespace Sys2Proof.Machine

/-- The ways of bucket `b` read as `bad` says: a way that is bad gives no value and raises MEMORY_ERROR, any other gives its entry (R30, R33). -/
def WaysRead (s : State) (b : Nat) (bad : Nat → Bool) : Prop :=
  ∀ w v, v.dram = s.dram → readWord (.way b w) v = (!bad w, if bad w then raise .memoryError v else v)

theorem raise_raise (e : Event) (s : State) : raise e (raise e s) = raise e s := by
  have h : s.events.flags ||| e.mask ||| e.mask = s.events.flags ||| e.mask := by rw [BitVec.or_assoc, BitVec.or_self]
  unfold raise
  simp only [h]

theorem waysRead_of_sound {s : State} (h : s.dram = []) (b : Nat) : WaysRead s b (fun _ => false) := fun _ _ hv =>
  readWord_of_sound (hv.trans h) _

/-- What the lookup has found in the ways `ws` of bucket `b`, begun with `a` in state `s`. -/
structure WaysMet (key : StripeKey) (b : Nat) (bad : Nat → Bool) (ws : List Nat) (a : Lookup) (s : State) (r : Lookup × State) : Prop where
  state : r.2 = if ws.any bad then raise .memoryError s else s
  unreadable : r.1.unreadable = (a.unreadable || ws.any bad)
  empty : r.1.empty = (a.empty <|> ws.find? (fun w => !bad w && (wayAt s b w).isNone))
  hit : ∀ n, r.1.hit = some n → a.hit = some n ∨ ∃ w ∈ ws, bad w = false ∧ wayAt s b w = some { record := n, key := key }
  miss : r.1.hit = none → a.hit = none ∧ ∀ w ∈ ws, bad w = false → ∀ e, wayAt s b w = some e → e.key ≠ key

theorem lookupWay_of_bad {key : StripeKey} {b w : Nat} {bad : Nat → Bool} {a : Lookup} {s : State} (h : WaysRead s b bad) (hw : bad w = true) :
    lookupWay key b (a, s) w = ({ a with unreadable := true }, raise .memoryError s) := by
  rw [lookupWay]
  simp only [h w s rfl, hw]
  rfl

theorem lookupWay_of_empty {key : StripeKey} {b w : Nat} {bad : Nat → Bool} {a : Lookup} {s : State} (h : WaysRead s b bad) (hw : bad w = false)
    (he : wayAt s b w = none) : lookupWay key b (a, s) w = ({ a with empty := a.empty <|> some w }, s) := by
  have he : Sparse.get emptyWay s.index (8 * b + w) = none := he
  rw [lookupWay]
  simp only [h w s rfl, hw, he]
  rfl

theorem lookupWay_of_entry {key : StripeKey} {b w : Nat} {bad : Nat → Bool} {a : Lookup} {s : State} {e : IndexEntry} (h : WaysRead s b bad)
    (hw : bad w = false) (he : wayAt s b w = some e) :
    lookupWay key b (a, s) w = (if e.key = key then { a with hit := some e.record } else a, s) := by
  have he : Sparse.get emptyWay s.index (8 * b + w) = some e := he
  rw [lookupWay]
  simp only [h w s rfl, hw, he]
  rfl

theorem foldl_lookupWay_met {key : StripeKey} {b : Nat} {bad : Nat → Bool} (ws : List Nat) {a : Lookup} {s : State} (h : WaysRead s b bad) :
    WaysMet key b bad ws a s (ws.foldl (lookupWay key b) (a, s)) := by
  induction ws generalizing a s with
  | nil => exact ⟨rfl, (Bool.or_false _).symm, (show a.empty = (a.empty <|> none) by cases a.empty <;> rfl), fun _ hn => .inl hn, fun hn => ⟨hn, fun _ hw => absurd hw List.not_mem_nil⟩⟩
  | cons w ws ih =>
    rw [List.foldl_cons]
    cases hw : bad w with
    | true =>
      rw [lookupWay_of_bad h hw]
      obtain ⟨hstate, hun, hempty, hhit, hmiss⟩ := ih (a := { a with unreadable := true }) (s := raise .memoryError s) fun x v hv => h x v hv
      refine ⟨?_, ?_, ?_, fun n hn => ?_, fun hn => ?_⟩
      · rw [hstate, raise_raise, ite_self, List.any_cons, hw]
        rfl
      · simp only [hun, List.any_cons, hw, Bool.true_or, Bool.or_true]
      · rw [hempty, List.find?_cons_of_neg (by rw [hw]; exact Bool.false_ne_true)]
        rfl
      · exact (hhit n hn).imp_right fun ⟨x, hx, hr⟩ => ⟨x, List.mem_cons_of_mem w hx, hr⟩
      · refine ⟨(hmiss hn).1, fun x hx hbad => ?_⟩
        rcases List.mem_cons.mp hx with rfl | hx
        · exact nomatch hw.symm.trans hbad
        · exact (hmiss hn).2 x hx hbad
    | false =>
      cases he : wayAt s b w with
      | none =>
        rw [lookupWay_of_empty h hw he]
        obtain ⟨hstate, hun, hempty, hhit, hmiss⟩ := ih (a := { a with empty := a.empty <|> some w }) h
        refine ⟨?_, ?_, ?_, fun n hn => ?_, fun hn => ?_⟩
        · rw [hstate, List.any_cons, hw, Bool.false_or]
        · rw [hun, List.any_cons, hw, Bool.false_or]
        · rw [hempty, List.find?_cons_of_pos (by rw [hw, he]; rfl)]
          cases a.empty <;> rfl
        · exact (hhit n hn).imp_right fun ⟨x, hx, hr⟩ => ⟨x, List.mem_cons_of_mem w hx, hr⟩
        · refine ⟨(hmiss hn).1, fun x hx hbad e hxe => ?_⟩
          rcases List.mem_cons.mp hx with rfl | hx
          · exact nomatch he.symm.trans hxe
          · exact (hmiss hn).2 x hx hbad e hxe
      | some e =>
        rw [lookupWay_of_entry h hw he]
        obtain ⟨hstate, hun, hempty, hhit, hmiss⟩ := ih (a := if e.key = key then { a with hit := some e.record } else a) h
        refine ⟨?_, ?_, ?_, fun n hn => ?_, fun hn => ?_⟩
        · rw [hstate, List.any_cons, hw, Bool.false_or]
        · rw [hun, List.any_cons, hw, Bool.false_or]
          split <;> rfl
        · rw [hempty, List.find?_cons_of_neg (by rw [hw, he]; exact Bool.false_ne_true)]
          split <;> rfl
        · rcases hhit n hn with hn | ⟨x, hx, hr⟩
          · by_cases hk : e.key = key
            · rw [if_pos hk] at hn
              refine .inr ⟨w, List.mem_cons_self, hw, ?_⟩
              rw [he, ← hk, ← Option.some.inj hn]
            · rw [if_neg hk] at hn
              exact .inl hn
          · exact .inr ⟨x, List.mem_cons_of_mem w hx, hr⟩
        · obtain ⟨hnone, hrest⟩ := hmiss hn
          by_cases hk : e.key = key
          · rw [if_pos hk] at hnone
            exact nomatch hnone
          · rw [if_neg hk] at hnone
            refine ⟨hnone, fun x hx hbad y hxy => ?_⟩
            rcases List.mem_cons.mp hx with rfl | hx
            · cases he.symm.trans hxy
              exact hk
            · exact hrest x hx hbad y hxy

/-- What a lookup finds. -/
theorem lookup_met (key : StripeKey) {bad : Nat → Bool} {s : State} (h : WaysRead s (bucketOf key) bad) :
    WaysMet key (bucketOf key) bad (List.range 8) { hit := none, empty := none, unreadable := false } s (lookup key s) :=
  foldl_lookupWay_met (List.range 8) h

theorem lookup_state_of_sound (key : StripeKey) {s : State} (h : s.dram = []) : (lookup key s).2 = s ∧ (lookup key s).1.unreadable = false := by
  obtain ⟨hstate, hun, -⟩ := lookup_met key (waysRead_of_sound h (bucketOf key))
  exact ⟨hstate, hun⟩

/-- A key that is in its bucket is found (R29). -/
theorem lookup_finds {key : StripeKey} {n : Nat} {l : Live} {s : State} (h : s.dram = []) (hk : KeyFinds s key n l) : (lookup key s).1.hit = some n := by
  obtain ⟨-, ⟨w, hw, hway⟩, huniq⟩ := hk
  have hmet := lookup_met key (waysRead_of_sound h (bucketOf key))
  cases hhit : (lookup key s).1.hit with
  | none => exact absurd rfl ((hmet.miss hhit).2 w (List.mem_range.mpr hw) rfl _ hway)
  | some m =>
    obtain ⟨v, hv, -, hvway⟩ := (hmet.hit m hhit).resolve_left fun hno => nomatch hno
    exact congrArg some (huniq v _ (List.mem_range.mp hv) hvway rfl)

/-- A key that is in no way is not found (R29). -/
theorem lookup_absent {key : StripeKey} {s : State} (h : s.dram = []) (hk : KeyAbsent s key) : (lookup key s).1.hit = none := by
  have hmet := lookup_met key (waysRead_of_sound h (bucketOf key))
  cases hhit : (lookup key s).1.hit with
  | none => rfl
  | some m =>
    obtain ⟨v, hv, -, hvway⟩ := (hmet.hit m hhit).resolve_left fun hno => nomatch hno
    exact absurd rfl (hk v _ (List.mem_range.mp hv) hvway)

/-- The empty way that a lookup of sound memory reports is the lowest (R29). -/
theorem lookup_empty_of_sound (key : StripeKey) {s : State} (h : s.dram = []) :
    (lookup key s).1.empty = (List.range 8).find? (fun w => (wayAt s (bucketOf key) w).isNone) := by
  rw [(lookup_met key (waysRead_of_sound h (bucketOf key))).empty]
  simp only [Bool.not_false, Bool.true_and]
  exact (fun o => rfl : ∀ o : Option Nat, (none <|> o) = o) _

/-! ### LOCATE (R44 to R46) -/

theorem effect_locate {f : Frame} {r : LocateReq} {s : State} (ha : Arrives s f) (hb : parseLocate f.body = some r) :
    effect (.locate f []) s = applyLocate f r s :=
  request_of_readable (needs := false) ha hb (fun h => nomatch h) .locate (applyLocate f)

theorem requestRead_state_of_sound {n : Nat} {l : Live} {s : State} (h : s.dram = []) (hl : liveAt s n = some l) (ids work : List RecField) :
    (requestRead n ids work s).2 = s := by
  rw [requestRead_of_sound h hl]

theorem applyLocate_of_absent {f : Frame} {r : LocateReq} {s : State} (h : s.dram = []) (hk : KeyAbsent s r.key) :
    applyLocate f r s = reply f .locate .notFound [] s := by
  have hmiss := lookup_absent h hk
  obtain ⟨hstate, -⟩ := lookup_state_of_sound r.key h
  unfold applyLocate
  generalize lookup r.key s = look at hmiss hstate ⊢
  simp only [hmiss, hstate]

/-- A LOCATE of a key that sound memory finds. -/
theorem applyLocate_of_found {f : Frame} {r : LocateReq} {n : Nat} {l : Live} {s : State} (h : s.dram = []) (hk : KeyFinds s r.key n l) :
    applyLocate f r s = if notTarget l r.frag then reply f .locate .notTarget (nameBytes n (shownGeneration s n)) s else locateOk f n r.frag s := by
  have hhit := lookup_finds h hk
  obtain ⟨hstate, -⟩ := lookup_state_of_sound r.key h
  unfold applyLocate
  generalize lookup r.key s = look at hhit hstate ⊢
  simp only [hhit, hstate, locateFound, requestRead_state_of_sound h hk.1, hk.1, readWork_of_sound h hk.1]

theorem notTarget_eq_false {l : Live} {frag : Option Byte}
    (h : frag = none ∨ memoryHeld l = true ∨ ∃ x, frag = some x ∧ ∃ t ∈ l.targets, t.frag = x) : notTarget l frag = false := by
  rcases h with rfl | h | ⟨x, rfl, t, ht, hx⟩
  · rfl
  · unfold notTarget
    split
    · rfl
    · rw [h]
      rfl
  · have hany : l.targets.any (fun t => t.frag == x) = true := List.any_eq_true.mpr ⟨t, ht, beq_iff_eq.mpr hx⟩
    rw [notTarget, hany, Bool.not_true, Bool.and_false]

theorem notTarget_eq_true {l : Live} {x : Byte} (hm : memoryHeld l = false) (h : ∀ t ∈ l.targets, t.frag ≠ x) : notTarget l (some x) = true := by
  have hany : l.targets.any (fun t => t.frag == x) = false := by
    rw [List.any_eq_false]
    exact fun t ht => mt beq_iff_eq.mp (h t ht)
  rw [notTarget, hm, hany]
  rfl

theorem locateOk_unraised {f : Frame} {n : Nat} {frag : Option Byte} {l : Live} {s : State} (hl : liveAt s n = some l)
    (h : f.flags.getLsbD 0 = false ∨ l.fixed = true ∨ l.cls = .foreground) : locateOk f n frag s = reply f .locate .ok (locateReport s n frag l) s := by
  have hsame : (if (f.flags.getLsbD 0 && !l.fixed) = true then changeClass n l .foreground s else s) = s := by
    rcases h with h | h | h
    · rw [h]
      rfl
    · rw [h, Bool.not_true, Bool.and_false]
      rfl
    · rw [changeClass_of_same h, ite_self]
  rw [locateOk, hl]
  simp only [hsame, hl]

theorem locateOk_raised {f : Frame} {n : Nat} {frag : Option Byte} {l m : Live} {s : State} (hl : liveAt s n = some l) (hu : f.flags.getLsbD 0 = true)
    (hf : l.fixed = false) (hm : liveAt (changeClass n l .foreground s) n = some m) : locateOk f n frag s =
      reply f .locate .ok (locateReport (changeClass n l .foreground s) n frag m) (changeClass n l .foreground s) := by
  rw [locateOk, hl]
  simp only [hu, hf, Bool.not_false, Bool.and_self, if_true, hm]

theorem reportedTargets_eq (l : Live) (frag : Option Byte) : reportedTargets l frag =
    if l.state = .held .memory then [] else l.targets.zipIdx.filter (fun e => decide (frag = none ∨ frag = some e.1.frag)) := by
  unfold reportedTargets
  rw [memoryHeld_eq]
  simp only [decide_eq_true_eq]
  split
  · rfl
  · cases frag with
    | none => simp
    | some x =>
      refine List.filter_congr fun e _ => ?_
      rw [Bool.eq_iff_iff]
      simp only [beq_iff_eq, decide_eq_true_eq, reduceCtorEq, false_or, Option.some.injEq]
      exact eq_comm

theorem locateReport_eq {s : State} {n : Nat} {frag : Option Byte} {l : Live} (hl : liveAt s n = some l) :
    let lost := fun (fd : RecField) (v : Nat) => if fd ∈ l.lostFields then 0 else v
    let work := fun (v : Nat) => if l.state = .held .memory then 0 else v
    let targets := if l.state = .held .memory then [] else l.targets.zipIdx.filter (fun e => decide (frag = none ∨ frag = some e.1.frag))
    let sources := if l.state = .held .memory then [] else l.sources.zipIdx
    locateReport s n frag l =
      be 2 n ++ be 2 (lost .generation (generationAt s n).toNat)
        ++ [stateCode (some l.state), BitVec.ofNat 8 (lost .cls (classCode l.cls).toNat)] ++ causeBytes (some l.state)
        ++ be 2 (lost .stallNode (stallField (some l.state))) ++ [BitVec.ofNat 8 targets.length, BitVec.ofNat 8 sources.length]
        ++ be 4 (work l.length) ++ be 2 (work l.segTotal) ++ [if l.watch.isSome then 1 else 0, 0] ++ be 4 (lost .stamp l.stamp.toNat)
        ++ be 6 (lost .definer l.definer.toNat) ++ [0, 0]
        ++ (targets.map (fun e => [BitVec.ofNat 8 e.2, e.1.frag, statusCode e.1.status, 0] ++ be 2 e.1.placed ++ be 2 e.1.dest
              ++ be 6 (nodeAt s e.1.dest).addr.toNat ++ [0, 0])).flatten
        ++ (sources.map (fun e => [BitVec.ofNat 8 e.2, e.1.frag] ++ be 2 e.1.slot)).flatten := by
  intro lost work targets sources
  have hone : reserved 1 = [0] := rfl
  simp only [locateReport, reportedTargets_eq, reportedSources, memoryHeld_eq, decide_eq_true_eq, shown_eq, shownGeneration_toNat hl, hone]
  simp only [List.append_assoc, List.cons_append, List.nil_append]
  rfl

/-- Settles O13: the report's bytes, and the answers of R44's table. -/
theorem locateAnswers : Obligations.LocateAnswers := by
  refine ⟨fun s n frag l hl => locateReport_eq hl, fun f r s ha hs hb => ?_⟩
  have heff := effect_locate ha hb
  have answered : ∀ {st result}, st ≠ .malformed → applyLocate f r s = reply f .locate st result s →
      ∃ t, exec (.locate f []) s = .next t ∧ Quiet s t ∧ Answered s t f .locate st 0 result := fun {st result} hst h => by
    obtain ⟨t, ht, hans, hcon⟩ := reply_concluded (Unanswered.refl s) f .locate hst result
    exact ⟨t, (exec_eq_commit _ s).trans ((congrArg (commit s) (heff.trans h)).trans ht), hcon.quiet (Quiet.refl s), hans⟩
  refine ⟨fun hk => answered (by decide) (applyLocate_of_absent hs hk), fun n l hk => ⟨fun x hx hm hno => ?_, fun hfrag hraise => ?_⟩⟩
  · exact answered (by decide) ((applyLocate_of_found hs hk).trans (if_pos (hx ▸ notTarget_eq_true hm hno)))
  · refine answered (by decide) ((applyLocate_of_found hs hk).trans ((if_neg ?_).trans (locateOk_unraised hk.1 hraise)))
    rw [notTarget_eq_false hfrag]
    exact Bool.false_ne_true

/-- Settles O14: the raise is the change to FOREGROUND. -/
theorem locateUrgentRaises : Obligations.LocateUrgentRaises := fun f r n l s ha hs hb hk hfrag hu hfixed hcls => by
  have hlive := hk.1
  have hne : l.cls ≠ .foreground := by rw [hcls]; decide
  have hnew := liveAt_changeClass hlive .foreground
  obtain ⟨hone, hmode, hlanes, hnodes, hfetch, hwait, hnotice⟩ := changeClass_frame n l .foreground s
  have heff : effect (.locate f []) s = _ := (effect_locate ha hb).trans ((applyLocate_of_found hs hk).trans
    ((if_neg (by rw [notTarget_eq_false hfrag]; exact Bool.false_ne_true)).trans (locateOk_raised hlive hu hfixed hnew)))
  obtain ⟨t, ht, hans, hcon⟩ := reply_concluded hone.toUnanswered f .locate (st := .ok) (by decide)
    (locateReport (changeClass n l .foreground s) n r.frag _)
  rw [← heff, ← exec_eq_commit] at ht
  obtain ⟨⟨ctr, out, ev, rfl⟩, -⟩ := hcon
  refine ⟨_, ht, fun hw => ?_, fun hw => ?_, fun m hm => ?_, hone.others, hone.generation, hone.collections, hone.control, hmode, hlanes, hnodes, hfetch,
    hwait, hnotice⟩
  · rw [if_pos ⟨hne, hw⟩] at hnew
    obtain ⟨d, hd⟩ := changeClass_of_waiting (n := n) hne hw s
    refine ⟨hnew, ?_⟩
    rw [hd]
    exact ⟨rfl, rfl, rfl⟩
  · rw [if_neg (fun x => hw x.2)] at hnew
    obtain ⟨d, hd⟩ := changeClass_of_resting (n := n) hne hw s
    refine ⟨hnew, ?_⟩
    rw [hd]
    exact SameQueues.refl s
  · cases hnew.symm.trans hm
    exact hans

end Sys2Proof.Machine

/-! SUPPORT. DEFINE (R40 to R43): what its checks refuse over sound memory, and the record that it creates. -/

namespace Sys2Proof.Machine

/-! ### The checks in their order (R40, R41) -/

theorem effect_define {f : Frame} {r : DefineReq} {s : State} (ha : Arrives s f) (hf : FromHolder s f) (hb : parseDefine f.body = some r) :
    effect (.define f []) s = applyDefine f r s :=
  request_of_readable (needs := true) ha hb (fun _ => hf) .define (applyDefine f)

theorem applyDefine_of_undefined {f : Frame} {r : DefineReq} {s : State} (h : 1 < r.cls.toNat ∨ 3 < r.edge.toNat) :
    applyDefine f r s = reply f .define .malformed [] s := by
  unfold applyDefine
  rcases h with h | h
  · rw [classOfCode_undefined h]
  · rw [edgeOfCode_undefined h]
    cases classOfCode r.cls <;> rfl

/-- A DEFINE whose codes are defined meets the checks of R40 in order. -/
theorem applyDefine_of_codes {f : Frame} {r : DefineReq} {c : RecordClass} {e : Option Edge} {s : State} (hc : classOfCode r.cls = some c)
    (he : edgeOfCode r.edge = some e) : applyDefine f r s =
      if badLength r.length then reply f .define .badLength [] s
      else if badDefineList r then reply f .define .badList [] s
      else if badDefineSlot s r then reply f .define .badSlot [] s
      else defineChecked f r c e s := by
  rw [applyDefine, hc, he]

theorem applyDefine_of_checked {f : Frame} {r : DefineReq} {c : RecordClass} {e : Option Edge} {s : State} (hc : classOfCode r.cls = some c)
    (he : edgeOfCode r.edge = some e) (hlen : badLength r.length = false) (hlist : badDefineList r = false) (hslot : badDefineSlot s r = false) :
    applyDefine f r s = defineChecked f r c e s := by
  simp only [applyDefine_of_codes hc he, hlen, hlist, hslot, Bool.false_eq_true, if_false]

theorem defineChecked_of_found {f : Frame} {r : DefineReq} {c : RecordClass} {e : Option Edge} {n : Nat} {l : Live} {s : State} (h : s.dram = [])
    (hk : KeyFinds s r.key n l) : defineChecked f r c e s = reply f .define .existing (nameBytes n (shownGeneration s n)) s := by
  have hhit := lookup_finds h hk
  obtain ⟨hstate, -⟩ := lookup_state_of_sound r.key h
  unfold defineChecked
  generalize lookup r.key s = look at hhit hstate ⊢
  simp only [hhit, hstate, requestRead_state_of_sound h hk.1]

theorem defineChecked_of_full_bucket {f : Frame} {r : DefineReq} {c : RecordClass} {e : Option Edge} {s : State} (h : s.dram = [])
    (hk : KeyAbsent s r.key) (hfull : ∀ w, w < 8 → wayAt s (bucketOf r.key) w ≠ none) :
    defineChecked f r c e s = reply f .define .indexFull [] (raise .indexFull s) := by
  have hmiss := lookup_absent h hk
  obtain ⟨hstate, hread⟩ := lookup_state_of_sound r.key h
  have hempty : (lookup r.key s).1.empty = none := by
    rw [lookup_empty_of_sound r.key h, List.find?_eq_none]
    exact fun w hw => mt Option.isNone_iff_eq_none.mp (hfull w (List.mem_range.mp hw))
  unfold defineChecked
  generalize lookup r.key s = look at hmiss hstate hread hempty ⊢
  simp only [hmiss, hstate, hread, hempty]

theorem lookup_empty_of_lowest {key : StripeKey} {w : Nat} {s : State} (h : s.dram = []) (hw : w < 8) (hway : wayAt s (bucketOf key) w = none)
    (hlow : ∀ v, v < w → wayAt s (bucketOf key) v ≠ none) : (lookup key s).1.empty = some w := by
  rw [lookup_empty_of_sound key h, List.find?_range_eq_some]
  exact ⟨by rw [hway]; rfl, List.mem_range.mpr hw, fun v hv => by simp [Option.isSome_iff_ne_none, hlow v hv]⟩

/-- The lowest of the empty ways. -/
theorem exists_lowest_empty {s : State} {b : Nat} (h : ∃ w, w < 8 ∧ wayAt s b w = none) :
    ∃ w, w < 8 ∧ wayAt s b w = none ∧ ∀ v, v < w → wayAt s b v ≠ none := by
  classical
  refine ⟨Nat.find h, (Nat.find_spec h).1, (Nat.find_spec h).2, fun v hv hno => Nat.find_min h hv ⟨?_, hno⟩⟩
  exact lt_trans hv (Nat.find_spec h).1

theorem defineChecked_of_full_table {f : Frame} {r : DefineReq} {c : RecordClass} {e : Option Edge} {s : State} (h : s.dram = [])
    (hk : KeyAbsent s r.key) (hempty : ∃ w, w < 8 ∧ wayAt s (bucketOf r.key) w = none) (hfull : 65536 ≤ s.liveCount) :
    defineChecked f r c e s = reply f .define .tableFull [] s := by
  obtain ⟨w, hw, hway, hlow⟩ := exists_lowest_empty hempty
  have hmiss := lookup_absent h hk
  obtain ⟨hstate, hread⟩ := lookup_state_of_sound r.key h
  have hempty := lookup_empty_of_lowest h hw hway hlow
  have hsize : Config.tableSize ≤ s.liveCount := hfull
  unfold defineChecked
  generalize lookup r.key s = look at hmiss hstate hread hempty ⊢
  simp only [hmiss, hstate, hread, hempty, if_pos hsize]

/-- The DEFINE that passes every check creates its record at the head of the free list (R42, R43). -/
theorem defineChecked_of_room {f : Frame} {r : DefineReq} {c : RecordClass} {e : Option Edge} {w : Nat} {s : State} (h : s.dram = [])
    (hk : KeyAbsent s r.key) (hw : w < 8) (hway : wayAt s (bucketOf r.key) w = none) (hlow : ∀ v, v < w → wayAt s (bucketOf r.key) v ≠ none)
    (hroom : s.liveCount < 65536) : defineChecked f r c e s =
      reply f .define .ok (nameBytes (headNumber s) (generationAt s (headNumber s)))
        (setWatch (headNumber s) (watchFor r.watcher f.src e)
          (createRecord (headNumber s) (generationAt s (headNumber s)) (newLive r c f.src w s.queueSeq) s)) := by
  have hmiss := lookup_absent h hk
  obtain ⟨hstate, hread⟩ := lookup_state_of_sound r.key h
  have hempty := lookup_empty_of_lowest h hw hway hlow
  have hsize : ¬ Config.tableSize ≤ s.liveCount := not_le.mpr hroom
  unfold defineChecked
  generalize lookup r.key s = look at hmiss hstate hread hempty ⊢
  simp only [hmiss, hstate, hread, hempty, if_neg hsize, readWord_of_sound h, readFields_of_sound h]
  rfl

/-- Settles O11: each refusal by the check that makes it. -/
theorem defineOrderedRefusals : Obligations.DefineOrderedRefusals := by
  refine ⟨fun f r s ha hf hb hcode => ?_, fun f r c e s ha hs hf hb hc he => ?_⟩
  · have heff : effect (.define f []) s = _ := (effect_define ha hf hb).trans (applyDefine_of_undefined hcode)
    obtain ⟨t, ht, hq, hans, hcount⟩ := malformed_reported f .define [] s
    exact ⟨t, (exec_eq_commit _ s).trans ((congrArg (commit s) heff).trans ht), hq, hans, hcount⟩
  · have refused : ∀ {st result} {u : State}, st ≠ .malformed → Unanswered s u → Quiet s u → applyDefine f r s = reply f .define st result u →
        ∃ t, exec (.define f []) s = .next t ∧ Quiet s t ∧ Answered s t f .define st 0 result ∧ ∀ d, flagSet d t = flagSet d u :=
      fun {st result u} hst hu hq h => by
        obtain ⟨t, ht, hans, hcon⟩ := reply_concluded hu f .define hst result
        exact ⟨t, (exec_eq_commit _ s).trans ((congrArg (commit s) ((effect_define ha hf hb).trans h)).trans ht), hcon.quiet hq, hans,
          flagSet_concluded ht⟩
    have unchanged : ∀ {st result}, st ≠ .malformed → applyDefine f r s = reply f .define st result s →
        ∃ t, exec (.define f []) s = .next t ∧ Quiet s t ∧ Answered s t f .define st 0 result := fun hst h => by
      obtain ⟨t, ht, hq, hans, -⟩ := refused hst (Unanswered.refl s) (Quiet.refl s) h
      exact ⟨t, ht, hq, hans⟩
    have hcodes := applyDefine_of_codes (f := f) (s := s) hc he
    refine ⟨fun hlen => unchanged (by decide) (hcodes.trans (if_pos hlen)), fun hlen hlist => unchanged (by decide) ?_,
      fun hlen hlist hslot => unchanged (by decide) ?_, fun hlen hlist hslot => ?_⟩
    · rw [hcodes, hlen, hlist]
      rfl
    · rw [hcodes, hlen, hlist, hslot]
      rfl
    · have hchecked := applyDefine_of_checked (f := f) hc he hlen hlist hslot
      refine ⟨fun n l hk => unchanged (by decide) (hchecked.trans (defineChecked_of_found hs hk)), fun hk hfull => ?_,
        fun hk hempty hfull => unchanged (by decide) (hchecked.trans (defineChecked_of_full_table hs hk hempty hfull))⟩
      obtain ⟨t, ht, hq, hans, hflags⟩ := refused (st := .indexFull) (u := raise .indexFull s) (by decide) (.of_same (SameControl.refl s) rfl rfl) (Quiet.refl s)
        (hchecked.trans (defineChecked_of_full_bucket hs hk hfull))
      exact ⟨⟨t, ht, hq, hans⟩, t, ht, (hflags _).trans (flagSet_raise_self ..)⟩

/-! ### The record created (R42) -/

theorem raiseRefs_eq {ks : List Nat} (h : ks.Nodup) (s : State) : ∃ ns, raiseRefs ks s = { s with nodes := ns }
    ∧ ∀ k, Sparse.get absentNode ns k = { nodeAt s k with refs := if k ∈ ks then (nodeAt s k).refs + 1 else (nodeAt s k).refs } := by
  have heq : ∀ (ks : List Nat) (s : State), ∃ ns, raiseRefs ks s = { s with nodes := ns } := fun ks => by
    unfold raiseRefs
    induction ks with
    | nil => exact fun s => ⟨s.nodes, rfl⟩
    | cons k ks ih => exact fun s => ih _
  obtain ⟨ns, hns⟩ := heq ks s
  refine ⟨ns, hns, fun k => ?_⟩
  have hnode : nodeAt (raiseRefs ks s) k = _ := nodeAt_foldl_refs (fun c => c + 1) h k s
  rw [hns] at hnode
  exact hnode

/-- The index entry of a record that is created (R42 step 3). -/
def withEntry (n : Nat) (l : Live) (s : State) : State :=
  writeWord (.way (bucketOf l.key) l.way)
    { s with index := Sparse.set emptyWay s.index (8 * bucketOf l.key + l.way) (some { record := n, key := l.key }) }

/-- The live count after a creation, and TABLE_HIGH (R42 step 6). -/
def countCreated (s : State) : State :=
  if s.liveCount + 1 = s.settings.tableHigh then raise .tableHigh { s with liveCount := s.liveCount + 1 } else { s with liveCount := s.liveCount + 1 }

theorem createRecord_stages (n : Nat) (g : Generation) (l : Live) (s : State) : createRecord n g l s =
    countCreated (joinQueue n l.cls (raiseRefs (slotsNamed l.sources l.targets) (withEntry n l (writeFields n (identityFields ++ workFields)
      (setRecord n { generation := g, live := some l } { s with freeList := { s.freeList with head := s.freeList.head + 1 } }))))) := rfl

/-- All that the creation of a record does. -/
theorem createRecord_eq (n : Nat) (g : Generation) (l : Live) (s : State) : ∃ d ns ev,
    createRecord n g l s = { joinQueue n l.cls (setRecord n { generation := g, live := some l } s) with
        freeList := { s.freeList with head := s.freeList.head + 1 }, liveCount := s.liveCount + 1, dram := d, nodes := ns, events := ev
        index := Sparse.set emptyWay s.index (8 * bucketOf l.key + l.way) (some { record := n, key := l.key }) }
      ∧ (∀ k, Sparse.get absentNode ns k =
          { nodeAt s k with refs := if k ∈ slotsNamed l.sources l.targets then (nodeAt s k).refs + 1 else (nodeAt s k).refs })
      ∧ ev = if s.liveCount + 1 = s.settings.tableHigh then (raise .tableHigh s).events else s.events := by
  obtain ⟨d, hd⟩ := writeFields_eq n (identityFields ++ workFields)
    (setRecord n { generation := g, live := some l } { s with freeList := { s.freeList with head := s.freeList.head + 1 } })
  rw [createRecord_stages, hd]
  generalize hu : withEntry n l { setRecord n { generation := g, live := some l } { s with freeList := { s.freeList with head := s.freeList.head + 1 } }
    with dram := d } = u
  obtain ⟨ns, hns, hnode⟩ := raiseRefs_eq (slotsNamed_nodup l.sources l.targets) u
  rw [hns]
  refine ⟨u.dram, ns, _, ?_, fun k => ?_, rfl⟩
  all_goals subst hu
  on_goal 2 => exact hnode k
  by_cases hhigh : s.liveCount + 1 = s.settings.tableHigh
  · rw [if_pos hhigh]
    cases l.cls <;> exact if_pos hhigh
  · rw [if_neg hhigh]
    cases l.cls <;> exact if_neg hhigh

/-- What the creation of record `n` does (R42). -/
structure RecordCreated (n : Nat) (g : Generation) (l : Live) (s u : State) : Prop where
  record : recordAt u n = { generation := g, live := some l }
  others : OtherRecords s u n
  index : u.index = Sparse.set emptyWay s.index (8 * bucketOf l.key + l.way) (some { record := n, key := l.key })
  freeList : u.freeList = { s.freeList with head := s.freeList.head + 1 }
  liveCount : u.liveCount = s.liveCount + 1
  refs : RefsFollow s u [] (slotsNamed l.sources l.targets)
  joined : JoinedQueue s u n l.cls
  tableHigh : flagSet .tableHigh u = (flagSet .tableHigh s || decide (s.liveCount + 1 = s.settings.tableHigh))
  unanswered : Unanswered s u
  mode : u.mode = s.mode
  lanes : u.lanes = s.lanes
  fetch : u.fetch = s.fetch
  notice : u.noticeCounter = s.noticeCounter

theorem createRecord_created (n : Nat) (g : Generation) (l : Live) (s : State) : RecordCreated n g l s (createRecord n g l s) := by
  obtain ⟨d, ns, ev, hcreate, hnode, hev⟩ := createRecord_eq n g l s
  have hflag : flagSet .tableHigh { s with events := ev } = (flagSet .tableHigh s || decide (s.liveCount + 1 = s.settings.tableHigh)) := by
    by_cases hhigh : s.liveCount + 1 = s.settings.tableHigh
    · rw [if_pos hhigh] at hev
      rw [decide_eq_true hhigh, Bool.or_true, hev]
      exact flagSet_raise_self .tableHigh s
    · rw [if_neg hhigh] at hev
      rw [decide_eq_false hhigh, Bool.or_false, hev]
  have hrefs : ∀ k, (Sparse.get absentNode ns k).refs = if k ∈ slotsNamed l.sources l.targets ∧ k ∉ ([] : List Nat) then (nodeAt s k).refs + 1
      else if k ∈ ([] : List Nat) ∧ k ∉ slotsNamed l.sources l.targets then (nodeAt s k).refs - 1 else (nodeAt s k).refs := fun k => by
    rw [hnode]
    simp
  rw [hcreate]
  cases hc : l.cls with
  | foreground =>
    exact ⟨recordAt_setRecord_same s n _, fun _ hm => recordAt_setRecord_other s hm _, rfl, rfl, rfl, hrefs, by rw [hc]; exact ⟨rfl, rfl, rfl⟩, hflag,
      .of_same (SameControl.refl s) rfl rfl, rfl, rfl, rfl, rfl⟩
  | background =>
    exact ⟨recordAt_setRecord_same s n _, fun _ hm => recordAt_setRecord_other s hm _, rfl, rfl, rfl, hrefs, by rw [hc]; exact ⟨rfl, rfl, rfl⟩, hflag,
      .of_same (SameControl.refl s) rfl rfl, rfl, rfl, rfl, rfl⟩

/-- Settles O12: the creation, with the watch set after it. -/
theorem defineCreatesTheRecord : Obligations.DefineCreatesTheRecord :=
  fun f r c e w s ha hs hf hb hc he hlen hlist hslot hk hw hway hlow hroom => by
  have heff := (effect_define ha hf hb).trans
    ((applyDefine_of_checked hc he hlen hlist hslot).trans (defineChecked_of_room (e := e) hs hk hw hway hlow hroom))
  have hu := createRecord_created (headNumber s) (generationAt s (headNumber s)) (newLive r c f.src w s.queueSeq) s
  generalize createRecord (headNumber s) (generationAt s (headNumber s)) (newLive r c f.src w s.queueSeq) s = u at hu heff
  have hlive : liveAt u (headNumber s) = some (newLive r c f.src w s.queueSeq) := congrArg Record.live hu.record
  have hgen : generationAt u (headNumber s) = generationAt s (headNumber s) := by rw [generationAt, hu.record]
  obtain ⟨d, hwatch⟩ := setWatch_eq hlive (watchFor r.watcher f.src e)
  rw [hwatch] at heff
  have hone := setLive_with_onlyRecord (headNumber s) { newLive r c f.src w s.queueSeq with watch := watchFor r.watcher f.src e } d u.fgQueue u.bgQueue u
  obtain ⟨t, ht, hans, hcon⟩ := reply_concluded (hu.unanswered.trans hone.toUnanswered) f .define (st := .ok) (by decide)
    (nameBytes (headNumber s) (generationAt s (headNumber s)))
  have hflag := flagSet_concluded ht .tableHigh
  refine ⟨t, (exec_eq_commit _ s).trans ((congrArg (commit s) heff).trans ht), ?_⟩
  obtain ⟨⟨ctr, out, ev, rfl⟩, -⟩ := hcon
  refine ⟨?_, fun m hm => (hone.others m hm).trans (hu.others m hm), ?_, fun x hx => ?_, hu.freeList, hu.liveCount, hu.refs, hu.joined,
    hflag.trans hu.tableHigh, hans, hu.unanswered.control.trans hone.control, hu.mode, hu.lanes, hu.fetch, hu.notice⟩
  · refine (recordAt_setRecord_same u (headNumber s) _).trans ?_
    rw [hgen]
    rfl
  · change Sparse.get emptyWay u.index _ = _
    rw [hu.index]
    exact Sparse.get_set_same s.index _ _
  · change Sparse.get emptyWay u.index x = _
    rw [hu.index]
    exact Sparse.get_set_other s.index hx _

end Sys2Proof.Machine

/-! SUPPORT. HOLD, RESUME, CANCEL and RETIRE (R52 to R55): what each does to the record and to what held it. -/

namespace Sys2Proof.Machine

/-! ### HOLD (R22, R52) -/

theorem enterHeld_onlyRecord {n : Nat} {l : Live} {s : State} (hl : liveAt s n = some l) (c : HoldCause) : OnlyRecord n s (enterHeld n c s) := by
  have hsteady := enterHeld_steady n c s
  refine ⟨(enterHeld_held n c s).unanswered, ⟨hsteady.freeList, hsteady.liveCount, hsteady.index⟩, fun m hm => ?_, hsteady.generation n⟩
  exact congrArg₂ Record.mk (hsteady.generation m) ((liveAt_enterHeld hl m).trans (if_neg hm))

/-- The queues after an entry into HELD are those that the record's leaving left. -/
theorem enterHeld_queues {n : Nat} {l : Live} {s : State} (hl : liveAt s n = some l) (c : HoldCause) : SameQueues (leaveHolder n l s) (enterHeld n c s) := by
  obtain ⟨d, nc, ctr, out, heq, -⟩ := enterHeld_eq hl c
  rw [heq]
  exact ⟨rfl, rfl, rfl⟩

theorem enterHeld_nodeAt {n : Nat} {l : Live} {s : State} (hl : liveAt s n = some l) (c : HoldCause) (k : Nat) :
    nodeAt (enterHeld n c s) k = nodeAt (leaveHolder n l s) k := by
  obtain ⟨d, nc, ctr, out, heq, -⟩ := enterHeld_eq hl c
  rw [heq]
  rfl

theorem leaveHolder_of_waiting {n : Nat} {l : Live} (h : l.state = .waiting) (s : State) :
    leaveHolder n l s = { s with fgQueue := s.fgQueue.erase n, bgQueue := s.bgQueue.erase n } := by
  rw [leaveHolder, h]

/-- What has become of what held record `n`, once its room is handed on: its queue, its stall list, or its lane (R18, R128). -/
structure HolderLeft (n : Nat) (l : Live) (s t : State) : Prop where
  waiting : l.state = .waiting → t.fgQueue = s.fgQueue.erase n ∧ t.bgQueue = s.bgQueue.erase n
  resting : l.state ≠ .waiting → t.fgQueue = s.fgQueue ∧ t.bgQueue = s.bgQueue
  stalled : ∀ k, l.state = .stalled k → (nodeAt t k).stallList = (nodeAt s k).stallList.erase n
  active : ∀ i, l.state = .active → laneHolding s n = some i → LaneDropped s t i
  queueSeq : t.queueSeq = s.queueSeq

theorem leaveHolder_queueSeq (n : Nat) (l : Live) (s : State) : (leaveHolder n l s).queueSeq = s.queueSeq := by
  by_cases h : l.state = .waiting
  · rw [leaveHolder_of_waiting h]
  · exact (leaveHolder_queues h s).1

/-- A change after a record's leaving that touches neither queues nor lane work nor stall lists, and the room then handed on. -/
theorem holderLeft_settle {n : Nat} {l : Live} {s v : State} (hq : SameQueues (leaveHolder n l s) v) (hw : SameLaneWork (leaveHolder n l s) v)
    (hstalls : ∀ k, (nodeAt v k).stallList = (nodeAt (leaveHolder n l s) k).stallList) : HolderLeft n l s (settle v) := by
  obtain ⟨hseq, hfg, hbg⟩ := hq.trans (settle_handed v).queues
  refine ⟨fun h => ?_, fun h => ?_, fun k h => ?_, fun i ha hi => ?_, hseq.trans (leaveHolder_queueSeq n l s)⟩
  · rw [hfg, hbg, leaveHolder_of_waiting h]
    exact ⟨rfl, rfl⟩
  · obtain ⟨-, hfg', hbg'⟩ := leaveHolder_queues (n := n) h s
    exact ⟨hfg.trans hfg', hbg.trans hbg'⟩
  · rw [settle_stallList, hstalls, leaveHolder_stallList h]
  · obtain ⟨j, hj, -⟩ := laneHolding_some hi
    rw [leaveHolder_active ha hi] at hw
    have hdrop : LaneDropped s v i := (abandonLane_dropped hj).of_sameLaneWork ⟨rfl, rfl, rfl, fun _ => rfl⟩ hw
    refine hdrop.settle fun e he => ?_
    rw [hw.waitList] at he
    exact (abandonLane_abandoned i s).waits e he

theorem Concluded.holderLeft {n : Nat} {l : Live} {s u t : State} (h : Concluded u t) (hl : HolderLeft n l s u) : HolderLeft n l s t := by
  obtain ⟨⟨_, _, _, rfl⟩, -⟩ := h
  exact ⟨hl.waiting, hl.resting, hl.stalled, hl.active, hl.queueSeq⟩

theorem effect_hold {f : Frame} {r : RecordName} {l : Live} {s : State} (h : Reaches s f r l) (hf : FromHolder s f) (hb : parseName f.body = some r) :
    effect (.hold f []) s = applyHold f r.number l s :=
  h.onNamed hf hb .hold id rfl fun r => applyHold f r.number

theorem applyHold_of_working {f : Frame} {n : Nat} {l : Live} {s : State} (h : l.state = .waiting ∨ l.state = .active ∨ ∃ k, l.state = .stalled k) :
    applyHold f n l s = applied f .hold n (enterHeld n .operator s) := by
  rcases h with h | h | ⟨k, h⟩ <;> simp only [applyHold, h]

theorem effect_resume {f : Frame} {r : RecordName} {l : Live} {s : State} (h : Reaches s f r l) (hf : FromHolder s f) (hb : parseName f.body = some r) :
    effect (.resume f []) s = applyResume f r.number l s :=
  h.onNamed hf hb .resume id rfl fun r => applyResume f r.number

theorem applyResume_of_held {f : Frame} {n : Nat} {l : Live} {cause : HoldCause} {s : State} (hs : s.dram = []) (hl : liveAt s n = some l)
    (h : l.state = .held cause) (hc : cause ≠ .memory) (hlost : ∀ t ∈ l.targets, t.status ≠ .lost) :
    applyResume f n l s = reply f .resume .ok (stateReport (enterWaiting n s) n) (enterWaiting n s) := by
  have hany : l.targets.any (fun t => t.status == .lost) = false := by
    rw [List.any_eq_false]
    exact fun t ht => mt beq_iff_eq.mp (hlost t ht)
  cases cause with
  | memory => exact absurd rfl hc
  | _ => simp only [applyResume, h, readWork_of_sound hs hl, hany, Bool.not_true, Bool.false_eq_true, if_false]

/-- Settles O18: HOLD and RESUME, with what held the record. -/
theorem holdAndResumeMoveTheRecord : Obligations.HoldAndResumeMoveTheRecord := fun f r l s h hf hb => by
  refine ⟨fun hwork => ?_, fun cause hc hm hlost => ?_⟩
  · have heff := (effect_hold h hf hb).trans (applyHold_of_working (f := f) hwork)
    have hlive : liveAt (enterHeld r.number .operator s) r.number = some { l with state := .held .operator } :=
      (liveAt_enterHeld h.live r.number).trans (if_pos rfl)
    have hleft := holderLeft_settle (enterHeld_queues h.live .operator) (enterHeld_laneWork h.live .operator)
      fun k => congrArg Node.stallList (enterHeld_nodeAt h.live .operator k)
    obtain ⟨t, ht, hans, ⟨hothers, hgen, hcoll, hcontrol⟩, hcon⟩ := applied_concluded (enterHeld_onlyRecord h.live .operator) hlive f .hold
    have hflag : flagSet .recordHeld t = true := (flagSet_concluded ht _).trans
      ((settle_handed _).flags _ (enterHeld_flag h.live .operator))
    have hfinal := hcon.holderLeft hleft
    obtain ⟨⟨ctr, out, ev, rfl⟩, -⟩ := hcon
    refine ⟨_, (exec_eq_commit _ s).trans ((congrArg (commit s) heff).trans ht), (settle_liveAt ..).trans hlive, hflag, hfinal.waiting, hfinal.resting,
      hfinal.stalled, hfinal.active, fun k => ?_, hans, hothers, hgen, hcoll, hfinal.queueSeq, hcontrol⟩
    refine (settle_refs ..).trans ?_
    rw [enterHeld_nodeAt h.live, leaveHolder_refs]
  · have hne : l.state ≠ .waiting := by rw [hc]; exact RecState.noConfusion
    have hna : l.state ≠ .active := by rw [hc]; exact RecState.noConfusion
    have heff := (effect_resume h hf hb).trans (applyResume_of_held (f := f) h.sound h.live hc hm hlost)
    obtain ⟨hlive, hjoined⟩ := enterWaiting_requeued h.live hne
    have hone := enterWaiting_onlyRecord h.live
    have hsteady := enterWaiting_steady r.number s
    obtain ⟨hwork, hnodes⟩ := enterWaiting_work h.live
    have hleave : leaveHolder r.number l s = s := by rw [leaveHolder, hc]
    rw [hleave] at hwork hnodes
    obtain ⟨t, ht, hans, hcon⟩ := reply_concluded hone.toUnanswered f .resume (st := .ok) (by decide) (stateReport (enterWaiting r.number s) r.number)
    rw [stateReport, hlive] at hans
    obtain ⟨⟨ctr, out, ev, rfl⟩, -⟩ := hcon
    exact ⟨_, (exec_eq_commit _ s).trans ((congrArg (commit s) heff).trans ht), ⟨hlive, hjoined⟩, hans, hone.others, hone.generation, hone.collections,
      hone.control, hsteady.mode, hwork.lanes, hnodes, hwork.fetch, hwork.waitList⟩

/-! ### Entry into FREE (R24) -/

theorem lowerRefs_eq {ks : List Nat} (h : ks.Nodup) (s : State) : ∃ ns, lowerRefs ks s = { s with nodes := ns }
    ∧ ∀ k, Sparse.get absentNode ns k = { nodeAt s k with refs := if k ∈ ks then (nodeAt s k).refs - 1 else (nodeAt s k).refs } := by
  have heq : ∀ (ks : List Nat) (s : State), ∃ ns, lowerRefs ks s = { s with nodes := ns } := fun ks => by
    unfold lowerRefs
    induction ks with
    | nil => exact fun s => ⟨s.nodes, rfl⟩
    | cons k ks ih => exact fun s => ih _
  obtain ⟨ns, hns⟩ := heq ks s
  refine ⟨ns, hns, fun k => ?_⟩
  have hnode : nodeAt (lowerRefs ks s) k = _ := nodeAt_foldl_refs (fun c => c - 1) h k s
  rw [hns] at hnode
  exact hnode

/-- A freed record's number joins the tail of the free list: the ring, the tail, the live count and a word's health change. -/
theorem appendFree_eq (n : Nat) (s : State) : ∃ d, appendFree n s =
    { s with freeList := { s.freeList with ring := Sparse.set resetRingEntry s.freeList.ring s.freeList.tail.toNat n, tail := s.freeList.tail + 1 }
             liveCount := s.liveCount - 1, dram := d } := ⟨_, rfl⟩

theorem clearIndexEntry_eq (l : Live) (s : State) : ∃ d, clearIndexEntry l s =
    { s with index := Sparse.set emptyWay s.index (8 * bucketOf l.key + l.way) none, dram := d } := ⟨_, rfl⟩

/-- All that an entry into FREE does once the record has left what held it. -/
theorem enterFree_eq {n : Nat} {l : Live} {s : State} (hl : liveAt s n = some l) : ∃ d nc ctr out ns fl lc ix,
    enterFree n s = { setRecord n { generation := generationAt s n + 1, live := none } (leaveHolder n l s) with
        dram := d, noticeCounter := nc, counters := ctr, outputs := (leaveHolder n l s).outputs ++ out, nodes := ns, freeList := fl, liveCount := lc, index := ix }
      ∧ (∀ c, c ≠ .noticeDropped → counterValue c (enterFree n s) = counterValue c (leaveHolder n l s))
      ∧ ∀ k, Sparse.get absentNode ns k = { nodeAt (leaveHolder n l s) k with
          refs := if k ∈ slotsNamed l.sources l.targets then (nodeAt (leaveHolder n l s) k).refs - 1 else (nodeAt (leaveHolder n l s) k).refs } := by
  obtain ⟨nc, ctr, out, hnotify, hcount⟩ := notify_eq n (generationAt s n) l.watch (stateCode (some l.state)) none (leaveHolder n l s)
  unfold enterFree
  simp only [hl]
  rw [hnotify] at hcount ⊢
  obtain ⟨d, hclear⟩ := clearIndexEntry_eq l { leaveHolder n l s with noticeCounter := nc, counters := ctr, outputs := (leaveHolder n l s).outputs ++ out }
  rw [hclear]
  obtain ⟨ns, hns, hnode⟩ := lowerRefs_eq (slotsNamed_nodup l.sources l.targets)
    { leaveHolder n l s with noticeCounter := nc, counters := ctr, outputs := (leaveHolder n l s).outputs ++ out,
                             index := Sparse.set emptyWay (leaveHolder n l s).index (8 * bucketOf l.key + l.way) none, dram := d }
  rw [hns]
  obtain ⟨d', hd'⟩ := writeFields_eq n (identityFields ++ workFields) (setRecord n { generation := generationAt s n + 1, live := none }
    { leaveHolder n l s with noticeCounter := nc, counters := ctr, outputs := (leaveHolder n l s).outputs ++ out, nodes := ns,
                             index := Sparse.set emptyWay (leaveHolder n l s).index (8 * bucketOf l.key + l.way) none, dram := d })
  rw [hd']
  obtain ⟨d'', happend⟩ := appendFree_eq n { setRecord n { generation := generationAt s n + 1, live := none }
    { leaveHolder n l s with noticeCounter := nc, counters := ctr, outputs := (leaveHolder n l s).outputs ++ out, nodes := ns,
                             index := Sparse.set emptyWay (leaveHolder n l s).index (8 * bucketOf l.key + l.way) none, dram := d } with dram := d' }
  rw [happend]
  exact ⟨_, _, _, _, _, _, _, _, rfl, hcount, hnode⟩

/-- Record `n`, which held `l`, has been freed: R24, with what held it. -/
structure RecordFreed (n : Nat) (l : Live) (s t : State) : Prop where
  record : recordAt t n = { generation := generationAt s n + 1, live := none }
  others : OtherRecords s t n
  freeList : t.freeList = { s.freeList with ring := Sparse.set resetRingEntry s.freeList.ring s.freeList.tail.toNat n, tail := s.freeList.tail + 1 }
  liveCount : t.liveCount = s.liveCount - 1
  index : t.index = Sparse.set emptyWay s.index (8 * bucketOf l.key + l.way) none
  refs : RefsFollow s t (slotsNamed l.sources l.targets) []
  left : HolderLeft n l s t
  control : SameControl s t

theorem enterFree_unanswered {n : Nat} {l : Live} {s : State} (hl : liveAt s n = some l) : Unanswered s (enterFree n s) := by
  obtain ⟨d, nc, ctr, out, ns, fl, lc, ix, heq, hcount, -⟩ := enterFree_eq hl
  have hleave := leaveHolder_unanswered n l s
  obtain ⟨out', hout⟩ := hleave.sent
  refine ⟨(enterFree_movement n s).control, ⟨out' ++ out, ?_⟩, (hcount _ (by decide)).trans hleave.dropped⟩
  rw [heq, ← List.append_assoc, ← hout]

theorem enterFree_freed {n : Nat} {l : Live} {s : State} (hl : liveAt s n = some l) : RecordFreed n l s (settle (enterFree n s)) := by
  obtain ⟨hfree, hcount, hindex, -⟩ := enterFree_collections hl
  have hcontrol := (enterFree_movement n s).control
  obtain ⟨d, nc, ctr, out, ns, fl, lc, ix, heq, -, hnode⟩ := enterFree_eq hl
  have hroom := settle_handed (enterFree n s)
  obtain ⟨hrecords, hfree', hcount', hindex', -, -⟩ := hroom.table
  have hrecord : ∀ m, recordAt (settle (enterFree n s)) m = if m = n then { generation := generationAt s n + 1, live := none } else recordAt s m := fun m => by
    rw [recordAt, hrecords, heq]
    change recordAt (setRecord n { generation := generationAt s n + 1, live := none } (leaveHolder n l s)) m = _
    by_cases hm : m = n
    · rw [hm, recordAt_setRecord_same, if_pos rfl]
    · rw [recordAt_setRecord_other _ hm, if_neg hm, recordAt, recordAt, leaveHolder_records]
  have hnodes : ∀ k, nodeAt (enterFree n s) k = Sparse.get absentNode ns k := fun k => by
    rw [heq]
    rfl
  have hleft : HolderLeft n l s (settle (enterFree n s)) := by
    refine holderLeft_settle ?_ ⟨?_, ?_, ?_, fun k => ?_⟩ fun k => ?_
    · rw [heq]
      exact ⟨rfl, rfl, rfl⟩
    · rw [heq]
      rfl
    · rw [heq]
      rfl
    · rw [heq]
      rfl
    · rw [hnodes, hnode]
    · rw [hnodes, hnode]
  refine ⟨(hrecord n).trans (if_pos rfl), fun m hm => (hrecord m).trans (if_neg hm), hfree'.trans hfree, hcount'.trans hcount, hindex'.trans hindex,
    fun k => ?_, hleft, hcontrol.trans hroom.control⟩
  rw [settle_refs, hnodes, hnode]
  simp only [List.not_mem_nil, false_and, if_false, not_false_iff, and_true, leaveHolder_refs]

theorem Concluded.freed {n : Nat} {l : Live} {s u t : State} (h : Concluded u t) (hf : RecordFreed n l s u) : RecordFreed n l s t := by
  have hleft := h.holderLeft hf.left
  obtain ⟨⟨_, _, _, rfl⟩, -⟩ := h
  exact ⟨hf.record, hf.others, hf.freeList, hf.liveCount, hf.index, hf.refs, hleft, hf.control⟩

theorem effect_cancel {f : Frame} {r : RecordName} {l : Live} {s : State} (h : Reaches s f r l) (hf : FromHolder s f) (hb : parseName f.body = some r) :
    effect (.cancel f []) s = finish f .cancel .ok (cancelResult r.number r.generation (cancelledTargets l)) (enterFree r.number s) := by
  have hgen : generationAt s r.number = r.generation := h.2.2.2.2
  refine (h.onNamed hf hb .cancel id rfl fun r _ => applyCancel f r.number).trans ?_
  rw [applyCancel, readWork_of_sound h.sound h.live]
  simp only [h.live, hgen]

theorem effect_retire {f : Frame} {r : RecordName} {l : Live} {s : State} (h : Reaches s f r l) (hf : FromHolder s f) (hb : parseName f.body = some r)
    (hp : l.state = .placed) :
    effect (.retire f []) s = finish f .retire .ok (nameBytes r.number r.generation) (enterFree r.number s) := by
  have hgen : generationAt s r.number = r.generation := h.2.2.2.2
  refine (h.onNamed hf hb .retire id rfl fun r => applyRetire f r.number).trans ?_
  rw [applyRetire, if_pos hp, hgen]

theorem cancelledTargets_eq (l : Live) : cancelledTargets l = if l.state = .held .memory then [] else l.targets := by
  unfold cancelledTargets
  rw [memoryHeld_eq]
  simp only [decide_eq_true_eq]

theorem cancelResult_eq (n : Nat) (g : Generation) (ts : List Target) : cancelResult n g ts =
    be 2 n ++ be 2 g.toNat ++ [BitVec.ofNat 8 ts.length, 0, 0, 0] ++ (ts.map (fun x => be 2 x.placed ++ [statusCode x.status, 0])).flatten := by
  have hentry : ∀ x : Target, be 2 x.placed ++ [statusCode x.status] ++ reserved 1 = be 2 x.placed ++ [statusCode x.status, 0] := fun x =>
    List.append_assoc ..
  simp only [cancelResult, nameBytes, hentry, List.append_assoc]
  rfl

/-- Settles O20: CANCEL and RETIRE are one freeing with two results. -/
theorem cancelAndRetireFreeTheRecord : Obligations.CancelAndRetireFreeTheRecord := fun f r l s h hf hb => by
  have hgen : generationAt s r.number = r.generation := h.2.2.2.2
  intro freed ts
  have finished : ∀ {c : Instr} {k : Kind} {result : List Byte}, effect c s = finish f k .ok result (enterFree r.number s) →
      ∃ t, exec c s = .next t ∧ freed t ∧ Answered s t f k .ok 0 result := fun {c k result} heff => by
    obtain ⟨t, ht, hans, hcon, -⟩ := finish_concluded (enterFree_unanswered h.live) f k (st := .ok) (by decide) result
    have hfreed := hcon.freed (enterFree_freed h.live)
    refine ⟨t, (exec_eq_commit c s).trans ((congrArg (commit s) heff).trans ht), ?_, hans⟩
    refine ⟨hgen ▸ hfreed.record, hfreed.others, ?_, fun x hx => ?_, ?_, fun p hp => ?_, ?_, ?_, hfreed.liveCount, hfreed.refs, hfreed.left.queueSeq,
      hfreed.left.waiting, hfreed.left.resting, hfreed.left.stalled, hfreed.left.active, hfreed.control⟩
    · rw [wayAt, hfreed.index]
      exact Sparse.get_set_same ..
    · rw [hfreed.index]
      exact Sparse.get_set_other _ hx _
    · rw [hfreed.freeList]
      exact Sparse.get_set_same ..
    · rw [hfreed.freeList]
      exact Sparse.get_set_other _ hp _
    · rw [hfreed.freeList]
    · rw [hfreed.freeList]
  refine ⟨finished ((effect_cancel h hf hb).trans ?_), fun hp => finished (effect_retire h hf hb hp)⟩
  rw [cancelResult_eq, cancelledTargets_eq]

end Sys2Proof.Machine

/-! SUPPORT. ROSTER_SET (R69, R70): the checks in their order, and the slot that is set. -/

namespace Sys2Proof.Machine

theorem slotReport_eq (s : State) (k : Nat) : slotReport s k =
    [nodeStateCode (nodeAt s k).state, BitVec.ofNat 8 (nodeAt s k).rack, prefCode (nodeAt s k).pref, BitVec.ofNat 8 (nodeAt s k).limit]
      ++ be 6 (nodeAt s k).addr.toNat ++ [0, 0] ++ [BitVec.ofNat 8 (nodeAt s k).outstanding, BitVec.ofNat 8 (nodeAt s k).consecutive, 0, 0]
      ++ be 4 (nodeAt s k).refs ++ be 4 (nodeAt s k).stallList.length := by
  have htwo : reserved 2 = [0, 0] := rfl
  simp only [slotReport, htwo, List.append_assoc, List.cons_append, List.nil_append]

theorem inUseReport_eq (s : State) (k other : Nat) :
    inUseReport s k other = be 4 (nodeAt s k).refs ++ [BitVec.ofNat 8 (nodeAt s k).outstanding, 0] ++ be 2 other := by
  rw [inUseReport, List.append_assoc (be 4 _)]
  rfl

/-- The values that R69 refuses. -/
theorem badRosterValues_iff {r : RosterReq} : badRosterValues r = true ↔
    r.limit = 0 ∨ 16 < r.limit ∨ 63 < r.rack ∨ prefOfCode r.pref = none ∨ r.addr = 0 ∨ r.addr.getLsbD 40 = true := by
  simp only [badRosterValues, Bool.or_eq_true, beq_iff_eq, decide_eq_true_eq, Option.isNone_iff_eq_none, or_assoc]

theorem prefOfCode_of_good {r : RosterReq} (h : badRosterValues r = false) : prefOfCode r.pref ≠ none := fun hno =>
  absurd (badRosterValues_iff.mpr (.inr (.inr (.inr (.inl hno))))) (by rw [h]; exact Bool.false_ne_true)

theorem effect_rosterSet {f : Frame} {r : RosterReq} {s : State} (ha : Arrives s f) (hf : FromHolder s f) (hb : parseRosterSet f.body = some r) :
    effect (.rosterSet f) s = applyRosterSet f r s :=
  request_of_readable (needs := true) ha hb (fun _ => hf) .rosterSet (applyRosterSet f)

/-- A ROSTER_SET whose slot and values pass meets checks 4 and 5 of R69. -/
theorem applyRosterSet_of_good {f : Frame} {r : RosterReq} {s : State} (hk : r.slot ≤ 1023) (hv : badRosterValues r = false) : applyRosterSet f r s =
    match addressHolder s r.slot r.addr with
    | some k => reply f .rosterSet .inUse (inUseReport s r.slot k) s
    | none =>
      if moveRefused (nodeAt s r.slot) r then reply f .rosterSet .inUse (inUseReport s r.slot 0xFFFF) s
      else match prefOfCode r.pref with
        | some p => rosterSetOk f r p s
        | none => reply f .rosterSet .malformed [] s :=
  (if_neg (nodeSlots_not_le hk)).trans (if_neg (by rw [hv]; exact Bool.false_ne_true))

/-- The slot is set and the OK carries its report (R70), where the raised limit is given to no store. -/
theorem rosterSetOk_concluded (f : Frame) (r : RosterReq) (p : Preference) {s : State} (hn : NothingWaits s) :
    ∃ t, commit s (rosterSetOk f r p s) = .next t ∧ nodeAt t r.slot = nodeAfterSet (nodeAt s r.slot) r p ∧ (∀ k, k ≠ r.slot → nodeAt t k = nodeAt s k)
      ∧ Answered s t f .rosterSet .ok 0 (slotReport t r.slot)
      ∧ SameTable s t ∧ SameControl s t ∧ t.mode = s.mode ∧ t.lanes = s.lanes ∧ t.fetch = s.fetch ∧ SameQueues s t := by
  obtain ⟨hwait, hmode⟩ := hn
  have hsettle : settle (setNode r.slot (nodeAfterSet (nodeAt s r.slot) r p) s) = setNode r.slot (nodeAfterSet (nodeAt s r.slot) r p) s :=
    settle_of_nothing hwait hmode
  rw [rosterSetOk, hsettle]
  obtain ⟨t, ht, hans, ⟨ctr, out, ev, rfl⟩, -⟩ := reply_concluded (setNode_unanswered r.slot (nodeAfterSet (nodeAt s r.slot) r p) s) f .rosterSet
    (by decide : Status.ok ≠ .malformed) (slotReport (setNode r.slot (nodeAfterSet (nodeAt s r.slot) r p) s) r.slot)
  exact ⟨_, ht, nodeAt_setNode_same s r.slot _, fun x hx => nodeAt_setNode_other s hx _, hans, SameTable.refl s, SameControl.refl s, rfl, rfl, rfl,
    SameQueues.refl s⟩

/-- Settles O27: the reports, and the checks of R69 in order. -/
theorem rosterSetSetsTheSlot : Obligations.RosterSetSetsTheSlot := by
  refine ⟨fun s k other => ⟨slotReport_eq s k, inUseReport_eq s k other⟩, fun f r s ha hf hb => ?_⟩
  have heff := effect_rosterSet ha hf hb
  have refused : ∀ {st result}, st ≠ .malformed → applyRosterSet f r s = reply f .rosterSet st result s →
      ∃ t, exec (.rosterSet f) s = .next t ∧ Quiet s t ∧ Answered s t f .rosterSet st 0 result := fun {st result} hst h => by
    obtain ⟨t, ht, hq, hans⟩ := refused_concluded f .rosterSet hst result s
    exact ⟨t, (exec_eq_commit _ s).trans ((congrArg (commit s) (heff.trans h)).trans ht), hq, hans⟩
  refine ⟨fun hk => refused (by decide) (if_pos hk), fun hk hbad => ?_, fun hk hgood => ?_⟩
  · have happly : applyRosterSet f r s = reply f .rosterSet .malformed [] s :=
      (if_neg (nodeSlots_not_le hk)).trans (if_pos (badRosterValues_iff.mpr hbad))
    obtain ⟨t, ht, hq, hans, -⟩ := malformed_reported f .rosterSet [] s
    exact ⟨t, (exec_eq_commit _ s).trans ((congrArg (commit s) (heff.trans happly)).trans ht), hq, hans⟩
  · have happly := applyRosterSet_of_good (f := f) (s := s) hk hgood
    cases hholder : addressHolder s r.slot r.addr with
    | some k =>
      rw [hholder] at happly
      exact .inl ⟨k, rfl, refused (by decide) happly⟩
    | none =>
      rw [hholder] at happly
      cases hmove : moveRefused (nodeAt s r.slot) r with
      | true => exact .inr (.inl ⟨rfl, rfl, refused (by decide) (happly.trans (if_pos hmove))⟩)
      | false =>
        refine .inr (.inr ⟨rfl, rfl, fun p hp hn => ?_⟩)
        rw [hmove, hp] at happly
        obtain ⟨t, ht, hnode, hrest⟩ := rosterSetOk_concluded f r p hn
        refine ⟨t, (exec_eq_commit _ s).trans ((congrArg (commit s) (heff.trans happly)).trans ht), fun h => ?_, fun h => ?_, hrest⟩
        · rw [hnode, nodeAfterSet, if_pos h]
        · rw [hnode, nodeAfterSet, if_neg h]

end Sys2Proof.Machine

/-! SUPPORT. FETCH_ISSUE (R87, R91 to R95): which pending fetches are issuable, which of them the arbiter grants, and what a grant changes. -/

namespace Sys2Proof.Machine

/-! ### Reads by the part's units over sound memory (R31) -/

theorem readRecord_of_sound {n : Nat} {l : Live} {s : State} (h : s.dram = []) (hl : liveAt s n = some l) (work : List RecField) :
    readRecord n work s = (true, s) := by
  simp only [readRecord, readRecordFields, hl, readFields_of_sound h, ne_eq, not_true_eq_false, if_false, ite_self]

/-! ### Issuable pending fetches (R91, R95) -/

theorem hasRoom_iff {s : State} {k : Nat} :
    hasRoom s k = true ↔ (nodeAt s k).state = .serving ∧ (nodeAt s k).outstanding < (nodeAt s k).limit := by
  simp [hasRoom]

theorem budgetAllows_iff {s : State} {n : Nat} : budgetAllows s n = true ↔ BudgetAllows s n := by
  have hrefill : refillValue s.settings = 4096 * 16 ^ s.settings.granule * s.settings.multiplier := rfl
  simp only [budgetAllows, BudgetAllows, hrefill, Bool.or_eq_true, beq_iff_eq]
  split
  · rename_i hn
    simp [hn, Nat.not_lt.mpr hn]
  · rename_i hn
    simp [hn, Nat.lt_of_not_le hn]

theorem issuable_iff {s : State} {l : Live} {j : Job} {e : PendingFetch} {src : Source} (hsrc : l.sources[e.source]? = some src) :
    issuable s l j e = true ↔ (nodeAt s src.slot).state = .serving ∧ (nodeAt s src.slot).outstanding < (nodeAt s src.slot).limit
      ∧ BudgetAllows s j.segLength := by
  simp only [issuable, hsrc, Bool.and_eq_true, hasRoom_iff, budgetAllows_iff, and_assoc]

/-- An entry of a lane's list is issuable, as the arbiter tests it, exactly when it meets the conditions of R91. -/
theorem issuableAt_iff {s : State} {i : Fin 8} {j : Job} {l : Live} {e : PendingFetch} (hj : laneAt s i = some j)
    (hl : liveAt s j.record = some l) (he : e ∈ j.pendingFetches) (c : RecordClass) :
    IssuableAt s c i e ↔ j.cls = c ∧ issuable s l j e = true := by
  constructor
  · rintro ⟨j', l', src, hj', hc, -, hl', hsrc, hroom⟩
    obtain rfl : j = j' := Option.some.inj (hj.symm.trans hj')
    obtain rfl : l = l' := Option.some.inj (hl.symm.trans hl')
    exact ⟨hc, (issuable_iff hsrc).mpr hroom⟩
  · rintro ⟨hc, hi⟩
    cases hsrc : l.sources[e.source]? with
    | none =>
      simp only [issuable, hsrc] at hi
      cases hi
    | some src => exact ⟨j, l, src, hj, hc, he, hl, hsrc, (issuable_iff hsrc).mp hi⟩

theorem IssuableAt.firstIssuable {s : State} {c : RecordClass} {i : Fin 8} {e : PendingFetch} (h : IssuableAt s c i e) :
    ∃ j l, laneAt s i = some j ∧ liveAt s j.record = some l ∧ e ∈ j.pendingFetches ∧ issuable s l j e = true
      ∧ firstIssuable s c i = j.pendingFetches.find? (issuable s l j) := by
  obtain ⟨j, l, src, hj, hc, he, hl, hsrc, hroom⟩ := h
  refine ⟨j, l, hj, hl, he, (issuable_iff hsrc).mpr hroom, ?_⟩
  simp only [Machine.firstIssuable, hj, hl, hc, if_true]

theorem firstIssuable_issuableAt {s : State} {c : RecordClass} {i : Fin 8} {e : PendingFetch} (h : firstIssuable s c i = some e) :
    IssuableAt s c i e := by
  unfold firstIssuable at h
  split at h
  · cases h
  · rename_i j hj
    split at h
    · cases h
    · rename_i l hl
      split at h
      · rename_i hc
        exact (issuableAt_iff hj hl (List.mem_of_find?_eq_some h) c).mpr ⟨hc, List.find?_some h⟩
      · cases h

theorem firstIssuable_eq_none_iff {s : State} {c : RecordClass} {i : Fin 8} :
    firstIssuable s c i = none ↔ ∀ e, ¬ IssuableAt s c i e := by
  constructor
  · intro h e he
    obtain ⟨j, l, -, -, hmem, hi, hf⟩ := he.firstIssuable
    rw [hf, List.find?_eq_none] at h
    exact h e hmem hi
  · intro h
    cases hf : firstIssuable s c i with
    | none => rfl
    | some e => exact absurd (firstIssuable_issuableAt hf) (h e)

/-- The first entry of a lane's list that is issuable is the one that the lane gives (R92 step 3). -/
theorem firstIssuable_of_first {s : State} {c : RecordClass} {i : Fin 8} {e : PendingFetch} {pre post : List PendingFetch} {j : Job}
    (hj : laneAt s i = some j) (hsplit : j.pendingFetches = pre ++ e :: post) (he : IssuableAt s c i e)
    (hpre : ∀ x ∈ pre, ¬ IssuableAt s c i x) : firstIssuable s c i = some e := by
  obtain ⟨j', l, hj', hl, hmem, hi, hf⟩ := he.firstIssuable
  obtain rfl : j = j' := Option.some.inj (hj.symm.trans hj')
  have hc := ((issuableAt_iff hj hl hmem c).mp he).1
  have hnone : pre.find? (issuable s l j) = none := List.find?_eq_none.mpr (fun x hx hix =>
    hpre x hx ((issuableAt_iff hj hl (hsplit ▸ List.mem_append_left _ hx) c).mpr ⟨hc, hix⟩))
  rw [hf, hsplit, List.find?_append, hnone, List.find?_cons_of_pos hi]
  rfl

/-! ### The arbiter (R92) -/

theorem lanesAfter_eq (p : Fin 8) : lanesAfter p = laneNumbers.map (fun d => p + 1 + d) := by
  revert p
  decide

/-- A search of the lanes in lane-number order ends at the first that gives something. -/
theorem findSome_laneNumbers {β : Type} {f : Fin 8 → Option β} {b : β} :
    laneNumbers.findSome? f = some b ↔ ∃ d, f d = some b ∧ ∀ d', d' < d → f d' = none := by
  have hsorted : laneNumbers.Pairwise (· < ·) := laneNumbers_sorted
  rw [List.findSome?_eq_some_iff]
  constructor
  · rintro ⟨pre, d, post, hsplit, hd, hpre⟩
    refine ⟨d, hd, fun d' hlt => hpre d' ?_⟩
    rw [hsplit, List.pairwise_append, List.pairwise_cons] at hsorted
    have hmem : d' ∈ pre ++ d :: post := hsplit ▸ mem_laneNumbers d'
    obtain ⟨-, ⟨hpost, -⟩, -⟩ := hsorted
    rcases List.mem_append.mp hmem with h | h
    · exact h
    · rcases List.mem_cons.mp h with rfl | h
      · exact absurd hlt (lt_irrefl _)
      · exact absurd (hlt.trans (hpost d' h)) (lt_irrefl _)
  · rintro ⟨d, hd, hbefore⟩
    obtain ⟨pre, post, hsplit⟩ := List.append_of_mem (mem_laneNumbers d)
    refine ⟨pre, d, post, hsplit, hd, fun x hx => hbefore x ?_⟩
    rw [hsplit, List.pairwise_append] at hsorted
    obtain ⟨-, -, hcross⟩ := hsorted
    exact hcross x hx d List.mem_cons_self

theorem classWinner_eq_some_iff {s : State} {c : RecordClass} {i : Fin 8} {e : PendingFetch} :
    classWinner s c = some (i, e) ↔ firstIssuable s c i = some e
      ∧ ∃ d, i = pointerOf s c + 1 + d ∧ ∀ d', d' < d → ∀ x, ¬ IssuableAt s c (pointerOf s c + 1 + d') x := by
  have hw : classWinner s c = laneNumbers.findSome?
      (fun d => (firstIssuable s c (pointerOf s c + 1 + d)).map (fun x => (pointerOf s c + 1 + d, x))) := by
    cases c <;> (unfold classWinner; rw [lanesAfter_eq, List.findSome?_map]; rfl)
  rw [hw, findSome_laneNumbers]
  simp only [Option.map_eq_some_iff, Option.map_eq_none_iff, firstIssuable_eq_none_iff, Prod.mk.injEq]
  constructor
  · rintro ⟨d, ⟨x, hx, rfl, rfl⟩, hbefore⟩
    exact ⟨hx, d, rfl, hbefore⟩
  · rintro ⟨hx, d, rfl, hbefore⟩
    exact ⟨d, ⟨e, hx, rfl, rfl⟩, hbefore⟩

theorem classWinner_eq_none_iff {s : State} {c : RecordClass} : classWinner s c = none ↔ ∀ i e, ¬ IssuableAt s c i e := by
  have hmem : ∀ (p i : Fin 8), i ∈ lanesAfter p := by decide
  unfold classWinner
  simp only [List.findSome?_eq_none_iff, Option.map_eq_none_iff, firstIssuable_eq_none_iff]
  exact ⟨fun h i => h i (hmem _ i), fun h i _ => h i⟩

/-- The arbiter's grant is the winner's first issuable entry (R92). -/
theorem nextGrant_eq_some_iff {s : State} {c : RecordClass} {i : Fin 8} {e : PendingFetch} :
    nextGrant s = some (c, i, e) ↔ WinsGrant s c i ∧ firstIssuable s c i = some e := by
  have hwins : ∀ c', classWinner s c' = some (i, e) ↔ firstIssuable s c' i = some e ∧ (∃ e, IssuableAt s c' i e)
      ∧ ∃ d, i = pointerOf s c' + 1 + d ∧ ∀ d', d' < d → ∀ x, ¬ IssuableAt s c' (pointerOf s c' + 1 + d') x := fun c' => by
    rw [classWinner_eq_some_iff]
    exact ⟨fun ⟨h, hd⟩ => ⟨h, ⟨e, firstIssuable_issuableAt h⟩, hd⟩, fun ⟨h, _, hd⟩ => ⟨h, hd⟩⟩
  unfold nextGrant WinsGrant
  cases hf : classWinner s .foreground with
  | none =>
    have hnone := classWinner_eq_none_iff.mp hf
    cases c with
    | foreground =>
      refine ⟨fun h => ?_, fun ⟨⟨⟨x, hx⟩, _⟩, _⟩ => absurd hx (hnone i x)⟩
      obtain ⟨w, -, hw⟩ := Option.map_eq_some_iff.mp h
      cases hw
    | background =>
      have hmap : (classWinner s .background).map (fun w => (RecordClass.background, w)) = some (.background, i, e)
          ↔ classWinner s .background = some (i, e) := by simp
      simp only [hmap, hwins]
      exact ⟨fun ⟨h, hex, hd⟩ => ⟨⟨hex, hd, fun _ => hnone⟩, h⟩, fun ⟨⟨hex, hd, _⟩, h⟩ => ⟨h, hex, hd⟩⟩
  | some w =>
    cases c with
    | foreground =>
      have hsome : some (RecordClass.foreground, w) = some (RecordClass.foreground, i, e) ↔ classWinner s .foreground = some (i, e) := by
        simp [hf]
      simp only [hsome, hwins]
      exact ⟨fun ⟨h, hex, hd⟩ => ⟨⟨hex, hd, fun hc => nomatch hc⟩, h⟩, fun ⟨⟨hex, hd, _⟩, h⟩ => ⟨h, hex, hd⟩⟩
    | background =>
      refine ⟨fun h => ?_, fun ⟨⟨_, _, hno⟩, _⟩ => ?_⟩
      · cases h
      · rw [classWinner_eq_none_iff.mpr (hno rfl)] at hf
        cases hf

theorem nextGrant_eq_none_iff {s : State} : nextGrant s = none ↔ ∀ c i e, ¬ IssuableAt s c i e := by
  unfold nextGrant
  cases hf : classWinner s .foreground with
  | none =>
    rw [Option.map_eq_none_iff, classWinner_eq_none_iff]
    refine ⟨fun h c => ?_, fun h => h .background⟩
    cases c with
    | foreground => exact classWinner_eq_none_iff.mp hf
    | background => exact h
  | some w =>
    refine ⟨fun h => (nomatch h), fun h => ?_⟩
    rw [classWinner_eq_none_iff.mpr (h .foreground)] at hf
    cases hf

theorem freeSlotNumber_eq_some_iff {s : State} {k : Nat} :
    freeSlotNumber s = some k ↔ k < 96 ∧ (slotAt s k).use = none ∧ ∀ x, x < k → (slotAt s x).use ≠ none := by
  have hslots : Config.fetchSlots = 96 := rfl
  unfold freeSlotNumber
  rw [List.find?_range_eq_some, hslots]
  simp only [Option.isNone_iff_eq_none, List.mem_range, Bool.not_eq_true', ← Bool.not_eq_true]
  exact ⟨fun ⟨h, hk, hx⟩ => ⟨hk, h, hx⟩, fun ⟨hk, h, hx⟩ => ⟨h, hk, hx⟩⟩

theorem freeSlotNumber_eq_none_iff {s : State} : freeSlotNumber s = none ↔ ∀ k, k < 96 → (slotAt s k).use ≠ none := by
  have hslots : Config.fetchSlots = 96 := rfl
  unfold freeSlotNumber
  simp only [List.find?_eq_none, List.mem_range, hslots, Option.isNone_iff_eq_none, ne_eq]

/-- Settles O41, from the arbiter's two searches, of the slots and of the lanes. -/
theorem fetchIssueConditions : Obligations.FetchIssueConditions := by
  refine ⟨fun s l j e src hsrc => issuable_iff hsrc, fun s hnone => ?_, fun s k hk hfree hex => ?_, fun s w hw hbg => ?_⟩
  · have heff : effect (.fetchIssue []) s = s := by
      change issueFetch s = s
      unfold issueFetch
      rcases hnone with h | h
      · rw [freeSlotNumber_eq_none_iff.mpr h]
      · rw [nextGrant_eq_none_iff.mpr h]
        cases freeSlotNumber s <;> rfl
    obtain ⟨t, ht, hon, hout, -⟩ := exec_unchanged heff
    exact ⟨t, ht, hon.1, hout⟩
  · cases hx : freeSlotNumber s with
    | none => exact absurd hfree (freeSlotNumber_eq_none_iff.mp hx k hk)
    | some x =>
      obtain ⟨hlt, hxfree, hlow⟩ := freeSlotNumber_eq_some_iff.mp hx
      have hle : x ≤ k := Nat.le_of_not_lt (fun h => hlow k h hfree)
      cases hg : nextGrant s with
      | none =>
        obtain ⟨c, i, e, he⟩ := hex
        exact absurd he (nextGrant_eq_none_iff.mp hg c i e)
      | some w =>
        obtain ⟨c, i, e⟩ := w
        obtain ⟨hwins, hfirst⟩ := nextGrant_eq_some_iff.mp hg
        exact ⟨x, c, i, e, rfl, rfl, hle, hxfree, hlow, hwins, firstIssuable_issuableAt hfirst⟩
  · obtain ⟨c, i, e⟩ := w
    obtain ⟨⟨-, -, hno⟩, -⟩ := nextGrant_eq_some_iff.mp hw
    exact classWinner_eq_none_iff.mpr (hno hbg)

/-! ### A grant (R93) -/

/-- The FETCH of a grant changes what was sent, and no more (R93 step 5). -/
theorem sendFetch_eq (k : Nat) (j : Job) (l : Live) (src : Source) (s : State) :
    ∃ out, sendFetch k j l src s = { s with outputs := s.outputs ++ out }
      ∧ ∀ p, nodePort s (nodeAt s src.slot).pref = some p →
        Output.frame { port := p, dst := (nodeAt s src.slot).addr, src := (portAt s p).addr, etherType := s.etherType, kind := 0x30
                       flags := 0, tag := 0, body := fetchBody l.key src.frag j k (slotAt s k).generation } ∈ out := by
  unfold sendFetch
  cases hp : nodePort s (nodeAt s src.slot).pref with
  | none => exact ⟨[], by rw [List.append_nil], fun p h => nomatch h⟩
  | some p =>
    refine ⟨_, rfl, fun p' hp' => ?_⟩
    obtain rfl : p = p' := Option.some.inj hp'
    exact List.mem_singleton.mpr rfl

/-- The state that the allocation of slot `k` gives (R93 steps 1 to 4). -/
def grantedState (s : State) (k : Nat) (c : RecordClass) (i : Fin 8) (e : PendingFetch) (j : Job) (node : Nat) : State :=
  { s with
    lanes := s.lanes.set i (some { j with pendingFetches := j.pendingFetches.filter (fun x => !(x == e)) })
    fetch := Sparse.set freeSlot s.fetch k { generation := (slotAt s k).generation + 1, use := some (newFetch s i j e node) }
    nodes := Sparse.set absentNode s.nodes node { nodeAt s node with outstanding := (nodeAt s node).outstanding + 1 }
    pacing := { s.pacing with
      budget := chargedBudget s j.segLength
      fgPtr := if c = .foreground then i else s.pacing.fgPtr
      bgPtr := if c = .background then i else s.pacing.bgPtr } }

theorem allocateFetch_eq (s : State) (k : Nat) (c : RecordClass) (i : Fin 8) (e : PendingFetch) (j : Job) (node : Nat) :
    allocateFetch k i j e node (setPointer c i s) = grantedState s k c i e j node := by
  cases c <;> rfl

/-- With sound memory a grant allocates its slot and sends its FETCH (R92 step 4, R93). -/
theorem grantFetch_of_sound {s : State} {k : Nat} {c : RecordClass} {i : Fin 8} {e : PendingFetch} {j : Job} {l : Live} {src : Source}
    (hd : s.dram = []) (hj : laneAt s i = some j) (hl : liveAt s j.record = some l) (hsrc : l.sources[e.source]? = some src) :
    grantFetch k c i e s = sendFetch k j l src (grantedState s k c i e j src.slot) := by
  have hread := readRecord_of_sound (s := grantedState s k c i e j src.slot) (n := j.record) (l := l) hd hl [.frags, .coefs]
  simp only [grantFetch, hj, hl, hsrc, allocateFetch_eq, hread, if_true]

/-- Settles O40: the arbiter finds the lowest free slot and the winner's first issuable entry, and the memory gives what the FETCH needs. -/
theorem fetchIssueGrants : Obligations.FetchIssueGrants := by
  intro k c i e pre post j l src s hd hk hfree hlow hwins hj hsplit he hpre hl hsrc refill
  have hslot : freeSlotNumber s = some k := freeSlotNumber_eq_some_iff.mpr ⟨hk, hfree, hlow⟩
  have hgrant : nextGrant s = some (c, i, e) := nextGrant_eq_some_iff.mpr ⟨hwins, firstIssuable_of_first hj hsplit he hpre⟩
  have hissue : effect (.fetchIssue []) s = issueFetch s := rfl
  obtain ⟨out, hsend, hframe⟩ := sendFetch_eq k j l src (grantedState s k c i e j src.slot)
  have heff : effect (.fetchIssue []) s = { grantedState s k c i e j src.slot with outputs := s.outputs ++ out } := by
    rw [hissue, issueFetch, hslot, hgrant]
    exact (grantFetch_of_sound hd hj hl hsrc).trans hsend
  obtain ⟨t, ht, hend⟩ := exec_ended_of heff
  have hsent : ∀ o ∈ out, o ∈ sentBetween s t := fun o ho => hend.sent ⟨out, rfl, ho⟩
  have hnode : nodeAt (grantedState s k c i e j src.slot) src.slot
      = { nodeAt s src.slot with outstanding := (nodeAt s src.slot).outstanding + 1 } := nodeAt_setNode_same ..
  have hslotNow : slotAt (grantedState s k c i e j src.slot) k
      = { generation := (slotAt s k).generation + 1, use := some (newFetch s i j e src.slot) } := slotAt_setSlot_same ..
  refine ⟨t, ht, ?_⟩
  obtain ⟨pu, pr, msgs, rfl⟩ := hend
  refine ⟨hslotNow, fun x hx => slotAt_setSlot_other _ hx _, hnode, fun x hx => nodeAt_setNode_other _ hx _, rfl, laneAt_setLane_same ..,
    fun x hx => laneAt_setLane_other s hx _, fun p hp => hsent _ ?_, ⟨rfl, rfl, rfl, rfl, rfl, rfl⟩, rfl, ⟨rfl, rfl, rfl⟩, rfl, rfl⟩
  rw [hnode, hslotNow] at hframe
  exact hframe p hp

end Sys2Proof.Machine

/-! SUPPORT. Store attempts (R135 to R139): what a lane's stores are after one of them is written, what a started attempt changes, and what the wait list's
turn does. With them STORE_CHUNK_SENT, SEND_COMPLETION and STORE_ATTEMPT_BEGIN. -/

namespace Sys2Proof.Machine

/-! ### One store of a lane written -/

/-- The job with the store record of target `q` replaced. -/
def withStore (j : Job) (q : Nat) (st : Store) : Job :=
  { j with phase := match j.phase with
      | .gather => .gather
      | .place ss => .place (replaceStore ss q st) }

theorem setStore_of_busy {i : Fin 8} {j : Job} {s : State} (hj : laneAt s i = some j) (q : Nat) (st : Store) :
    setStore i q st s = setLane i (some (withStore j q st)) s := by
  simp only [setStore, hj]
  rfl

theorem storesOf_withStore (j : Job) (q : Nat) (st : Store) : storesOf (withStore j q st) = replaceStore (storesOf j) q st := by
  unfold storesOf withStore
  cases j.phase <;> rfl

theorem find_replaceStore_same {ss : List Store} {q : Nat} {st x : Store} (h : ss.find? (fun y => y.target == q) = some x) (ht : st.target = q) :
    (replaceStore ss q st).find? (fun y => y.target == q) = some st := by
  induction ss with
  | nil => cases h
  | cons y ys ih =>
    simp only [replaceStore, List.map_cons] at ih ⊢
    by_cases hy : y.target = q
    · rw [if_pos (beq_iff_eq.mpr hy)]
      exact List.find?_cons_of_pos (beq_iff_eq.mpr ht)
    · have hny : ¬ (y.target == q) = true := fun hb => hy (beq_iff_eq.mp hb)
      rw [if_neg hny, List.find?_cons_of_neg (p := fun y : Store => y.target == q) hny]
      exact ih (by rwa [List.find?_cons_of_neg (p := fun y : Store => y.target == q) hny] at h)

theorem find_replaceStore_other {ss : List Store} {q x : Nat} {st : Store} (ht : st.target = q) (hx : x ≠ q) :
    (replaceStore ss q st).find? (fun y => y.target == x) = ss.find? (fun y => y.target == x) := by
  induction ss with
  | nil => rfl
  | cons y ys ih =>
    simp only [replaceStore, List.map_cons] at ih ⊢
    by_cases hy : y.target = q
    · have hst : ¬ (st.target == x) = true := fun hb => hx ((beq_iff_eq.mp hb).symm.trans ht)
      have hyx : ¬ (y.target == x) = true := fun hb => hx ((beq_iff_eq.mp hb).symm.trans hy)
      rw [if_pos (beq_iff_eq.mpr hy), List.find?_cons_of_neg (p := fun y : Store => y.target == x) hst,
        List.find?_cons_of_neg (p := fun y : Store => y.target == x) hyx]
      exact ih
    · rw [if_neg (fun hb => hy (beq_iff_eq.mp hb)), List.find?_cons, List.find?_cons, ih]

theorem findStore_withStore_same {j : Job} {q : Nat} {st x : Store} (h : findStore j q = some x) (ht : st.target = q) :
    findStore (withStore j q st) q = some st := by
  rw [findStore, storesOf_withStore]
  exact find_replaceStore_same h ht

theorem findStore_withStore_other {j : Job} {q x : Nat} {st : Store} (ht : st.target = q) (hx : x ≠ q) :
    findStore (withStore j q st) x = findStore j x := by
  rw [findStore, storesOf_withStore]
  exact find_replaceStore_other ht hx

theorem findStore_target {j : Job} {q : Nat} {st : Store} (h : findStore j q = some st) : st.target = q :=
  beq_iff_eq.mp (List.find?_some (p := fun y : Store => y.target == q) h)

theorem storeAt_eq_some_iff {s : State} {i : Fin 8} {q : Nat} {j : Job} {st : Store} :
    storeAt s i q = some (j, st) ↔ laneAt s i = some j ∧ findStore j q = some st := by
  unfold storeAt
  cases laneAt s i with
  | none => simp
  | some j' =>
    simp only [Option.map_eq_some_iff, Prod.mk.injEq, Option.some.injEq]
    constructor
    · rintro ⟨x, hx, rfl, rfl⟩
      exact ⟨rfl, hx⟩
    · rintro ⟨rfl, hx⟩
      exact ⟨st, hx, rfl, rfl⟩

/-- The store of target `q` of lane `i`, without its lane. -/
def storeFor (s : State) (i : Fin 8) (q : Nat) : Option Store :=
  (storeAt s i q).map (fun x => x.2)

theorem storeFor_eq_some_iff {s : State} {i : Fin 8} {q : Nat} {st : Store} : storeFor s i q = some st ↔ ∃ j, storeAt s i q = some (j, st) := by
  unfold storeFor
  constructor
  · intro h
    obtain ⟨⟨j, x⟩, hx, rfl⟩ := Option.map_eq_some_iff.mp h
    exact ⟨j, hx⟩
  · rintro ⟨j, hj⟩
    rw [hj]
    rfl

theorem storeFor_of_busy {s : State} {i : Fin 8} {j : Job} (h : laneAt s i = some j) (q : Nat) : storeFor s i q = findStore j q := by
  cases hf : findStore j q <;> simp [storeFor, storeAt, h, hf]

theorem storeFor_of_laneAt {s t : State} {i : Fin 8} (h : laneAt t i = laneAt s i) (q : Nat) : storeFor t i q = storeFor s i q := by
  unfold storeFor storeAt
  rw [h]

/-! ### A chunk sent (R139) -/

/-- A chunk changes what was sent, and no more. -/
theorem sendChunk_eq (i : Fin 8) (q k : Nat) (s : State) : ∃ out, sendChunk i q k s = { s with outputs := s.outputs ++ out }
    ∧ ∀ j st l p, storeAt s i q = some (j, st) → liveAt s j.record = some l → nodePort s (nodeAt s st.dest).pref = some p →
      Output.frame { port := p, dst := (nodeAt s st.dest).addr, src := (portAt s p).addr, etherType := s.etherType, kind := 0x33
                     flags := if k + 1 = chunkCount j.segLength then 2 else 0, tag := 0, body := storeBody i j st l.key k } ∈ out := by
  have hnone : s = { s with outputs := s.outputs ++ [] } := by rw [List.append_nil]
  unfold sendChunk
  split
  case h_1 hst => exact ⟨[], hnone, fun _ _ _ _ h => nomatch hst.symm.trans h⟩
  case h_2 j st hst =>
    split
    case h_1 l p hl hp =>
      refine ⟨_, rfl, fun j' st' l' p' h hl' hp' => ?_⟩
      cases hst.symm.trans h
      cases hl.symm.trans hl'
      cases hp.symm.trans hp'
      exact List.mem_singleton.mpr rfl
    case h_2 hno =>
      refine ⟨[], hnone, fun j' st' l' p' h hl' hp' => ?_⟩
      cases hst.symm.trans h
      exact absurd hp' (hno l' p' hl')

/-! ### STORE_CHUNK_SENT and SEND_COMPLETION (R139, R140) -/

theorem sendingStore_eq_some_iff {s : State} {i : Fin 8} {q a : Nat} {j : Job} {st : Store} :
    sendingStore s i q a = some (j, st) ↔ storeAt s i q = some (j, st) ∧ st.state = .sending ∧ st.attempt = a := by
  unfold sendingStore
  cases storeAt s i q with
  | none => simp
  | some e =>
    obtain ⟨j', st'⟩ := e
    simp only [Option.ite_none_right_eq_some, Option.some.injEq, Prod.mk.injEq]
    constructor
    · rintro ⟨h, rfl, rfl⟩
      exact ⟨⟨rfl, rfl⟩, h⟩
    · rintro ⟨⟨rfl, rfl⟩, h⟩
      exact ⟨h, rfl, rfl⟩

/-- A command for a store that is not SENDING, or for another attempt, finds no store (log entries 16 and 25). -/
theorem sendingStore_eq_none {s : State} {i : Fin 8} {q a : Nat}
    (h : ∀ j st, storeAt s i q = some (j, st) → st.state = .sending → st.attempt ≠ a) : sendingStore s i q a = none := by
  refine Option.eq_none_iff_forall_ne_some.mpr fun e he => ?_
  obtain ⟨hst, hsending, ha⟩ := sendingStore_eq_some_iff.mp he
  exact h e.1 e.2 hst hsending ha

theorem storeAt_withStore {u : State} {i : Fin 8} {q : Nat} {j : Job} {x st : Store} (hx : findStore j q = some x) (ht : st.target = q)
    (hu : laneAt u i = some (withStore j q st)) : storeAt u i q = some (withStore j q st, st) :=
  storeAt_eq_some_iff.mpr ⟨hu, findStore_withStore_same hx ht⟩

/-- A command that makes no change, as its node or its store sees it. -/
theorem exec_nothing {c : Instr} {s : State} (h : effect c s = s) : ∃ t, exec c s = .next t ∧ Quiet s t ∧ t.outputs = s.outputs := by
  obtain ⟨t, ht, hon, hout, -⟩ := exec_unchanged h
  exact ⟨t, ht, hon.1, hout⟩

/-- Settles O49: the store that the command names is written, and STORE_CHUNK_SENT sends its next chunk. -/
theorem storeChunksAreSent : Obligations.StoreChunksAreSent := by
  intro i q a s
  have hchunk : effect (.storeChunkSent i q a) s = chunkLeft i q.val a s := rfl
  have hcompleted : effect (.sendCompletion i q a) s = sendCompleted i q.val a s := rfl
  refine ⟨fun j st hst hsending ha => ?_, fun hnone => ?_⟩
  · have hfind := sendingStore_eq_some_iff.mpr ⟨hst, hsending, ha⟩
    obtain ⟨hj, hq⟩ := storeAt_eq_some_iff.mp hst
    have htarget : st.target = q.val := findStore_target hq
    have hset := fun x => setStore_of_busy (s := s) hj q.val x
    refine ⟨fun hmore => ?_, fun hlast => ?_, fun hend => ?_, fun hnot => ?_⟩
    · obtain ⟨out, hsend, hframe⟩ := sendChunk_eq i q.val (st.chunksSent + 1)
        (setLane i (some (withStore j q.val { st with chunksSent := st.chunksSent + 1 })) s)
      have hstore : storeAt (setLane i (some (withStore j q.val { st with chunksSent := st.chunksSent + 1 })) s) i q.val
          = some (withStore j q.val { st with chunksSent := st.chunksSent + 1 }, { st with chunksSent := st.chunksSent + 1 }) :=
        storeAt_withStore hq htarget (laneAt_setLane_same ..)
      have heff : effect (.storeChunkSent i q a) s
          = { setLane i (some (withStore j q.val { st with chunksSent := st.chunksSent + 1 })) s with outputs := s.outputs ++ out } := by
        simp only [hchunk, chunkLeft, hfind, if_pos hmore, hset]
        exact hsend
      obtain ⟨t, ht, hend⟩ := exec_ended_of heff
      have hsent : ∀ o ∈ out, o ∈ sentBetween s t := fun o ho => hend.sent ⟨out, rfl, ho⟩
      refine ⟨t, withStore j q.val { st with chunksSent := st.chunksSent + 1 }, ht, ?_⟩
      obtain ⟨pu, pr, msgs, rfl⟩ := hend
      refine ⟨hstore, fun x hx => laneAt_setLane_other s hx _, fun x hx => findStore_withStore_other htarget hx, SameTable.refl s, rfl, rfl,
        SameQueues.refl s, rfl, rfl, SameControl.refl s, fun l p hl hp => ?_⟩
      have hmem := hframe _ _ l p hstore hl hp
      exact hsent _ hmem
    · have heff : effect (.sendCompletion i q a) s = setLane i (some (withStore j q.val
          { st with state := .awaiting, chunksSent := st.chunksSent + 1, timer := some (s.settings.tStore * 100) })) s := by
        simp only [hcompleted, sendCompleted, hfind, if_pos hlast, hset]
        rfl
      obtain ⟨pu, pr, ht⟩ := exec_silent heff rfl
      exact ⟨_, _, ht, storeAt_withStore hq htarget (laneAt_setLane_same ..), fun x hx => laneAt_setLane_other s hx _,
        fun x hx => findStore_withStore_other htarget hx, SameTable.refl s, rfl, rfl, SameQueues.refl s, rfl, rfl, SameControl.refl s, rfl⟩
    · refine exec_nothing ?_
      simp only [hchunk, chunkLeft, hfind]
      exact if_neg (Nat.not_lt.mpr hend)
    · refine exec_nothing ?_
      simp only [hcompleted, sendCompleted, hfind]
      exact if_neg hnot
  · have hfind := sendingStore_eq_none hnone
    refine ⟨exec_nothing ?_, exec_nothing ?_⟩
    · simp only [hchunk, chunkLeft, hfind]
    · simp only [hcompleted, sendCompleted, hfind]

/-! ### An attempt begins (R137) -/

/-- The store record as its attempt begins. -/
def attemptBegun (st : Store) : Store :=
  { st with state := .sending, chunksSent := 0, timer := none }

theorem attemptBegun_target {j : Job} {q : Nat} {st : Store} (h : findStore j q = some st) : (attemptBegun st).target = q := by
  have ht := findStore_target h
  exact ht

/-- What the start of the attempt of store `st` of target `q` of lane `i` changes. -/
structure Started (i : Fin 8) (q : Nat) (j : Job) (st : Store) (s t : State) : Prop where
  lanes : t.lanes = s.lanes.set i (some (withStore j q (attemptBegun st)))
  nodes : t.nodes = Sparse.set absentNode s.nodes st.dest { nodeAt s st.dest with outstanding := (nodeAt s st.dest).outstanding + 1 }
  waitList : t.waitList = s.waitList
  mode : t.mode = s.mode
  sent : ∀ l p, liveAt s j.record = some l → nodePort s (nodeAt s st.dest).pref = some p → ∃ out, t.outputs = s.outputs ++ out
    ∧ Output.frame { port := p, dst := (nodeAt s st.dest).addr, src := (portAt s p).addr, etherType := s.etherType, kind := 0x33
                     flags := if 1 = chunkCount j.segLength then 2 else 0, tag := 0, body := storeBody i j st l.key 0 } ∈ out

theorem startAttempt_started {i : Fin 8} {q : Nat} {j : Job} {st : Store} {s : State} (h : storeAt s i q = some (j, st)) :
    Started i q j st s (startAttempt i q s) := by
  obtain ⟨hj, hq⟩ := storeAt_eq_some_iff.mp h
  have hset := setStore_of_busy hj q (attemptBegun st)
  obtain ⟨out, hsend, hframe⟩ := sendChunk_eq i q 0 (raiseOutstanding st.dest (setLane i (some (withStore j q (attemptBegun st))) s))
  have hstore : storeAt (raiseOutstanding st.dest (setLane i (some (withStore j q (attemptBegun st))) s)) i q
      = some (withStore j q (attemptBegun st), attemptBegun st) :=
    storeAt_withStore hq (attemptBegun_target hq) (laneAt_setLane_same ..)
  have hnode : nodeAt (raiseOutstanding st.dest (setLane i (some (withStore j q (attemptBegun st))) s)) st.dest
      = { nodeAt s st.dest with outstanding := (nodeAt s st.dest).outstanding + 1 } := nodeAt_setNode_same ..
  have heff : startAttempt i q s = { raiseOutstanding st.dest (setLane i (some (withStore j q (attemptBegun st))) s) with
      outputs := s.outputs ++ out } := by
    simp only [startAttempt, h]
    exact (congrArg (fun u => sendChunk i q 0 (raiseOutstanding st.dest u)) hset).trans hsend
  rw [heff]
  refine ⟨rfl, rfl, rfl, rfl, fun l p hl hp => ⟨out, rfl, ?_⟩⟩
  have hmem := hframe _ _ l p hstore hl (by rw [show (attemptBegun st).dest = st.dest from rfl, hnode]; exact hp)
  rw [show (attemptBegun st).dest = st.dest from rfl, hnode] at hmem
  exact hmem

section
variable {i : Fin 8} {q : Nat} {j : Job} {st : Store} {s t : State}

theorem Started.node (h : Started i q j st s t) :
    nodeAt t st.dest = { nodeAt s st.dest with outstanding := (nodeAt s st.dest).outstanding + 1 } := by
  rw [nodeAt, h.nodes]
  exact nodeAt_setNode_same ..

theorem Started.node_other (h : Started i q j st s t) {k : Nat} (hk : k ≠ st.dest) : nodeAt t k = nodeAt s k := by
  rw [nodeAt, h.nodes]
  exact nodeAt_setNode_other s hk _

theorem Started.laneAt_same (h : Started i q j st s t) : laneAt t i = some (withStore j q (attemptBegun st)) := by
  rw [laneAt, h.lanes]
  exact laneAt_setLane_same ..

theorem Started.laneAt_other (h : Started i q j st s t) {x : Fin 8} (hx : x ≠ i) : laneAt t x = laneAt s x := by
  rw [laneAt, h.lanes]
  exact laneAt_setLane_other s hx _

theorem Started.store (h : Started i q j st s t) (hst : storeAt s i q = some (j, st)) :
    storeAt t i q = some (withStore j q (attemptBegun st), attemptBegun st) := by
  obtain ⟨-, hq⟩ := storeAt_eq_some_iff.mp hst
  exact storeAt_withStore hq (attemptBegun_target hq) h.laneAt_same

theorem Started.storeFor_same (h : Started i q j st s t) (hst : storeAt s i q = some (j, st)) : storeFor t i q = some (attemptBegun st) :=
  storeFor_eq_some_iff.mpr ⟨_, h.store hst⟩

theorem Started.storeFor_other (h : Started i q j st s t) (hst : storeAt s i q = some (j, st)) {x : Fin 8} {y : Nat} (hne : (x, y) ≠ (i, q)) :
    storeFor t x y = storeFor s x y := by
  obtain ⟨hj, hq⟩ := storeAt_eq_some_iff.mp hst
  by_cases hx : x = i
  · subst hx
    have hy : y ≠ q := fun hy => hne (by rw [hy])
    rw [storeFor_of_busy h.laneAt_same, storeFor_of_busy hj, findStore_withStore_other (attemptBegun_target hq) hy]
  · exact storeFor_of_laneAt (h.laneAt_other hx) y
end

/-! ### Room used up, and never more -/

/-- Attempts have begun only where there was room: a node without room is as it was, and none has passed its limit (R65, R137). -/
structure RoomUsed (s t : State) : Prop where
  full : ∀ k, hasRoom s k = false → nodeAt t k = nodeAt s k
  within : ∀ k, (nodeAt s k).outstanding ≤ (nodeAt s k).limit → (nodeAt t k).outstanding ≤ (nodeAt t k).limit

theorem RoomUsed.refl (s : State) : RoomUsed s s := ⟨fun _ _ => rfl, fun _ h => h⟩

theorem RoomUsed.hasRoom {s t : State} (h : RoomUsed s t) {k : Nat} (hk : hasRoom s k = false) : Machine.hasRoom t k = false := by
  rw [Machine.hasRoom, h.full k hk]
  exact hk

theorem RoomUsed.trans {s t u : State} (h : RoomUsed s t) (g : RoomUsed t u) : RoomUsed s u :=
  ⟨fun k hk => (g.full k (h.hasRoom hk)).trans (h.full k hk), fun k hk => g.within k (h.within k hk)⟩

theorem RoomUsed.foldl {β : Type} {f : State → β → State} (h : ∀ s b, RoomUsed s (f s b)) (bs : List β) (s : State) :
    RoomUsed s (bs.foldl f s) := by
  induction bs generalizing s with
  | nil => exact RoomUsed.refl s
  | cons b bs ih => exact (h s b).trans (ih _)

theorem RoomUsed.of_nodes {s t : State} (h : t.nodes = s.nodes) : RoomUsed s t := by
  refine ⟨fun k _ => ?_, fun k hk => ?_⟩ <;> rw [nodeAt, h] <;> [rfl; exact hk]

theorem Started.roomUsed {i : Fin 8} {q : Nat} {j : Job} {st : Store} {s t : State} (h : Started i q j st s t) (hroom : hasRoom s st.dest = true) :
    RoomUsed s t := by
  obtain ⟨-, hlt⟩ := hasRoom_iff.mp hroom
  refine ⟨fun k hk => h.node_other fun hd => ?_, fun k hk => ?_⟩
  · rw [hd, hroom] at hk
    cases hk
  · by_cases hd : k = st.dest
    · rw [hd, h.node]
      exact hlt
    · rwa [h.node_other hd]

/-! ### The wait list's turn (R138) -/

/-- No room for the store that entry `e` of the wait list names, if it names one. -/
def Blocked (s : State) (e : Fin 8 × Nat) : Prop :=
  ∀ st, storeFor s e.1 e.2 = some st → hasRoom s st.dest = false

theorem beginIfRoom_of_blocked {s : State} {e : Fin 8 × Nat} (h : Blocked s e) : beginIfRoom s e = s := by
  unfold beginIfRoom
  cases hst : storeAt s e.1 e.2 with
  | none => rfl
  | some x =>
    obtain ⟨j, st⟩ := x
    refine if_neg ?_
    rw [h st (storeFor_eq_some_iff.mpr ⟨j, hst⟩)]
    exact Bool.false_ne_true

/-- An entry whose node has room leaves the wait list and begins. -/
theorem beginIfRoom_started {s : State} {e : Fin 8 × Nat} {j : Job} {st : Store} (hst : storeAt s e.1 e.2 = some (j, st))
    (hroom : hasRoom s st.dest = true) : Started e.1 e.2 j st { s with waitList := s.waitList.erase e } (beginIfRoom s e) := by
  simp only [beginIfRoom, hst, if_pos hroom]
  exact startAttempt_started (s := { s with waitList := s.waitList.erase e }) hst

theorem blocked_or_room (s : State) (e : Fin 8 × Nat) :
    Blocked s e ∨ ∃ j st, storeAt s e.1 e.2 = some (j, st) ∧ hasRoom s st.dest = true := by
  cases hst : storeAt s e.1 e.2 with
  | none => exact .inl fun st h => by rw [storeFor, hst] at h; cases h
  | some x =>
    obtain ⟨j, st⟩ := x
    cases hroom : hasRoom s st.dest with
    | true => exact .inr ⟨j, st, rfl, hroom⟩
    | false =>
      refine .inl fun st' h => ?_
      rw [storeFor, hst] at h
      cases h
      exact hroom

theorem beginIfRoom_roomUsed (s : State) (e : Fin 8 × Nat) : RoomUsed s (beginIfRoom s e) := by
  rcases blocked_or_room s e with h | ⟨j, st, hst, hroom⟩
  · rw [beginIfRoom_of_blocked h]
    exact RoomUsed.refl s
  · have hw : RoomUsed s { s with waitList := s.waitList.erase e } := .of_nodes rfl
    exact hw.trans ((beginIfRoom_started hst hroom).roomUsed hroom)

theorem beginIfRoom_mode (s : State) (e : Fin 8 × Nat) : (beginIfRoom s e).mode = s.mode := by
  rcases blocked_or_room s e with h | ⟨j, st, hst, hroom⟩
  · rw [beginIfRoom_of_blocked h]
  · exact (beginIfRoom_started hst hroom).mode

theorem foldl_beginIfRoom_mode (es : List (Fin 8 × Nat)) (s : State) : (es.foldl beginIfRoom s).mode = s.mode := by
  induction es generalizing s with
  | nil => rfl
  | cons e es ih => exact (ih _).trans (beginIfRoom_mode s e)

theorem handRoom_mode (s : State) : (handRoom s).mode = s.mode :=
  foldl_beginIfRoom_mode s.waitList s

theorem handRoom_roomUsed (s : State) : RoomUsed s (handRoom s) :=
  RoomUsed.foldl beginIfRoom_roomUsed _ s

/-- Another entry's turn leaves a store and its place in the wait list. -/
theorem beginIfRoom_other {s : State} {e x : Fin 8 × Nat} (hx : x ≠ e) :
    storeFor (beginIfRoom s e) x.1 x.2 = storeFor s x.1 x.2 ∧ (x ∈ (beginIfRoom s e).waitList ↔ x ∈ s.waitList) := by
  rcases blocked_or_room s e with h | ⟨j, st, hst, hroom⟩
  · rw [beginIfRoom_of_blocked h]
    exact ⟨rfl, Iff.rfl⟩
  · have hb := beginIfRoom_started hst hroom
    refine ⟨hb.storeFor_other hst hx, ?_⟩
    rw [hb.waitList]
    exact List.mem_erase_of_ne hx

/-- A blocked entry stays blocked, and in its place, through the turns of the wait list. -/
theorem Blocked.beginIfRoom {s : State} {x : Fin 8 × Nat} (h : Blocked s x) (e : Fin 8 × Nat) :
    Blocked (beginIfRoom s e) x ∧ (x ∈ s.waitList → x ∈ (Machine.beginIfRoom s e).waitList) := by
  by_cases hx : x = e
  · subst hx
    rw [beginIfRoom_of_blocked h]
    exact ⟨h, fun hm => hm⟩
  · obtain ⟨hstore, hmem⟩ := beginIfRoom_other (s := s) hx
    exact ⟨fun st hst => (beginIfRoom_roomUsed s e).hasRoom (h st (hstore ▸ hst)), hmem.mpr⟩

theorem Blocked.foldl {x : Fin 8 × Nat} (es : List (Fin 8 × Nat)) {s : State} (h : Blocked s x) :
    Blocked (es.foldl Machine.beginIfRoom s) x ∧ (x ∈ s.waitList → x ∈ (es.foldl Machine.beginIfRoom s).waitList) := by
  induction es generalizing s with
  | nil => exact ⟨h, fun hm => hm⟩
  | cons e es ih =>
    obtain ⟨hb, hm⟩ := h.beginIfRoom e
    obtain ⟨hb', hm'⟩ := ih hb
    exact ⟨hb', fun hx => hm' (hm hx)⟩

theorem foldl_beginIfRoom_of_blocked {es : List (Fin 8 × Nat)} {s : State} (h : ∀ e ∈ es, Blocked s e) : es.foldl beginIfRoom s = s := by
  induction es with
  | nil => rfl
  | cons e es ih =>
    rw [List.foldl_cons, beginIfRoom_of_blocked (h e List.mem_cons_self)]
    exact ih fun x hx => h x (List.mem_cons_of_mem e hx)

/-- An attempt that has begun stays begun through the turns of the wait list. -/
theorem storeFor_foldl_of_begun {i : Fin 8} {q : Nat} {st : Store} (es : List (Fin 8 × Nat)) {s : State}
    (h : storeFor s i q = some (attemptBegun st)) : storeFor (es.foldl beginIfRoom s) i q = some (attemptBegun st) := by
  induction es generalizing s with
  | nil => exact h
  | cons e es ih =>
    refine ih ?_
    by_cases he : (i, q) = e
    · subst he
      rcases blocked_or_room s (i, q) with hb | ⟨j, st', hst, hroom⟩
      · rw [beginIfRoom_of_blocked hb]
        exact h
      · have hsame := (beginIfRoom_started hst hroom).storeFor_same hst
        obtain ⟨j', hst'⟩ := storeFor_eq_some_iff.mp h
        rw [hst] at hst'
        cases hst'
        exact hsame
    · exact (beginIfRoom_other he).1.trans h

/-- Settles O50: the entries before the first that can begin are blocked and stay so, and that one begins with the room that it finds. -/
theorem waitingStoresBegin : Obligations.WaitingStoresBegin := by
  intro s room
  have heff : effect .storeAttemptBegin s = s.waitList.foldl beginIfRoom s := rfl
  have hblocked : ∀ e : Fin 8 × Nat, (∀ j st, storeAt s e.1 e.2 = some (j, st) → ¬ room st.dest) → Blocked s e := fun e he st hst => by
    obtain ⟨j, hj⟩ := storeFor_eq_some_iff.mp hst
    exact Bool.eq_false_iff.mpr fun hr => he j st hj (hasRoom_iff.mp hr)
  refine ⟨fun hall => exec_nothing (heff.trans (foldl_beginIfRoom_of_blocked fun e he => hblocked e (hall e he))), ?_⟩
  intro pre i q post j st hw hpre hst hroom
  have hpreBlocked : ∀ e ∈ pre, Blocked s e := fun e he => hblocked e (hpre e he)
  have hroom' : hasRoom s st.dest = true := hasRoom_iff.mpr hroom
  have hnot : (i, q) ∉ pre := fun hmem => hpre (i, q) hmem j st hst hroom
  have herase : s.waitList.erase (i, q) = pre ++ post := by
    rw [hw, List.erase_append_right _ hnot, List.erase_cons_head]
  have hbegin := beginIfRoom_started (e := (i, q)) hst hroom'
  have hrun : effect .storeAttemptBegin s = post.foldl beginIfRoom (beginIfRoom s (i, q)) := by
    rw [heff, hw, List.foldl_append, foldl_beginIfRoom_of_blocked hpreBlocked, List.foldl_cons]
  have hhanded : RoomHanded (beginIfRoom s (i, q)) (post.foldl beginIfRoom (beginIfRoom s (i, q))) := RoomHanded.foldl beginIfRoom_handed _ _
  have hall := (beginIfRoom_handed s (i, q)).trans hhanded
  have hnode := hbegin.node
  obtain ⟨t, ht, hend⟩ := exec_ended_of hrun
  have hstore : storeFor (post.foldl beginIfRoom (beginIfRoom s (i, q))) i q = some (attemptBegun st) :=
    storeFor_foldl_of_begun post (hbegin.storeFor_same hst)
  obtain ⟨j', hj'⟩ := storeFor_eq_some_iff.mp hstore
  have hrise : (nodeAt s st.dest).outstanding < (nodeAt (post.foldl beginIfRoom (beginIfRoom s (i, q))) st.dest).outstanding := by
    obtain ⟨o, ho, hn⟩ := hhanded.node st.dest
    rw [hn, hnode] at *
    exact ho
  have hwithin : (nodeAt (post.foldl beginIfRoom (beginIfRoom s (i, q))) st.dest).outstanding
      ≤ (nodeAt (post.foldl beginIfRoom (beginIfRoom s (i, q))) st.dest).limit := by
    refine ((beginIfRoom_roomUsed s (i, q)).trans (RoomUsed.foldl beginIfRoom_roomUsed post _)).within st.dest ?_
    exact Nat.le_of_lt hroom.2
  have hsent : ∀ l p, liveAt s j.record = some l → nodePort s (nodeAt s st.dest).pref = some p →
      Output.frame { port := p, dst := (nodeAt s st.dest).addr, src := (portAt s p).addr, etherType := s.etherType, kind := 0x33
                     flags := if 1 = chunkCount j.segLength then 2 else 0, tag := 0, body := storeBody i j st l.key 0 }
        ∈ sentBetween s t := fun l p hl hp => by
    obtain ⟨out, hout, hmem⟩ := hbegin.sent l p hl hp
    obtain ⟨out', hout'⟩ := hhanded.sent
    refine hend.sent ⟨out ++ out', ?_, List.mem_append_left _ hmem⟩
    rw [hout', hout, List.append_assoc]
  have hmode : (post.foldl beginIfRoom (beginIfRoom s (i, q))).mode = s.mode :=
    (foldl_beginIfRoom_mode post _).trans (beginIfRoom_mode s (i, q))
  refine ⟨t, j', ht, ?_⟩
  obtain ⟨pu, pr, msgs, rfl⟩ := hend
  refine ⟨hj', hrise, hwithin, fun e he => ?_, ?_, hsent, hall.table, hall.control, hmode, hall.fetch, hall.queues⟩
  · obtain ⟨hstill, hkept⟩ := (hpreBlocked e he).beginIfRoom (i, q)
    exact (hstill.foldl post).2 (hkept (hw ▸ List.mem_append_left _ he))
  · rintro rfl
    refine ⟨?_, hnode, fun k hk => hbegin.node_other hk, fun x hx => hbegin.laneAt_other hx⟩
    rw [List.append_nil] at herase
    exact hbegin.waitList.trans herase

end Sys2Proof.Machine

/-! SUPPORT. An ACTIVE record that leaves its lane (R19, R21 to R23, R128), and the muting of a node (R76, R77): which records stall, and what becomes of their
lanes. -/

namespace Sys2Proof.Machine

/-! ### The lane that holds a record (R113) -/

theorem find_laneNumbers {p : Fin 8 → Bool} {i : Fin 8} : laneNumbers.find? p = some i ↔ p i = true ∧ ∀ x, x < i → p x = false := by
  rw [List.find?_eq_findSome?_guard, findSome_laneNumbers]
  constructor
  · rintro ⟨d, hd, hbefore⟩
    obtain ⟨hp, rfl⟩ : p d = true ∧ d = i := by simpa [Option.guard_eq_some_iff, and_comm] using hd
    exact ⟨hp, fun x hx => by simpa [Option.guard_eq_none_iff] using hbefore x hx⟩
  · rintro ⟨hp, hbefore⟩
    exact ⟨i, by simp [hp], fun x hx => by simp [Option.guard_eq_none_iff, hbefore x hx]⟩

theorem laneHolding_eq_some_iff {s : State} {n : Nat} {i : Fin 8} :
    laneHolding s n = some i ↔ (∃ j, laneAt s i = some j ∧ j.record = n) ∧ ∀ x, x < i → ∀ j, laneAt s x = some j → j.record ≠ n := by
  rw [laneHolding, find_laneNumbers]
  refine and_congr ?_ (forall₂_congr fun x _ => ?_)
  · cases laneAt s i <;> simp
  · cases laneAt s x <;> simp

/-! ### A record that leaves its lane -/

/-- Record `n` has left lane `i`, which is abandoned, and holds `l'`; no other record has changed, and no slot but in its count and stall list. -/
structure LeftLane (i : Fin 8) (n : Nat) (l' : Live) (s t : State) : Prop extends OnlyRecord n s t where
  live : liveAt t n = some l'
  left : LanesLeft [i] s t
  node : ∀ k, ∃ o ns, nodeAt t k = { nodeAt s k with outstanding := o, stallList := ns }

theorem lanesLeft_of_work {n : Nat} {i : Fin 8} {l : Live} {s v : State} (ha : l.state = .active) (hi : laneHolding s n = some i)
    (hw : SameLaneWork (leaveHolder n l s) v) : LanesLeft [i] s v := by
  obtain ⟨j, hj, -⟩ := laneHolding_some hi
  rw [leaveHolder_active ha hi] at hw
  exact (abandonLane_left hj).of_sameLaneWork (SameLaneWork.refl s) hw

section
variable {n : Nat} {i : Fin 8} {l : Live} {s : State} (hl : liveAt s n = some l) (ha : l.state = .active) (hi : laneHolding s n = some i)
include hl ha hi

theorem enterHeld_leftLane (c : HoldCause) : LeftLane i n { l with state := .held c } s (enterHeld n c s) := by
  refine ⟨enterHeld_onlyRecord hl c, (liveAt_enterHeld hl n).trans (if_pos rfl), lanesLeft_of_work ha hi (enterHeld_laneWork hl c), fun k => ?_⟩
  rw [enterHeld_nodeAt hl]
  exact leaveHolder_node n l s k

theorem enterWaiting_leftLane : LeftLane i n { l with state := .waiting, stamp := s.queueSeq } s (enterWaiting n s) := by
  have hw : l.state ≠ .waiting := fun h => RecState.noConfusion (ha.symm.trans h)
  refine ⟨enterWaiting_onlyRecord hl, (enterWaiting_requeued hl hw).1, lanesLeft_of_work ha hi (enterWaiting_work hl).1, fun k => ?_⟩
  rw [enterWaiting_nodeAt hl]
  exact leaveHolder_node n l s k
end

/-- What becomes of the lane once the room is handed on (R138). -/
theorem LeftLane.settle {i : Fin 8} {n : Nat} {l' : Live} {s t : State} (h : LeftLane i n l' s t) :
    LaneGivenUp (Machine.settle t) i n l' ∧ LaneDropped s (Machine.settle t) i ∧ OnlyRecord n s (Machine.settle t)
      ∧ ∀ k, ∃ o ns, nodeAt (Machine.settle t) k = { nodeAt s k with outstanding := o, stallList := ns } := by
  have hdrop : LaneDropped s (Machine.settle t) i := h.left.settle
  refine ⟨⟨(settle_liveAt t n).trans h.live, (hdrop.1.1 i List.mem_cons_self).1⟩, hdrop, h.toOnlyRecord.trans (settle_onlyRecord n t), fun k => ?_⟩
  obtain ⟨o, ns, ht⟩ := h.node k
  obtain ⟨o', -, hs⟩ := (settle_handed t).node k
  exact ⟨o', ns, by rw [hs, ht]⟩

/-- The fetch slots of an abandoned lane are free, their generations kept (R89). -/
theorem LaneDropped.slot {s t : State} {i : Fin 8} (h : LaneDropped s t i) {k : Nat} {ft : Fetch} (hk : k < 96) (hu : (slotAt s k).use = some ft)
    (hi : ft.lane = i) : slotAt t k = { generation := (slotAt s k).generation, use := none } := by
  obtain ⟨⟨-, hslots⟩, -⟩ := h
  have hslot := hslots k
  simp only [hu] at hslot
  rw [hslot, if_pos ⟨hk, hi ▸ List.mem_cons_self⟩]

/-! ### Entry into STALLED (R21) -/

/-- All that an entry into STALLED does once the record has left what held it. -/
theorem enterStalled_eq {n : Nat} {l : Live} {s : State} (hl : liveAt s n = some l) (k : Nat) : ∃ d nc ctr out,
    enterStalled n k s = { setNode k { nodeAt (leaveHolder n l s) k with stallList := (nodeAt (leaveHolder n l s) k).stallList ++ [n] }
        (setLive n { l with state := .stalled k } (leaveHolder n l s)) with
        dram := d, noticeCounter := nc, counters := ctr, outputs := (leaveHolder n l s).outputs ++ out }
      ∧ ∀ c, c ≠ .noticeDropped → counterValue c (enterStalled n k s) = counterValue c s := by
  have hcounters := leaveHolder_counters n l s
  unfold enterStalled
  simp only [hl]
  generalize leaveHolder n l s = u at hcounters ⊢
  obtain ⟨d, hd⟩ := writeFields_eq n [.state, .stallNode] (setLive n { l with state := .stalled k } u)
  rw [hd]
  obtain ⟨nc, ctr, out, hnotify, hcount⟩ := notify_eq n (generationAt s n) l.watch (stateCode (some l.state)) (some (.stalled k))
    (setNode k { nodeAt u k with stallList := (nodeAt u k).stallList ++ [n] } { setLive n { l with state := .stalled k } u with dram := d })
  refine ⟨d, nc, ctr, out, hnotify, fun c hc => (hcount c hc).trans ?_⟩
  rw [counterValue, counterValue, ← hcounters]
  rfl

theorem enterStalled_laneWork {n : Nat} {l : Live} {s : State} (hl : liveAt s n = some l) (k : Nat) :
    SameLaneWork (leaveHolder n l s) (enterStalled n k s) := by
  obtain ⟨d, nc, ctr, out, heq, -⟩ := enterStalled_eq hl k
  rw [heq]
  refine ⟨rfl, rfl, rfl, fun x => ?_⟩
  by_cases hx : x = k
  · rw [hx]
    have hnode := congrArg Node.outstanding (nodeAt_setNode_same (leaveHolder n l s) k
      { nodeAt (leaveHolder n l s) k with stallList := (nodeAt (leaveHolder n l s) k).stallList ++ [n] })
    exact hnode
  · exact congrArg Node.outstanding (nodeAt_setNode_other (leaveHolder n l s) hx _)

theorem enterStalled_stallList {n : Nat} {l : Live} {s : State} (hl : liveAt s n = some l) (k : Nat) :
    (nodeAt (enterStalled n k s) k).stallList = (nodeAt (leaveHolder n l s) k).stallList ++ [n] := by
  obtain ⟨d, nc, ctr, out, heq, -⟩ := enterStalled_eq hl k
  rw [heq]
  exact congrArg Node.stallList (nodeAt_setNode_same (leaveHolder n l s) k _)

theorem enterStalled_returning (n k : Nat) (s : State) : Returning s (enterStalled n k s) := by
  cases hl : liveAt s n with
  | none =>
    rw [enterStalled, hl]
    exact Returning.refl s
  | some l =>
    have hleave := leaveHolder_unanswered n l s
    obtain ⟨out', hout⟩ := hleave.sent
    obtain ⟨d, nc, ctr, out, heq, hcount⟩ := enterStalled_eq hl k
    refine ⟨⟨(enterStalled_steady n k s).control, ⟨out' ++ out, ?_⟩, hcount _ (by decide)⟩, enterStalled_steady n k s, fun x => ?_, ?_, hcount⟩
    · rw [heq, ← List.append_assoc, ← hout]
    · rw [heq]
      by_cases hx : x = k
      · subst hx
        obtain ⟨o, ns, hnode⟩ := leaveHolder_node n l s x
        refine ⟨o, (nodeAt (leaveHolder n l s) x).stallList ++ [n], (nodeAt_setNode_same (leaveHolder n l s) x _).trans ?_⟩
        rw [hnode]
      · obtain ⟨o, ns, hnode⟩ := leaveHolder_node n l s x
        exact ⟨o, ns, (nodeAt_setNode_other (leaveHolder n l s) hx _).trans hnode⟩
    · rw [heq]
      exact leaveHolder_events n l s

theorem enterStalled_leftLane {n : Nat} {i : Fin 8} {l : Live} {s : State} (hl : liveAt s n = some l) (ha : l.state = .active)
    (hi : laneHolding s n = some i) (k : Nat) : LeftLane i n { l with state := .stalled k } s (enterStalled n k s) := by
  have hreturn := enterStalled_returning n k s
  have hsteady := enterStalled_steady n k s
  refine ⟨⟨hreturn.unanswered, ⟨hsteady.freeList, hsteady.liveCount, hsteady.index⟩, fun m hm => ?_, hsteady.generation n⟩,
    (liveAt_enterStalled hl n).trans (if_pos rfl), lanesLeft_of_work ha hi (enterStalled_laneWork hl k), hreturn.node⟩
  exact congrArg₂ Record.mk (hsteady.generation m) ((liveAt_enterStalled hl m).trans (if_neg hm))

/-! ### The lanes of a node that is muted (R77 step 2) -/

theorem stallLane_of_work {s : State} {i : Fin 8} {j : Job} {k : Nat} (hw : laneHasWork s i [k] = true) (hj : laneAt s i = some j) :
    stallLane k s i = enterStalled j.record k s := by
  rw [stallLane, if_pos hw, hj]

theorem stallLane_of_no_work {s : State} {i : Fin 8} {k : Nat} (hw : laneHasWork s i [k] = false) : stallLane k s i = s := by
  rw [stallLane, hw]
  exact if_neg Bool.false_ne_true

theorem laneHasWork_busy {s : State} {i : Fin 8} {ks : List Nat} (hw : laneHasWork s i ks = true) :
    ∃ j l, laneAt s i = some j ∧ liveAt s j.record = some l := by
  obtain ⟨j, l, hj, hl, -⟩ := laneHasWork_iff.mp hw
  exact ⟨j, l, hj, hl⟩

theorem stallLane_returning (k : Nat) (s : State) (i : Fin 8) : Returning s (stallLane k s i) := by
  cases hw : laneHasWork s i [k] with
  | false =>
    rw [stallLane_of_no_work hw]
    exact Returning.refl s
  | true =>
    obtain ⟨j, l, hj, -⟩ := laneHasWork_busy hw
    rw [stallLane_of_work hw hj]
    exact enterStalled_returning ..

/-- The lanes `ls`, and no others, have been given up, and their records, in that order, have joined the stall list of slot `k`. -/
structure LanesStalled (k : Nat) (ls : List (Fin 8)) (s t : State) : Prop where
  left : LanesLeft ls s t
  list : (nodeAt t k).stallList = (nodeAt s k).stallList ++ recordsOf s ls
  live : ∀ m v, m ∈ recordsOf s ls → liveAt s m = some v → liveAt t m = some { v with state := .stalled k }
  other : ∀ m, m ∉ recordsOf s ls → liveAt t m = liveAt s m

theorem LanesStalled.nil (k : Nat) (s : State) : LanesStalled k [] s s :=
  ⟨LanesLeft.nil s, (List.append_nil _).symm, fun _ _ h => absurd h List.not_mem_nil, fun _ _ => rfl⟩

theorem recordsOf_cons {s : State} {i : Fin 8} {j : Job} (hj : laneAt s i = some j) (ls : List (Fin 8)) :
    recordsOf s (i :: ls) = j.record :: recordsOf s ls := by
  simp [recordsOf, hj]

theorem mem_recordsOf {s : State} {ls : List (Fin 8)} {n : Nat} : n ∈ recordsOf s ls ↔ ∃ i ∈ ls, ∃ j, laneAt s i = some j ∧ j.record = n := by
  simp [recordsOf]

/-- A lane stalled before the others, whose records are other records. -/
theorem LanesStalled.cons {k : Nat} {i : Fin 8} {j : Job} {ls : List (Fin 8)} {s u t : State} (hj : laneAt s i = some j)
    (h : LanesStalled k [i] s u) (g : LanesStalled k ls u t) (hi : i ∉ ls) (hr : j.record ∉ recordsOf s ls) : LanesStalled k (i :: ls) s t := by
  have hone : recordsOf s [i] = [j.record] := recordsOf_cons hj []
  have hlanes : recordsOf u ls = recordsOf s ls := List.filterMap_congr fun x hx => by
    rw [h.left.other x fun e => hi (List.mem_singleton.mp e ▸ hx)]
  have hfirst : ∀ m, m ∈ recordsOf s [i] ↔ m = j.record := fun m => by rw [hone, List.mem_singleton]
  refine ⟨h.left.cons g.left hi, ?_, fun m v hm hv => ?_, fun m hm => ?_⟩
  · rw [g.list, h.list, hlanes, hone, recordsOf_cons hj ls, List.append_assoc, List.singleton_append]
  · rw [recordsOf_cons hj, List.mem_cons] at hm
    by_cases hmj : m = j.record
    · rw [g.other m (hlanes ▸ hmj ▸ hr)]
      exact h.live m v ((hfirst m).mpr hmj) hv
    · exact g.live m v (hlanes ▸ hm.resolve_left hmj) ((h.other m fun e => hmj ((hfirst m).mp e)).trans hv)
  · rw [recordsOf_cons hj, List.mem_cons, not_or] at hm
    exact (g.other m (hlanes ▸ hm.2)).trans (h.other m fun e => hm.1 ((hfirst m).mp e))

section
variable {s : State} {i : Fin 8} {j : Job} {l : Live} {k : Nat}

/-- The record of a lane stalls: the lane is given up, and the record joins the stall list. -/
theorem enterStalled_stalled (h : LanesHold s) (hj : laneAt s i = some j) : LanesStalled k [i] s (enterStalled j.record k s) := by
  obtain ⟨l, hl, ha⟩ := h.1 i j hj
  have hi := h.laneHolding_eq hj
  have hone : recordsOf s [i] = [j.record] := recordsOf_cons hj []
  have hleft := enterStalled_leftLane hl ha hi k
  have hstalls : (nodeAt (leaveHolder j.record l s) k).stallList = (nodeAt s k).stallList := by
    rw [leaveHolder_active ha hi, (abandonLane_abandoned i s).node k]
  refine ⟨hleft.left, ?_, fun m v hm hv => ?_, fun m hm => ?_⟩
  · rw [enterStalled_stallList hl, hstalls, hone]
  · rw [hone, List.mem_singleton] at hm
    subst hm
    rw [hl] at hv
    cases hv
    exact hleft.live
  · rw [hone, List.mem_singleton] at hm
    exact (liveAt_enterStalled hl m).trans (if_neg hm)

/-- A lane busy after a record has stalled is another lane, as busy as before, with a record that has not changed. -/
theorem LanesStalled.busy {t : State} (h : LanesStalled k [i] s t) (hl : LanesHold s) (hj : laneAt s i = some j) {x : Fin 8} {y : Job}
    (hy : laneAt t x = some y) : x ≠ i ∧ laneAt s x = some y ∧ liveAt t y.record = liveAt s y.record := by
  have hne : x ≠ i := by
    rintro rfl
    rw [(h.left.abandoned.1 x List.mem_cons_self).1] at hy
    cases hy
  have hy' : laneAt s x = some y := by rw [← h.left.other x (mt List.mem_singleton.mp hne), hy]
  refine ⟨hne, hy', h.other _ fun hm => ?_⟩
  obtain ⟨x', hx', j', hj', hrec⟩ := mem_recordsOf.mp hm
  rw [List.mem_singleton.mp hx'] at hj'
  exact hne (hl.2 x i y j' hy' hj' hrec.symm)

theorem LanesStalled.lanesHold {t : State} (h : LanesStalled k [i] s t) (hl : LanesHold s) (hj : laneAt s i = some j) : LanesHold t := by
  refine ⟨fun x y hy => ?_, fun x x' y y' hy hy' hrec => hl.2 x x' y y' (h.busy hl hj hy).2.1 (h.busy hl hj hy').2.1 hrec⟩
  obtain ⟨-, hy', hlive⟩ := h.busy hl hj hy
  rw [hlive]
  exact hl.1 x y hy'

/-- The work of the other lanes is what it was. -/
theorem LanesStalled.hasWork {t : State} (h : LanesStalled k [i] s t) (hl : LanesHold s) (hj : laneAt s i = some j) {x : Fin 8} (hx : x ≠ i)
    (ks : List Nat) : laneHasWork t x ks = laneHasWork s x ks := by
  have hlane := h.left.other x (mt List.mem_singleton.mp hx)
  unfold laneHasWork
  rw [hlane]
  cases hy : laneAt s x with
  | none => rfl
  | some y =>
    obtain ⟨-, -, hlive⟩ := h.busy hl hj (hlane.trans hy)
    simp only [hlive]
end

/-- The lanes with work on the slot stall one after another; the others are passed over. -/
theorem foldl_stallLane_stalled {k : Nat} {xs : List (Fin 8)} (hn : xs.Nodup) {s : State} (h : LanesHold s) :
    LanesStalled k (xs.filter (fun i => laneHasWork s i [k])) s (xs.foldl (stallLane k) s) := by
  induction xs generalizing s with
  | nil => exact LanesStalled.nil k s
  | cons i is ih =>
    obtain ⟨hi, his⟩ := List.nodup_cons.mp hn
    rw [List.foldl_cons]
    cases hw : laneHasWork s i [k] with
    | false =>
      rw [List.filter_cons_of_neg (by rw [hw]; exact Bool.false_ne_true), stallLane_of_no_work hw]
      exact ih his h
    | true =>
      obtain ⟨j, l, hj, -⟩ := laneHasWork_busy hw
      have hone : LanesStalled k [i] s (enterStalled j.record k s) := enterStalled_stalled h hj
      have hsame : is.filter (fun x => laneHasWork (enterStalled j.record k s) x [k]) = is.filter (fun x => laneHasWork s x [k]) :=
        List.filter_congr fun x hx => hone.hasWork h hj (fun e => hi (e ▸ hx)) [k]
      have hrest := ih his (hone.lanesHold h hj)
      rw [hsame] at hrest
      rw [List.filter_cons_of_pos (p := fun i => laneHasWork s i [k]) hw, stallLane_of_work hw hj]
      refine hone.cons hj hrest (fun hm => hi (List.mem_filter.mp hm).1) fun hm => ?_
      obtain ⟨x, hx, y, hy, hrec⟩ := mem_recordsOf.mp hm
      exact hi (h.2 x i y j hy hj hrec ▸ (List.mem_filter.mp hx).1)

/-! ### The record whose timeout mutes the node -/

theorem leaveHolder_slot_free {n k : Nat} {l : Live} {s : State} (h : (slotAt s k).use = none) : (slotAt (leaveHolder n l s) k).use = none := by
  unfold leaveHolder
  split
  · exact h
  · exact h
  · split
    · rename_i i _
      rcases (abandonLane_abandoned i s).slot k with hs | hs <;> rw [hs]
      exact h
    · exact h
  · exact h
  · exact h

theorem enterStalled_slot {n : Nat} {l : Live} {s : State} (hl : liveAt s n = some l) (k x : Nat) :
    slotAt (enterStalled n k s) x = slotAt (leaveHolder n l s) x :=
  (enterStalled_laneWork hl k).slotAt_eq x

/-- Record `n` is STALLED on slot `k`, its lane is IDLE and the fetch slots `xs` are free. -/
structure StalledOn (k n : Nat) (l : Live) (i : Fin 8) (xs : List Nat) (s : State) : Prop where
  live : liveAt s n = some { l with state := .stalled k }
  listed : n ∈ (nodeAt s k).stallList
  idle : laneAt s i = none
  slots : ∀ x ∈ xs, (slotAt s x).use = none

/-- Record `n`, which holds `l` and works on slot `k`, is held by lane `i`, the first to hold it, with the fetch slots `xs` its own or free. -/
structure StallsNext (k n : Nat) (l : Live) (i : Fin 8) (j : Job) (xs : List Nat) (s : State) : Prop where
  live : liveAt s n = some l
  lane : laneAt s i = some j
  first : ∀ x, x < i → ∀ y, laneAt s x = some y → y.record ≠ n
  slots : ∀ x ∈ xs, x < 96 ∧ ((slotAt s x).use = none ∨ ∃ ft, (slotAt s x).use = some ft ∧ ft.lane = i)

section
variable {k n : Nat} {l : Live} {i : Fin 8} {j : Job} {xs : List Nat} {s : State}

theorem StalledOn.stallLane (h : StalledOn k n l i xs s) (x : Fin 8) : StalledOn k n l i xs (Machine.stallLane k s x) := by
  cases hw : laneHasWork s x [k] with
  | false =>
    rw [stallLane_of_no_work hw]
    exact h
  | true =>
    obtain ⟨y, v, hy, hv⟩ := laneHasWork_busy hw
    rw [stallLane_of_work hw hy]
    have hidle := (enterStalled_steady y.record k s).idle i h.idle
    have hslots : ∀ x ∈ xs, (slotAt (enterStalled y.record k s) x).use = none := fun x hx => by
      rw [enterStalled_slot hv]
      exact leaveHolder_slot_free (h.slots x hx)
    by_cases hn : n = y.record
    · subst hn
      rw [h.live] at hv
      cases hv
      refine ⟨(liveAt_enterStalled h.live _).trans (if_pos rfl), ?_, hidle, hslots⟩
      rw [enterStalled_stallList h.live]
      exact List.mem_append_right _ List.mem_cons_self
    · refine ⟨((liveAt_enterStalled hv n).trans (if_neg hn)).trans h.live, ?_, hidle, hslots⟩
      rw [enterStalled_stallList hv]
      refine List.mem_append_left _ ?_
      have hlisted := h.listed
      unfold leaveHolder
      split
      · exact hlisted
      · rename_i k' _
        by_cases hk : k = k'
        · subst hk
          rw [nodeAt_setNode_same]
          exact (List.mem_erase_of_ne hn).mpr hlisted
        · rwa [nodeAt_setNode_other s hk]
      · split
        · rw [(abandonLane_abandoned _ s).node k]
          exact hlisted
        · exact hlisted
      · exact hlisted
      · exact hlisted

theorem StalledOn.foldl (h : StalledOn k n l i xs s) (ls : List (Fin 8)) : StalledOn k n l i xs (ls.foldl (Machine.stallLane k) s) := by
  induction ls generalizing s with
  | nil => exact h
  | cons x ls ih => exact ih (h.stallLane x)

/-- A lane before the record's stalls another record, if any. -/
theorem StallsNext.stallLane (h : StallsNext k n l i j xs s) (hrec : j.record = n) {x : Fin 8} (hx : x < i) :
    StallsNext k n l i j xs (Machine.stallLane k s x) := by
  cases hw : laneHasWork s x [k] with
  | false =>
    rw [stallLane_of_no_work hw]
    exact h
  | true =>
    obtain ⟨y, v, hy, hv⟩ := laneHasWork_busy hw
    have hne : n ≠ y.record := fun e => h.first x hx y hy e.symm
    rw [stallLane_of_work hw hy]
    have hlanes : ∀ z, laneAt (enterStalled y.record k s) z = laneAt s z ∨ laneAt (enterStalled y.record k s) z = none
        ∧ ∃ w, laneAt s z = some w ∧ w.record = y.record := fun z => by
      rw [(enterStalled_laneWork hv k).laneAt_eq]
      unfold leaveHolder
      split
      · exact .inl rfl
      · exact .inl rfl
      · split
        · rename_i i' hi'
          obtain ⟨w, hw', hwrec⟩ := laneHolding_some hi'
          by_cases hz : z = i'
          · subst hz
            exact .inr ⟨abandonLane_idle z s, w, hw', hwrec⟩
          · exact .inl ((abandonLane_abandoned i' s).other z hz)
        · exact .inl rfl
      · exact .inl rfl
      · exact .inl rfl
    have hslots : ∀ z, slotAt (enterStalled y.record k s) z = slotAt s z ∨ (slotAt (enterStalled y.record k s) z).use = none := fun z => by
      rw [enterStalled_slot hv]
      unfold leaveHolder
      split
      · exact .inl rfl
      · exact .inl rfl
      · split
        · rcases (abandonLane_abandoned _ s).slot z with hs | hs
          · exact .inl hs
          · exact .inr (by rw [hs])
        · exact .inl rfl
      · exact .inl rfl
      · exact .inl rfl
    refine ⟨((liveAt_enterStalled hv n).trans (if_neg hne)).trans h.live, ?_, fun z hz w hw' => ?_, fun z hz => ?_⟩
    · rcases hlanes i with hsame | ⟨-, w, hw', hwrec⟩
      · exact hsame.trans h.lane
      · rw [h.lane] at hw'
        cases hw'
        exact absurd (hrec.symm.trans hwrec) hne
    · rcases hlanes z with hsame | ⟨hnone, -⟩
      · exact h.first z hz w (hsame ▸ hw')
      · rw [hnone] at hw'
        cases hw'
    · obtain ⟨hlt, hown⟩ := h.slots z hz
      refine ⟨hlt, ?_⟩
      rcases hslots z with hsame | hnone
      · rwa [hsame]
      · exact .inl hnone

theorem StallsNext.foldl (h : StallsNext k n l i j xs s) (hrec : j.record = n) {ls : List (Fin 8)} (hls : ∀ x ∈ ls, x < i) :
    StallsNext k n l i j xs (ls.foldl (Machine.stallLane k) s) := by
  induction ls generalizing s with
  | nil => exact h
  | cons x ls ih => exact ih (h.stallLane hrec (hls x List.mem_cons_self)) fun y hy => hls y (List.mem_cons_of_mem x hy)

/-- The record's own lane stalls it. -/
theorem StallsNext.stalled (h : StallsNext k n l i j xs s) (hrec : j.record = n) (ha : l.state = .active) (hwork : k ∈ workNodes l j) :
    StalledOn k n l i xs (Machine.stallLane k s i) := by
  have hi : laneHolding s n = some i := laneHolding_eq_some_iff.mpr ⟨⟨j, h.lane, hrec⟩, h.first⟩
  have hw : laneHasWork s i [k] = true := by
    subst hrec
    simp only [laneHasWork, h.lane, h.live]
    exact List.any_eq_true.mpr ⟨k, hwork, List.contains_iff_mem.mpr List.mem_cons_self⟩
  have hleft := enterStalled_leftLane h.live ha hi k
  rw [stallLane_of_work hw h.lane, hrec]
  refine ⟨hleft.live, ?_, (hleft.left.abandoned.1 i List.mem_cons_self).1, fun x hx => ?_⟩
  · rw [enterStalled_stallList h.live]
    exact List.mem_append_right _ List.mem_cons_self
  · obtain ⟨hlt, hown⟩ := h.slots x hx
    have hslot := hleft.left.abandoned.2 x
    rcases hown with hnone | ⟨ft, hft, hlane⟩
    · simp only [hnone] at hslot
      rw [hslot, hnone]
    · simp only [hft, hlt, hlane, List.mem_cons_self, and_self, if_true] at hslot
      rw [hslot]
end

/-! ### Muting (R76, R77) -/

/-- `w` is `s` with slot `k` MUTED and its consecutive count `c`. -/
structure NodeMuted (k c : Nat) (s w : State) : Prop where
  unanswered : Unanswered s w
  collections : SameCollections s w
  records : w.records = s.records
  work : SameLaneWork s w
  stallList : ∀ x, (nodeAt w x).stallList = (nodeAt s x).stallList
  state : (nodeAt w k).state = .muted
  consecutive : (nodeAt w k).consecutive = c

/-- What a node's muting leaves of the lanes with work on it, once the room is handed on (R77). -/
theorem NodeMuted.mutedWith {k c : Nat} {s w : State} {i : Fin 8} {j : Job} {l : Live} {xs : List Nat} (h : NodeMuted k c s w) (hw : WorksOn s i j l)
    (hwork : k ∈ workNodes l j) (hxs : ∀ x ∈ xs, x < 96 ∧ ∃ ft, (slotAt s x).use = some ft ∧ ft.lane = i) :
    MutedWith s (settle (raise .nodeMuted (laneNumbers.foldl (stallLane k) w))) k c j.record l
      ∧ laneAt (settle (raise .nodeMuted (laneNumbers.foldl (stallLane k) w))) i = none
      ∧ (∀ x ∈ xs, (slotAt (settle (raise .nodeMuted (laneNumbers.foldl (stallLane k) w))) x).use = none)
      ∧ Unanswered s (settle (raise .nodeMuted (laneNumbers.foldl (stallLane k) w)))
      ∧ SameCollections s (settle (raise .nodeMuted (laneNumbers.foldl (stallLane k) w))) := by
  obtain ⟨hj, hl, -, -, ha, hi⟩ := hw
  obtain ⟨-, hfirst⟩ := laneHolding_eq_some_iff.mp hi
  have hlive : ∀ n, liveAt w n = liveAt s n := liveAt_congr h.records
  have hreturn : Returning w (laneNumbers.foldl (stallLane k) w) := Returning.foldl (stallLane_returning k) _ w
  have hnext : StallsNext k j.record l i j xs w := by
    refine ⟨(hlive _).trans hl, (h.work.laneAt_eq i).trans hj, fun x hx y hy => hfirst x hx y ((h.work.laneAt_eq x).symm.trans hy), fun x hx => ?_⟩
    obtain ⟨hlt, hown⟩ := hxs x hx
    rw [h.work.slotAt_eq]
    exact ⟨hlt, .inr hown⟩
  have hstalled : StalledOn k j.record l i xs (laneNumbers.foldl (stallLane k) w) := by
    obtain ⟨pre, post, hsplit⟩ := List.append_of_mem (mem_laneNumbers i)
    have hsorted := laneNumbers_sorted
    rw [hsplit, List.pairwise_append] at hsorted
    obtain ⟨-, -, hcross⟩ := hsorted
    rw [hsplit, List.foldl_append, List.foldl_cons]
    exact ((hnext.foldl rfl fun x hx => hcross x hx i List.mem_cons_self).stalled rfl ha hwork).foldl post
  have hlanes : LanesHold s → ∀ ls, LanesOn s [k] ls → LanesStalled k ls w (laneNumbers.foldl (stallLane k) w) := fun hhold ls hls => by
    have hhold' : LanesHold w := by simpa only [LanesHold, h.work.laneAt_eq, hlive] using hhold
    have hfold := foldl_stallLane_stalled (k := k) (by decide : laneNumbers.Nodup) hhold'
    rw [hls.eq_filter]
    simpa only [laneHasWork_congr h.records h.work.lanes] using hfold
  generalize laneNumbers.foldl (stallLane k) w = v at hreturn hstalled hlanes ⊢
  have hroom := settle_handed (raise .nodeMuted v)
  have hnode : ∀ x, ∃ o, nodeAt (settle (raise .nodeMuted v)) x = { nodeAt v x with outstanding := o } := fun x => by
    obtain ⟨o, -, ho⟩ := hroom.node x
    exact ⟨o, ho⟩
  obtain ⟨o, ho⟩ := hnode k
  obtain ⟨o', ns, hv⟩ := hreturn.node k
  have hlive' : ∀ n, liveAt (settle (raise .nodeMuted v)) n = liveAt v n := settle_liveAt _
  have hsteady := hreturn.steady
  refine ⟨⟨?_, ?_, hroom.flags _ (flagSet_raise_self _ v), (hlive' _).trans hstalled.live, ?_, fun hhold ls hls => ?_⟩,
    hroom.idle i hstalled.idle, fun x hx => ?_, ?_, ?_⟩
  · rw [ho, hv, h.state]
  · rw [ho, hv, h.consecutive]
  · rw [ho]
    exact hstalled.listed
  · have hls' := hlanes hhold ls hls
    have hleft : LanesLeft ls s (raise .nodeMuted v) := hls'.left.of_sameLaneWork h.work ⟨rfl, rfl, rfl, fun _ => rfl⟩
    have hrecords : recordsOf w ls = recordsOf s ls := List.filterMap_congr fun x _ => by rw [h.work.laneAt_eq]
    obtain ⟨habandoned, hfall⟩ := hleft.settle
    refine ⟨habandoned, hfall, ?_, fun m v' hm hv' => ?_⟩
    · rw [ho, ← hrecords, ← h.stallList k]
      exact hls'.list
    · exact (hlive' m).trans (hls'.live m v' (hrecords ▸ hm) ((hlive m).trans hv'))
  · rw [slotAt, hroom.fetch]
    exact hstalled.slots x hx
  · have hraise : Unanswered v (raise .nodeMuted v) := .of_same (SameControl.refl v) rfl rfl
    exact ((h.unanswered.trans hreturn.unanswered).trans hraise).trans (settle_onlyRecord 0 _).toUnanswered
  · obtain ⟨c1, c2, c3⟩ := h.collections
    obtain ⟨-, d1, d2, d3, -, -⟩ := hroom.table
    exact ⟨d1.trans (hsteady.freeList.trans c1), d2.trans (hsteady.liveCount.trans c2), d3.trans (hsteady.index.trans c3)⟩

theorem muteNode_of_serving {k : Nat} {s : State} (h : (nodeAt s k).state = .serving) :
    muteNode k s = raise .nodeMuted (laneNumbers.foldl (stallLane k) (setNode k { nodeAt s k with state := .muted } s)) := by
  rw [muteNode, if_pos h]

/-- A node muted with its consecutive count kept (R105). -/
theorem nodeMuted_at_once (k : Nat) (s : State) : NodeMuted k (nodeAt s k).consecutive s (setNode k { nodeAt s k with state := .muted } s) := by
  refine ⟨.of_same (SameControl.refl s) rfl rfl, ⟨rfl, rfl, rfl⟩, rfl, ⟨rfl, rfl, rfl, fun x => ?_⟩, fun x => ?_, ?_, ?_⟩
  · by_cases hx : x = k
    · rw [hx, nodeAt_setNode_same]
    · rw [nodeAt_setNode_other s hx]
  · by_cases hx : x = k
    · rw [hx, nodeAt_setNode_same]
    · rw [nodeAt_setNode_other s hx]
  · rw [nodeAt_setNode_same]
  · rw [nodeAt_setNode_same]

/-- A timeout report changes one node's consecutive count. -/
theorem nodeAt_raiseConsecutive_same (k : Nat) (s : State) :
    nodeAt (raiseConsecutive k s) k = { nodeAt s k with consecutive := (nodeAt s k).consecutive + 1 } :=
  nodeAt_setNode_same ..

theorem nodeAt_raiseConsecutive_other {k x : Nat} (h : x ≠ k) (s : State) : nodeAt (raiseConsecutive k s) x = nodeAt s x :=
  nodeAt_setNode_other s h _

theorem raiseConsecutive_laneWork (k : Nat) (s : State) : SameLaneWork s (raiseConsecutive k s) := by
  refine ⟨rfl, rfl, rfl, fun x => ?_⟩
  by_cases hx : x = k
  · rw [hx, nodeAt_raiseConsecutive_same]
  · rw [nodeAt_raiseConsecutive_other hx]

theorem raiseConsecutive_stallList (k x : Nat) (s : State) : (nodeAt (raiseConsecutive k s) x).stallList = (nodeAt s x).stallList := by
  by_cases hx : x = k
  · rw [hx, nodeAt_raiseConsecutive_same]
  · rw [nodeAt_raiseConsecutive_other hx]

/-- A node muted at the threshold, its consecutive count raised (R76). -/
theorem nodeMuted_at_threshold (k : Nat) (s : State) : NodeMuted k ((nodeAt s k).consecutive + 1) s
    (setNode k { nodeAt (raiseConsecutive k s) k with state := .muted } (raiseConsecutive k s)) := by
  have h := nodeMuted_at_once k (raiseConsecutive k s)
  refine ⟨.of_same (SameControl.refl s) rfl rfl, ⟨rfl, rfl, rfl⟩, rfl, (raiseConsecutive_laneWork k s).trans h.work,
    fun x => (h.stallList x).trans (raiseConsecutive_stallList k x s), h.state, ?_⟩
  rw [h.consecutive, nodeAt_raiseConsecutive_same]

theorem timeoutMutes_iff {s : State} {k : Nat} :
    timeoutMutes s k = true ↔ (nodeAt s k).state = .serving ∧ s.settings.threshold ≤ (nodeAt s k).consecutive + 1 := by
  simp [timeoutMutes]

end Sys2Proof.Machine

/-! SUPPORT. The answers to a FETCH and its timers (R98 to R107): an accepted chunk, a fetch put back on its lane's list, a segment restart, a record held and
a node muted. -/

namespace Sys2Proof.Machine

/-! ### An accepted chunk (R99, R100) -/

theorem Sparse.mem_insert_of_new {α : Type} {m : Sparse α} {k : Nat} (h : k ∉ m.map (fun e => e.1)) (v : α) (e : Nat × α) :
    e ∈ Sparse.insert m k v ↔ e = (k, v) ∨ e ∈ m := by
  induction m with
  | nil => simp [Sparse.insert]
  | cons a m ih =>
    obtain ⟨j, w⟩ := a
    rw [List.map_cons, List.mem_cons, not_or] at h
    obtain ⟨hne, hm⟩ := h
    unfold Sparse.insert
    rw [if_neg hne]
    split
    · exact List.mem_cons
    · rw [List.mem_cons, ih hm, List.mem_cons]
      exact or_left_comm

theorem Sparse.mem_foldl_insert {α : Type} {bs : List (Nat × α)} {m : Sparse α} (hn : (bs.map (fun b => b.1)).Nodup)
    (hb : ∀ b ∈ bs, b.1 ∉ m.map (fun e => e.1)) (e : Nat × α) :
    e ∈ bs.foldl (fun m b => Sparse.insert m b.1 b.2) m ↔ e ∈ m ∨ e ∈ bs := by
  induction bs generalizing m with
  | nil => simp
  | cons b bs ih =>
    rw [List.map_cons, List.nodup_cons] at hn
    have hmem := Sparse.mem_insert_of_new (hb b List.mem_cons_self) b.2
    rw [List.foldl_cons, ih hn.2 fun x hx hin => ?_, hmem, List.mem_cons]
    · tauto
    · obtain ⟨y, hy, hyx⟩ := List.mem_map.mp hin
      rcases (hmem y).mp hy with rfl | hy'
      · exact hn.1 (List.mem_map.mpr ⟨x, hx, hyx.symm⟩)
      · exact hb x (List.mem_cons_of_mem b hx) (List.mem_map.mpr ⟨y, hy', hyx⟩)

theorem chunkForm_accepted {ft : Fetch} {c : DataChunk} (h : chunkForm ft c = .accepted) :
    (c.length = 4096 ∨ c.length = 8192) ∧ ∀ b ∈ chunkBlocks c, b.1 ∉ ft.blocks.map (fun x => x.1) := by
  unfold chunkForm at h
  split at h
  · cases h
  · rename_i hform
    split at h
    · cases h
    · split at h
      · cases h
      · rename_i hany
        refine ⟨by omega, fun b hb hin => hany (List.any_eq_true.mpr ⟨b, hb, List.contains_iff_mem.mpr hin⟩)⟩

theorem mem_chunkBlocks {c : DataChunk} (hl : c.length = 4096 ∨ c.length = 8192) (b : Nat) (bytes : List Byte) :
    (b, bytes) ∈ chunkBlocks c ↔ (b = c.offset / 4096 ∧ bytes = c.data.take 4096)
      ∨ (c.length = 8192 ∧ b = c.offset / 4096 + 1 ∧ bytes = (c.data.drop 4096).take 4096) := by
  rcases hl with h | h <;> simp [chunkBlocks, h, List.range_succ]

theorem chunkBlocks_nodup {c : DataChunk} (hl : c.length = 4096 ∨ c.length = 8192) : ((chunkBlocks c).map (fun b => b.1)).Nodup := by
  rcases hl with h | h <;> simp [chunkBlocks, h, List.range_succ]

/-- The blocks of the slot after an accepted chunk: those before it and the chunk's. -/
theorem mem_blocks_fetchAfterChunk {ft : Fetch} {c : DataChunk} (h : chunkForm ft c = .accepted) (st : Settings) (e : Nat × List Byte) :
    e ∈ (fetchAfterChunk st ft c).blocks ↔ e ∈ ft.blocks ∨ e ∈ chunkBlocks c := by
  obtain ⟨hl, hnew⟩ := chunkForm_accepted h
  exact Sparse.mem_foldl_insert (chunkBlocks_nodup hl) hnew e

theorem fetchAfterChunk_conflict (st : Settings) (ft : Fetch) (c : DataChunk) :
    (fetchAfterChunk st ft c).conflict = true ↔ ft.conflict = true ∨ ∃ a, ft.announced = some a ∧ a ≠ c.crc := by
  have heq : (fetchAfterChunk st ft c).conflict = (ft.conflict || (match ft.announced with
      | some a => a != c.crc
      | none => false)) := rfl
  rw [heq]
  cases ft.announced <;> simp

section
variable {f : Frame} {c : DataChunk} {ft : Fetch} {s : State}

/-- A chunk that passes the tests of R98 and R99 is accepted. -/
theorem effect_fetchData_accepted (ha : Arrives s f) (hf : fromFenced s f.src = false) (hb : parseFetchData f.body = some c)
    (htag : taggedFetch s f.src c.slot c.generation = some ft) (hform : chunkForm ft c = .accepted) :
    effect (.fetchData f []) s = acceptChunk c.slot ft c s := by
  have happly : effect (.fetchData f []) s = applyFetchData f c s := nodeAnswer_of_readable ha hf hb (applyFetchData f)
  rw [happly]
  simp only [applyFetchData, htag, hform]
end

/-- The slot after an accepted chunk, its segment not yet judged. -/
def slotWithChunk (k : Nat) (ft : Fetch) (c : DataChunk) (s : State) : State :=
  setSlot k { generation := (slotAt s k).generation, use := some (fetchAfterChunk s.settings ft c) } s

theorem acceptChunk_of_incomplete {k : Nat} {ft : Fetch} {c : DataChunk} {s : State}
    (h : bytesReceived (fetchAfterChunk s.settings ft c) ≠ ft.length) : acceptChunk k ft c s = slotWithChunk k ft c s :=
  if_neg h

theorem acceptChunk_of_complete {k : Nat} {ft : Fetch} {c : DataChunk} {s : State}
    (h : bytesReceived (fetchAfterChunk s.settings ft c) = ft.length) :
    acceptChunk k ft c s = settle (completeSegment k (fetchAfterChunk s.settings ft c) (slotWithChunk k ft c s)) :=
  if_pos h

/-- Settles O43: the slot's fetch is the one after the chunk, and nothing else has changed. -/
theorem fetchDataAccepted : Obligations.FetchDataAccepted := by
  intro f c ft s ha hf hb hk hu hg hsrc hform hmore
  have htag : taggedFetch s f.src c.slot c.generation = some ft := taggedFetch_eq_some_iff.mpr ⟨hk, hu, hg, hsrc⟩
  have heff := (effect_fetchData_accepted ha hf hb htag hform).trans (acceptChunk_of_incomplete hmore)
  obtain ⟨pu, pr, ht⟩ := exec_silent heff rfl
  obtain ⟨hlen, -⟩ := chunkForm_accepted hform
  have hblocks := mem_blocks_fetchAfterChunk hform s.settings
  have hslot : slotAt (slotWithChunk c.slot ft c s) c.slot = { generation := c.generation, use := some (fetchAfterChunk s.settings ft c) } :=
    (slotAt_setSlot_same ..).trans (by rw [hg])
  refine ⟨_, fetchAfterChunk s.settings ft c, ht, hslot, fun b => ?_, fun b bytes => ?_, rfl, fetchAfterChunk_conflict s.settings ft c, rfl,
    fun hnil => if_pos hnil, fun hne => if_neg hne, fun x hx => slotAt_setSlot_other s hx _, SameTable.refl s, rfl, rfl, rfl, SameQueues.refl s,
    SameControl.refl s, rfl, rfl⟩
  · have hkeys : b ∈ (fetchAfterChunk s.settings ft c).blocks.map (fun x => x.1)
        ↔ b ∈ ft.blocks.map (fun x => x.1) ∨ b ∈ (chunkBlocks c).map (fun x => x.1) := by
      simp only [List.mem_map, hblocks, or_and_right, exists_or]
    rw [hkeys, mem_chunkBlocks_number hlen]
  · rw [hblocks, mem_chunkBlocks hlen]

/-! ### A fetch put back (R90, R102, R104, R106) -/

/-- The state once slot `k` is freed and its read is back on the list of its lane, whose job was `j`. -/
def reissuedState (k : Nat) (ft : Fetch) (j : Job) (s : State) : State :=
  setLane ft.lane (some { j with pendingFetches := insertPending { source := ft.source, attempt := 2 } j.pendingFetches })
    (lowerOutstanding ft.node (setSlot k { generation := (slotAt s k).generation, use := none } s))

theorem endFetch_of_use {k : Nat} {ft : Fetch} {s : State} (hu : (slotAt s k).use = some ft) :
    endFetch k s = lowerOutstanding ft.node (setSlot k { generation := (slotAt s k).generation, use := none } s) := by
  simp only [endFetch, hu]

theorem reissue_eq {k : Nat} {ft : Fetch} {j : Job} {s : State} (hu : (slotAt s k).use = some ft) (hj : laneAt s ft.lane = some j) :
    reissue k ft s = reissuedState k ft j s := by
  have hlane : laneAt (lowerOutstanding ft.node (setSlot k { generation := (slotAt s k).generation, use := none } s)) ft.lane = some j := hj
  simp only [reissue, endFetch_of_use hu, hlane]
  rfl

theorem slotAt_reissuedState (k : Nat) (ft : Fetch) (j : Job) (s : State) :
    slotAt (reissuedState k ft j s) k = { generation := (slotAt s k).generation, use := none } :=
  slotAt_setSlot_same ..

theorem laneAt_reissuedState (k : Nat) (ft : Fetch) (j : Job) (s : State) : laneAt (reissuedState k ft j s) ft.lane
    = some { j with pendingFetches := insertPending { source := ft.source, attempt := 2 } j.pendingFetches } :=
  laneAt_setLane_same ..

theorem nodeAt_reissuedState_same (k : Nat) (ft : Fetch) (j : Job) (s : State) :
    nodeAt (reissuedState k ft j s) ft.node = { nodeAt s ft.node with outstanding := (nodeAt s ft.node).outstanding - 1 } :=
  nodeAt_setNode_same s ft.node _

theorem nodeAt_reissuedState_other (k : Nat) (ft : Fetch) (j : Job) (s : State) {x : Nat} (hx : x ≠ ft.node) :
    nodeAt (reissuedState k ft j s) x = nodeAt s x :=
  nodeAt_setNode_other s hx _

theorem reissuedState_kept (k : Nat) (ft : Fetch) (j : Job) (s : State) : SameTable s (reissuedState k ft j s) ∧ SameQueues s (reissuedState k ft j s)
    ∧ SameControl s (reissuedState k ft j s) ∧ (reissuedState k ft j s).mode = s.mode := by
  have heq : ∃ ls fs ns, reissuedState k ft j s = { s with lanes := ls, fetch := fs, nodes := ns } := ⟨_, _, _, rfl⟩
  obtain ⟨ls, fs, ns, heq⟩ := heq
  rw [heq]
  exact ⟨SameTable.refl s, SameQueues.refl s, SameControl.refl s, rfl⟩

theorem reissuedState_waitList (k : Nat) (ft : Fetch) (j : Job) (s : State) : (reissuedState k ft j s).waitList = s.waitList := by
  have heq : ∃ ls fs ns, reissuedState k ft j s = { s with lanes := ls, fetch := fs, nodes := ns } := ⟨_, _, _, rfl⟩
  obtain ⟨ls, fs, ns, heq⟩ := heq
  rw [heq]

/-! ### A segment restart (R107) -/

section
variable {ft : Fetch} {l : Live} {s : State} (hl : liveAt s ft.record = some l) (ha : l.state = .active)
  (hi : laneHolding s ft.record = some ft.lane)
include hl ha hi

theorem restartSegment_leftLane :
    LeftLane ft.lane ft.record { l with state := .waiting, stamp := s.queueSeq } (count .segmentRestart s) (restartSegment ft s) :=
  enterWaiting_leftLane (s := count .segmentRestart s) hl ha hi

/-- A restart requeues the record, gives up its lane and is counted. -/
theorem restartSegment_settled : Requeued s (settle (restartSegment ft s)) ft.record l ∧ LaneDropped s (settle (restartSegment ft s)) ft.lane
    ∧ counterValue .segmentRestart (settle (restartSegment ft s)) = saturatingSucc (counterValue .segmentRestart s)
    ∧ (∀ k, (nodeAt (settle (restartSegment ft s)) k).consecutive = (nodeAt s k).consecutive)
    ∧ OtherRecords s (settle (restartSegment ft s)) ft.record ∧ SameCollections s (settle (restartSegment ft s))
    ∧ SameControl s (settle (restartSegment ft s)) := by
  have hw : l.state ≠ .waiting := fun h => RecState.noConfusion (ha.symm.trans h)
  obtain ⟨hlive, hjoined⟩ := enterWaiting_requeued (s := count .segmentRestart s) hl hw
  have hcount := enterWaiting_counters (s := count .segmentRestart s) hl (by decide : Counter.segmentRestart ≠ .noticeDropped)
  obtain ⟨-, hdrop, hone, hnode⟩ := (restartSegment_leftLane hl ha hi).settle
  have hroom := settle_handed (restartSegment ft s)
  obtain ⟨hseq, hfg, hbg⟩ := hroom.queues
  refine ⟨⟨(settle_liveAt _ _).trans hlive, hseq.trans hjoined.1, ?_⟩, hdrop, ?_, fun k => ?_, hone.others, hone.collections, hone.control⟩
  · rw [hfg, hbg]
    exact hjoined.2
  · rw [counterValue, hroom.counters]
    exact hcount.trans (counterValue_count s .segmentRestart)
  · obtain ⟨o, ns, hn⟩ := hnode k
    rw [hn]
    rfl
end

/-! ### FETCH_FAIL (R106) -/

section
variable {f : Frame} {r : FailReport} {ft : Fetch} {s : State}

theorem effect_fetchFail (ha : Arrives s f) (hf : fromFenced s f.src = false) (hb : parseFetchFail f.body = some r) :
    effect (.fetchFail f) s = applyFetchFail f r s :=
  nodeAnswer_of_readable ha hf hb (applyFetchFail f)

theorem applyFetchFail_lost (htag : taggedFetch s f.src r.slot r.generation = some ft) (h : r.status = 1 ∨ r.status = 2) :
    applyFetchFail f r s = settle (enterHeld ft.record (.sourceLost ft.source) s) := by
  simp only [applyFetchFail, htag, if_pos h]

theorem applyFetchFail_busy (htag : taggedFetch s f.src r.slot r.generation = some ft) (h : r.status = 3) :
    applyFetchFail f r s = settle (retryFetch r.slot ft s) := by
  have hne : ¬ (r.status = 1 ∨ r.status = 2) := by
    rw [h]
    decide
  simp only [applyFetchFail, htag, if_neg hne, if_pos h]

theorem applyFetchFail_undefined (htag : taggedFetch s f.src r.slot r.generation = some ft) (h1 : r.status ≠ 1) (h2 : r.status ≠ 2)
    (h3 : r.status ≠ 3) : applyFetchFail f r s = count .malformed s := by
  simp only [applyFetchFail, htag, if_neg (not_or.mpr ⟨h1, h2⟩), if_neg h3]
end

/-- Settles O45: the report's tag finds its fetch, and its status says what becomes of the record's lane. -/
theorem fetchFailOutcomes : Obligations.FetchFailOutcomes := by
  intro f r s ha hb discards
  have hcount : ∀ {d}, effect (.fetchFail f) s = count d s → discards d := fun h => by
    obtain ⟨t, ht, hq, hout, hval⟩ := commit_count_quiet _ s
    exact ⟨t, (exec_eq_commit (.fetchFail f) s).trans (h ▸ ht), hq, hout, hval⟩
  refine ⟨fun hf => hcount (nodeAnswer_of_fenced ha hf _ _), fun hf => ?_⟩
  have happly := effect_fetchFail ha hf hb
  refine ⟨fun hlate => hcount ?_, fun ft hk hu hg hsrc => ?_⟩
  · rw [happly, applyFetchFail, taggedFetch_eq_none hlate]
  have htag : taggedFetch s f.src r.slot r.generation = some ft := taggedFetch_eq_some_iff.mpr ⟨hk, hu, hg, hsrc⟩
  refine ⟨fun h1 h2 h3 => hcount (happly.trans (applyFetchFail_undefined htag h1 h2 h3)), fun j l hw hrec => ?_⟩
  obtain ⟨hj, hl, -, -, hact, hi⟩ := hw
  rw [hrec] at hl hi
  have hlt : r.slot < 96 := Nat.lt_succ_iff.mpr hk
  refine ⟨fun hst => ?_, fun hst hatt hnothing => ?_, fun hst hatt => ?_⟩
  · obtain ⟨hgiven, hdrop, hone, -⟩ := (enterHeld_leftLane hl hact hi (.sourceLost ft.source)).settle
    have hflag := (settle_handed _).flags _ (enterHeld_flag hl (.sourceLost ft.source))
    have heff := happly.trans (applyFetchFail_lost htag hst)
    generalize settle (enterHeld ft.record (.sourceLost ft.source) s) = u at heff hgiven hdrop hone hflag
    obtain ⟨t, ht, pu, pr, msgs, rfl⟩ := exec_ended_of heff
    exact ⟨_, ht, hgiven, hdrop, hflag, (hdrop.slot hlt hu rfl).trans (by rw [hg]), hone.others, hone.collections, hone.control⟩
  · have heff : effect (.fetchFail f) s = reissuedState r.slot ft j s := by
      rw [happly, applyFetchFail_busy htag hst, retryFetch, if_pos hatt, reissue_eq hu hj]
      exact settle_of_nothing hnothing.1 hnothing.2
    have hslot := slotAt_reissuedState r.slot ft j s
    rw [hg] at hslot
    have hlane := laneAt_reissuedState r.slot ft j s
    have hnode := nodeAt_reissuedState_same r.slot ft j s
    have hother := fun x => nodeAt_reissuedState_other r.slot ft j s (x := x)
    obtain ⟨htable, hqueues, hcontrol, hmode⟩ := reissuedState_kept r.slot ft j s
    generalize reissuedState r.slot ft j s = u at heff hslot hlane hnode hother htable hqueues hcontrol hmode
    obtain ⟨t, ht, pu, pr, msgs, rfl⟩ := exec_ended_of heff
    exact ⟨_, ht, hslot, hlane, hnode, hother, htable, hqueues, hcontrol, hmode⟩
  · have heff : effect (.fetchFail f) s = settle (restartSegment ft s) := by
      rw [happly, applyFetchFail_busy htag hst, retryFetch, if_neg hatt]
    obtain ⟨hrequeued, hdrop, hcounted, hcons, hothers, hcoll, hcontrol⟩ := restartSegment_settled hl hact hi
    generalize settle (restartSegment ft s) = u at heff hrequeued hdrop hcounted hcons hothers hcoll hcontrol
    obtain ⟨t, ht, pu, pr, msgs, rfl⟩ := exec_ended_of heff
    exact ⟨_, ht, hrequeued, hdrop, (hdrop.slot hlt hu rfl).trans (by rw [hg]), hcounted, hcons, hothers, hcoll, hcontrol⟩

/-! ### The fetch timers (R103 to R105) -/

theorem firstChunkExpiry_of_due {k : Nat} {ft : Fetch} {s : State} (hu : (slotAt s k).use = some ft) (h : ft.firstTimer = some 0) :
    firstChunkExpiry k s = if timeoutMutes s ft.node then settle (muteNode ft.node (raiseConsecutive ft.node s))
      else settle (retryFetch k ft (raiseConsecutive ft.node s)) := by
  simp only [firstChunkExpiry, hu, if_pos h]

theorem firstChunkExpiry_of_not_due {k : Nat} {ft : Fetch} {s : State} (hu : (slotAt s k).use = some ft) (h : ft.firstTimer ≠ some 0) :
    firstChunkExpiry k s = s := by
  simp only [firstChunkExpiry, hu, if_neg h]

theorem streamExpiry_of_due {k : Nat} {ft : Fetch} {s : State} (hu : (slotAt s k).use = some ft) (h : ft.streamTimer = some 0) :
    streamExpiry k s = settle (muteNode ft.node s) := by
  simp only [streamExpiry, hu, if_pos h]

theorem streamExpiry_of_not_due {k : Nat} {ft : Fetch} {s : State} (hu : (slotAt s k).use = some ft) (h : ft.streamTimer ≠ some 0) :
    streamExpiry k s = s := by
  simp only [streamExpiry, hu, if_neg h]

theorem muteNode_raiseConsecutive {k : Nat} {s : State} (h : (nodeAt s k).state = .serving) : muteNode k (raiseConsecutive k s)
    = raise .nodeMuted (laneNumbers.foldl (stallLane k)
      (setNode k { nodeAt (raiseConsecutive k s) k with state := .muted } (raiseConsecutive k s))) := by
  refine muteNode_of_serving ?_
  rw [nodeAt_raiseConsecutive_same, h]

/-- Settles O46: below the threshold the fetch is put back or its segment restarted; at it, or by the stream timer, its node is muted, on which its record
has work. -/
theorem fetchTimersExpire : Obligations.FetchTimersExpire := by
  intro k ft s hu
  have hfirst : effect (.firstChunkTimerExpiry k) s = firstChunkExpiry k.val s := rfl
  have hstream : effect (.streamTimerExpiry k) s = streamExpiry k.val s := rfl
  refine ⟨fun h => exec_nothing (hfirst.trans (firstChunkExpiry_of_not_due hu h)), fun h => exec_nothing (hstream.trans (streamExpiry_of_not_due hu h)), ?_⟩
  intro j l src hw hrec hsrc hnode v
  have hworks := hw
  obtain ⟨hj, hl, -, -, hact, hi⟩ := hw
  have hwork : ft.node ∈ workNodes l j := mem_workNodes.mpr (.inl ⟨src, List.mem_of_getElem? hsrc, hnode⟩)
  have hslot : ∀ x ∈ [k.val], x < 96 ∧ ∃ ft', (slotAt s x).use = some ft' ∧ ft'.lane = ft.lane := fun x hx => by
    rw [List.mem_singleton.mp hx]
    exact ⟨k.isLt, ft, hu, rfl⟩
  refine ⟨fun hdue hserving hthreshold => ?_, fun hdue hbelow hatt hnothing => ?_, fun hdue hbelow hatt => ?_, fun hdue hserving => ?_⟩
  · have heff := (hfirst.trans (firstChunkExpiry_of_due hu hdue)).trans (if_pos (timeoutMutes_iff.mpr ⟨hserving, hthreshold⟩))
    rw [muteNode_raiseConsecutive hserving] at heff
    obtain ⟨hmuted, hidle, hfree, hun, hcoll⟩ := (nodeMuted_at_threshold ft.node s).mutedWith hworks hwork hslot
    rw [hrec] at hmuted
    have hrelease := hfree k.val List.mem_cons_self
    generalize settle (raise .nodeMuted _) = u at heff hmuted hidle hrelease hun hcoll
    obtain ⟨t, ht, pu, pr, msgs, rfl⟩ := exec_ended_of heff
    exact ⟨_, ht, hmuted, hidle, hrelease, hcoll, hun.control⟩
  · have hnot : ¬ timeoutMutes s ft.node = true := fun h => absurd (timeoutMutes_iff.mp h).2 (Nat.not_le.mpr hbelow)
    have heff : effect (.firstChunkTimerExpiry k) s = reissuedState k.val ft j (raiseConsecutive ft.node s) := by
      rw [hfirst, firstChunkExpiry_of_due hu hdue, if_neg hnot, retryFetch, if_pos hatt, reissue_eq (s := raiseConsecutive ft.node s) hu hj]
      exact settle_of_nothing hnothing.1 hnothing.2
    have hn := nodeAt_reissuedState_same k.val ft j (raiseConsecutive ft.node s)
    rw [nodeAt_raiseConsecutive_same] at hn
    have hfree := congrArg FetchSlot.use (slotAt_reissuedState k.val ft j (raiseConsecutive ft.node s))
    have hlane := laneAt_reissuedState k.val ft j (raiseConsecutive ft.node s)
    have hother : ∀ x, x ≠ ft.node → nodeAt (reissuedState k.val ft j (raiseConsecutive ft.node s)) x = nodeAt s x := fun x hx =>
      (nodeAt_reissuedState_other k.val ft j _ hx).trans (nodeAt_raiseConsecutive_other hx s)
    obtain ⟨htable, hqueues, hcontrol, hmode⟩ := reissuedState_kept k.val ft j (raiseConsecutive ft.node s)
    generalize reissuedState k.val ft j (raiseConsecutive ft.node s) = u at heff hfree hlane hn hother htable hqueues hcontrol hmode
    obtain ⟨t, ht, pu, pr, msgs, rfl⟩ := exec_ended_of heff
    exact ⟨_, ht, hfree, hlane, hn, hother, htable, hqueues, hcontrol, hmode⟩
  · have hnot : ¬ timeoutMutes s ft.node = true := fun h => absurd (timeoutMutes_iff.mp h).2 (Nat.not_le.mpr hbelow)
    have heff : effect (.firstChunkTimerExpiry k) s = settle (restartSegment ft (raiseConsecutive ft.node s)) := by
      rw [hfirst, firstChunkExpiry_of_due hu hdue, if_neg hnot, retryFetch, if_neg hatt]
    rw [hrec] at hl hi
    obtain ⟨hrequeued, hdrop, hcounted, hcons, -, hcoll, hcontrol⟩ := restartSegment_settled (s := raiseConsecutive ft.node s) hl hact hi
    have hdrop' := hdrop.of_sameLaneWork (raiseConsecutive_laneWork ft.node s) (SameLaneWork.refl _)
    have hfree := congrArg FetchSlot.use (hdrop'.slot k.isLt hu rfl)
    have hc := (hcons ft.node).trans (congrArg Node.consecutive (nodeAt_raiseConsecutive_same ft.node s))
    generalize settle (restartSegment ft (raiseConsecutive ft.node s)) = u at heff hrequeued hdrop' hfree hc hcounted hcoll hcontrol
    obtain ⟨t, ht, pu, pr, msgs, rfl⟩ := exec_ended_of heff
    exact ⟨_, ht, hrequeued, hdrop', hfree, hc, hcounted, hcoll, hcontrol⟩
  · have heff := hstream.trans (streamExpiry_of_due hu hdue)
    rw [muteNode_of_serving hserving] at heff
    obtain ⟨hmuted, hidle, hfree, hun, hcoll⟩ := (nodeMuted_at_once ft.node s).mutedWith hworks hwork hslot
    rw [hrec] at hmuted
    have hrelease := hfree k.val List.mem_cons_self
    generalize settle (raise .nodeMuted _) = u at heff hmuted hidle hrelease hun hcoll
    obtain ⟨t, ht, pu, pr, msgs, rfl⟩ := exec_ended_of heff
    exact ⟨_, ht, hmuted, hidle, hrelease, hcoll, hun.control⟩

end Sys2Proof.Machine

/-! SUPPORT. A complete segment (R101, R102, R120, R121): its data added into the accumulators, and the entry into PLACE, where each needed target's store
begins or waits (R134 to R138). -/

namespace Sys2Proof.Machine

/-! ### An attempt begins or waits (R137) -/

/-- The store record as its attempt joins the wait list. -/
def attemptWaits (st : Store) : Store :=
  { st with state := .queued, chunksSent := 0, timer := none }

theorem beginAttempt_started {i : Fin 8} {q : Nat} {j : Job} {st : Store} {s : State} (hst : storeAt s i q = some (j, st))
    (hroom : hasRoom s st.dest = true) : Started i q j st s (beginAttempt i q s) := by
  simp only [beginAttempt, hst, if_pos hroom]
  exact startAttempt_started hst

theorem beginAttempt_of_full {i : Fin 8} {q : Nat} {j : Job} {st : Store} {s : State} (hst : storeAt s i q = some (j, st))
    (hroom : hasRoom s st.dest = false) : beginAttempt i q s
      = { setLane i (some (withStore j q (attemptWaits st))) s with waitList := s.waitList ++ [(i, q)] } := by
  obtain ⟨hj, -⟩ := storeAt_eq_some_iff.mp hst
  have hset := setStore_of_busy hj q (attemptWaits st)
  have hne : ¬ hasRoom s st.dest = true := by
    rw [hroom]
    exact Bool.false_ne_true
  simp only [beginAttempt, hst, if_neg hne]
  exact congrArg (fun u : State => { u with waitList := u.waitList ++ [(i, q)] }) hset

theorem beginAttempt_of_missing {i : Fin 8} {q : Nat} {s : State} (h : storeFor s i q = none) : beginAttempt i q s = s := by
  have hst : storeAt s i q = none := Option.map_eq_none_iff.mp h
  simp only [beginAttempt, hst]

/-- The three things that the beginning of an attempt can be. -/
theorem beginAttempt_cases (i : Fin 8) (q : Nat) (s : State) :
    (storeFor s i q = none ∧ beginAttempt i q s = s)
      ∨ (∃ j st, storeAt s i q = some (j, st) ∧ hasRoom s st.dest = true ∧ Started i q j st s (beginAttempt i q s))
      ∨ ∃ j st, storeAt s i q = some (j, st) ∧ hasRoom s st.dest = false ∧ beginAttempt i q s
        = { setLane i (some (withStore j q (attemptWaits st))) s with waitList := s.waitList ++ [(i, q)] } := by
  cases hst : storeAt s i q with
  | none =>
    have hnone : storeFor s i q = none := Option.map_eq_none_iff.mpr hst
    exact .inl ⟨hnone, beginAttempt_of_missing hnone⟩
  | some e =>
    obtain ⟨j, st⟩ := e
    cases hroom : hasRoom s st.dest with
    | true => exact .inr (.inl ⟨j, st, rfl, hroom, beginAttempt_started hst hroom⟩)
    | false => exact .inr (.inr ⟨j, st, rfl, hroom, beginAttempt_of_full hst hroom⟩)

theorem beginAttempt_roomUsed (i : Fin 8) (q : Nat) (s : State) : RoomUsed s (beginAttempt i q s) := by
  rcases beginAttempt_cases i q s with ⟨-, h⟩ | ⟨j, st, -, hroom, h⟩ | ⟨j, st, -, -, h⟩
  · rw [h]
    exact RoomUsed.refl s
  · exact h.roomUsed hroom
  · rw [h]
    exact .of_nodes rfl

theorem beginAttempt_mode (i : Fin 8) (q : Nat) (s : State) : (beginAttempt i q s).mode = s.mode := by
  rcases beginAttempt_cases i q s with ⟨-, h⟩ | ⟨j, st, -, -, h⟩ | ⟨j, st, -, -, h⟩
  · rw [h]
  · exact h.mode
  · rw [h]
    rfl

theorem foldl_beginAttempt_mode (i : Fin 8) (qs : List Nat) (s : State) : (qs.foldl (fun s q => beginAttempt i q s) s).mode = s.mode := by
  induction qs generalizing s with
  | nil => rfl
  | cons q qs ih => exact (ih _).trans (beginAttempt_mode i q s)

/-- The store of a target whose attempt waits, and the others. -/
theorem storeFor_withStore_same {u : State} {i : Fin 8} {q : Nat} {j : Job} {x st : Store} (hx : findStore j q = some x) (ht : st.target = q)
    (hu : laneAt u i = some (withStore j q st)) : storeFor u i q = some st :=
  storeFor_eq_some_iff.mpr ⟨_, storeAt_withStore hx ht hu⟩

theorem storeFor_setLane_withStore_other {s : State} {i : Fin 8} {q : Nat} {j : Job} {st : Store} (hj : laneAt s i = some j) (ht : st.target = q)
    {x : Fin 8} {y : Nat} (hne : (x, y) ≠ (i, q)) : storeFor (setLane i (some (withStore j q st)) s) x y = storeFor s x y := by
  by_cases hx : x = i
  · subst hx
    rw [storeFor_of_busy (laneAt_setLane_same ..), storeFor_of_busy hj, findStore_withStore_other ht fun hy => hne (by rw [hy])]
  · exact storeFor_of_laneAt (laneAt_setLane_other s hx _) y

/-- Another attempt's beginning leaves a store and its place in the wait list. -/
theorem beginAttempt_other {i : Fin 8} {q : Nat} {s : State} {x : Fin 8 × Nat} (hx : x ≠ (i, q)) :
    storeFor (beginAttempt i q s) x.1 x.2 = storeFor s x.1 x.2 ∧ (x ∈ (beginAttempt i q s).waitList ↔ x ∈ s.waitList) := by
  rcases beginAttempt_cases i q s with ⟨-, h⟩ | ⟨j, st, hst, -, h⟩ | ⟨j, st, hst, -, h⟩
  · rw [h]
    exact ⟨rfl, Iff.rfl⟩
  · exact ⟨h.storeFor_other hst hx, by rw [h.waitList]⟩
  · obtain ⟨hj, hq⟩ := storeAt_eq_some_iff.mp hst
    have ht : (attemptWaits st).target = q := by
      have ht := findStore_target hq
      exact ht
    rw [h]
    refine ⟨storeFor_setLane_withStore_other hj ht hx, ?_⟩
    simp [hx]

/-- The beginning of an attempt leaves a node that is not its store's destination. -/
theorem beginAttempt_node_other {i : Fin 8} {q d : Nat} {s : State} (h : ∀ st, storeFor s i q = some st → st.dest ≠ d) :
    nodeAt (beginAttempt i q s) d = nodeAt s d := by
  rcases beginAttempt_cases i q s with ⟨-, he⟩ | ⟨j, st, hst, -, he⟩ | ⟨j, st, -, -, he⟩
  · rw [he]
  · exact he.node_other (Ne.symm (h st (storeFor_eq_some_iff.mpr ⟨j, hst⟩)))
  · rw [he]
    rfl

/-! ### Several attempts begin, one after another (R136, R137) -/

/-- The attempts of one lane's stores other than `q` leave the store of `q` and its place. -/
theorem foldl_beginAttempt_other {i : Fin 8} {q : Nat} {qs : List Nat} (h : q ∉ qs) (s : State) :
    storeFor (qs.foldl (fun s q => beginAttempt i q s) s) i q = storeFor s i q
      ∧ ((i, q) ∈ (qs.foldl (fun s q => beginAttempt i q s) s).waitList ↔ (i, q) ∈ s.waitList) := by
  induction qs generalizing s with
  | nil => exact ⟨rfl, Iff.rfl⟩
  | cons y ys ih =>
    obtain ⟨hy, hys⟩ := not_or.mp (mt List.mem_cons.mpr h)
    obtain ⟨hstore, hmem⟩ := beginAttempt_other (s := s) (x := (i, q)) (q := y) (i := i) fun e => hy (congrArg Prod.snd e)
    obtain ⟨hstore', hmem'⟩ := ih hys (beginAttempt i y s)
    exact ⟨hstore'.trans hstore, hmem'.trans hmem⟩

/-- A fresh store has begun where its node had room when its turn came, and waits where it had none. -/
theorem foldl_beginAttempt_made {i : Fin 8} {q : Nat} {st : Store} {qs : List Nat} {s : State} (hn : qs.Nodup) (hq : q ∈ qs)
    (hst : storeFor s i q = some st) (hw : (i, q) ∉ s.waitList) (hfresh : attemptWaits st = st) :
    (storeFor (qs.foldl (fun s q => beginAttempt i q s) s) i q = some (attemptBegun st)
        ∧ (i, q) ∉ (qs.foldl (fun s q => beginAttempt i q s) s).waitList ∧ hasRoom s st.dest = true)
      ∨ (storeFor (qs.foldl (fun s q => beginAttempt i q s) s) i q = some st ∧ (i, q) ∈ (qs.foldl (fun s q => beginAttempt i q s) s).waitList
        ∧ hasRoom (qs.foldl (fun s q => beginAttempt i q s) s) st.dest = false
        ∧ ((∀ x ∈ qs, x ≠ q → ∀ y, storeFor s i x = some y → y.dest ≠ st.dest) → hasRoom s st.dest = false)) := by
  induction qs generalizing s with
  | nil => exact absurd hq List.not_mem_nil
  | cons y ys ih =>
    obtain ⟨hy, hys⟩ := List.nodup_cons.mp hn
    rw [List.foldl_cons]
    by_cases hyq : y = q
    · subst hyq
      obtain ⟨hstore, hmem⟩ := foldl_beginAttempt_other (i := i) hy (beginAttempt i y s)
      rw [hstore, hmem]
      rcases beginAttempt_cases i y s with ⟨hnone, -⟩ | ⟨j, st', hat, hroom, h⟩ | ⟨j, st', hat, hfull, h⟩
      · rw [hst] at hnone
        cases hnone
      · obtain rfl : st = st' := by
          rw [storeFor, hat] at hst
          cases hst
          rfl
        exact .inl ⟨h.storeFor_same hat, by rwa [h.waitList], hroom⟩
      · obtain rfl : st = st' := by
          rw [storeFor, hat] at hst
          cases hst
          rfl
        obtain ⟨hj, hfind⟩ := storeAt_eq_some_iff.mp hat
        have htarget := findStore_target hfind
        have hused : RoomUsed s (ys.foldl (fun s q => beginAttempt i q s) (beginAttempt i y s)) :=
          (beginAttempt_roomUsed i y s).trans (RoomUsed.foldl (fun s q => beginAttempt_roomUsed i q s) ys _)
        refine .inr ⟨?_, ?_, hused.hasRoom hfull, fun _ => hfull⟩
        · rw [h, hfresh]
          exact storeFor_withStore_same hfind htarget (laneAt_setLane_same s i _)
        · rw [h]
          exact List.mem_append_right _ List.mem_cons_self
    · have hqy : q ≠ y := Ne.symm hyq
      obtain ⟨hstore, hmem⟩ := beginAttempt_other (s := s) (x := (i, q)) (q := y) (i := i) fun e => hqy (congrArg Prod.snd e)
      have hused := beginAttempt_roomUsed i y s
      rcases ih hys ((List.mem_cons.mp hq).resolve_left hqy) (hstore.trans hst) (mt hmem.mp hw) with ⟨h1, h2, h3⟩ | ⟨h1, h2, h3, h4⟩
      · refine .inl ⟨h1, h2, eq_true_of_ne_false fun hfull => ?_⟩
        rw [hused.hasRoom hfull] at h3
        cases h3
      · refine .inr ⟨h1, h2, h3, fun hunique => ?_⟩
        have hfull := h4 fun x hx hne z hz => by
          have hxy : x ≠ y := fun e => hy (e ▸ hx)
          refine hunique x (List.mem_cons_of_mem y hx) hne z ?_
          rw [← hz]
          exact (beginAttempt_other (s := s) (x := (i, x)) (q := y) (i := i) fun e => hxy (congrArg Prod.snd e)).1.symm
        have hnode := beginAttempt_node_other (s := s) (hunique y List.mem_cons_self hyq)
        rwa [hasRoom, hnode] at hfull

theorem foldl_beginAttempt_waits_nodup {i : Fin 8} {qs : List Nat} {s : State} (hn : qs.Nodup) (hw : s.waitList.Nodup)
    (hnew : ∀ q ∈ qs, (i, q) ∉ s.waitList) : (qs.foldl (fun s q => beginAttempt i q s) s).waitList.Nodup := by
  induction qs generalizing s with
  | nil => exact hw
  | cons y ys ih =>
    obtain ⟨hy, hys⟩ := List.nodup_cons.mp hn
    refine ih hys ?_ fun q hq => ?_
    · change (beginAttempt i y s).waitList.Nodup
      rcases beginAttempt_cases i y s with ⟨-, h⟩ | ⟨j, st, -, -, h⟩ | ⟨j, st, -, -, h⟩
      · rwa [h]
      · rwa [h.waitList]
      · rw [h]
        exact List.nodup_append_comm.mp (List.nodup_cons.mpr ⟨hnew y List.mem_cons_self, hw⟩)
    · have hne : q ≠ y := fun e => hy (e ▸ hq)
      have hmem := (beginAttempt_other (s := s) (x := (i, q)) (q := y) (i := i) fun e => hne (congrArg Prod.snd e)).2
      exact mt hmem.mp (hnew q (List.mem_cons_of_mem y hq))

/-! ### The wait list's turn, for one store (R138) -/

theorem foldl_beginIfRoom_other {x : Fin 8 × Nat} {es : List (Fin 8 × Nat)} (h : x ∉ es) (s : State) :
    storeFor (es.foldl beginIfRoom s) x.1 x.2 = storeFor s x.1 x.2 ∧ (x ∈ (es.foldl beginIfRoom s).waitList ↔ x ∈ s.waitList) := by
  induction es generalizing s with
  | nil => exact ⟨rfl, Iff.rfl⟩
  | cons e es ih =>
    obtain ⟨hx, hxs⟩ := not_or.mp (mt List.mem_cons.mpr h)
    obtain ⟨hstore, hmem⟩ := beginIfRoom_other (s := s) hx
    obtain ⟨hstore', hmem'⟩ := ih hxs (beginIfRoom s e)
    exact ⟨hstore'.trans hstore, hmem'.trans hmem⟩

/-- A store that waits has begun where its node had room when its turn came, and waits on where it had none. -/
theorem foldl_beginIfRoom_made {x : Fin 8 × Nat} {st : Store} {es : List (Fin 8 × Nat)} {s : State} (hn : es.Nodup) (hx : x ∈ es)
    (hwn : s.waitList.Nodup) (hw : x ∈ s.waitList) (hst : storeFor s x.1 x.2 = some st) :
    (storeFor (es.foldl beginIfRoom s) x.1 x.2 = some (attemptBegun st) ∧ x ∉ (es.foldl beginIfRoom s).waitList ∧ hasRoom s st.dest = true)
      ∨ (storeFor (es.foldl beginIfRoom s) x.1 x.2 = some st ∧ x ∈ (es.foldl beginIfRoom s).waitList
        ∧ hasRoom (es.foldl beginIfRoom s) st.dest = false) := by
  induction es generalizing s with
  | nil => exact absurd hx List.not_mem_nil
  | cons e es ih =>
    obtain ⟨he, hes⟩ := List.nodup_cons.mp hn
    rw [List.foldl_cons]
    by_cases hxe : x = e
    · subst hxe
      obtain ⟨hstore, hmem⟩ := foldl_beginIfRoom_other he (beginIfRoom s x)
      rw [hstore, hmem]
      rcases blocked_or_room s x with hb | ⟨j, st', hat, hroom⟩
      · have hused := RoomUsed.foldl beginIfRoom_roomUsed es s
        rw [beginIfRoom_of_blocked hb]
        exact .inr ⟨hst, hw, hused.hasRoom (hb st hst)⟩
      · obtain rfl : st = st' := by
          rw [storeFor, hat] at hst
          cases hst
          rfl
        have hb := beginIfRoom_started hat hroom
        refine .inl ⟨hb.storeFor_same hat, ?_, hroom⟩
        rw [hb.waitList]
        exact fun hin => (hwn.mem_erase_iff.mp hin).1 rfl
    · obtain ⟨hstore, hmem⟩ := beginIfRoom_other (s := s) hxe
      have hwn' : (beginIfRoom s e).waitList.Nodup := by
        rcases blocked_or_room s e with hb | ⟨j, st', hat, hroom⟩
        · rwa [beginIfRoom_of_blocked hb]
        · rw [(beginIfRoom_started hat hroom).waitList]
          exact hwn.erase e
      rcases ih hes ((List.mem_cons.mp hx).resolve_left hxe) hwn' (hmem.mpr hw) (hstore.trans hst) with ⟨h1, h2, h3⟩ | h
      · refine .inl ⟨h1, h2, eq_true_of_ne_false fun hfull => ?_⟩
        rw [(beginIfRoom_roomUsed s e).hasRoom hfull] at h3
        cases h3
      · exact .inr h

/-! ### A lane in PLACE -/

/-- Lane `i` is in PLACE with job `j` and stores for the targets `ts`, in that order. -/
def Placing (i : Fin 8) (j : Job) (ts : List Nat) (s : State) : Prop :=
  ∃ ss, laneAt s i = some { j with phase := .place ss } ∧ ss.map (fun st => st.target) = ts

theorem map_target_replaceStore (ss : List Store) {q : Nat} {st : Store} (ht : st.target = q) :
    (replaceStore ss q st).map (fun x => x.target) = ss.map (fun x => x.target) := by
  induction ss with
  | nil => rfl
  | cons y ys ih =>
    simp only [replaceStore, List.map_cons, List.cons.injEq] at ih ⊢
    refine ⟨?_, ih⟩
    split
    · rename_i hy
      exact ht.trans (beq_iff_eq.mp hy).symm
    · rfl

theorem Placing.setLane_withStore {i x : Fin 8} {j y : Job} {ts : List Nat} {q : Nat} {st : Store} {s : State} (h : Placing i j ts s)
    (hy : laneAt s x = some y) (ht : st.target = q) : Placing i j ts (setLane x (some (withStore y q st)) s) := by
  obtain ⟨ss, hlane, hts⟩ := h
  by_cases hx : i = x
  · subst hx
    rw [hlane] at hy
    cases hy
    exact ⟨replaceStore ss q st, laneAt_setLane_same .., (map_target_replaceStore ss ht).trans hts⟩
  · exact ⟨ss, (laneAt_setLane_other s hx _).trans hlane, hts⟩

theorem Placing.of_lanes {i : Fin 8} {j : Job} {ts : List Nat} {s t : State} (h : Placing i j ts s) (hl : t.lanes = s.lanes) : Placing i j ts t := by
  obtain ⟨ss, hlane, hts⟩ := h
  exact ⟨ss, by rwa [laneAt, hl], hts⟩

theorem Placing.started {i x : Fin 8} {j y : Job} {ts : List Nat} {q : Nat} {st : Store} {s t : State} (h : Placing i j ts s)
    (hst : storeAt s x q = some (y, st)) (hb : Started x q y st s t) : Placing i j ts t := by
  obtain ⟨hy, hq⟩ := storeAt_eq_some_iff.mp hst
  exact (h.setLane_withStore hy (attemptBegun_target hq)).of_lanes hb.lanes

theorem Placing.beginAttempt {i : Fin 8} {j : Job} {ts : List Nat} {s : State} (h : Placing i j ts s) (x : Fin 8) (q : Nat) :
    Placing i j ts (Machine.beginAttempt x q s) := by
  rcases beginAttempt_cases x q s with ⟨-, he⟩ | ⟨y, st, hst, -, he⟩ | ⟨y, st, hst, -, he⟩
  · rwa [he]
  · exact h.started hst he
  · obtain ⟨hy, hq⟩ := storeAt_eq_some_iff.mp hst
    have ht : (attemptWaits st).target = q := by
      have ht := findStore_target hq
      exact ht
    exact (h.setLane_withStore hy ht).of_lanes (by rw [he])

theorem Placing.foldl_beginAttempt {i : Fin 8} {j : Job} {ts : List Nat} (qs : List Nat) {s : State} (h : Placing i j ts s) :
    Placing i j ts (qs.foldl (fun s q => Machine.beginAttempt i q s) s) := by
  induction qs generalizing s with
  | nil => exact h
  | cons q qs ih => exact ih (h.beginAttempt i q)

theorem Placing.foldl_beginIfRoom {i : Fin 8} {j : Job} {ts : List Nat} (es : List (Fin 8 × Nat)) {s : State} (h : Placing i j ts s) :
    Placing i j ts (es.foldl beginIfRoom s) := by
  induction es generalizing s with
  | nil => exact h
  | cons e es ih =>
    refine ih ?_
    rcases blocked_or_room s e with hb | ⟨y, st, hst, hroom⟩
    · rwa [beginIfRoom_of_blocked hb]
    · exact Placing.started (s := { s with waitList := s.waitList.erase e }) h hst (beginIfRoom_started hst hroom)

/-- A store of a lane in PLACE is the one that its target finds, where the targets are distinct. -/
theorem find_of_nodup {ss : List Store} (hn : (ss.map (fun st => st.target)).Nodup) {st : Store} (h : st ∈ ss) :
    ss.find? (fun y => y.target == st.target) = some st := by
  induction ss with
  | nil => exact absurd h List.not_mem_nil
  | cons y ys ih =>
    rw [List.map_cons, List.nodup_cons] at hn
    rcases List.mem_cons.mp h with rfl | h
    · exact List.find?_cons_of_pos (beq_self_eq_true _)
    · have hne : ¬ (y.target == st.target) = true := fun he => hn.1 (List.mem_map.mpr ⟨st, h, (beq_iff_eq.mp he).symm⟩)
      rw [List.find?_cons_of_neg (p := fun y : Store => y.target == st.target) hne]
      exact ih hn.2 h

/-! ### The entry into PLACE (R121, R136) -/

theorem map_target_newStore (l : Live) (j : Job) (qs : List Nat) :
    (qs.filterMap (newStore l j)).map (fun st => st.target) = qs.filter (fun q => decide (q < l.targets.length)) := by
  induction qs with
  | nil => rfl
  | cons q qs ih =>
    by_cases hq : q < l.targets.length
    · have hnew : newStore l j q = some { target := q, frag := (l.targets[q]).frag, dest := (l.targets[q]).dest
                                          crc := segmentCrc ((Sparse.get noBytes j.accs q).take j.segLength), attempt := 1
                                          state := .queued, chunksSent := 0, timer := none } := by
        rw [newStore, List.getElem?_eq_getElem hq]
        rfl
      rw [List.filterMap_cons_some hnew, List.map_cons, ih, List.filter_cons_of_pos (p := fun q => decide (q < l.targets.length)) (decide_eq_true hq)]
    · have hnew : newStore l j q = none := by
        rw [newStore, List.getElem?_eq_none (Nat.le_of_not_lt hq)]
        rfl
      rw [List.filterMap_cons_none hnew, ih, List.filter_cons_of_neg (p := fun q => decide (q < l.targets.length)) (by simpa using hq)]

theorem newStore_eq_some_iff {l : Live} {j : Job} {q : Nat} {st : Store} : newStore l j q = some st ↔ ∃ x, l.targets[q]? = some x
    ∧ st = { target := q, frag := x.frag, dest := x.dest, crc := segmentCrc ((Sparse.get noBytes j.accs q).take j.segLength), attempt := 1
             state := .queued, chunksSent := 0, timer := none } := by
  simp only [newStore, Option.map_eq_some_iff]
  exact exists_congr fun x => and_congr Iff.rfl eq_comm

theorem find_newStore {l : Live} {j : Job} {q : Nat} {st : Store} (hst : newStore l j q = some st) {qs : List Nat} (hq : q ∈ qs) :
    (qs.filterMap (newStore l j)).find? (fun y => y.target == q) = some st := by
  have htarget : ∀ {y : Nat} {x : Store}, newStore l j y = some x → x.target = y := fun h => by
    obtain ⟨z, -, rfl⟩ := newStore_eq_some_iff.mp h
    rfl
  induction qs with
  | nil => exact absurd hq List.not_mem_nil
  | cons y ys ih =>
    by_cases hy : y = q
    · subst hy
      rw [List.filterMap_cons_some hst]
      exact List.find?_cons_of_pos (beq_iff_eq.mpr (htarget hst))
    · have hmem : q ∈ ys := (List.mem_cons.mp hq).resolve_left (Ne.symm hy)
      cases hnew : newStore l j y with
      | none =>
        rw [List.filterMap_cons_none hnew]
        exact ih hmem
      | some x =>
        have hne : ¬ (x.target == q) = true := fun he => hy ((htarget hnew).symm.trans (beq_iff_eq.mp he))
        rw [List.filterMap_cons_some hnew, List.find?_cons_of_neg (p := fun y : Store => y.target == q) hne]
        exact ih hmem

/-- The job as its lane enters PLACE. -/
def placedJob (l : Live) (j : Job) : Job :=
  { j with phase := .place (j.needed.filterMap (newStore l j)) }

theorem enterPlace_of_sound {i : Fin 8} {j : Job} {l : Live} {s : State} (hd : s.dram = []) (hj : laneAt s i = some j)
    (hl : liveAt s j.record = some l) :
    enterPlace i s = j.needed.foldl (fun s q => beginAttempt i q s) (setLane i (some (placedJob l j)) s) := by
  simp only [enterPlace, hj, readRecord_of_sound hd hl, hl]
  rfl

/-- The job with a source's buffer added and its position complete. -/
def combinedJob (j : Job) (e : Source) (p : Nat) (buf : List Byte) : Job :=
  { j with
    complete := insertPosition p j.complete
    accs := j.accs.map (fun a => if a.1 ∈ j.needed then (a.1, gfAddScaled (e.coefs.getD a.1 0) a.2 buf) else a) }

theorem combine_of_sound {i : Fin 8} {p : Nat} {buf : List Byte} {j : Job} {l : Live} {e : Source} {s : State} (hd : s.dram = [])
    (hj : laneAt s i = some j) (hl : liveAt s j.record = some l) (he : l.sources[p]? = some e) :
    combine i p buf s = if (insertPosition p j.complete).length = l.sources.length
      then enterPlace i (setLane i (some (combinedJob j e p buf)) s) else setLane i (some (combinedJob j e p buf)) s := by
  have haccs : addedAccs j e buf = j.accs.map (fun a => if a.1 ∈ j.needed then (a.1, gfAddScaled (e.coefs.getD a.1 0) a.2 buf) else a) := by
    simp only [addedAccs, coefOf, List.contains_iff_mem]
  have hjob : { j with accs := addedAccs j e buf, complete := insertPosition p j.complete } = combinedJob j e p buf := by
    rw [haccs]
    rfl
  simp only [combine, hj, readRecord_of_sound hd hl, hl, he, hjob]

end Sys2Proof.Machine

/-! SUPPORT. The chunk that completes a segment (R101, R102, R121, R136 to R138): what becomes of the slot, of the lane and of its stores. -/

namespace Sys2Proof.Machine

/-! ### The stores of a lane that has entered PLACE, its slot freed -/

/-- Lane `i` in PLACE with the attempts of its needed targets begun or waiting. -/
def attemptsMade (i : Fin 8) (l : Live) (j : Job) (s : State) : State :=
  j.needed.foldl (fun s q => beginAttempt i q s) (setLane i (some (placedJob l j)) s)

theorem attemptsMade_handed (i : Fin 8) (l : Live) (j : Job) (s : State) :
    RoomHanded (setLane i (some (placedJob l j)) s) (attemptsMade i l j s) :=
  RoomHanded.foldl (fun s q => beginAttempt_handed i q s) j.needed _

theorem endFetch_laneWork (k : Nat) (s : State) :
    (endFetch k s).lanes = s.lanes ∧ (endFetch k s).waitList = s.waitList ∧ (endFetch k s).mode = s.mode ∧ (endFetch k s).records = s.records := by
  unfold endFetch
  split <;> exact ⟨rfl, rfl, rfl, rfl⟩

theorem hasRoom_endFetch_other {k d : Nat} {s : State} (h : ∀ ft, (slotAt s k).use = some ft → d ≠ ft.node) :
    hasRoom (endFetch k s) d = hasRoom s d := by
  have hnode : nodeAt (endFetch k s) d = nodeAt s d := by
    unfold endFetch
    split
    · rfl
    · rename_i ft hft
      exact nodeAt_setNode_other _ (h ft hft) _
  rw [hasRoom, hnode]
  rfl

/-- The new store of a needed target has begun, or waits for room that its node still lacks; whether it has begun says whether its node had room, where the
freed slot's node is another and no other store goes there. -/
theorem attemptsMade_store {i : Fin 8} {k q : Nat} {l : Live} {j : Job} {st : Store} {s : State} (hw : s.waitList = []) (hn : j.needed.Nodup)
    (hq : q ∈ j.needed) (hnew : newStore l j q = some st) :
    ((storeFor (handRoom (endFetch k (attemptsMade i l j s))) i q = some (attemptBegun st)
        ∧ (i, q) ∉ (handRoom (endFetch k (attemptsMade i l j s))).waitList)
      ∨ (storeFor (handRoom (endFetch k (attemptsMade i l j s))) i q = some st
        ∧ (i, q) ∈ (handRoom (endFetch k (attemptsMade i l j s))).waitList
        ∧ hasRoom (handRoom (endFetch k (attemptsMade i l j s))) st.dest = false))
    ∧ ((∀ ft, (slotAt s k).use = some ft → st.dest ≠ ft.node) →
      (storeFor (handRoom (endFetch k (attemptsMade i l j s))) i q = some (attemptBegun st) → hasRoom s st.dest = true)
      ∧ ((∀ x ∈ j.needed, x ≠ q → ∀ y, newStore l j x = some y → y.dest ≠ st.dest) → hasRoom s st.dest = true →
        storeFor (handRoom (endFetch k (attemptsMade i l j s))) i q = some (attemptBegun st))) := by
  obtain ⟨x, hx, heq⟩ := newStore_eq_some_iff.mp hnew
  have hfresh : attemptWaits st = st := by rw [heq]; rfl
  have hdiff : some st ≠ some (attemptBegun st) := fun h => by
    have hstate : StoreState.queued = StoreState.sending := by
      rw [heq] at h
      exact congrArg Store.state (Option.some.inj h)
    cases hstate
  have hstart : ∀ y z, y ∈ j.needed → (storeFor (setLane i (some (placedJob l j)) s) i y = some z ↔ newStore l j y = some z) := fun y z hy => by
    rw [storeFor_of_busy (laneAt_setLane_same ..)]
    constructor
    · intro hz
      have hmem := List.mem_of_find?_eq_some hz
      obtain ⟨y', -, hy'⟩ := List.mem_filterMap.mp hmem
      obtain ⟨v, -, hzeq⟩ := newStore_eq_some_iff.mp hy'
      have htarget := findStore_target hz
      have hyy : y' = y := by
        rw [← htarget, hzeq]
      rwa [hyy] at hy'
    · exact fun hz => find_newStore hz hy
  have hmade := foldl_beginAttempt_made (s := setLane i (some (placedJob l j)) s) hn hq ((hstart q st hq).mpr hnew)
    (by rw [setLane_waitList, hw]; exact List.not_mem_nil) hfresh
  have hnodup : (attemptsMade i l j s).waitList.Nodup := foldl_beginAttempt_waits_nodup hn
    (by rw [setLane_waitList, hw]; exact List.nodup_nil) fun y _ => by rw [setLane_waitList, hw]; exact List.not_mem_nil
  have hslot : slotAt (attemptsMade i l j s) k = slotAt s k := by
    rw [slotAt, (attemptsMade_handed i l j s).fetch]
    rfl
  have hroom : ∀ d, hasRoom (setLane i (some (placedJob l j)) s) d = hasRoom s d := fun _ => rfl
  have hmade' : (storeFor (attemptsMade i l j s) i q = some (attemptBegun st) ∧ (i, q) ∉ (attemptsMade i l j s).waitList ∧ hasRoom s st.dest = true)
      ∨ (storeFor (attemptsMade i l j s) i q = some st ∧ (i, q) ∈ (attemptsMade i l j s).waitList ∧ hasRoom (attemptsMade i l j s) st.dest = false
        ∧ ((∀ x ∈ j.needed, x ≠ q → ∀ y, newStore l j x = some y → y.dest ≠ st.dest) → hasRoom s st.dest = false)) := by
    rcases hmade with h | ⟨h1, h2, h3, h4⟩
    · exact .inl h
    · exact .inr ⟨h1, h2, h3, fun hu => h4 fun y hy hne z hz => hu y hy hne z ((hstart y z hy).mp hz)⟩
  clear hmade
  generalize attemptsMade i l j s = u at hmade' hnodup hslot ⊢
  obtain ⟨hlanes, hwaits, -⟩ := endFetch_laneWork k u
  have hstore : storeFor (endFetch k u) i q = storeFor u i q := storeFor_of_laneAt (by rw [laneAt, laneAt, hlanes]) q
  rcases hmade' with ⟨h1, h2, h3⟩ | ⟨h1, h2, h3, h4⟩
  · have hbegun : storeFor (handRoom (endFetch k u)) i q = some (attemptBegun st) := storeFor_foldl_of_begun _ (hstore.trans h1)
    have hout : (i, q) ∉ (handRoom (endFetch k u)).waitList := by
      rw [handRoom, (foldl_beginIfRoom_other (by rwa [hwaits]) (endFetch k u)).2, hwaits]
      exact h2
    exact ⟨.inl ⟨hbegun, hout⟩, fun _ => ⟨fun _ => h3, fun _ _ => hbegun⟩⟩
  · have hturn := foldl_beginIfRoom_made (s := endFetch k u) (x := (i, q)) (st := st) (es := (endFetch k u).waitList) (by rwa [hwaits])
      (by rwa [hwaits]) (by rwa [hwaits]) (by rwa [hwaits]) (hstore.trans h1)
    refine ⟨?_, fun hne => ?_⟩
    · rcases hturn with ⟨g1, g2, -⟩ | h
      · exact .inl ⟨g1, g2⟩
      · exact .inr h
    · have hfull : hasRoom (endFetch k u) st.dest = false := by
        rw [hasRoom_endFetch_other fun ft hft => hne ft (hslot ▸ hft)]
        exact h3
      refine ⟨fun hbegun => ?_, fun hunique hyes => ?_⟩
      · rcases hturn with ⟨-, -, g3⟩ | ⟨g1, -⟩
        · rw [hfull] at g3
          cases g3
        · exact absurd (g1.symm.trans hbegun) hdiff
      · rw [h4 hunique] at hyes
        cases hyes

/-! ### The chunk that completes its segment -/

theorem settle_of_not_drain {s : State} (h : s.mode ≠ .drain) : settle s = handRoom s := by
  have hm : (handRoom s).mode ≠ .drain := by rwa [handRoom_mode]
  rw [settle, endDrain, if_neg fun hd => hm hd.1]

/-- The lanes abandoned and the counts fallen are the same whether the slot's fetch is taken before or after its last chunk. -/
theorem LaneDropped.of_chunk {k : Nat} {ft : Fetch} {c : DataChunk} {s t : State} (hk : k < 96) (hu : (slotAt s k).use = some ft)
    (h : LaneDropped (slotWithChunk k ft c s) t ft.lane) : LaneDropped s t ft.lane := by
  have hsame : slotAt (slotWithChunk k ft c s) k
      = { generation := (slotAt s k).generation, use := some (fetchAfterChunk s.settings ft c) } := slotAt_setSlot_same ..
  have hother : ∀ x, x ≠ k → slotAt (slotWithChunk k ft c s) x = slotAt s x := fun x hx => slotAt_setSlot_other s hx _
  obtain ⟨⟨hidle, hslot⟩, hfall⟩ := h
  have hfetches : ∀ d, fetchesOn (slotWithChunk k ft c s) [ft.lane] d = fetchesOn s [ft.lane] d := fun d => List.countP_congr fun x _ => by
    by_cases hx : x = k
    · subst hx
      simp only [hsame, hu]
      exact Iff.rfl
    · rw [hother x hx]
  refine ⟨⟨hidle, fun x => ?_⟩, fun hwait => ?_⟩
  · have hx := hslot x
    by_cases hxk : x = k
    · subst hxk
      have hown : x < 96 ∧ ft.lane ∈ [ft.lane] := ⟨hk, List.mem_cons_self⟩
      simp only [hsame] at hx
      simp only [hu]
      rw [if_pos hown]
      exact hx.trans (if_pos hown)
    · rwa [hother x hxk] at hx
  · obtain ⟨hlanes, hcounts⟩ := hfall hwait
    exact ⟨hlanes, fun d => by rw [← hfetches d]; exact hcounts d⟩

section
variable {f : Frame} {c : DataChunk} {ft : Fetch} {j : Job} {l : Live} {src : Source} {s : State}

/-- What O44 says of the completed segment's state `t`, whichever way its CRC and its source fall out. -/
structure SegmentCompleted (c : DataChunk) (s t : State) : Prop where
  slot : slotAt t c.slot = { generation := c.generation, use := none }
  collections : SameCollections s t
  control : SameControl s t
  mode : t.mode = s.mode

/-- The lane, its source's data added. -/
def gatheredJob (ft : Fetch) (c : DataChunk) (j : Job) (src : Source) (s : State) : Job :=
  combinedJob j src ft.source (receiveBuffer (fetchAfterChunk s.settings ft c))

/-- The state with the source's data added into the lane, before its slot is freed. -/
def gatheredState (ft : Fetch) (c : DataChunk) (j : Job) (src : Source) (s : State) : State :=
  setLane ft.lane (some (gatheredJob ft c j src s)) (clearConsecutive ft.node (slotWithChunk c.slot ft c s))

theorem nodeAt_gatheredState_same : nodeAt (gatheredState ft c j src s) ft.node = { nodeAt s ft.node with consecutive := 0 } :=
  nodeAt_setNode_same s ft.node _

theorem nodeAt_gatheredState_other {k : Nat} (hk : k ≠ ft.node) : nodeAt (gatheredState ft c j src s) k = nodeAt s k :=
  nodeAt_setNode_other s hk _

theorem slotAt_gatheredState : slotAt (gatheredState ft c j src s) c.slot
    = { generation := (slotAt s c.slot).generation, use := some (fetchAfterChunk s.settings ft c) } :=
  slotAt_setSlot_same ..

theorem gatheredState_kept (ft : Fetch) (c : DataChunk) (j : Job) (src : Source) (s : State) :
    ∃ ls fs ns, gatheredState ft c j src s = { s with lanes := ls, fetch := fs, nodes := ns } := ⟨_, _, _, rfl⟩

/-- With a good CRC the data is added; where it was the last source's, the lane enters PLACE (R101, R120, R121). -/
theorem completeSegment_of_good (hd : s.dram = []) (hj : laneAt s ft.lane = some j) (hl : liveAt s j.record = some l)
    (hsrc : l.sources[ft.source]? = some src) (hgood : goodSegment (fetchAfterChunk s.settings ft c) = true) :
    completeSegment c.slot (fetchAfterChunk s.settings ft c) (slotWithChunk c.slot ft c s)
      = endFetch c.slot (if (insertPosition ft.source j.complete).length = l.sources.length
          then attemptsMade ft.lane l (gatheredJob ft c j src s) (gatheredState ft c j src s) else gatheredState ft c j src s) := by
  have hcombine := combine_of_sound (s := clearConsecutive ft.node (slotWithChunk c.slot ft c s)) (i := ft.lane) (p := ft.source)
    (buf := receiveBuffer (fetchAfterChunk s.settings ft c)) hd hj hl hsrc
  have henter : enterPlace ft.lane (gatheredState ft c j src s)
      = attemptsMade ft.lane l (gatheredJob ft c j src s) (gatheredState ft c j src s) :=
    enterPlace_of_sound (s := gatheredState ft c j src s) hd (laneAt_setLane_same ..) hl
  rw [completeSegment, if_pos hgood, ← henter]
  exact congrArg (endFetch c.slot) hcombine

/-- The source was not the last. -/
theorem completed_of_more (hg : (slotAt s c.slot).generation = c.generation) :
    SegmentCompleted c s (endFetch c.slot (gatheredState ft c j src s))
      ∧ (nodeAt (endFetch c.slot (gatheredState ft c j src s)) ft.node).consecutive = 0
      ∧ (nodeAt (endFetch c.slot (gatheredState ft c j src s)) ft.node).outstanding = (nodeAt s ft.node).outstanding - 1
      ∧ laneAt (endFetch c.slot (gatheredState ft c j src s)) ft.lane = some (gatheredJob ft c j src s)
      ∧ (endFetch c.slot (gatheredState ft c j src s)).records = s.records
      ∧ (endFetch c.slot (gatheredState ft c j src s)).waitList = s.waitList := by
  have hlane : laneAt (gatheredState ft c j src s) ft.lane = some (gatheredJob ft c j src s) := laneAt_setLane_same ..
  have hslot := slotAt_gatheredState (ft := ft) (c := c) (j := j) (src := src) (s := s)
  have hnode := nodeAt_gatheredState_same (ft := ft) (c := c) (j := j) (src := src) (s := s)
  obtain ⟨ls, fs, ns, hkept⟩ := gatheredState_kept ft c j src s
  have hcollections : SameCollections s (gatheredState ft c j src s) := by rw [hkept]; exact ⟨rfl, rfl, rfl⟩
  have hcontrol : SameControl s (gatheredState ft c j src s) := by rw [hkept]; exact SameControl.refl s
  have hmode : (gatheredState ft c j src s).mode = s.mode := by rw [hkept]
  have hrecords : (gatheredState ft c j src s).records = s.records := by rw [hkept]
  have hwaits : (gatheredState ft c j src s).waitList = s.waitList := by rw [hkept]
  clear hkept
  generalize gatheredState ft c j src s = u at hlane hslot hnode hcollections hcontrol hmode hrecords hwaits ⊢
  obtain ⟨hlanes, hwaits', hmode', hrecords'⟩ := endFetch_laneWork c.slot u
  have hended := endFetch_abandoned ft.lane c.slot u
  have hfreed := slotAt_endFetch c.slot u
  have hcount := outstanding_endFetch c.slot ft.node u
  rw [hslot, hg] at hfreed
  refine ⟨⟨hfreed, ?_, ?_, hmode'.trans hmode⟩, ?_, ?_, ?_, hrecords'.trans hrecords, hwaits'.trans hwaits⟩
  · rw [hended.same]
    exact hcollections
  · rw [hended.same]
    exact hcontrol
  · rw [hended.node ft.node]
    exact congrArg Node.consecutive hnode
  · rw [hcount, hnode, fetchesFrom, hslot]
    simp [fetchAfterChunk]
  · rw [laneAt, hlanes]
    exact hlane

/-- The source was the last: the lane is in PLACE, and its stores have begun or wait. -/
theorem completed_of_last (hg : (slotAt s c.slot).generation = c.generation) :
    SegmentCompleted c s (handRoom (endFetch c.slot (attemptsMade ft.lane l (gatheredJob ft c j src s) (gatheredState ft c j src s))))
      ∧ (nodeAt (handRoom (endFetch c.slot (attemptsMade ft.lane l (gatheredJob ft c j src s) (gatheredState ft c j src s)))) ft.node).consecutive = 0
      ∧ Placing ft.lane (gatheredJob ft c j src s) (j.needed.filter (fun q => decide (q < l.targets.length)))
        (handRoom (endFetch c.slot (attemptsMade ft.lane l (gatheredJob ft c j src s) (gatheredState ft c j src s))))
      ∧ (handRoom (endFetch c.slot (attemptsMade ft.lane l (gatheredJob ft c j src s) (gatheredState ft c j src s)))).records = s.records := by
  have hmade := attemptsMade_handed ft.lane l (gatheredJob ft c j src s) (gatheredState ft c j src s)
  have hmode : (attemptsMade ft.lane l (gatheredJob ft c j src s) (gatheredState ft c j src s)).mode = s.mode := foldl_beginAttempt_mode ..
  have hplacing : Placing ft.lane (gatheredJob ft c j src s) (j.needed.filter (fun q => decide (q < l.targets.length)))
      (attemptsMade ft.lane l (gatheredJob ft c j src s) (gatheredState ft c j src s)) :=
    Placing.foldl_beginAttempt _ ⟨_, laneAt_setLane_same .., map_target_newStore l (gatheredJob ft c j src s) j.needed⟩
  have hslot : slotAt (attemptsMade ft.lane l (gatheredJob ft c j src s) (gatheredState ft c j src s)) c.slot
      = slotAt (gatheredState ft c j src s) c.slot := by
    rw [slotAt, hmade.fetch]
    rfl
  have hnode : (nodeAt (attemptsMade ft.lane l (gatheredJob ft c j src s) (gatheredState ft c j src s)) ft.node).consecutive = 0 := by
    obtain ⟨o, -, ho⟩ := hmade.node ft.node
    rw [ho]
    exact congrArg Node.consecutive (nodeAt_gatheredState_same (j := j) (src := src))
  obtain ⟨ls, fs, ns, hkept⟩ := gatheredState_kept ft c j src s
  have hcontrol : SameControl s (attemptsMade ft.lane l (gatheredJob ft c j src s) (gatheredState ft c j src s)) := by
    refine SameControl.trans ?_ hmade.control
    rw [hkept]
    exact SameControl.refl s
  have htable : SameTable s (attemptsMade ft.lane l (gatheredJob ft c j src s) (gatheredState ft c j src s)) := by
    refine SameTable.trans ?_ hmade.table
    rw [hkept]
    exact SameTable.refl s
  clear hkept hmade
  generalize attemptsMade ft.lane l (gatheredJob ft c j src s) (gatheredState ft c j src s) = u at hmode hplacing hslot hnode htable hcontrol ⊢
  obtain ⟨hlanes, -, hmode', hrecords'⟩ := endFetch_laneWork c.slot u
  have hended := endFetch_abandoned ft.lane c.slot u
  have hroom := handRoom_handed (endFetch c.slot u)
  obtain ⟨hrecords, hfree, hcount, hindex, -, -⟩ := htable
  obtain ⟨hrecords'', hfree', hcount', hindex', -, -⟩ := hroom.table
  have hfreed := slotAt_endFetch c.slot u
  rw [hslot, slotAt_gatheredState, hg] at hfreed
  refine ⟨⟨?_, ?_, ?_, ?_⟩, ?_, ?_, ?_⟩
  · rw [slotAt, hroom.fetch]
    exact hfreed
  · have hsame : (endFetch c.slot u).freeList = u.freeList ∧ (endFetch c.slot u).liveCount = u.liveCount ∧ (endFetch c.slot u).index = u.index := by
      rw [hended.same]
      exact ⟨rfl, rfl, rfl⟩
    exact ⟨hfree'.trans (hsame.1.trans hfree), hcount'.trans (hsame.2.1.trans hcount), hindex'.trans (hsame.2.2.trans hindex)⟩
  · have hsame : SameControl u (endFetch c.slot u) := by
      rw [hended.same]
      exact SameControl.refl u
    exact (hcontrol.trans hsame).trans hroom.control
  · exact (handRoom_mode _).trans (hmode'.trans hmode)
  · obtain ⟨o, -, ho⟩ := hroom.node ft.node
    rw [ho, hended.node ft.node]
    exact hnode
  · exact (hplacing.of_lanes hlanes).foldl_beginIfRoom _
  · exact hrecords''.trans (hrecords'.trans hrecords)
end

/-- Each store of a lane that has entered PLACE is its target's new store, begun or waiting; where its node is not the completed fetch's and no other store
goes there, whether it has begun says whether its node had room (R136 to R138). -/
theorem completed_stores {c : DataChunk} {ft : Fetch} {j : Job} {l : Live} {src : Source} {s : State} {ss : List Store} (hw : s.waitList = [])
    (hn : j.needed.Nodup)
    (hlane : laneAt (handRoom (endFetch c.slot (attemptsMade ft.lane l (gatheredJob ft c j src s) (gatheredState ft c j src s)))) ft.lane
      = some { gatheredJob ft c j src s with phase := .place ss })
    (hss : ss.map (fun st => st.target) = j.needed.filter (fun q => decide (q < l.targets.length))) :
    ∀ st ∈ ss, ∃ x st0, l.targets[st.target]? = some x ∧ newStore l (gatheredJob ft c j src s) st.target = some st0
      ∧ ((st = attemptBegun st0
          ∧ (ft.lane, st.target) ∉ (handRoom (endFetch c.slot (attemptsMade ft.lane l (gatheredJob ft c j src s) (gatheredState ft c j src s)))).waitList)
        ∨ (st = st0
          ∧ (ft.lane, st.target) ∈ (handRoom (endFetch c.slot (attemptsMade ft.lane l (gatheredJob ft c j src s) (gatheredState ft c j src s)))).waitList
          ∧ hasRoom (handRoom (endFetch c.slot (attemptsMade ft.lane l (gatheredJob ft c j src s) (gatheredState ft c j src s)))) st.dest = false))
      ∧ (st.dest ≠ ft.node → (∀ y ∈ ss, y.dest = st.dest → y = st) → (st.state = .sending ↔ hasRoom s st.dest = true)) := by
  have hnodup : (ss.map (fun st => st.target)).Nodup := hss ▸ hn.filter _
  have hmem : ∀ q, q ∈ ss.map (fun st => st.target) ↔ q ∈ j.needed ∧ q < l.targets.length := fun q => by
    rw [hss, List.mem_filter, decide_eq_true_eq]
  have hwaits : (gatheredState ft c j src s).waitList = [] := by
    obtain ⟨ls, fs, ns, hkept⟩ := gatheredState_kept ft c j src s
    rw [hkept]
    exact hw
  have hstore := fun q st0 (hq : q ∈ j.needed) hnew =>
    attemptsMade_store (i := ft.lane) (k := c.slot) (l := l) (j := gatheredJob ft c j src s) (q := q) (st := st0) hwaits hn hq hnew
  have hslotNode : ∀ d, d ≠ ft.node → ∀ x, (slotAt (gatheredState ft c j src s) c.slot).use = some x → d ≠ x.node := fun d hd x hx => by
    rw [slotAt_gatheredState] at hx
    cases hx
    exact hd
  have hroom : ∀ d, d ≠ ft.node → hasRoom (gatheredState ft c j src s) d = hasRoom s d := fun d hd => by
    rw [hasRoom, nodeAt_gatheredState_other hd]
    rfl
  generalize handRoom (endFetch c.slot (attemptsMade ft.lane l (gatheredJob ft c j src s) (gatheredState ft c j src s))) = t at hlane hstore ⊢
  have hneed : (gatheredJob ft c j src s).needed = j.needed := rfl
  generalize gatheredJob ft c j src s = j' at hlane hstore hneed ⊢
  have hfor : ∀ st ∈ ss, storeFor t ft.lane st.target = some st := fun st hst =>
    (storeFor_of_busy hlane st.target).trans (find_of_nodup hnodup hst)
  have hnew : ∀ st ∈ ss, ∃ x st0, l.targets[st.target]? = some x ∧ newStore l j' st.target = some st0 ∧ st0.dest = x.dest := fun st hst => by
    obtain ⟨-, hlt⟩ := (hmem st.target).mp (List.mem_map.mpr ⟨st, hst, rfl⟩)
    exact ⟨_, _, List.getElem?_eq_getElem hlt, newStore_eq_some_iff.mpr ⟨_, List.getElem?_eq_getElem hlt, rfl⟩, rfl⟩
  have hcases : ∀ st ∈ ss, ∀ st0, newStore l j' st.target = some st0 → (st = attemptBegun st0 ∧ (ft.lane, st.target) ∉ t.waitList)
      ∨ (st = st0 ∧ (ft.lane, st.target) ∈ t.waitList ∧ hasRoom t st.dest = false) := fun st hst st0 h0 => by
    obtain ⟨hneeded, -⟩ := (hmem st.target).mp (List.mem_map.mpr ⟨st, hst, rfl⟩)
    rcases (hstore st.target st0 hneeded h0).1 with ⟨h1, h2⟩ | ⟨h1, h2, h3⟩
    · exact .inl ⟨Option.some.inj ((hfor st hst).symm.trans h1), h2⟩
    · obtain rfl := Option.some.inj ((hfor st hst).symm.trans h1)
      exact .inr ⟨rfl, h2, h3⟩
  have hdest : ∀ st ∈ ss, ∀ st0, newStore l j' st.target = some st0 → st.dest = st0.dest := fun st hst st0 h0 => by
    rcases hcases st hst st0 h0 with ⟨h, -⟩ | ⟨h, -⟩ <;> rw [h]
    rfl
  intro st hst
  obtain ⟨x, st0, hx, h0, -⟩ := hnew st hst
  obtain ⟨hneeded, -⟩ := (hmem st.target).mp (List.mem_map.mpr ⟨st, hst, rfl⟩)
  have hd := hdest st hst st0 h0
  refine ⟨x, st0, hx, h0, hcases st hst st0 h0, fun hne hunique => ?_⟩
  obtain ⟨hbegan, hbegins⟩ := (hstore st.target st0 hneeded h0).2 (hslotNode st0.dest (hd ▸ hne))
  rw [hroom st0.dest (hd ▸ hne)] at hbegan hbegins
  constructor
  · intro hsending
    rcases hcases st hst st0 h0 with ⟨h, -⟩ | ⟨h, -⟩
    · rw [hd]
      exact hbegan ((hfor st hst).trans (congrArg some h))
    · obtain ⟨z, -, hz⟩ := newStore_eq_some_iff.mp h0
      rw [h, hz] at hsending
      cases hsending
  · intro hyes
    have hb := hbegins (fun q hq hqne y hy hye => ?_) (hd ▸ hyes)
    · have hst' := Option.some.inj ((hfor st hst).symm.trans hb)
      rw [hst']
      rfl
    · obtain ⟨z, hz, hyeq⟩ := newStore_eq_some_iff.mp hy
      obtain ⟨hlt, -⟩ := List.getElem?_eq_some_iff.mp hz
      obtain ⟨w, hw', hwq⟩ := List.mem_map.mp ((hmem q).mpr ⟨hneed ▸ hq, hlt⟩)
      have hwd := hdest w hw' y (hwq ▸ hy)
      have heq := hunique w hw' (by rw [hwd, hye, hd])
      exact hqne (by rw [← hwq, heq])

/-- Settles O44: the four ways in which the CRC and the sources left can fall out. -/
theorem fetchDataCompletes : Obligations.FetchDataCompletes := by
  intro f c ft j l src s ha hsound hf hb hk hu hg hsrc hform hj hrec hl hfixed hact hsource hholds hnothing ft' hcomplete
  have htag : taggedFetch s f.src c.slot c.generation = some ft := taggedFetch_eq_some_iff.mpr ⟨hk, hu, hg, hsrc⟩
  have heff := (effect_fetchData_accepted ha hf hb htag hform).trans (acceptChunk_of_complete hcomplete)
  obtain ⟨hwaits, hmode⟩ := hnothing
  cases hgood : goodSegment ft' with
  | true =>
    rw [completeSegment_of_good hsound hj (hrec ▸ hl) hsource hgood] at heff
    by_cases hlast : (insertPosition ft.source j.complete).length = l.sources.length
    · have hmodeEnd : (endFetch c.slot (attemptsMade ft.lane l (gatheredJob ft c j src s) (gatheredState ft c j src s))).mode ≠ .drain := by
        have hm : (attemptsMade ft.lane l (gatheredJob ft c j src s) (gatheredState ft c j src s)).mode = s.mode := foldl_beginAttempt_mode ..
        rw [(endFetch_laneWork c.slot _).2.2.1, hm]
        exact hmode
      rw [if_pos hlast, settle_of_not_drain hmodeEnd] at heff
      obtain ⟨hdone, hcons, ⟨ss, hlane, hss⟩, hrecords⟩ := completed_of_last (ft := ft) (j := j) (l := l) (src := src) hg
      have hstores := fun hn => completed_stores hwaits hn hlane hss
      have hcrc : ∀ {q st0}, newStore l (gatheredJob ft c j src s) q = some st0 → ∃ x, l.targets[q]? = some x ∧ st0 =
          { target := q, frag := x.frag, dest := x.dest, attempt := 1, state := .queued, chunksSent := 0, timer := none
            crc := segmentCrc ((Sparse.get noBytes (gatheredJob ft c j src s).accs q).take j.segLength) } := fun h =>
        newStore_eq_some_iff.mp h
      generalize handRoom (endFetch c.slot (attemptsMade ft.lane l (gatheredJob ft c j src s) (gatheredState ft c j src s))) = u at *
      obtain ⟨t, ht, pu, pr, msgs, rfl⟩ := exec_ended_of heff
      refine ⟨_, ht, hdone.slot, fun _ hmore => absurd hlast hmore, fun _ _ => ⟨hcons, ⟨_, ss, hlane, rfl, hss, fun hn st hst => ?_⟩, hrecords⟩,
        (fun hbad => nomatch hbad), (fun hbad => nomatch hbad), hdone.collections, hdone.control, hdone.mode⟩
      obtain ⟨x, st0, hx, h0, hmade, hsending⟩ := hstores hn st hst
      obtain ⟨x', hx', hst0⟩ := hcrc h0
      obtain rfl : x = x' := Option.some.inj (hx.symm.trans hx')
      refine ⟨x, hx, ?_⟩
      have hsend : st.dest ≠ ft.node → (∀ y ∈ ss, y.dest = st.dest → y = st)
          → (st.state = .sending ↔ (nodeAt s st.dest).state = .serving ∧ (nodeAt s st.dest).outstanding < (nodeAt s st.dest).limit) :=
        fun hne hunique => (hsending hne hunique).trans hasRoom_iff
      rcases hmade with ⟨hbegun, hout⟩ | ⟨hwaiting, hin, hfull⟩
      · have hfields : st.frag = x.frag ∧ st.dest = x.dest ∧ st.attempt = 1 ∧ st.chunksSent = 0 ∧ st.timer = none
            ∧ st.crc = segmentCrc ((Sparse.get noBytes (gatheredJob ft c j src s).accs st.target).take j.segLength) ∧ st.state = .sending := by
          rw [hst0] at hbegun
          rw [hbegun]
          exact ⟨rfl, rfl, rfl, rfl, rfl, rfl, rfl⟩
        obtain ⟨h1, h2, h3, h4, h5, h6, h7⟩ := hfields
        exact ⟨h1, h2, h3, h4, h5, h6, .inl ⟨h7, hout⟩, hsend⟩
      · have hfields : st.frag = x.frag ∧ st.dest = x.dest ∧ st.attempt = 1 ∧ st.chunksSent = 0 ∧ st.timer = none
            ∧ st.crc = segmentCrc ((Sparse.get noBytes (gatheredJob ft c j src s).accs st.target).take j.segLength) ∧ st.state = .queued := by
          rw [hst0] at hwaiting
          rw [hwaiting]
          exact ⟨rfl, rfl, rfl, rfl, rfl, rfl, rfl⟩
        obtain ⟨h1, h2, h3, h4, h5, h6, h7⟩ := hfields
        refine ⟨h1, h2, h3, h4, h5, h6, .inr ⟨h7, hin, ?_⟩, hsend⟩
        by_cases hserving : (nodeAt u st.dest).state = .serving
        · refine .inr (Nat.le_of_not_lt fun hlt => ?_)
          rw [hasRoom_iff.mpr ⟨hserving, hlt⟩] at hfull
          cases hfull
        · exact .inl hserving
    · rw [if_neg hlast] at heff
      obtain ⟨hdone, hcons, hout, hlane, hrecords, hwait⟩ := completed_of_more (ft := ft) (j := j) (src := src) hg
      have hmodeEnd := hdone.mode
      generalize endFetch c.slot (gatheredState ft c j src s) = u at *
      rw [settle_of_nothing (hwait.trans hwaits) (hmodeEnd ▸ hmode)] at heff
      obtain ⟨t, ht, pu, pr, msgs, rfl⟩ := exec_ended_of heff
      exact ⟨_, ht, hdone.slot, fun _ _ => ⟨hcons, hout, hlane, hrecords⟩, fun _ hall => absurd hall hlast,
        (fun hbad => nomatch hbad), (fun hbad => nomatch hbad), hdone.collections, hdone.control, hdone.mode⟩
  | false =>
    have hbad : completeSegment c.slot ft' (slotWithChunk c.slot ft c s) = if ft.attempt = 1 then reissue c.slot ft' (slotWithChunk c.slot ft c s)
        else enterHeld ft.record (.sourceCorrupt ft.source) (slotWithChunk c.slot ft c s) := by
      rw [completeSegment, hgood]
      rfl
    have huse : slotAt (slotWithChunk c.slot ft c s) c.slot = { generation := c.generation, use := some ft' } :=
      (slotAt_setSlot_same ..).trans (by rw [hg])
    rw [hbad] at heff
    by_cases hatt : ft.attempt = 1
    · have hreissue := reissue_eq (ft := ft') (congrArg FetchSlot.use huse) (s := slotWithChunk c.slot ft c s) hj
      have hchunk : ∃ fs, slotWithChunk c.slot ft c s = { s with fetch := fs } := ⟨_, rfl⟩
      obtain ⟨fs, hchunk⟩ := hchunk
      have hlane : laneAt (reissuedState c.slot ft' j (slotWithChunk c.slot ft c s)) ft.lane
          = some { j with pendingFetches := insertPending { source := ft.source, attempt := 2 } j.pendingFetches } := laneAt_reissuedState ..
      have hslot := slotAt_reissuedState c.slot ft' j (slotWithChunk c.slot ft c s)
      have hnode := congrArg Node.consecutive (nodeAt_reissuedState_same c.slot ft' j (slotWithChunk c.slot ft c s))
      have hwait := reissuedState_waitList c.slot ft' j (slotWithChunk c.slot ft c s)
      obtain ⟨⟨hrecs, hfree, hcount, hindex, -, -⟩, -, hcontrol, hmodeEnd⟩ := reissuedState_kept c.slot ft' j (slotWithChunk c.slot ft c s)
      rw [huse] at hslot
      rw [if_pos hatt, hreissue] at heff
      generalize reissuedState c.slot ft' j (slotWithChunk c.slot ft c s) = u at heff hlane hslot hnode hwait hrecs hfree hcount hindex hcontrol hmodeEnd
      rw [hchunk] at hnode hwait hrecs hfree hcount hindex hcontrol hmodeEnd
      rw [settle_of_nothing (hwait.trans hwaits) (hmodeEnd ▸ hmode)] at heff
      obtain ⟨t, ht, pu, pr, msgs, rfl⟩ := exec_ended_of heff
      exact ⟨_, ht, hslot, (fun h => nomatch h), (fun h => nomatch h), fun _ _ => ⟨hlane, hnode, hrecs⟩,
        fun _ hne => absurd hatt hne, ⟨hfree, hcount, hindex⟩, hcontrol, hmodeEnd⟩
    · have hleft := (enterHeld_leftLane (s := slotWithChunk c.slot ft c s) hl hact hholds (.sourceCorrupt ft.source)).settle
      obtain ⟨hgiven, hdrop, hone, -⟩ := hleft
      have hdrop' := hdrop.of_chunk (Nat.lt_succ_iff.mpr hk) hu
      have hflag := (settle_handed _).flags _ (enterHeld_flag (s := slotWithChunk c.slot ft c s) hl (.sourceCorrupt ft.source))
      have hmodeEnd : (settle (enterHeld ft.record (.sourceCorrupt ft.source) (slotWithChunk c.slot ft c s))).mode = s.mode := by
        have hm : (enterHeld ft.record (.sourceCorrupt ft.source) (slotWithChunk c.slot ft c s)).mode = s.mode := (enterHeld_steady ..).mode
        rw [settle_of_not_drain (by rwa [hm]), handRoom_mode, hm]
      have hslot := hdrop'.slot (Nat.lt_succ_iff.mpr hk) hu rfl
      rw [hg] at hslot
      rw [if_neg hatt] at heff
      generalize settle (enterHeld ft.record (.sourceCorrupt ft.source) (slotWithChunk c.slot ft c s)) = u at *
      obtain ⟨t, ht, pu, pr, msgs, rfl⟩ := exec_ended_of heff
      exact ⟨_, ht, hslot, (fun h => nomatch h), (fun h => nomatch h), fun _ h => absurd h hatt,
        fun _ _ => ⟨hgiven.1, hdrop', hflag⟩, hone.collections, hone.control, hmodeEnd⟩

end Sys2Proof.Machine

/-! SUPPORT. A store attempt that fails (R76, R77, R141, R142, R144): the receipt or the timer that says so, the second attempt, and the target LOST. -/

namespace Sys2Proof.Machine

/-! ### Writes of sound memory (R30) -/

theorem writeWord_of_sound {s : State} (h : s.dram = []) (w : TableWord) : writeWord w s = s := by
  have hset : Sparse.set soundWord s.dram (wordCode w) { first := .clean, second := .clean } = s.dram := by
    rw [h]
    rfl
  exact congrArg (fun d => { s with dram := d }) hset

theorem writeFields_of_sound {s : State} (h : s.dram = []) (n : Nat) (fs : List RecField) : writeFields n fs s = s := by
  induction fs with
  | nil => rfl
  | cons f fs ih =>
    rw [writeFields, List.foldl_cons, writeWord_of_sound h]
    exact ih

/-! ### One target of a record written -/

theorem modify_eq_set {α : Type} {f : α → α} {xs : List α} {q : Nat} {x : α} (h : xs[q]? = some x) : xs.modify q f = xs.set q (f x) := by
  refine List.ext_getElem? fun y => ?_
  rw [List.getElem?_modify, List.getElem?_set]
  by_cases hy : q = y
  · subst hy
    obtain ⟨hlt, heq⟩ := List.getElem?_eq_some_iff.mp h
    simp [hlt, heq]
  · simp [hy]

theorem needsSegment_iff {t : Target} {seg : Nat} : needsSegment t seg = true ↔ t.status = .opened ∧ t.placed = seg := by
  simp [needsSegment]

/-- The record with its target LOST. -/
def lostTarget (l : Live) (q : Nat) (x : Target) : Live :=
  { l with targets := l.targets.set q { x with status := .lost } }

/-- A target that needs the segment becomes LOST, and nothing else changes but the health of words (R144). -/
theorem loseTarget_eq {n q seg : Nat} {l : Live} {x : Target} {s : State} (hl : liveAt s n = some l) (hx : l.targets[q]? = some x)
    (hneeds : needsSegment x seg = true) : ∃ d, loseTarget n q seg s = { setLive n (lostTarget l q x) s with dram := d } := by
  have htargets : l.targets.modify q (fun t => if needsSegment t seg then { t with status := .lost } else t)
      = l.targets.set q { x with status := .lost } := by
    rw [modify_eq_set hx, if_pos hneeds]
  obtain ⟨d, hd⟩ := writeFields_eq n [.status] (setLive n (lostTarget l q x) s)
  refine ⟨d, ?_⟩
  rw [loseTarget, hl]
  simp only [htargets]
  exact hd

/-! ### An attempt failed (R144) -/

/-- The consecutive count of slot `d` has become `c`, and nothing else has changed. -/
structure Reported (d c : Nat) (s u : State) : Prop where
  same : ∃ ns, u = { s with nodes := ns }
  node : nodeAt u d = { nodeAt s d with consecutive := c }
  other : ∀ k, k ≠ d → nodeAt u k = nodeAt s k

theorem Reported.refl (d : Nat) (s : State) : Reported d (nodeAt s d).consecutive s s :=
  ⟨⟨s.nodes, rfl⟩, rfl, fun _ _ => rfl⟩

theorem raiseConsecutive_reported (d : Nat) (s : State) : Reported d ((nodeAt s d).consecutive + 1) s (raiseConsecutive d s) :=
  ⟨⟨_, rfl⟩, nodeAt_raiseConsecutive_same d s, fun _ hk => nodeAt_raiseConsecutive_other hk s⟩

/-- The store record put back for its second attempt. -/
def secondAttempt (st : Store) : Store :=
  { st with attempt := 2, state := .queued, timer := none }

/-- The state in which the second attempt begins or waits. -/
def secondState (i : Fin 8) (j : Job) (st : Store) (s : State) : State :=
  setLane i (some (withStore j st.target (secondAttempt st))) (lowerOutstanding st.dest s)

theorem failAttempt_second {i : Fin 8} {j : Job} {st : Store} {s : State} (hj : laneAt s i = some j) (h : st.attempt = 1) :
    failAttempt i j st s = beginAttempt i st.target (secondState i j st s) := by
  rw [failAttempt, if_pos h]
  exact congrArg (beginAttempt i st.target) (setStore_of_busy (s := lowerOutstanding st.dest s) hj st.target (secondAttempt st))

theorem storeAt_secondState {i : Fin 8} {j : Job} {st : Store} (hfind : findStore j st.target = some st) (s : State) :
    storeAt (secondState i j st s) i st.target = some (withStore j st.target (secondAttempt st), secondAttempt st) := by
  have ht : (secondAttempt st).target = st.target := rfl
  exact storeAt_withStore hfind ht (laneAt_setLane_same ..)

section
variable {i : Fin 8} {j : Job} {st : Store} {s u : State} {c : Nat} (hr : Reported st.dest c s u) (hj : laneAt s i = some j)
  (hfind : findStore j st.target = some st)
include hr

theorem Reported.nodeAt_second : nodeAt (secondState i j st u) st.dest
    = { nodeAt s st.dest with outstanding := (nodeAt s st.dest).outstanding - 1, consecutive := c } := by
  refine (nodeAt_setNode_same u st.dest _).trans ?_
  rw [hr.node]

theorem Reported.nodeAt_second_other {k : Nat} (hk : k ≠ st.dest) : nodeAt (secondState i j st u) k = nodeAt s k :=
  (nodeAt_setNode_other u hk _).trans (hr.other k hk)

theorem Reported.second_kept : SameTable s (secondState i j st u) ∧ SameControl s (secondState i j st u)
    ∧ (secondState i j st u).waitList = s.waitList ∧ (secondState i j st u).mode = s.mode := by
  obtain ⟨ns, hu⟩ := hr.same
  have heq : ∃ ls ns', secondState i j st u = { u with lanes := ls, nodes := ns' } := ⟨_, _, rfl⟩
  obtain ⟨ls, ns', heq⟩ := heq
  rw [heq, hu]
  exact ⟨SameTable.refl s, SameControl.refl s, rfl, rfl⟩

include hj hfind

/-- With room for it the second attempt begins at once. -/
theorem Reported.second_begins {cmd : Instr} (heff : effect cmd s = settle (failAttempt i j st u)) (h : st.attempt = 1)
    (hserving : (nodeAt s st.dest).state = .serving) (hroom : (nodeAt s st.dest).outstanding - 1 < (nodeAt s st.dest).limit) (hw : NothingWaits s) :
    ∃ t j', exec cmd s = .next t
      ∧ storeAt t i st.target = some (j', { st with attempt := 2, state := .sending, chunksSent := 0, timer := none })
      ∧ nodeAt t st.dest = { nodeAt s st.dest with outstanding := (nodeAt s st.dest).outstanding - 1 + 1, consecutive := c }
      ∧ (∀ k, k ≠ st.dest → nodeAt t k = nodeAt s k) ∧ SameTable s t ∧ t.waitList = [] ∧ SameControl s t := by
  have hju : laneAt u i = some j := by
    obtain ⟨ns, hu⟩ := hr.same
    rw [hu]
    exact hj
  have hstore := storeAt_secondState (i := i) hfind u
  have hnode := hr.nodeAt_second (i := i) (j := j)
  have hother := fun k => hr.nodeAt_second_other (i := i) (j := j) (k := k)
  obtain ⟨htable, hcontrol, hwait, hmode⟩ := hr.second_kept (i := i) (j := j)
  rw [failAttempt_second hju h] at heff
  generalize secondState i j st u = v at heff hstore hnode hother htable hcontrol hwait hmode
  have hbegin : Started i st.target (withStore j st.target (secondAttempt st)) (secondAttempt st) v (beginAttempt i st.target v) := by
    refine beginAttempt_started hstore (hasRoom_iff.mpr ?_)
    have hdest : (secondAttempt st).dest = st.dest := rfl
    rw [hdest, hnode]
    exact ⟨hserving, hroom⟩
  have hhanded := beginAttempt_handed i st.target v
  have hstored := hbegin.store hstore
  have hnode' : nodeAt (beginAttempt i st.target v) st.dest = { nodeAt v st.dest with outstanding := (nodeAt v st.dest).outstanding + 1 } := hbegin.node
  have hother' := fun k (hk : k ≠ st.dest) => (hbegin.node_other hk).trans (hother k hk)
  have hwait' := hbegin.waitList.trans (hwait.trans hw.1)
  have hmode' := hbegin.mode.trans hmode
  rw [hnode] at hnode'
  clear hbegin
  generalize beginAttempt i st.target v = w at heff hhanded hstored hnode' hother' hwait' hmode'
  rw [settle_of_nothing hwait' (hmode' ▸ hw.2)] at heff
  have htable' := htable.trans hhanded.table
  have hcontrol' := hcontrol.trans hhanded.control
  obtain ⟨t, ht, pu, pr, msgs, rfl⟩ := exec_ended_of heff
  exact ⟨_, _, ht, hstored, hnode', hother', htable', hwait', hcontrol'⟩

/-- Without room the second attempt joins the wait list, which was empty. -/
theorem Reported.second_waits {cmd : Instr} (heff : effect cmd s = settle (failAttempt i j st u)) (h : st.attempt = 1)
    (hfull : (nodeAt s st.dest).limit ≤ (nodeAt s st.dest).outstanding - 1) (hw : NothingWaits s) :
    ∃ t j', exec cmd s = .next t
      ∧ storeAt t i st.target = some (j', { st with attempt := 2, state := .queued, chunksSent := 0, timer := none })
      ∧ nodeAt t st.dest = { nodeAt s st.dest with outstanding := (nodeAt s st.dest).outstanding - 1, consecutive := c }
      ∧ t.waitList = [(i, st.target)] ∧ SameTable s t ∧ SameControl s t := by
  have hju : laneAt u i = some j := by
    obtain ⟨ns, hu⟩ := hr.same
    rw [hu]
    exact hj
  have hstore := storeAt_secondState (i := i) hfind u
  have hnode := hr.nodeAt_second (i := i) (j := j)
  obtain ⟨htable, hcontrol, hwait, hmode⟩ := hr.second_kept (i := i) (j := j)
  rw [failAttempt_second hju h] at heff
  generalize secondState i j st u = v at heff hstore hnode htable hcontrol hwait hmode
  have hnone : hasRoom v st.dest = false := by
    refine Bool.eq_false_iff.mpr fun hyes => ?_
    obtain ⟨-, hlt⟩ := hasRoom_iff.mp hyes
    rw [hnode] at hlt
    exact absurd hlt (Nat.not_lt.mpr hfull)
  have hbegin := beginAttempt_of_full hstore hnone
  obtain ⟨hlane, hfind'⟩ := storeAt_eq_some_iff.mp hstore
  have hhanded := beginAttempt_handed i st.target v
  have hstored : storeAt (beginAttempt i st.target v) i st.target
      = some (withStore (withStore j st.target (secondAttempt st)) st.target (attemptWaits (secondAttempt st)), attemptWaits (secondAttempt st)) := by
    have ht : (attemptWaits (secondAttempt st)).target = st.target := rfl
    rw [hbegin]
    exact storeAt_withStore hfind' ht (laneAt_setLane_same v i _)
  have hnodes : (beginAttempt i st.target v).nodes = v.nodes := by rw [hbegin]; rfl
  have hwait' : (beginAttempt i st.target v).waitList = [(i, st.target)] := by
    rw [hbegin]
    change v.waitList ++ _ = _
    rw [hwait, hw.1]
    rfl
  have hmode' : (beginAttempt i st.target v).mode = s.mode := (beginAttempt_mode ..).trans hmode
  clear hbegin
  generalize beginAttempt i st.target v = w at heff hhanded hstored hnodes hwait' hmode'
  have hsame : ∀ k, nodeAt w k = nodeAt v k := fun k => by rw [nodeAt, hnodes]; rfl
  have hblocked : ∀ e ∈ w.waitList, Blocked w e := fun e he st' hst' => by
    rw [hwait', List.mem_singleton] at he
    subst he
    rw [storeFor, hstored] at hst'
    cases hst'
    rw [hasRoom, hsame]
    exact hnone
  have hturn : handRoom w = w := foldl_beginIfRoom_of_blocked hblocked
  rw [settle_of_not_drain (hmode' ▸ hw.2), hturn] at heff
  have htable' := htable.trans hhanded.table
  have hcontrol' := hcontrol.trans hhanded.control
  obtain ⟨t, ht, pu, pr, msgs, rfl⟩ := exec_ended_of heff
  exact ⟨_, _, ht, hstored, (hsame st.dest).trans hnode, hwait', htable', hcontrol'⟩
end

/-- After the second failure the target is LOST, its record HELD and its lane given up. -/
theorem Reported.target_lost {i : Fin 8} {j : Job} {st : Store} {l : Live} {x : Target} {s u : State} {c : Nat} {cmd : Instr}
    (hr : Reported st.dest c s u) (hwork : WorksOn s i j l) (hx : l.targets[st.target]? = some x) (hopen : x.status = .opened)
    (hplaced : x.placed = j.segment) (heff : effect cmd s = settle (failAttempt i j st u)) (h : st.attempt ≠ 1) :
    ∃ t, exec cmd s = .next t
      ∧ LaneGivenUp t i j.record { l with targets := l.targets.set st.target { x with status := .lost }, state := .held (.destLost st.target) }
      ∧ LaneDropped s t i ∧ flagSet .recordHeld t = true ∧ (nodeAt t st.dest).consecutive = c ∧ OtherRecords s t j.record
      ∧ SameCollections s t ∧ SameControl s t := by
  obtain ⟨hj, hl, -, -, ha, hi⟩ := hwork
  obtain ⟨ns, hu⟩ := hr.same
  have hlu : liveAt u j.record = some l := by rw [hu]; exact hl
  obtain ⟨d, hd⟩ := loseTarget_eq hlu hx (needsSegment_iff.mpr ⟨hopen, hplaced⟩)
  have hnode : nodeAt (loseTarget j.record st.target j.segment u) st.dest = { nodeAt s st.dest with consecutive := c } := by
    rw [hd]
    exact hr.node
  have hwork : SameLaneWork s (loseTarget j.record st.target j.segment u) := by
    refine ⟨by rw [hd, hu]; rfl, by rw [hd, hu]; rfl, by rw [hd, hu]; rfl, fun k => ?_⟩
    have hk : nodeAt (loseTarget j.record st.target j.segment u) k = nodeAt u k := by rw [hd]; rfl
    rw [hk]
    by_cases hkd : k = st.dest
    · rw [hkd, hr.node]
    · rw [hr.other k hkd]
  have hone : OnlyRecord j.record s (loseTarget j.record st.target j.segment u) := by
    rw [hd, hu]
    have hset := setLive_with_onlyRecord j.record (lostTarget l st.target x) d s.fgQueue s.bgQueue s
    exact hset.trans (.of_records (.of_same (SameControl.refl _) rfl rfl) ⟨rfl, rfl, rfl⟩ rfl)
  have hlive : liveAt (loseTarget j.record st.target j.segment u) j.record = some (lostTarget l st.target x) := by
    rw [hd]
    exact liveAt_setLive_same u j.record _
  have hhold : laneHolding (loseTarget j.record st.target j.segment u) j.record = some i := by
    rw [laneHolding_eq_some_iff] at hi ⊢
    simpa only [hwork.laneAt_eq] using hi
  rw [failAttempt, if_neg h] at heff
  generalize loseTarget j.record st.target j.segment u = v at heff hnode hwork hone hlive hhold
  obtain ⟨hgiven, hdrop, hleft, hnodes⟩ := (enterHeld_leftLane hlive ha hhold (.destLost st.target)).settle
  have hflag := (settle_handed _).flags _ (enterHeld_flag hlive (.destLost st.target))
  have hdrop' := hdrop.of_sameLaneWork hwork (SameLaneWork.refl _)
  have hall := hone.trans hleft
  have hcons : (nodeAt (settle (enterHeld j.record (.destLost st.target) v)) st.dest).consecutive = c := by
    obtain ⟨o, ns', hn⟩ := hnodes st.dest
    rw [hn, hnode]
  generalize settle (enterHeld j.record (.destLost st.target) v) = w at heff hgiven hdrop' hflag hall hcons
  obtain ⟨t, ht, pu, pr, msgs, rfl⟩ := exec_ended_of heff
  exact ⟨_, ht, hgiven, hdrop', hflag, hcons, hall.others, hall.collections, hall.control⟩

/-! ### The receipt's tests (R142) -/

theorem receiptStore_eq_some_iff {s : State} {src : EthAddr} {r : Receipt} {i : Fin 8} {j : Job} {st : Store} :
    receiptStore s src r = some (i, j, st) ↔ r.lane = i.val ∧ laneAt s i = some j ∧ j.generation = r.generation ∧ j.segment = r.segment
      ∧ (storesOf j).find? (fun y => y.frag == r.frag) = some st ∧ inFlight st = true ∧ st.attempt = r.attempt ∧ src = (nodeAt s st.dest).addr := by
  constructor
  · intro h
    unfold receiptStore at h
    split at h
    · rename_i hlt
      split at h
      · cases h
      · rename_i j' hj'
        split at h
        · rename_i hgen
          split at h
          · cases h
          · rename_i st' hst'
            split at h
            · rename_i htests
              cases h
              exact ⟨rfl, hj', hgen.1, hgen.2, hst', htests⟩
            · cases h
        · cases h
    · cases h
  · rintro ⟨hlane, hj, hgen, hseg, hfind, htests⟩
    have hlt : r.lane < 8 := hlane ▸ i.isLt
    have hi : (⟨r.lane, hlt⟩ : Fin 8) = i := Fin.ext hlane
    simp only [receiptStore, dif_pos hlt, hi, hj, if_pos (And.intro hgen hseg), hfind, if_pos htests]

section
variable {f : Frame} {r : Receipt} {i : Fin 8} {j : Job} {st : Store} {s : State}

theorem effect_storeAck (ha : Arrives s f) (hf : fromFenced s f.src = false) (hb : parseStoreAck f.body = some r) :
    effect (.storeAck f []) s = applyStoreAck f r s :=
  nodeAnswer_of_readable ha hf hb (applyStoreAck f)

theorem applyStoreAck_failed (hstore : receiptStore s f.src r = some (i, j, st)) (h : r.status = 1 ∨ (r.status = 0 ∧ r.crc ≠ st.crc)) :
    applyStoreAck f r s = settle (failAttempt i j st s) := by
  simp only [applyStoreAck, hstore]
  rcases h with h | ⟨h, hcrc⟩
  · have hne : ¬ r.status = 0 := by
      rw [h]
      decide
    rw [if_neg hne, if_pos h]
  · rw [if_pos h, if_neg hcrc]

theorem applyStoreAck_good (hstore : receiptStore s f.src r = some (i, j, st)) (h : r.status = 0) (hcrc : r.crc = st.crc) :
    applyStoreAck f r s = settle (goodReceipt i j st s) := by
  simp only [applyStoreAck, hstore]
  rw [if_pos h, if_pos hcrc]

theorem applyStoreAck_undefined (hstore : receiptStore s f.src r = some (i, j, st)) (h0 : r.status ≠ 0) (h1 : r.status ≠ 1) :
    applyStoreAck f r s = count .malformed s := by
  simp only [applyStoreAck, hstore]
  rw [if_neg h0, if_neg h1]
end

/-! ### The store timer (R141) -/

theorem storeExpiry_of_not_due {i : Fin 8} {q : Nat} {j : Job} {st : Store} {s : State} (hst : storeAt s i q = some (j, st))
    (h : st.timer ≠ some 0) : storeExpiry i q s = s := by
  simp only [storeExpiry, hst, if_neg h]

theorem storeExpiry_of_due {i : Fin 8} {q : Nat} {j : Job} {st : Store} {s : State} (hst : storeAt s i q = some (j, st)) (h : st.timer = some 0) :
    storeExpiry i q s = if timeoutMutes s st.dest then settle (muteNode st.dest (raiseConsecutive st.dest s))
      else settle (failAttempt i j st (raiseConsecutive st.dest s)) := by
  simp only [storeExpiry, hst, if_pos h]

/-- Settles O51: a receipt finds its store by R142's tests, a timer by its lane and target; either then fails the attempt, or the timer mutes the node. -/
theorem storeAttemptsFail : Obligations.StoreAttemptsFail := by
  refine ⟨fun f r s ha hb => ?_, fun i q s => ⟨fun hnone => exec_nothing ?_, fun j st hst => ⟨fun htimer => exec_nothing ?_, fun l x hattempt hdue => ?_⟩⟩⟩
  · have hcount : ∀ {d}, effect (.storeAck f []) s = count d s → ∃ t, exec (.storeAck f []) s = .next t ∧ Quiet s t ∧ t.outputs = s.outputs
        ∧ counterValue d t = saturatingSucc (counterValue d s) := fun h => by
      obtain ⟨t, ht, hq, hout, hval⟩ := commit_count_quiet _ s
      exact ⟨t, (exec_eq_commit (.storeAck f []) s).trans (h ▸ ht), hq, hout, hval⟩
    refine ⟨fun hf => hcount (nodeAnswer_of_fenced ha hf _ _), fun hf hlate => hcount ?_, fun i j st hans hf => ?_⟩
    · have hnone : receiptStore s f.src r = none := Option.eq_none_iff_forall_ne_some.mpr fun e he =>
        hlate e.1 e.2.1 e.2.2 (receiptStore_eq_some_iff.mp he)
      rw [effect_storeAck ha hf hb, applyStoreAck, hnone]
    · have hstore := receiptStore_eq_some_iff.mpr hans
      have happly := effect_storeAck ha hf hb
      refine ⟨fun h0 h1 => hcount (happly.trans (applyStoreAck_undefined hstore h0 h1)), fun l x hattempt hfails => ?_⟩
      obtain ⟨hworks, hfind, -, hx, hopen, hplaced, -⟩ := hattempt
      have heff := happly.trans (applyStoreAck_failed hstore hfails)
      have hr := Reported.refl st.dest s
      exact ⟨hr.second_begins hworks.1 hfind heff, hr.second_waits hworks.1 hfind heff, hr.target_lost hworks hx hopen hplaced heff⟩
  · have heff : effect (.storeTimerExpiry i q) s = storeExpiry i q.val s := rfl
    rw [heff, storeExpiry, hnone]
  · have heff : effect (.storeTimerExpiry i q) s = storeExpiry i q.val s := rfl
    exact heff.trans (storeExpiry_of_not_due hst htimer)
  · obtain ⟨hworks, hfind, -, hx, hopen, hplaced, hdest, hneeded, hdone⟩ := hattempt
    have hexpiry : effect (.storeTimerExpiry i q) s = storeExpiry i q.val s := rfl
    have hrun := hexpiry.trans (storeExpiry_of_due hst hdue)
    refine ⟨fun hbelow => ?_, fun hserving hthreshold => ?_⟩
    · have hnot : ¬ timeoutMutes s st.dest = true := fun h => absurd (timeoutMutes_iff.mp h).2 (Nat.not_le.mpr hbelow)
      have heff := hrun.trans (if_neg hnot)
      have hr := raiseConsecutive_reported st.dest s
      exact ⟨hr.second_begins hworks.1 hfind heff, hr.second_waits hworks.1 hfind heff, hr.target_lost hworks hx hopen hplaced heff⟩
    · have heff := hrun.trans (if_pos (timeoutMutes_iff.mpr ⟨hserving, hthreshold⟩))
      have hwork : st.dest ∈ workNodes l j := mem_workNodes.mpr (.inr ⟨st.target, x, hneeded, hx, hdest, storeDone_eq_false.mp hdone⟩)
      rw [muteNode_raiseConsecutive hserving] at heff
      obtain ⟨hmuted, hidle, -, hun, hcoll⟩ := (nodeMuted_at_threshold st.dest s).mutedWith (xs := []) hworks hwork
        fun y hy => absurd hy List.not_mem_nil
      generalize settle (raise .nodeMuted _) = u at heff hmuted hidle hun hcoll
      obtain ⟨t, ht, pu, pr, msgs, rfl⟩ := exec_ended_of heff
      exact ⟨_, ht, hmuted, hidle, hcoll, hun.control⟩

end Sys2Proof.Machine

/-! SUPPORT. ADMISSION (R13, R74, R116 to R119): which lane admits which record, what the segment-start check finds, and the three ways that an admission can
end. -/

namespace Sys2Proof.Machine

/-! ### The segment-start check (R74) -/

theorem startCheck_of_all_serving {s : State} {l : Live} {seg : Nat} (h : ∀ e ∈ checkList l seg, (nodeAt s e.1).state = .serving) :
    startCheck s l seg = .pass := by
  have hnone : (checkList l seg).find? (fun e => !((nodeAt s e.1).state == .serving)) = none := List.find?_eq_none.mpr fun e he => by simp [h e he]
  simp only [startCheck, hnone]

/-- The first node that is not SERVING decides. -/
theorem startCheck_of_first {s : State} {l : Live} {seg k : Nat} {c : HoldCause} {pre post : List (Nat × HoldCause)}
    (hsplit : checkList l seg = pre ++ (k, c) :: post) (hpre : ∀ e ∈ pre, (nodeAt s e.1).state = .serving) (hk : (nodeAt s k).state ≠ .serving) :
    startCheck s l seg = if (nodeAt s k).state = .muted then .stall k else .hold c := by
  have hfind : (checkList l seg).find? (fun e => !((nodeAt s e.1).state == .serving)) = some (k, c) := by
    have hnone : pre.find? (fun e => !((nodeAt s e.1).state == .serving)) = none := List.find?_eq_none.mpr fun e he => by simp [hpre e he]
    rw [hsplit, List.find?_append, hnone,
      List.find?_cons_of_pos (p := fun e : Nat × HoldCause => !((nodeAt s e.1).state == .serving)) (by simpa using hk)]
    rfl
  simp only [startCheck, hfind]

theorem startCheck_of_muted {s : State} {l : Live} {seg k : Nat} {c : HoldCause} {pre post : List (Nat × HoldCause)}
    (hsplit : checkList l seg = pre ++ (k, c) :: post) (hpre : ∀ e ∈ pre, (nodeAt s e.1).state = .serving) (hk : (nodeAt s k).state = .muted) :
    startCheck s l seg = .stall k := by
  rw [startCheck_of_first hsplit hpre (by rw [hk]; decide), if_pos hk]

theorem startCheck_of_unusable {s : State} {l : Live} {seg k : Nat} {c : HoldCause} {pre post : List (Nat × HoldCause)}
    (hsplit : checkList l seg = pre ++ (k, c) :: post) (hpre : ∀ e ∈ pre, (nodeAt s e.1).state = .serving)
    (hk : (nodeAt s k).state = .fenced ∨ (nodeAt s k).state = .absent) : startCheck s l seg = .hold c := by
  rcases hk with hk | hk <;> rw [startCheck_of_first hsplit hpre (by rw [hk]; decide), hk] <;> rfl

/-- The check reads the roster's states only. -/
theorem startCheck_congr {s t : State} (h : ∀ k, (nodeAt t k).state = (nodeAt s k).state) (l : Live) (seg : Nat) :
    startCheck t l seg = startCheck s l seg := by
  simp only [startCheck, h]

/-! ### Entry into ACTIVE (R20) -/

theorem enterActive_eq {n : Nat} {l : Live} {s : State} (hl : liveAt s n = some l) : ∃ d nc ctr out,
    enterActive n s = { setLive n { l with state := .active } s with
      dram := d, noticeCounter := nc, counters := ctr, outputs := s.outputs ++ out } := by
  unfold enterActive
  simp only [hl]
  obtain ⟨d, hd⟩ := writeFields_eq n [.state] (setLive n { l with state := .active } s)
  rw [hd]
  obtain ⟨nc, ctr, out, hnotify, -⟩ := notify_eq n (generationAt s n) l.watch (stateCode (some l.state)) (some .active)
    { setLive n { l with state := .active } s with dram := d }
  exact ⟨d, nc, ctr, out, hnotify⟩

/-! ### The lane and the record of an admission (R116, R117) -/

theorem idleLane_eq_some_iff {s : State} {i : Fin 8} : idleLane s = some i ↔ laneAt s i = none ∧ ∀ x, x < i → laneAt s x ≠ none := by
  rw [idleLane, find_laneNumbers]
  simp [Option.isSome_iff_ne_none]

theorem idleLane_eq_none_iff {s : State} : idleLane s = none ↔ ∀ i, laneAt s i ≠ none := by
  rw [idleLane, List.find?_eq_none]
  simp [mem_laneNumbers]

theorem admissible_eq_none {s : State} (h : s.fgQueue = [] ∧ (s.bgQueue = [] ∨ 8 - s.settings.reserve ≤ backgroundLanes s)) :
    admissible s = none := by
  obtain ⟨hfg, hbg⟩ := h
  have hlanes : Config.laneCount = 8 := rfl
  unfold admissible
  rw [hfg]
  rcases hbg with hbg | hbg
  · rw [hbg]
  · cases s.bgQueue with
    | nil => rfl
    | cons n q => exact if_neg (by rw [hlanes]; omega)

/-- The state once the record has left the head of its queue. -/
def headTaken (fg bg : List Nat) (s : State) : State :=
  { s with fgQueue := fg, bgQueue := bg }

section
variable {s : State} {i : Fin 8} {n : Nat} {fg bg : List Nat} {l : Live}

theorem AdmitsNext.admissible (h : AdmitsNext s i n fg bg l) : Machine.admissible s = some n ∧ takeHead s = headTaken fg bg s := by
  obtain ⟨-, -, -, -, -, -, -, -, hqueues⟩ := h
  have hlanes : Config.laneCount = 8 := rfl
  rcases hqueues with ⟨hfg, hbg⟩ | ⟨hfg, hfg', hbg, hroom⟩
  · refine ⟨by rw [Machine.admissible, hfg], ?_⟩
    simp only [takeHead, hfg, headTaken, hbg]
  · refine ⟨?_, ?_⟩
    · rw [Machine.admissible, hfg, hbg]
      exact if_pos (by rwa [hlanes])
    · simp only [takeHead, hfg, headTaken, hbg, hfg', List.drop_one, List.tail_cons]

theorem AdmitsNext.effect (h : AdmitsNext s i n fg bg l) : Machine.effect (.admission []) s = admitRecord i n (headTaken fg bg s) := by
  obtain ⟨hadmissible, hhead⟩ := h.admissible
  obtain ⟨hmode, -, hidle, hlow, -⟩ := h
  have hlane : idleLane s = some i := idleLane_eq_some_iff.mpr ⟨hidle, hlow⟩
  have heff : Machine.effect (.admission []) s = admitOne s := rfl
  rw [heff, admitOne, if_pos hmode, hlane, hadmissible]
  exact congrArg (admitRecord i n) hhead
end

/-! ### What an admission leaves (R118) -/

/-- What every admission leaves of the rest. -/
structure AdmissionKept (i : Fin 8) (n : Nat) (s t : State) : Prop where
  lanes : ∀ x, x ≠ i → laneAt t x = laneAt s x
  others : OtherRecords s t n
  generation : generationAt t n = generationAt s n
  collections : SameCollections s t
  control : SameControl s t
  mode : t.mode = s.mode
  fetch : t.fetch = s.fetch
  waitList : t.waitList = s.waitList
  queueSeq : t.queueSeq = s.queueSeq

theorem AdmissionKept.ended {i : Fin 8} {n : Nat} {s u t : State} (h : AdmissionKept i n s u) (he : Ended u t) : AdmissionKept i n s t := by
  obtain ⟨pu, pr, msgs, rfl⟩ := he
  exact ⟨h.lanes, h.others, h.generation, h.collections, h.control, h.mode, h.fetch, h.waitList, h.queueSeq⟩

section
variable {s : State} {i : Fin 8} {n : Nat} {l : Live} (fg bg : List Nat)

/-- The record is admitted: it is ACTIVE and its lane begins the segment (R20, R119). -/
theorem admitted_pass (hl : liveAt s n = some l) (seg : Nat) : AdmissionKept i n s (enterActive n (beginSegment i n l seg l.cls 0 (headTaken fg bg s)))
    ∧ liveAt (enterActive n (beginSegment i n l seg l.cls 0 (headTaken fg bg s))) n = some { l with state := .active }
    ∧ (enterActive n (beginSegment i n l seg l.cls 0 (headTaken fg bg s))).fgQueue = fg
    ∧ (enterActive n (beginSegment i n l seg l.cls 0 (headTaken fg bg s))).bgQueue = bg
    ∧ (enterActive n (beginSegment i n l seg l.cls 0 (headTaken fg bg s))).nodes = s.nodes
    ∧ laneAt (enterActive n (beginSegment i n l seg l.cls 0 (headTaken fg bg s))) i = some
        { record := n, generation := generationAt s n, cls := l.cls, segment := seg, segLength := segmentLength l.length seg
          needed := neededTargets l seg, complete := []
          accs := (neededTargets l seg).map (fun q => (q, List.replicate (segmentLength l.length seg) 0)), turnCount := 0
          pendingFetches := (List.range l.sources.length).map (fun p => { source := p, attempt := 1 }), phase := .gather } := by
  have hl' : liveAt (beginSegment i n l seg l.cls 0 (headTaken fg bg s)) n = some l := hl
  have hlane := laneAt_setLane_same s i (some { record := n, generation := generationAt s n, cls := l.cls, segment := seg,
                                                segLength := segmentLength l.length seg, needed := neededTargets l seg, complete := []
                                                accs := (neededTargets l seg).map (fun q => (q, List.replicate (segmentLength l.length seg) 0))
                                                turnCount := 0, phase := .gather
                                                pendingFetches := (List.range l.sources.length).map (fun p => { source := p, attempt := 1 }) })
  obtain ⟨d, nc, ctr, out, heq⟩ := enterActive_eq hl'
  rw [heq]
  exact ⟨⟨fun x hx => laneAt_setLane_other s hx _, fun m hm => recordAt_setRecord_other s hm _, generationAt_setLive s n n _, ⟨rfl, rfl, rfl⟩,
    SameControl.refl s, rfl, rfl, rfl, rfl⟩, liveAt_setLive_same s n _, rfl, rfl, rfl, hlane⟩

/-- The record is held, its lane IDLE as it was (R22, R74). -/
theorem admitted_hold (hl : liveAt s n = some l) (hw : l.state = .waiting) (c : HoldCause) :
    AdmissionKept i n s (enterHeld n c (headTaken fg bg s))
      ∧ liveAt (enterHeld n c (headTaken fg bg s)) n = some { l with state := .held c }
      ∧ (∀ x, laneAt (enterHeld n c (headTaken fg bg s)) x = laneAt s x)
      ∧ (enterHeld n c (headTaken fg bg s)).nodes = s.nodes ∧ flagSet .recordHeld (enterHeld n c (headTaken fg bg s)) = true := by
  have hl' : liveAt (headTaken fg bg s) n = some l := hl
  obtain ⟨d, nc, ctr, out, heq, -⟩ := enterHeld_eq hl' c
  have hflag := enterHeld_flag hl' c
  have hlive := (liveAt_enterHeld (c := c) hl' n).trans (if_pos rfl)
  rw [leaveHolder_of_waiting hw] at heq
  refine ⟨?_, hlive, ?_, ?_, hflag⟩
  · rw [heq]
    exact ⟨fun _ _ => rfl, fun m hm => recordAt_setRecord_other s hm _, generationAt_setLive s n n _, ⟨rfl, rfl, rfl⟩, SameControl.refl s,
      rfl, rfl, rfl, rfl⟩
  · rw [heq]
    exact fun _ => rfl
  · rw [heq]
    rfl

/-- The record stalls, its lane IDLE as it was (R21, R74). -/
theorem admitted_stall (hl : liveAt s n = some l) (hw : l.state = .waiting) (k : Nat) :
    AdmissionKept i n s (enterStalled n k (headTaken fg bg s))
      ∧ liveAt (enterStalled n k (headTaken fg bg s)) n = some { l with state := .stalled k }
      ∧ (∀ x, laneAt (enterStalled n k (headTaken fg bg s)) x = laneAt s x)
      ∧ nodeAt (enterStalled n k (headTaken fg bg s)) k = { nodeAt s k with stallList := (nodeAt s k).stallList ++ [n] } := by
  have hl' : liveAt (headTaken fg bg s) n = some l := hl
  obtain ⟨d, nc, ctr, out, heq, -⟩ := enterStalled_eq hl' k
  have hlive := (liveAt_enterStalled (x := k) hl' n).trans (if_pos rfl)
  have hnode := nodeAt_setNode_same s k { nodeAt s k with stallList := (nodeAt s k).stallList ++ [n] }
  rw [leaveHolder_of_waiting hw] at heq
  refine ⟨?_, hlive, ?_, ?_⟩
  · rw [heq]
    exact ⟨fun _ _ => rfl, fun m hm => recordAt_setRecord_other s hm _, generationAt_setLive s n n _, ⟨rfl, rfl, rfl⟩, SameControl.refl s,
      rfl, rfl, rfl, rfl⟩
  · rw [heq]
    exact fun _ => rfl
  · rw [heq]
    exact hnode
end

theorem admitRecord_of_sound {i : Fin 8} {n : Nat} {l : Live} {s : State} (hd : s.dram = []) (hl : liveAt s n = some l) :
    admitRecord i n s = match startCheck s l (nextSegment l) with
      | .pass => enterActive n (beginSegment i n l (nextSegment l) l.cls 0 s)
      | .hold c => enterHeld n c s
      | .stall k => enterStalled n k s := by
  simp only [admitRecord, readRecord_of_sound hd hl, hl] <;> cases startCheck s l (nextSegment l) <;> rfl

/-- Settles O48: the queues and the lanes name the admission, and the segment-start check says how it ends. -/
theorem admissionAdmits : Obligations.AdmissionAdmits := by
  intro s
  have hadmit : effect (.admission []) s = admitOne s := rfl
  refine ⟨fun hmode => exec_nothing ?_, fun hbusy => exec_nothing ?_, fun hempty => exec_nothing ?_, fun i n fg bg l h => ?_⟩
  · rw [hadmit, admitOne, if_neg hmode]
  · rw [hadmit, admitOne, idleLane_eq_none_iff.mpr hbusy]
    exact ite_self s
  · rw [hadmit, admitOne, admissible_eq_none hempty]
    cases idleLane s <;> exact ite_self s
  intro seg needed len
  have heff := h.effect
  obtain ⟨-, hd, hidle, -, hl, -, -, hw, -⟩ := h
  have hcheck : startCheck (headTaken fg bg s) l seg = startCheck s l seg := rfl
  rw [admitRecord_of_sound (s := headTaken fg bg s) hd hl] at heff
  change _ = (match startCheck (headTaken fg bg s) l seg with
      | .pass => enterActive n (beginSegment i n l seg l.cls 0 (headTaken fg bg s))
      | .hold c => enterHeld n c (headTaken fg bg s)
      | .stall k => enterStalled n k (headTaken fg bg s)) at heff
  have hpass := fun hall => startCheck_of_all_serving (s := s) (l := l) (seg := seg) hall
  have hmuted := fun pre k c post hsplit hpre hk => startCheck_of_muted (s := s) (l := l) (seg := seg) (k := k) (c := c) (pre := pre) (post := post) hsplit hpre hk
  have hunusable := fun pre k c post hsplit hpre hk =>
    startCheck_of_unusable (s := s) (l := l) (seg := seg) (k := k) (c := c) (pre := pre) (post := post) hsplit hpre hk
  rw [hcheck] at heff
  cases hfound : startCheck s l seg with
  | pass =>
    rw [hfound] at heff
    obtain ⟨hkept, hlive, hfg, hbg, hnodes, hlane⟩ := admitted_pass (i := i) fg bg hl seg
    obtain ⟨t, ht, hend⟩ := exec_ended_of heff
    obtain ⟨hlanes, hothers, hgen, hcoll, hcontrol, hmode, hfetch, hwait, hseq⟩ := hkept.ended hend
    refine ⟨t, ht, fun _ => ?_, fun pre k c post hsplit hpre => ⟨fun hk => ?_, fun hk => ?_⟩, hlanes, hothers, hgen, hcoll, hcontrol, hmode, hfetch,
      hwait, hseq⟩
    · obtain ⟨pu, pr, msgs, rfl⟩ := hend
      exact ⟨hlive, hfg, hbg, hnodes, hlane⟩
    · exact nomatch hfound.symm.trans (hmuted pre k c post hsplit hpre hk)
    · exact nomatch hfound.symm.trans (hunusable pre k c post hsplit hpre hk)
  | hold c' =>
    rw [hfound] at heff
    obtain ⟨hkept, hlive, hlane, hnodes, hflag⟩ := admitted_hold (i := i) fg bg hl hw c'
    obtain ⟨t, ht, hend⟩ := exec_ended_of heff
    have hflag' := (hend.flagSet .recordHeld).trans hflag
    obtain ⟨hlanes, hothers, hgen, hcoll, hcontrol, hmode, hfetch, hwait, hseq⟩ := hkept.ended hend
    refine ⟨t, ht, fun hall => ?_, fun pre k c post hsplit hpre => ⟨fun hk => ?_, fun hk => ?_⟩, hlanes, hothers, hgen, hcoll, hcontrol, hmode, hfetch,
      hwait, hseq⟩
    · exact nomatch hfound.symm.trans (hpass hall)
    · exact nomatch hfound.symm.trans (hmuted pre k c post hsplit hpre hk)
    · cases hfound.symm.trans (hunusable pre k c post hsplit hpre hk)
      obtain ⟨pu, pr, msgs, rfl⟩ := hend
      exact ⟨hlive, (hlane i).trans hidle, hnodes, hflag'⟩
  | stall k' =>
    rw [hfound] at heff
    obtain ⟨hkept, hlive, hlane, hnode⟩ := admitted_stall (i := i) fg bg hl hw k'
    obtain ⟨t, ht, hend⟩ := exec_ended_of heff
    obtain ⟨hlanes, hothers, hgen, hcoll, hcontrol, hmode, hfetch, hwait, hseq⟩ := hkept.ended hend
    refine ⟨t, ht, fun hall => ?_, fun pre k c post hsplit hpre => ⟨fun hk => ?_, fun hk => ?_⟩, hlanes, hothers, hgen, hcoll, hcontrol, hmode, hfetch,
      hwait, hseq⟩
    · exact nomatch hfound.symm.trans (hpass hall)
    · cases hfound.symm.trans (hmuted pre k c post hsplit hpre hk)
      obtain ⟨pu, pr, msgs, rfl⟩ := hend
      exact ⟨hlive, (hlane i).trans hidle, hnode⟩
    · exact nomatch hfound.symm.trans (hunusable pre k c post hsplit hpre hk)

end Sys2Proof.Machine

/-! SUPPORT. A good receipt and the end of a turn (R12, R122 to R127, R143): the store STORED and the target advanced, and where the record goes after its last
store. -/

namespace Sys2Proof.Machine

/-! ### Entry into PLACED (R23) -/

/-- All that an entry into PLACED does once the record has left what held it. -/
theorem enterPlaced_eq {n : Nat} {l : Live} {s : State} (hl : liveAt s n = some l) : ∃ d nc ctr out,
    enterPlaced n s = { setLive n { l with state := .placed } (leaveHolder n l s) with
        dram := d, noticeCounter := nc, counters := ctr, outputs := (leaveHolder n l s).outputs ++ out }
      ∧ ∀ c, c ≠ .noticeDropped → counterValue c (enterPlaced n s) = counterValue c s := by
  have hcounters := leaveHolder_counters n l s
  unfold enterPlaced
  simp only [hl]
  generalize leaveHolder n l s = u at hcounters ⊢
  obtain ⟨d, hd⟩ := writeFields_eq n [.state] (setLive n { l with state := .placed } u)
  rw [hd]
  obtain ⟨nc, ctr, out, hnotify, hcount⟩ := notify_eq n (generationAt s n) l.watch (stateCode (some l.state)) (some .placed)
    { setLive n { l with state := .placed } u with dram := d }
  refine ⟨d, nc, ctr, out, hnotify, fun c hc => (hcount c hc).trans ?_⟩
  rw [counterValue, counterValue, ← hcounters]
  rfl

theorem enterPlaced_leftLane {n : Nat} {i : Fin 8} {l : Live} {s : State} (hl : liveAt s n = some l) (ha : l.state = .active)
    (hi : laneHolding s n = some i) : LeftLane i n { l with state := .placed } s (enterPlaced n s) := by
  have hleave := leaveHolder_unanswered n l s
  have hkept := leaveHolder_steady n l s
  have hrecord : ∀ m, recordAt (leaveHolder n l s) m = recordAt s m := fun m => by rw [recordAt, recordAt, leaveHolder_records]
  obtain ⟨out', hout⟩ := hleave.sent
  obtain ⟨d, nc, ctr, out, heq, hcount⟩ := enterPlaced_eq hl
  have hdropped := hcount .replyDropped (by decide)
  have hlive := (liveAt_enterPlaced hl n).trans (if_pos rfl)
  refine ⟨⟨⟨?_, ⟨out' ++ out, ?_⟩, hdropped⟩, ?_, fun m hm => ?_, ?_⟩, hlive, lanesLeft_of_work ha hi ?_, fun k => ?_⟩
  · rw [heq]
    exact hleave.control
  · rw [heq, ← List.append_assoc, ← hout]
  · rw [heq]
    exact ⟨hkept.freeList, hkept.liveCount, hkept.index⟩
  · rw [heq]
    exact (recordAt_setRecord_other _ hm _).trans (hrecord m)
  · rw [heq]
    refine (generationAt_setLive (leaveHolder n l s) n n _).trans ?_
    rw [generationAt, hrecord]
    rfl
  · rw [heq]
    exact ⟨rfl, rfl, rfl, fun _ => rfl⟩
  · rw [heq]
    exact leaveHolder_node n l s k

/-! ### The receipt taken (R143) -/

/-- The store record once its receipt is taken. -/
def storedStore (st : Store) : Store :=
  { st with state := .stored, timer := none }

/-- The node's consecutive count cleared and its outstanding count lowered, and the store STORED (R143 steps 1 and 3). -/
def receiptTaken (i : Fin 8) (j : Job) (st : Store) (s : State) : State :=
  setLane i (some (withStore j st.target (storedStore st))) (lowerOutstanding st.dest (clearConsecutive st.dest s))

/-- The record with the target of the store advanced (R12, R143 step 2). -/
def advancedLive (l : Live) (st : Store) (x : Target) : Live :=
  { l with targets := targetsAfter l st x }

/-- The state once the receipt is taken and the target advanced. -/
def receivedState (i : Fin 8) (j : Job) (st : Store) (l : Live) (x : Target) (s : State) : State :=
  setLive j.record (advancedLive l st x) (receiptTaken i j st s)

theorem receiptTaken_kept (i : Fin 8) (j : Job) (st : Store) (s : State) : ∃ ls ns, receiptTaken i j st s = { s with lanes := ls, nodes := ns } :=
  ⟨_, _, rfl⟩

theorem receivedState_kept (i : Fin 8) (j : Job) (st : Store) (l : Live) (x : Target) (s : State) :
    ∃ rs ls ns, receivedState i j st l x s = { s with records := rs, lanes := ls, nodes := ns } := by
  obtain ⟨ls, ns, hkept⟩ := receiptTaken_kept i j st s
  refine ⟨(receivedState i j st l x s).records, ls, ns, ?_⟩
  rw [receivedState, hkept]
  rfl

theorem nodeAt_receivedState_same (i : Fin 8) (j : Job) (st : Store) (l : Live) (x : Target) (s : State) :
    nodeAt (receivedState i j st l x s) st.dest
      = { nodeAt s st.dest with consecutive := 0, outstanding := (nodeAt s st.dest).outstanding - 1 } := by
  have hclear : nodeAt (clearConsecutive st.dest s) st.dest = { nodeAt s st.dest with consecutive := 0 } := nodeAt_setNode_same ..
  refine (nodeAt_setNode_same (clearConsecutive st.dest s) st.dest _).trans ?_
  rw [hclear]

theorem nodeAt_receivedState_other (i : Fin 8) (j : Job) (st : Store) (l : Live) (x : Target) (s : State) {k : Nat} (hk : k ≠ st.dest) :
    nodeAt (receivedState i j st l x s) k = nodeAt s k :=
  (nodeAt_setNode_other (clearConsecutive st.dest s) hk _).trans (nodeAt_setNode_other s hk _)

theorem laneAt_receivedState_same (i : Fin 8) (j : Job) (st : Store) (l : Live) (x : Target) (s : State) :
    laneAt (receivedState i j st l x s) i = some (withStore j st.target (storedStore st)) :=
  laneAt_setLane_same s i _

theorem laneAt_receivedState_other (i : Fin 8) (j : Job) (st : Store) (l : Live) (x : Target) (s : State) {y : Fin 8} (hy : y ≠ i) :
    laneAt (receivedState i j st l x s) y = laneAt s y :=
  laneAt_setLane_other s hy _

/-- Nothing of the roster has changed but the two counts of the store's node. -/
theorem receivedState_node (i : Fin 8) (j : Job) (st : Store) (l : Live) (x : Target) (s : State) (k : Nat) :
    (nodeAt (receivedState i j st l x s) k).state = (nodeAt s k).state
      ∧ (nodeAt (receivedState i j st l x s) k).stallList = (nodeAt s k).stallList := by
  by_cases hk : k = st.dest
  · rw [hk, nodeAt_receivedState_same]
    exact ⟨rfl, rfl⟩
  · rw [nodeAt_receivedState_other i j st l x s hk]
    exact ⟨rfl, rfl⟩

theorem receivedState_onlyRecord (i : Fin 8) (j : Job) (st : Store) (l : Live) (x : Target) (s : State) :
    OnlyRecord j.record s (receivedState i j st l x s) := by
  have hset := setLive_onlyRecord j.record (advancedLive l st x) (receiptTaken i j st s)
  obtain ⟨ls, ns, hkept⟩ := receiptTaken_kept i j st s
  refine OnlyRecord.trans ?_ hset
  rw [hkept]
  exact .of_records (.of_same (SameControl.refl s) rfl rfl) ⟨rfl, rfl, rfl⟩ rfl

theorem allStored_withStore {s : State} {i : Fin 8} {j : Job} {q : Nat} {st : Store} (h : laneAt s i = some (withStore j q st))
    (hst : st.state = .stored) : allStored s i = true ↔ ∀ y ∈ storesOf j, y.target = q ∨ y.state = .stored := by
  simp only [allStored, h, storesOf_withStore, replaceStore, List.all_map, List.all_eq_true, Function.comp, beq_iff_eq]
  refine forall₂_congr fun y _ => ?_
  by_cases hy : y.target = q
  · simp [hy, hst]
  · simp [hy]

theorem advanceTarget_of_sound {n q seg : Nat} {l : Live} {x : Target} {st : Store} {s : State} (hd : s.dram = []) (hl : liveAt s n = some l)
    (hq : st.target = q) (hx : l.targets[q]? = some x) (hopen : x.status = .opened) (hplaced : x.placed = seg) :
    advanceTarget n q seg s = setLive n (advancedLive l st x) s := by
  have htargets : l.targets.modify q (advancedTarget l.segTotal seg) = targetsAfter l st x := by
    rw [modify_eq_set hx, advancedTarget, if_pos (needsSegment_iff.mpr ⟨hopen, hplaced⟩), targetsAfter, hq, hopen]
  simp only [advanceTarget, hl, htargets]
  exact writeFields_of_sound (s := setLive n (advancedLive l st x) s) hd n _

/-- With sound memory the receipt is taken, and the turn ends with the last store (R122, R143). -/
theorem goodReceipt_of_sound {i : Fin 8} {j : Job} {st : Store} {l : Live} {x : Target} {s : State} (hd : s.dram = []) (hj : laneAt s i = some j)
    (hl : liveAt s j.record = some l) (hx : l.targets[st.target]? = some x) (hopen : x.status = .opened) (hplaced : x.placed = j.segment) :
    goodReceipt i j st s = if allStored (receivedState i j st l x s) i then turnEnd i (receivedState i j st l x s)
      else receivedState i j st l x s := by
  have hset : setStore i st.target { st with state := .stored, timer := none } (lowerOutstanding st.dest (clearConsecutive st.dest s))
      = receiptTaken i j st s := setStore_of_busy (s := lowerOutstanding st.dest (clearConsecutive st.dest s)) hj _ _
  have hread := readRecord_of_sound (s := receiptTaken i j st s) hd hl [.placed, .segTotal]
  have hadvance : advanceTarget j.record st.target j.segment (receiptTaken i j st s) = receivedState i j st l x s :=
    advanceTarget_of_sound (s := receiptTaken i j st s) hd hl rfl hx hopen hplaced
  simp only [goodReceipt, hset, hread, hadvance, if_true]

/-! ### The turn's end (R122 to R127) -/

theorem othersWait_iff {s : State} {c : RecordClass} : othersWait s c = true ↔ s.fgQueue ≠ [] ∨ (c = .background ∧ s.bgQueue ≠ []) := by
  cases c <;> simp [othersWait]

section
variable {i : Fin 8} {j : Job} {l : Live} {s : State} (hj : laneAt s i = some j) (hl : liveAt s j.record = some l)
include hj hl

theorem turnEnd_placed (h : ∀ t ∈ l.targets, t.status = .done) : turnEnd i s = enterPlaced j.record s := by
  have hall : l.targets.all (fun t => t.status == .done) = true := List.all_eq_true.mpr fun t ht => beq_iff_eq.mpr (h t ht)
  simp only [turnEnd, hj, hl, if_pos hall]

theorem turnEnd_leaves (h : ¬ ∀ t ∈ l.targets, t.status = .done)
    (hw : s.mode ≠ .rebuild ∨ (s.settings.quantum ≤ j.turnCount + 1 ∧ othersWait s j.cls = true)) : turnEnd i s = enterWaiting j.record s := by
  have hall : ¬ l.targets.all (fun t => t.status == .done) = true := fun ha => h fun t ht => beq_iff_eq.mp (List.all_eq_true.mp ha t ht)
  simp only [turnEnd, hj, hl, if_neg hall]
  rcases hw with hm | hq
  · rw [if_neg hm]
  · rw [if_pos hq, ite_self]

theorem turnEnd_goesOn (hd : s.dram = []) (h : ¬ ∀ t ∈ l.targets, t.status = .done) (hm : s.mode = .rebuild)
    (hq : ¬ (s.settings.quantum ≤ j.turnCount + 1 ∧ othersWait s j.cls = true)) : turnEnd i s = match startCheck s l (nextSegment l) with
      | .pass => beginSegment i j.record l (nextSegment l) j.cls (j.turnCount + 1) s
      | .hold c => enterHeld j.record c s
      | .stall k => enterStalled j.record k s := by
  have hall : ¬ l.targets.all (fun t => t.status == .done) = true := fun ha => h fun t ht => beq_iff_eq.mp (List.all_eq_true.mp ha t ht)
  simp only [turnEnd, hj, hl, if_neg hall, if_pos hm, if_neg hq, continueTurn, readRecord_of_sound hd hl] <;>
    cases startCheck s l (nextSegment l) <;> rfl
end

/-- What a good receipt leaves, whatever becomes of its record. -/
structure ReceiptKept (n d : Nat) (s t : State) : Prop where
  consecutive : (nodeAt t d).consecutive = 0
  others : OtherRecords s t n
  collections : SameCollections s t
  control : SameControl s t

theorem ReceiptKept.ended {n d : Nat} {s u t : State} (h : ReceiptKept n d s u) (he : Ended u t) : ReceiptKept n d s t := by
  obtain ⟨pu, pr, msgs, rfl⟩ := he
  exact ⟨h.consecutive, h.others, h.collections, h.control⟩

section
variable {i : Fin 8} {j : Job} {st : Store} {l l' : Live} {x : Target} {s t : State}

/-- The record has left its lane after the receipt. -/
theorem LeftLane.received (h : LeftLane i j.record l' (receivedState i j st l x s) t) : ReceiptKept j.record st.dest s (Machine.settle t)
    ∧ LaneGivenUp (Machine.settle t) i j.record l' ∧ LanesAbandoned s (Machine.settle t) [i] := by
  obtain ⟨hgiven, hdrop, hone, hnode⟩ := h.settle
  have hall := (receivedState_onlyRecord i j st l x s).trans hone
  refine ⟨⟨?_, hall.others, hall.collections, hall.control⟩, hgiven, ?_⟩
  · obtain ⟨o, ns, hn⟩ := hnode st.dest
    rw [hn, nodeAt_receivedState_same]
  · obtain ⟨hidle, hslot⟩ := hdrop.1
    obtain ⟨rs, ls, ns, hkept⟩ := receivedState_kept i j st l x s
    have hsame : ∀ k, slotAt (receivedState i j st l x s) k = slotAt s k := fun k => by rw [hkept]; rfl
    refine ⟨hidle, fun k => ?_⟩
    have hk := hslot k
    simpa only [hsame] using hk

/-- The record has stayed in its lane after the receipt. -/
theorem receiptKept_settle (h : OnlyRecord j.record (receivedState i j st l x s) t) (hn : t.nodes = (receivedState i j st l x s).nodes) :
    ReceiptKept j.record st.dest s (settle t) := by
  have hall := ((receivedState_onlyRecord i j st l x s).trans h).trans (settle_onlyRecord j.record t)
  refine ⟨?_, hall.others, hall.collections, hall.control⟩
  obtain ⟨o, -, ho⟩ := (settle_handed t).node st.dest
  have hsame : nodeAt t st.dest = nodeAt (receivedState i j st l x s) st.dest := by rw [nodeAt, hn]; rfl
  rw [ho, hsame, nodeAt_receivedState_same]
end

/-- Settles O52: the receipt is taken, and after the last store the record's targets, the mode, the quantum and the check say where it goes. -/
theorem goodReceiptsAndTurnEnd : Obligations.GoodReceiptsAndTurnEnd := by
  intro f i j st l x s hgood l' last placed goesOn
  obtain ⟨ha, hd, hf, ⟨hj, hl, -, -, hact, hi⟩, ⟨r, hb, hlane, hgen, hseg, hfrag, hattempt, hstatus, hcrc⟩, hfind, hflight, hsrc, hx, hopen, hplaced⟩ := hgood
  have hstore : receiptStore s f.src r = some (i, j, st) :=
    receiptStore_eq_some_iff.mpr ⟨hlane, hj, hgen, hseg, hfrag, hflight, hattempt, hsrc⟩
  have hrun := (effect_storeAck ha hf hb).trans (applyStoreAck_good hstore hstatus hcrc)
  rw [goodReceipt_of_sound hd hj hl hx hopen hplaced] at hrun
  obtain ⟨rs, ls, ns, hkept⟩ := receivedState_kept i j st l x s
  have hlaneR := laneAt_receivedState_same i j st l x s
  have hliveR : liveAt (receivedState i j st l x s) j.record = some l' := liveAt_setLive_same (receiptTaken i j st s) j.record _
  have hlast : allStored (receivedState i j st l x s) i = true ↔ last := allStored_withStore hlaneR rfl
  have hholdR : laneHolding (receivedState i j st l x s) j.record = some i := by
    obtain ⟨-, hfirst⟩ := laneHolding_eq_some_iff.mp hi
    refine laneHolding_eq_some_iff.mpr ⟨⟨_, hlaneR, rfl⟩, fun y hy w hw => ?_⟩
    rw [laneAt_receivedState_other i j st l x s (ne_of_lt hy)] at hw
    exact hfirst y hy w hw
  have hmodeR : (receivedState i j st l x s).mode = s.mode := by rw [hkept]
  have hsettingsR : (receivedState i j st l x s).settings = s.settings := by rw [hkept]
  have hdR : (receivedState i j st l x s).dram = [] := by rw [hkept]; exact hd
  have hseqR : (receivedState i j st l x s).queueSeq = s.queueSeq := by rw [hkept]
  have hfgR : (receivedState i j st l x s).fgQueue = s.fgQueue := by rw [hkept]
  have hbgR : (receivedState i j st l x s).bgQueue = s.bgQueue := by rw [hkept]
  have hwaitR : (receivedState i j st l x s).waitList = s.waitList := by rw [hkept]
  have hgenR : generationAt (receivedState i j st l x s) j.record = generationAt s j.record := generationAt_setLive (receiptTaken i j st s) _ _ _
  have hothersR : othersWait (receivedState i j st l x s) j.cls = true ↔ s.fgQueue ≠ [] ∨ (j.cls = .background ∧ s.bgQueue ≠ []) := by
    rw [othersWait_iff, hfgR, hbgR]
  have hstateR := fun k => (receivedState_node i j st l x s k).1
  have hstallR := fun k => (receivedState_node i j st l x s k).2
  have hcheckR : startCheck (receivedState i j st l x s) l' (nextSegment l') = startCheck s l' (nextSegment l') := startCheck_congr hstateR _ _
  have hactive : l'.state = .active := hact
  by_cases hl1 : last
  swap
  · -- The lane has stores left.
    have heff := hrun
    rw [if_neg (fun h => hl1 (hlast.mp h))] at heff
    have hstay := receiptKept_settle (OnlyRecord.refl j.record (receivedState i j st l x s)) rfl
    obtain ⟨t, ht, hend⟩ := exec_ended_of heff
    obtain ⟨hcons, hothers, hcoll, hcontrol⟩ := hstay.ended hend
    refine ⟨t, ht, hcons, hothers, hcoll, hcontrol, fun _ hnothing => ?_, fun h => absurd h hl1, fun h => absurd h hl1, fun h => absurd h hl1,
      fun h => absurd h.1 hl1, fun h => absurd h.1 hl1⟩
    rw [settle_of_nothing (hwaitR.trans hnothing.1) (hmodeR ▸ hnothing.2)] at hend
    have hstored : storeAt (receivedState i j st l x s) i st.target = some (withStore j st.target (storedStore st), storedStore st) :=
      storeAt_withStore hfind rfl hlaneR
    have hnode := nodeAt_receivedState_same i j st l x s
    have hother := fun k => nodeAt_receivedState_other i j st l x s (k := k)
    generalize receivedState i j st l x s = u at hend hliveR hstored hnode hother
    obtain ⟨pu, pr, msgs, rfl⟩ := hend
    exact ⟨hliveR, ⟨_, hstored⟩, hnode, hother⟩
  rw [if_pos (hlast.mpr hl1)] at hrun
  by_cases hp : placed
  · -- Every target is DONE.
    have heff := hrun
    rw [turnEnd_placed hlaneR hliveR hp] at heff
    obtain ⟨hkeptT, hgiven, habandoned⟩ := (enterPlaced_leftLane hliveR hactive hholdR).received
    change _ = settle (enterPlaced j.record _) at heff
    generalize settle (enterPlaced j.record (receivedState i j st l x s)) = u at heff hkeptT hgiven habandoned
    obtain ⟨t, ht, hend⟩ := exec_ended_of heff
    obtain ⟨hcons, hothers, hcoll, hcontrol⟩ := hkeptT.ended hend
    refine ⟨t, ht, hcons, hothers, hcoll, hcontrol, fun h => absurd hl1 h, fun _ _ => ?_, fun _ h => absurd hp h, fun _ h => absurd hp h,
      fun h => absurd hp h.2.1, fun h => absurd hp h.2.1⟩
    obtain ⟨pu, pr, msgs, rfl⟩ := hend
    exact ⟨hgiven, habandoned⟩
  by_cases hw : s.mode ≠ .rebuild ∨ (s.settings.quantum ≤ j.turnCount + 1 ∧ (s.fgQueue ≠ [] ∨ (j.cls = .background ∧ s.bgQueue ≠ [])))
  · -- The record gives way.
    have heff := hrun
    have hleave : (receivedState i j st l x s).mode ≠ .rebuild ∨ ((receivedState i j st l x s).settings.quantum ≤ j.turnCount + 1
        ∧ othersWait (receivedState i j st l x s) j.cls = true) := by rwa [hmodeR, hsettingsR, hothersR]
    rw [turnEnd_leaves hlaneR hliveR hp hleave] at heff
    obtain ⟨hkeptT, hgiven, habandoned⟩ := (enterWaiting_leftLane hliveR hactive hholdR).received
    obtain ⟨-, hjoined⟩ := enterWaiting_requeued hliveR (by rw [hactive]; decide)
    have hrequeued : Requeued s (settle (enterWaiting j.record (receivedState i j st l x s))) j.record l' := by
      obtain ⟨hseq, hfg, hbg⟩ := (settle_handed (enterWaiting j.record (receivedState i j st l x s))).queues
      refine ⟨hgiven.1.trans (by rw [hseqR]), ?_⟩
      unfold JoinedQueue at hjoined ⊢
      rwa [hseq, hfg, hbg, ← hseqR, ← hfgR, ← hbgR]
    change _ = settle (enterWaiting j.record _) at heff
    generalize settle (enterWaiting j.record (receivedState i j st l x s)) = u at heff hkeptT hrequeued habandoned
    obtain ⟨t, ht, hend⟩ := exec_ended_of heff
    obtain ⟨hcons, hothers, hcoll, hcontrol⟩ := hkeptT.ended hend
    have hout : Requeued s t j.record l' ∧ LanesAbandoned s t [i] := by
      obtain ⟨pu, pr, msgs, rfl⟩ := hend
      exact ⟨hrequeued, habandoned⟩
    have hno : ¬ goesOn := fun ⟨_, _, hm, hq⟩ => by
      rcases hw with hne | ⟨hle, hfg | ⟨hcls, hbg⟩⟩
      · exact hne hm
      · rcases hq with hlt | ⟨hfg', -⟩
        · omega
        · exact hfg hfg'
      · rcases hq with hlt | ⟨-, hcls' | hbg'⟩
        · omega
        · rw [hcls] at hcls'
          cases hcls'
        · exact hbg hbg'
    exact ⟨t, ht, hcons, hothers, hcoll, hcontrol, fun h => absurd hl1 h, fun _ h => absurd h hp, fun _ _ _ => hout, fun _ _ _ _ _ => hout,
      fun h => absurd h hno, fun h => absurd h hno⟩
  -- The lane goes on to the next segment, unless the check takes the record from it.
  rw [not_or, not_not, not_and_or] at hw
  obtain ⟨hm, hq⟩ := hw
  have hnotleave : ¬ ((receivedState i j st l x s).settings.quantum ≤ j.turnCount + 1 ∧ othersWait (receivedState i j st l x s) j.cls = true) := by
    rw [hsettingsR, hothersR]
    exact not_and_or.mpr hq
  have hnowait : ¬ (s.settings.quantum ≤ j.turnCount + 1 ∧ (s.fgQueue ≠ [] ∨ (j.cls = .background ∧ s.bgQueue ≠ []))) := not_and_or.mpr hq
  have heff := hrun
  rw [turnEnd_goesOn hlaneR hliveR hdR hp (hmodeR.trans hm) hnotleave, hcheckR] at heff
  have hmuted := fun pre k c post hsplit hpre hk => startCheck_of_muted (s := s) (l := l') (seg := nextSegment l') (k := k) (c := c) (pre := pre)
    (post := post) hsplit hpre hk
  have hunusable := fun pre k c post hsplit hpre hk => startCheck_of_unusable (s := s) (l := l') (seg := nextSegment l') (k := k) (c := c) (pre := pre)
    (post := post) hsplit hpre hk
  cases hfound : startCheck s l' (nextSegment l') with
  | pass =>
    rw [hfound] at heff
    have hone : OnlyRecord j.record (receivedState i j st l x s)
        (beginSegment i j.record l' (nextSegment l') j.cls (j.turnCount + 1) (receivedState i j st l x s)) :=
      .of_records (.of_same (SameControl.refl _) rfl rfl) ⟨rfl, rfl, rfl⟩ rfl
    have hkeptT := receiptKept_settle hone rfl
    have hlive := (settle_liveAt (beginSegment i j.record l' (nextSegment l') j.cls (j.turnCount + 1) (receivedState i j st l x s)) j.record).trans hliveR
    obtain ⟨ph, hlaneT, hphase⟩ := (settle_handed (beginSegment i j.record l' (nextSegment l') j.cls (j.turnCount + 1)
      (receivedState i j st l x s))).lane i _ (laneAt_setLane_same ..)
    rw [hphase rfl] at hlaneT
    change _ = settle (beginSegment i j.record l' (nextSegment l') j.cls (j.turnCount + 1) (receivedState i j st l x s)) at heff
    generalize settle (beginSegment i j.record l' (nextSegment l') j.cls (j.turnCount + 1) (receivedState i j st l x s)) = u
      at heff hkeptT hlive hlaneT
    obtain ⟨t, ht, hend⟩ := exec_ended_of heff
    obtain ⟨hcons, hothers, hcoll, hcontrol⟩ := hkeptT.ended hend
    refine ⟨t, ht, hcons, hothers, hcoll, hcontrol, fun h => absurd hl1 h, fun _ h => absurd h hp, fun _ _ h => absurd hm h,
      fun _ _ _ h1 h2 => absurd ⟨h1, h2⟩ hnowait, fun _ _ => ?_, fun _ pre k c post hsplit hpre => ⟨fun hk => ?_, fun hk => ?_⟩⟩
    · obtain ⟨pu, pr, msgs, rfl⟩ := hend
      exact ⟨hlive, _, hlaneT, rfl, hgenR, rfl, rfl, rfl, rfl, rfl, rfl, rfl⟩
    · exact nomatch hfound.symm.trans (hmuted pre k c post hsplit hpre hk)
    · exact nomatch hfound.symm.trans (hunusable pre k c post hsplit hpre hk)
  | hold c' =>
    rw [hfound] at heff
    obtain ⟨hkeptT, hgiven, habandoned⟩ := (enterHeld_leftLane hliveR hactive hholdR c').received
    have hflag := (settle_handed _).flags _ (enterHeld_flag hliveR c')
    change _ = settle (enterHeld j.record c' _) at heff
    generalize settle (enterHeld j.record c' (receivedState i j st l x s)) = u at heff hkeptT hgiven habandoned hflag
    obtain ⟨t, ht, hend⟩ := exec_ended_of heff
    obtain ⟨hcons, hothers, hcoll, hcontrol⟩ := hkeptT.ended hend
    have hflag' := (hend.flagSet .recordHeld).trans hflag
    refine ⟨t, ht, hcons, hothers, hcoll, hcontrol, fun h => absurd hl1 h, fun _ h => absurd h hp, fun _ _ h => absurd hm h,
      fun _ _ _ h1 h2 => absurd ⟨h1, h2⟩ hnowait, fun _ hall => ?_, fun _ pre k c post hsplit hpre => ⟨fun hk => ?_, fun hk => ?_⟩⟩
    · exact nomatch hfound.symm.trans (startCheck_of_all_serving hall)
    · exact nomatch hfound.symm.trans (hmuted pre k c post hsplit hpre hk)
    · cases hfound.symm.trans (hunusable pre k c post hsplit hpre hk)
      obtain ⟨pu, pr, msgs, rfl⟩ := hend
      exact ⟨hgiven, habandoned, hflag'⟩
  | stall k' =>
    rw [hfound] at heff
    obtain ⟨hkeptT, hgiven, habandoned⟩ := (enterStalled_leftLane hliveR hactive hholdR k').received
    have hlist : (nodeAt (settle (enterStalled j.record k' (receivedState i j st l x s))) k').stallList = (nodeAt s k').stallList ++ [j.record] := by
      rw [settle_stallList, enterStalled_stallList hliveR, leaveHolder_active hactive hholdR, (abandonLane_abandoned i _).node k', ← hstallR]
    change _ = settle (enterStalled j.record k' _) at heff
    generalize settle (enterStalled j.record k' (receivedState i j st l x s)) = u at heff hkeptT hgiven habandoned hlist
    obtain ⟨t, ht, hend⟩ := exec_ended_of heff
    obtain ⟨hcons, hothers, hcoll, hcontrol⟩ := hkeptT.ended hend
    refine ⟨t, ht, hcons, hothers, hcoll, hcontrol, fun h => absurd hl1 h, fun _ h => absurd h hp, fun _ _ h => absurd hm h,
      fun _ _ _ h1 h2 => absurd ⟨h1, h2⟩ hnowait, fun _ hall => ?_, fun _ pre k c post hsplit hpre => ⟨fun hk => ?_, fun hk => ?_⟩⟩
    · exact nomatch hfound.symm.trans (startCheck_of_all_serving hall)
    · cases hfound.symm.trans (hmuted pre k c post hsplit hpre hk)
      obtain ⟨pu, pr, msgs, rfl⟩ := hend
      exact ⟨hgiven, habandoned, hlist⟩
    · exact nomatch hfound.symm.trans (hunusable pre k c post hsplit hpre hk)

end Sys2Proof.Machine

/-! SUPPORT. Notices (R57, R58, R187): every entry into a record state makes its NOTICE once, and nothing else that a command does sends one. -/

namespace Sys2Proof.Machine

/-! ### Before the NOTICE: nothing sent and nothing counted -/

/-- Nothing has been sent, no notice made or dropped, and the registers that a NOTICE reads are as they were. -/
structure Silent (s u : State) : Prop where
  control : SameControl s u
  outputs : u.outputs = s.outputs
  noticeCounter : u.noticeCounter = s.noticeCounter
  dropped : counterValue .noticeDropped u = counterValue .noticeDropped s

theorem Silent.refl (s : State) : Silent s s := ⟨SameControl.refl s, rfl, rfl, rfl⟩

theorem Silent.trans {s t u : State} (h : Silent s t) (g : Silent t u) : Silent s u :=
  ⟨h.control.trans g.control, g.outputs.trans h.outputs, g.noticeCounter.trans h.noticeCounter, g.dropped.trans h.dropped⟩

theorem leaveHolder_silent (n : Nat) (l : Live) (s : State) : Silent s (leaveHolder n l s) := by
  have habandon : ∀ i, Silent s (abandonLane i s) := fun i => by
    rw [(abandonLane_abandoned i s).same]
    exact ⟨SameControl.refl s, rfl, rfl, rfl⟩
  unfold leaveHolder
  split
  · exact ⟨SameControl.refl s, rfl, rfl, rfl⟩
  · exact ⟨SameControl.refl s, rfl, rfl, rfl⟩
  · split
    · exact habandon _
    · exact Silent.refl s
  · exact Silent.refl s
  · exact Silent.refl s

/-- A record is written, and the health of its words. -/
theorem writeFields_setLive_silent (n m : Nat) (l : Live) (fs : List RecField) (s : State) : Silent s (writeFields n fs (setLive m l s)) := by
  obtain ⟨d, hd⟩ := writeFields_eq n fs (setLive m l s)
  rw [hd]
  exact ⟨SameControl.refl s, rfl, rfl, rfl⟩

/-! ### The NOTICE itself -/

theorem edgeMatches_iff {e : Edge} {new : Option RecState} :
    edgeMatches e new = true ↔ e = .any ∨ (e = .placed ∧ new = some .placed) ∨ (e = .held ∧ ∃ c, new = some (.held c)) := by
  cases e with
  | any => simp [edgeMatches]
  | placed =>
    cases new with
    | none => simp [edgeMatches]
    | some st => cases st <;> simp [edgeMatches]
  | held =>
    cases new with
    | none => simp [edgeMatches]
    | some st => cases st <;> simp [edgeMatches]

/-- The change that a watch is told of has its NOTICE. -/
theorem notify_made {s u : State} (h : Silent s u) (n : Nat) (g : Generation) (w : Watch) (old new : Option RecState) :
    NoticeMade s (notify n g (some w) (stateCode old) new u) w n g old new := by
  have hedge : edgeMatches w.edge new = true ↔ EdgeAsks w new := edgeMatches_iff
  have hport := choosePort_of_control h.control .a
  refine ⟨fun hasks => ?_, fun hnot => ?_⟩
  · simp only [notify, if_pos (hedge.mpr hasks), makeNotice, hport]
    cases hp : choosePort s .a with
    | none =>
      refine ⟨congrArg (· + 1) h.noticeCounter, ?_⟩
      refine (counterValue_count { u with noticeCounter := u.noticeCounter + 1 } .noticeDropped).trans ?_
      exact congrArg saturatingSucc h.dropped
    | some p =>
      have hsrc : portAt u p = portAt s p := portAt_of_control h.control p
      have hether : u.etherType = s.etherType := h.control.2.2.2.2.2.2.2.1
      refine ⟨congrArg (· + 1) h.noticeCounter, ?_⟩
      have hsent : sentBetween s (sendFrame p w.watcher .notice 0 u.noticeCounter (noticeBody n g (stateCode old) new)
          { u with noticeCounter := u.noticeCounter + 1 }) =
            [Output.frame (SentFrame.mk p w.watcher (portAt u p).addr u.etherType Kind.notice.code 0 u.noticeCounter
              (noticeBody n g (stateCode old) new))] := by
        change (u.outputs ++ _).drop s.outputs.length = _
        rw [h.outputs]
        exact List.drop_left
      rw [hsent, hsrc, hether, h.noticeCounter]
      exact List.mem_singleton.mpr rfl
  · have hne : ¬ edgeMatches w.edge new = true := mt hedge.mp hnot
    have hquiet : notify n g (some w) (stateCode old) new u = u := if_neg hne
    rw [hquiet]
    refine ⟨h.noticeCounter, h.dropped, fun x hx => ?_⟩
    rw [sentBetween, h.outputs, List.drop_length] at hx
    exact absurd hx List.not_mem_nil

/-! ### The entries into the states (R19 to R24) -/

section
variable {s u : State} {n : Nat} {l : Live} {w : Watch} (h : Silent s u) (hl : liveAt u n = some l) (hw : l.watch = some w)
include h hl hw

theorem enterWaiting_made : NoticeMade s (enterWaiting n u) w n (generationAt u n) (some l.state) (some .waiting) := by
  simp only [enterWaiting, hl, hw]
  have hleave := h.trans (leaveHolder_silent n l u)
  have hwrite := hleave.trans (writeFields_setLive_silent n n { l with state := .waiting, stamp := (leaveHolder n l u).queueSeq }
    [.state, .holdCause, .stallNode, .stamp] (leaveHolder n l u))
  refine notify_made (hwrite.trans ?_) n _ w (some l.state) (some .waiting)
  cases l.cls <;> exact ⟨SameControl.refl _, rfl, rfl, rfl⟩

theorem enterActive_made : NoticeMade s (enterActive n u) w n (generationAt u n) (some l.state) (some .active) := by
  simp only [enterActive, hl, hw]
  exact notify_made (h.trans (writeFields_setLive_silent ..)) n _ w (some l.state) (some .active)

theorem enterStalled_made (k : Nat) : NoticeMade s (enterStalled n k u) w n (generationAt u n) (some l.state) (some (.stalled k)) := by
  simp only [enterStalled, hl, hw]
  have hleave := h.trans (leaveHolder_silent n l u)
  have hwrite := hleave.trans (writeFields_setLive_silent n n { l with state := .stalled k } [.state, .stallNode] (leaveHolder n l u))
  refine notify_made (hwrite.trans ?_) n _ w (some l.state) (some (.stalled k))
  exact ⟨SameControl.refl _, rfl, rfl, rfl⟩

theorem enterHeld_made (c : HoldCause) : NoticeMade s (enterHeld n c u) w n (generationAt u n) (some l.state) (some (.held c)) := by
  simp only [enterHeld, hl, hw]
  have hleave := h.trans (leaveHolder_silent n l u)
  have hwrite := hleave.trans (writeFields_setLive_silent n n { l with state := .held c } [.state, .holdCause, .stallNode] (leaveHolder n l u))
  refine notify_made (hwrite.trans ?_) n _ w (some l.state) (some (.held c))
  exact ⟨SameControl.refl _, rfl, rfl, rfl⟩

theorem enterPlaced_made : NoticeMade s (enterPlaced n u) w n (generationAt u n) (some l.state) (some .placed) := by
  simp only [enterPlaced, hl, hw]
  have hleave := h.trans (leaveHolder_silent n l u)
  exact notify_made (hleave.trans (writeFields_setLive_silent ..)) n _ w (some l.state) (some .placed)
end

/-! ### After the NOTICE: no other NOTICE -/

/-- No NOTICE has been sent or dropped. -/
structure Unnoticed (u v : State) : Prop where
  noticeCounter : v.noticeCounter = u.noticeCounter
  dropped : counterValue .noticeDropped v = counterValue .noticeDropped u
  sent : ∃ out, v.outputs = u.outputs ++ out ∧ ∀ x, Output.frame x ∈ out → x.kind ≠ 0x21

theorem Unnoticed.of_same {u v : State} (hn : v.noticeCounter = u.noticeCounter) (hc : v.counters = u.counters) (ho : v.outputs = u.outputs) :
    Unnoticed u v :=
  ⟨hn, by rw [counterValue, counterValue, hc], [], by rw [ho, List.append_nil], fun _ hx => absurd hx List.not_mem_nil⟩

theorem Unnoticed.refl (u : State) : Unnoticed u u := .of_same rfl rfl rfl

theorem Unnoticed.trans {s t u : State} (h : Unnoticed s t) (g : Unnoticed t u) : Unnoticed s u := by
  obtain ⟨out, ho, hno⟩ := h.sent
  obtain ⟨out', ho', hno'⟩ := g.sent
  refine ⟨g.noticeCounter.trans h.noticeCounter, g.dropped.trans h.dropped, out ++ out', by rw [ho', ho, List.append_assoc], fun x hx => ?_⟩
  rcases List.mem_append.mp hx with hx | hx
  · exact hno x hx
  · exact hno' x hx

theorem Unnoticed.foldl {β : Type} {f : State → β → State} (h : ∀ s b, Unnoticed s (f s b)) (bs : List β) (s : State) :
    Unnoticed s (bs.foldl f s) := by
  induction bs generalizing s with
  | nil => exact Unnoticed.refl s
  | cons b bs ih => exact (h s b).trans (ih _)

theorem NoticeMade.unnoticed {s u v : State} {w : Watch} {n : Nat} {g : Generation} {old new : Option RecState} (h : NoticeMade s u w n g old new)
    (hv : Unnoticed u v) : NoticeMade s v w n g old new := by
  obtain ⟨out, ho, hno⟩ := hv.sent
  have hdrop : sentBetween s v = sentBetween s u ++ out.drop (s.outputs.length - u.outputs.length) := by
    rw [sentBetween, ho, List.drop_append]
    rfl
  obtain ⟨hasks, hnot⟩ := h
  refine ⟨fun hedge => ?_, fun hedge => ?_⟩
  · obtain ⟨hcounter, hsent⟩ := hasks hedge
    refine ⟨hv.noticeCounter.trans hcounter, ?_⟩
    cases hp : choosePort s .a with
    | none =>
      simp only [hp] at hsent
      exact hv.dropped.trans hsent
    | some p =>
      simp only [hp] at hsent
      rw [hdrop]
      exact List.mem_append_left _ hsent
  · obtain ⟨hcounter, hdropped, hsent⟩ := hnot hedge
    refine ⟨hv.noticeCounter.trans hcounter, hv.dropped.trans hdropped, fun x hx => ?_⟩
    rw [hdrop] at hx
    rcases List.mem_append.mp hx with hx | hx
    · exact hsent x hx
    · exact hno x (List.mem_of_mem_drop hx)

theorem sendFrame_unnoticed {k : Kind} (hk : k.code ≠ 0x21) (p : Port) (dst : EthAddr) (fl : Byte) (tag : BitVec 32) (body : List Byte) (s : State) :
    Unnoticed s (sendFrame p dst k fl tag body s) := by
  refine ⟨rfl, rfl, _, rfl, fun x hx => ?_⟩
  cases List.mem_singleton.mp hx
  exact hk

theorem sendChunk_unnoticed (i : Fin 8) (q k : Nat) (s : State) : Unnoticed s (sendChunk i q k s) := by
  unfold sendChunk
  split
  · exact Unnoticed.refl s
  · split
    · exact sendFrame_unnoticed (by decide) ..
    · exact Unnoticed.refl s

theorem setStore_unnoticed (i : Fin 8) (q : Nat) (st : Store) (s : State) : Unnoticed s (setStore i q st s) := by
  unfold setStore
  split <;> exact .of_same rfl rfl rfl

theorem startAttempt_unnoticed (i : Fin 8) (q : Nat) (s : State) : Unnoticed s (startAttempt i q s) := by
  unfold startAttempt
  split
  · exact Unnoticed.refl s
  · have hraise : ∀ d (u : State), Unnoticed u (raiseOutstanding d u) := fun _ _ => .of_same rfl rfl rfl
    exact ((setStore_unnoticed ..).trans (hraise ..)).trans (sendChunk_unnoticed ..)

theorem beginIfRoom_unnoticed (s : State) (e : Fin 8 × Nat) : Unnoticed s (beginIfRoom s e) := by
  unfold beginIfRoom
  split
  · exact Unnoticed.refl s
  · split
    · have herase : Unnoticed s { s with waitList := s.waitList.erase e } := .of_same rfl rfl rfl
      exact herase.trans (startAttempt_unnoticed ..)
    · exact Unnoticed.refl s

/-- The room handed on sends STOREs, and ends a drain (R138, R157). -/
theorem settle_unnoticed (s : State) : Unnoticed s (settle s) := by
  have hturn : Unnoticed s (handRoom s) := Unnoticed.foldl beginIfRoom_unnoticed _ s
  refine hturn.trans ?_
  unfold settle endDrain setMode
  split
  · split
    · exact Unnoticed.refl _
    · exact .of_same rfl rfl rfl
  · exact Unnoticed.refl _

theorem count_unnoticed {c : Counter} (hc : c ≠ .noticeDropped) (s : State) : Unnoticed s (count c s) :=
  ⟨rfl, counterValue_count_other s (Ne.symm hc), [], (List.append_nil _).symm, fun _ hx => absurd hx List.not_mem_nil⟩

theorem sendReply_unnoticed (a : Asker) (k : Byte) (st : Status) (fl : Byte) (r : List Byte) (s : State) : Unnoticed s (sendReply a k st fl r s) := by
  unfold sendReply
  split
  · exact sendFrame_unnoticed (by decide) ..
  · exact count_unnoticed (by decide) s

theorem reply_unnoticed (f : Frame) (k : Kind) (st : Status) (r : List Byte) (s : State) : Unnoticed s (reply f k st r s) := by
  unfold reply answer
  split
  · exact (count_unnoticed (by decide) s).trans (sendReply_unnoticed ..)
  · exact sendReply_unnoticed ..

theorem finish_unnoticed (f : Frame) (k : Kind) (st : Status) (r : List Byte) (s : State) : Unnoticed s (finish f k st r s) :=
  (settle_unnoticed s).trans (reply_unnoticed ..)

/-- A command whose change made its NOTICE has made it once it has ended: the end sends messages only. -/
theorem exec_made {c : Instr} {s u : State} {w : Watch} {n : Nat} {g : Generation} {old new : Option RecState} (heff : effect c s = u)
    (h : NoticeMade s u w n g old new) : ∃ t, exec c s = .next t ∧ NoticeMade s t w n g old new := by
  obtain ⟨pu, pr, msgs, hc, hno⟩ := commit_sends_messages s u
  have hend : Unnoticed u { u with events := { u.events with pendingUrgent := pu, pendingRoutine := pr }, outputs := u.outputs ++ msgs } :=
    ⟨rfl, rfl, msgs, rfl, fun x hx => absurd hx (hno x)⟩
  exact ⟨_, (exec_eq_commit c s).trans ((congrArg (commit s) heff).trans hc), h.unnoticed hend⟩

/-! ### Entry into FREE (R24) -/

theorem foldl_setNode_unnoticed (g : Node → Node) (ks : List Nat) (s : State) : Unnoticed s (ks.foldl (fun s x => setNode x (g (nodeAt s x)) s) s) :=
  Unnoticed.foldl (fun s x => (.of_same rfl rfl rfl : Unnoticed s (setNode x (g (nodeAt s x)) s))) ks s

/-- A record's entry into FREE makes its NOTICE as the record leaves what held it; what follows sends nothing. -/
theorem enterFree_made {s u : State} {n : Nat} {l : Live} {w : Watch} (h : Silent s u) (hl : liveAt u n = some l) (hw : l.watch = some w) :
    NoticeMade s (enterFree n u) w n (generationAt u n) (some l.state) none := by
  simp only [enterFree, hl, hw]
  refine (notify_made (h.trans (leaveHolder_silent n l u)) n _ w (some l.state) none).unnoticed ?_
  generalize notify n (generationAt u n) (some w) (stateCode (some l.state)) none (leaveHolder n l u) = v
  have hclear : Unnoticed v (clearIndexEntry l v) := .of_same rfl rfl rfl
  have hrefs : Unnoticed (clearIndexEntry l v) (lowerRefs (slotsNamed l.sources l.targets) (clearIndexEntry l v)) :=
    foldl_setNode_unnoticed (fun x => { x with refs := x.refs - 1 }) (slotsNamed l.sources l.targets) (clearIndexEntry l v)
  generalize lowerRefs (slotsNamed l.sources l.targets) (clearIndexEntry l v) = x at hrefs
  have hset : Unnoticed x (setRecord n { generation := generationAt u n + 1, live := none } x) := .of_same rfl rfl rfl
  obtain ⟨d, hd⟩ := writeFields_eq n (identityFields ++ workFields) (setRecord n { generation := generationAt u n + 1, live := none } x)
  have hwrite : Unnoticed (setRecord n { generation := generationAt u n + 1, live := none } x)
      (writeFields n (identityFields ++ workFields) (setRecord n { generation := generationAt u n + 1, live := none } x)) := by
    rw [hd]
    exact .of_same rfl rfl rfl
  have hall := ((hclear.trans hrefs).trans hset).trans hwrite
  exact hall.trans (.of_same rfl rfl rfl)

/-! ### The commands -/

/-- Settles O22: each command's change is one entry into a state, silent before it and without a NOTICE after it. -/
theorem noticeFollowsTheWatch : Obligations.NoticeFollowsTheWatch := by
  refine ⟨fun f r l w s h hf hb hw => ?_, fun i n fg bg l w s h hw => ?_, fun f i j st l x w s hgood hw hlast hdone => ?_,
    fun n k c l w s hl hw => ?_⟩
  · have hgen : generationAt s r.number = r.generation := h.2.2.2.2
    intro makes
    refine ⟨fun hst => ?_, fun cause hst hc hlost => ?_, ?_, fun hp => ?_⟩
    · refine exec_made ((effect_hold h hf hb).trans (applyHold_of_working hst)) ?_
      rw [← hgen]
      exact (enterHeld_made (Silent.refl s) h.live hw .operator).unnoticed (finish_unnoticed ..)
    · refine exec_made ((effect_resume h hf hb).trans (applyResume_of_held h.sound h.live hst hc hlost)) ?_
      rw [← hgen]
      exact (enterWaiting_made (Silent.refl s) h.live hw).unnoticed (reply_unnoticed ..)
    · refine exec_made (effect_cancel h hf hb) ?_
      have hmade := enterFree_made (Silent.refl s) h.live hw
      rw [hgen] at hmade
      exact hmade.unnoticed (finish_unnoticed ..)
    · refine exec_made (effect_retire h hf hb hp) ?_
      have hmade := enterFree_made (Silent.refl s) h.live hw
      rw [hgen] at hmade
      exact hmade.unnoticed (finish_unnoticed ..)
  · intro seg makes
    have heff := h.effect
    obtain ⟨-, hd, -, -, hl, -, -, hwaiting, -⟩ := h
    rw [admitRecord_of_sound (s := headTaken fg bg s) hd hl] at heff
    have hhead : Silent s (headTaken fg bg s) := ⟨SameControl.refl s, rfl, rfl, rfl⟩
    refine ⟨fun hall => ?_, fun pre k c post hsplit hpre => ⟨fun hk => ?_, fun hk => ?_⟩⟩
    · have hcheck : startCheck (headTaken fg bg s) l (nextSegment l) = .pass := startCheck_of_all_serving hall
      rw [hcheck] at heff
      have hbegin : Silent s (beginSegment i n l (nextSegment l) l.cls 0 (headTaken fg bg s)) := ⟨SameControl.refl s, rfl, rfl, rfl⟩
      have hmade := enterActive_made hbegin hl hw
      rw [hwaiting] at hmade
      exact exec_made heff hmade
    · have hcheck : startCheck (headTaken fg bg s) l (nextSegment l) = .stall k := startCheck_of_muted (s := headTaken fg bg s) hsplit hpre hk
      rw [hcheck] at heff
      have hmade := enterStalled_made hhead hl hw k
      rw [hwaiting] at hmade
      exact exec_made heff hmade
    · have hcheck : startCheck (headTaken fg bg s) l (nextSegment l) = .hold c :=
        startCheck_of_unusable (s := headTaken fg bg s) hsplit hpre (.inl hk)
      rw [hcheck] at heff
      have hmade := enterHeld_made hhead hl hw c
      rw [hwaiting] at hmade
      exact exec_made heff hmade
  · obtain ⟨ha, hd, hf, ⟨hj, hl, -, -, hact, -⟩, ⟨r, hb, hlane, hgen, hseg, hfrag, hattempt, hstatus, hcrc⟩, -, hflight, hsrc, hx, hopen, hplaced⟩ := hgood
    have hstore : receiptStore s f.src r = some (i, j, st) :=
      receiptStore_eq_some_iff.mpr ⟨hlane, hj, hgen, hseg, hfrag, hflight, hattempt, hsrc⟩
    have heff := (effect_storeAck ha hf hb).trans (applyStoreAck_good hstore hstatus hcrc)
    have hlaneR := laneAt_receivedState_same i j st l x s
    have hliveR : liveAt (receivedState i j st l x s) j.record = some (advancedLive l st x) := liveAt_setLive_same (receiptTaken i j st s) j.record _
    have hgenR : generationAt (receivedState i j st l x s) j.record = generationAt s j.record := generationAt_setLive (receiptTaken i j st s) _ _ _
    have hall : allStored (receivedState i j st l x s) i = true := (allStored_withStore hlaneR rfl).mpr hlast
    have hsilent : Silent s (receivedState i j st l x s) := by
      obtain ⟨rs, ls, ns, hkept⟩ := receivedState_kept i j st l x s
      rw [hkept]
      exact ⟨SameControl.refl s, rfl, rfl, rfl⟩
    rw [goodReceipt_of_sound hd hj hl hx hopen hplaced, if_pos hall, turnEnd_placed hlaneR hliveR hdone] at heff
    have hactive : (advancedLive l st x).state = .active := hact
    have hmade := enterPlaced_made hsilent hliveR hw
    rw [hgenR, hactive] at hmade
    exact exec_made heff (hmade.unnoticed (settle_unnoticed _))
  · intro e he
    have hsilent := Silent.refl s
    simp only [List.mem_cons, List.not_mem_nil, or_false] at he
    rcases he with rfl | rfl | rfl | rfl | rfl | rfl
    · exact enterWaiting_made hsilent hl hw
    · exact enterActive_made hsilent hl hw
    · exact enterStalled_made hsilent hl hw k
    · exact enterHeld_made hsilent hl hw c
    · exact enterPlaced_made hsilent hl hw
    · exact enterFree_made hsilent hl hw

end Sys2Proof.Machine

/-! SUPPORT. Words lost in both copies (R30 to R33): what a command that meets one does. -/

namespace Sys2Proof.Machine

/-! ### One word lost -/

/-- The damage that loses both copies of `w`. -/
def lossOf (w : TableWord) : List Damage :=
  [{ word := w, second := false, health := .uncorrectable }, { word := w, second := true, health := .uncorrectable }]

/-- Both copies of `w` are lost, and every other word is clean. -/
structure OnlyLost (w : TableWord) (s : State) : Prop where
  first : (healthOf s w).first = .uncorrectable
  second : (healthOf s w).second = .uncorrectable
  other : ∀ x, wordCode x ≠ wordCode w → (healthOf s x).first = .clean

theorem healthOf_setHealth_other {w x : TableWord} (hx : wordCode x ≠ wordCode w) (h : WordHealth) (s : State) :
    healthOf (setHealth w h s) x = healthOf s x :=
  Sparse.get_set_other s.dram hx h

theorem onlyLost_strike {s : State} (h : s.dram = []) (w : TableWord) : OnlyLost w (strike (lossOf w) s) := by
  have hclean : ∀ x, healthOf s x = { first := .clean, second := .clean } := fun x => by
    rw [healthOf, h]
    rfl
  have hstrike : strike (lossOf w) s = setHealth w { first := .uncorrectable, second := .uncorrectable }
      (setHealth w { first := .uncorrectable, second := .clean } s) := by
    simp [lossOf, strike, strikeOne, hclean, worse, healthOf_setHealth_same]
  rw [hstrike]
  refine ⟨?_, ?_, fun x hx => ?_⟩
  · rw [healthOf_setHealth_same]
  · rw [healthOf_setHealth_same]
  · rw [healthOf_setHealth_other hx, healthOf_setHealth_other hx, hclean]

theorem OnlyLost.of_dram {w : TableWord} {s t : State} (h : OnlyLost w s) (hd : t.dram = s.dram) : OnlyLost w t := by
  have hsame : ∀ x, healthOf t x = healthOf s x := fun x => by rw [healthOf, healthOf, hd]
  exact ⟨(congrArg _ (hsame w)).trans h.first, (congrArg _ (hsame w)).trans h.second, fun x hx => (congrArg _ (hsame x)).trans (h.other x hx)⟩

theorem OnlyLost.readWord {w : TableWord} {s : State} (h : OnlyLost w s) : readWord w s = (false, raise .memoryError s) :=
  readWord_of_lost h.first h.second

theorem OnlyLost.readWord_other {w x : TableWord} {s : State} (h : OnlyLost w s) (hx : wordCode x ≠ wordCode w) : Machine.readWord x s = (true, s) :=
  readWord_of_clean (h.other x hx)

/-! ### Words have codes of their own -/

theorem mem_fields (f : RecField) : f ∈ identityFields ++ workFields := by
  cases f <;> decide

theorem fieldNumber_injective {f g : RecField} (h : fieldNumber f = fieldNumber g) : f = g :=
  List.inj_on_of_nodup_map (f := fieldNumber) (by decide) (mem_fields f) (mem_fields g) h

theorem wordCode_field_ne {n : Nat} {f g : RecField} (h : f ≠ g) : wordCode (.record n f) ≠ wordCode (.record n g) := by
  have hne := mt fieldNumber_injective h
  simp only [wordCode]
  omega

theorem wordCode_way_ne_record (b w n : Nat) (f : RecField) : wordCode (.way b w) ≠ wordCode (.record n f) := by
  simp only [wordCode]
  omega

theorem wordCode_way_ne_freeEntry (b w p : Nat) : wordCode (.way b w) ≠ wordCode (.freeEntry p) := by
  simp only [wordCode]
  omega

theorem wordCode_record_ne_freeEntry (n p : Nat) (f : RecField) : wordCode (.record n f) ≠ wordCode (.freeEntry p) := by
  simp only [wordCode]
  omega

theorem wordCode_way_ne {b v w : Nat} (h : v ≠ w) : wordCode (.way b v) ≠ wordCode (.way b w) := by
  simp only [wordCode]
  omega

/-! ### Reads of a record with a lost word (R31, R32) -/

theorem OnlyLost.readFields_of_not_mem {n : Nat} {fd : RecField} {s : State} (h : OnlyLost (.record n fd) s) {fs : List RecField} (hfd : fd ∉ fs) :
    readFields n fs s = ([], s) := by
  induction fs with
  | nil => rfl
  | cons f fs ih =>
    obtain ⟨hf, hfs⟩ := List.ne_and_not_mem_of_not_mem_cons hfd
    simp only [readFields, h.readWord_other (wordCode_field_ne (Ne.symm hf)), ih hfs, if_true]

theorem OnlyLost.readFields_of_mem {n : Nat} {fd : RecField} {s : State} (h : OnlyLost (.record n fd) s) {fs : List RecField} (hn : fs.Nodup)
    (hfd : fd ∈ fs) : readFields n fs s = ([fd], raise .memoryError s) := by
  induction fs with
  | nil => exact absurd hfd List.not_mem_nil
  | cons f fs ih =>
    obtain ⟨hf, hn⟩ := List.nodup_cons.mp hn
    by_cases hc : f = fd
    · subst hc
      have hraised : OnlyLost (.record n f) (raise .memoryError s) := h.of_dram rfl
      simp only [readFields, h.readWord, hraised.readFields_of_not_mem hf, Bool.false_eq_true, if_false]
    · have hmem := (List.mem_cons.mp hfd).resolve_left (Ne.symm hc)
      simp only [readFields, h.readWord_other (wordCode_field_ne hc), ih hn hmem, if_true]

theorem identityFields_nodup : identityFields.Nodup := by decide

theorem unlost_filter {l : Live} (h : l.lostFields = []) (ids : List RecField) : ids.filter (fun f => !(l.lostFields.contains f)) = ids := by
  rw [h]
  exact List.filter_eq_self.mpr fun _ _ => rfl

section
variable {n : Nat} {fd : RecField} {l : Live} {s : State} (h : OnlyLost (.record n fd) s) (hl : liveAt s n = some l) (hlost : l.lostFields = [])
include h hl hlost

theorem OnlyLost.requestRead_identity (hfd : fd ∈ identityFields) (work : List RecField) :
    requestRead n identityFields work s = (false, settle (makeFixed n [fd] (raise .memoryError s))) := by
  simp only [requestRead, readRecordFields, hl, unlost_filter hlost, h.readFields_of_mem identityFields_nodup hfd, ne_eq, reduceCtorEq,
    not_false_eq_true, if_true, Bool.false_eq_true, if_false]

theorem OnlyLost.requestRead_work {ids work : List RecField} (hids : fd ∉ ids) (hfd : fd ∈ work) (hn : work.Nodup)
    (hm : l.state ≠ .held .memory) : requestRead n ids work s = (false, settle (enterHeld n .memory (raise .memoryError s))) := by
  simp only [requestRead, readRecordFields, hl, unlost_filter hlost, h.readFields_of_not_mem hids, h.readFields_of_mem hn hfd, hm, ne_eq, reduceCtorEq,
    not_true_eq_false, not_false_eq_true, if_true, Bool.false_eq_true, if_false]

theorem OnlyLost.requestRead_whole {ids work : List RecField} (hids : fd ∉ ids) (hfd : fd ∉ work) : requestRead n ids work s = (true, s) := by
  simp only [requestRead, readRecordFields, hl, unlost_filter hlost, h.readFields_of_not_mem hids, h.readFields_of_not_mem hfd, ne_eq,
    not_true_eq_false, if_false, ite_self, if_true]
end

/-- The work words of a record HELD with MEMORY are not read (R31). -/
theorem readWork_of_memoryHeld {n : Nat} {l : Live} {s : State} (hl : liveAt s n = some l) (hm : l.state = .held .memory) (work : List RecField) :
    readWork n work s = (true, s) := by
  simp [readWork, requestRead, readRecordFields, hl, hm, readFields]

/-! ### The record held or fixed -/

/-- The record that the loss of its identity word `fd` leaves (R32). -/
def fixedBy (l : Live) (fd : RecField) : Live :=
  { l with state := .held .memory, fixed := true, lostFields := [fd], watch := if fd = .watch then none else l.watch }

/-- All that becoming fixed does once the record has left what held it. -/
theorem makeFixed_eq {n : Nat} {fd : RecField} {l : Live} {s : State} (hl : liveAt s n = some l) (hlost : l.lostFields = []) :
    ∃ d fr nc ctr out, makeFixed n [fd] s = { raise .recordHeld (setLive n (fixedBy l fd) (leaveHolder n l s)) with
        dram := d, fresh := fr, noticeCounter := nc, counters := ctr, outputs := (leaveHolder n l s).outputs ++ out }
      ∧ counterValue .replyDropped (makeFixed n [fd] s) = counterValue .replyDropped (leaveHolder n l s) := by
  have hlive : fixedBy l fd = { l with state := .held .memory, fixed := true, watch := if RecField.watch ∈ [fd] then none else l.watch,
                                       lostFields := l.lostFields ++ [fd] } := by
    simp only [fixedBy, hlost, List.mem_singleton, List.nil_append, eq_comm (a := RecField.watch)]
  unfold makeFixed
  simp only [hl, ← hlive]
  obtain ⟨d, hd⟩ := writeFields_eq n [.state, .holdCause] (setLive n (fixedBy l fd) (leaveHolder n l s))
  rw [hd]
  generalize (if RecField.generation ∈ l.lostFields ++ [fd] then _ else _ : Generation) = g
  generalize (if RecField.state ∈ [fd] then _ else _ : Byte) = o
  generalize (if RecField.watch ∈ [fd] then none else l.watch) = w
  obtain ⟨nc, ctr, out, hnotify, hcount⟩ := notify_eq n g w o (some (.held .memory))
    (raise .recordHeld { setLive n (fixedBy l fd) (leaveHolder n l s) with dram := d, fresh := (leaveHolder n l s).fresh + 1 })
  exact ⟨d, _, nc, ctr, out, hnotify, hcount .replyDropped (by decide)⟩

theorem leaveHolder_of_held {n : Nat} {l : Live} {c : HoldCause} (h : l.state = .held c) (s : State) : leaveHolder n l s = s := by
  rw [leaveHolder, h]

/-- A word has been lost and record `n`, which held `l`, is as `l'` says: HELD with MEMORY. -/
structure HeldByLoss (n : Nat) (l l' : Live) (s u : State) : Prop extends OnlyRecord n s u where
  live : liveAt u n = some l'
  memoryError : flagSet .memoryError u = true
  recordHeld : flagSet .recordHeld u = true
  queues : ∀ c, l.state = .held c → SameQueues s u

theorem HeldByLoss.settle {n : Nat} {l l' : Live} {s u : State} (h : HeldByLoss n l l' s u) : HeldByLoss n l l' s (settle u) := by
  have hroom := settle_handed u
  exact ⟨h.toOnlyRecord.trans (settle_onlyRecord n u), (settle_liveAt u n).trans h.live, hroom.flags _ h.memoryError, hroom.flags _ h.recordHeld,
    fun c hc => (h.queues c hc).trans hroom.queues⟩

theorem raise_onlyRecord (e : Event) (n : Nat) (s : State) : OnlyRecord n s (raise e s) :=
  .of_records (.of_same (SameControl.refl s) rfl rfl) ⟨rfl, rfl, rfl⟩ rfl

section
variable {n : Nat} {l : Live} {s v : State} (hv : OnlyRecord n s v) (hq : SameQueues s v) (hl : liveAt v n = some l)
include hv hq hl

/-- A work word is lost (R31). -/
theorem enterHeld_heldByLoss : HeldByLoss n l { l with state := .held .memory } s (settle (enterHeld n .memory (raise .memoryError v))) := by
  have hl : liveAt (raise .memoryError v) n = some l := hl
  refine HeldByLoss.settle ⟨(hv.trans (raise_onlyRecord ..)).trans (enterHeld_onlyRecord hl .memory), (liveAt_enterHeld hl n).trans (if_pos rfl),
    (enterHeld_held n .memory _).flags _ (flagSet_raise_self .memoryError v), enterHeld_flag hl .memory, fun c hc => ?_⟩
  have hqueues := enterHeld_queues hl .memory
  rw [leaveHolder_of_held hc] at hqueues
  exact hq.trans hqueues

/-- An identity word is lost (R32). -/
theorem makeFixed_heldByLoss (hlost : l.lostFields = []) (fd : RecField) :
    HeldByLoss n l (fixedBy l fd) s (settle (makeFixed n [fd] (raise .memoryError v))) := by
  have hl : liveAt (raise .memoryError v) n = some l := hl
  have hone : OnlyRecord n s (raise .memoryError v) := hv.trans (raise_onlyRecord ..)
  have hraised : flagSet .memoryError (raise .memoryError v) = true := flagSet_raise_self .memoryError v
  have hq : SameQueues s (raise .memoryError v) := hq
  generalize raise .memoryError v = w at hl hone hraised hq
  obtain ⟨d, fr, nc, ctr, out, heq, hdropped⟩ := makeFixed_eq (fd := fd) hl hlost
  have hsteady := makeFixed_steady n [fd] w
  have hleave := leaveHolder_unanswered n l w
  obtain ⟨sent, hsent⟩ := hleave.sent
  have hrecords : (makeFixed n [fd] w).records = (setLive n (fixedBy l fd) (leaveHolder n l w)).records := by
    rw [heq]
    rfl
  have hfixed : OnlyRecord n w (makeFixed n [fd] w) := by
    refine ⟨⟨hsteady.control, ⟨sent ++ out, ?_⟩, hdropped.trans hleave.dropped⟩, ⟨hsteady.freeList, hsteady.liveCount, hsteady.index⟩, fun m hm => ?_,
      hsteady.generation n⟩
    · rw [heq, ← List.append_assoc, ← hsent]
    · rw [recordAt, hrecords]
      refine (recordAt_setRecord_other (leaveHolder n l w) hm _).trans ?_
      rw [recordAt, recordAt, leaveHolder_records]
  refine HeldByLoss.settle ⟨hone.trans hfixed, (liveAt_congr hrecords n).trans (liveAt_setLive_same ..), ?_, ?_, fun c hc => ?_⟩
  · rw [heq]
    refine flagSet_raise_mono (s := setLive n (fixedBy l fd) (leaveHolder n l w)) ?_
    rw [flagSet, setLive_events, leaveHolder_events]
    exact hraised
  · rw [heq]
    exact flagSet_raise_self .recordHeld (setLive n (fixedBy l fd) (leaveHolder n l w))
  · rw [heq, leaveHolder_of_held hc]
    exact hq.trans ⟨rfl, rfl, rfl⟩
end

end Sys2Proof.Machine

/-! SUPPORT. The commands that meet a lost word (R31 to R33). -/

namespace Sys2Proof.Machine

/-! ### What the requests come to -/

theorem exists_struck {s : State} (h : s.dram = []) (w : TableWord) :
    ∃ d, strike (lossOf w) s = { s with dram := d } ∧ OnlyLost w { s with dram := d } := by
  obtain ⟨d, hd⟩ := strike_eq (lossOf w) s
  exact ⟨d, hd, hd ▸ onlyLost_strike h w⟩

section
variable {r : RecordName} {fd : RecField} {l : Live} {s : State} (h : OnlyLost (.record r.number fd) s)
include h

theorem OnlyLost.onRecord_fixed (hl : liveAt s r.number = some l) (hf : l.fixed = false) (hlost : l.lostFields = []) (hfd : fd ∈ identityFields)
    (f : Frame) (k : Kind) (act : Live → State → State) :
    onRecord f k r act s = reply f k .wrongState [] (settle (makeFixed r.number [fd] (raise .memoryError s))) := by
  refine onRecord_of_error ?_ f k act
  simp [identify, hl, hf, h.requestRead_identity hl hlost hfd]

theorem OnlyLost.onRecord_whole (hl : liveAt s r.number = some l) (hf : l.fixed = false) (hlost : l.lostFields = []) (hfd : fd ∉ identityFields)
    (hg : generationAt s r.number = r.generation) (f : Frame) (k : Kind) (act : Live → State → State) : onRecord f k r act s = act l s := by
  have hread := h.requestRead_whole hl hlost hfd (work := []) List.not_mem_nil
  have hid : identify r s = (.ok l, s) := by simp [identify, hl, hf, hread, hg]
  rw [onRecord, hid]

/-- A FREE record whose state or generation is lost is not compared (R31). -/
theorem OnlyLost.onRecord_free (hl : liveAt s r.number = none) (hfd : fd ∈ [RecField.state, .generation]) (f : Frame) (k : Kind)
    (act : Live → State → State) : onRecord f k r act s = reply f k .wrongState [] (raise .memoryError s) := by
  refine onRecord_of_error ?_ f k act
  simp [identify, hl, h.readFields_of_mem (by decide) hfd]
end

/-- A request refused or answered after a change that no REPLY has answered. -/
theorem exec_answered {c : Instr} {f : Frame} {k : Kind} {st : Status} {result : List Byte} {s u : State} (heff : effect c s = reply f k st result u)
    (hst : st ≠ .malformed) (hu : Unanswered s u) :
    ∃ t, exec c s = .next t ∧ Answered s t f k st 0 result ∧ (∀ e, flagSet e t = flagSet e u) ∧ Concluded u t := by
  obtain ⟨t, ht, hans, hcon⟩ := reply_concluded hu f k hst result
  exact ⟨t, (exec_eq_commit c s).trans ((congrArg (commit s) heff).trans ht), hans, flagSet_concluded ht, hcon⟩

/-- What is seen of a record that a lost word has taken to HELD with MEMORY (R31, R32). -/
def LossShown (n : Nat) (s t : State) : Prop :=
  flagSet .memoryError t = true ∧ flagSet .recordHeld t = true ∧ OtherRecords s t n ∧ SameCollections s t

theorem HeldByLoss.answered {c : Instr} {f : Frame} {k : Kind} {st : Status} {result : List Byte} {n : Nat} {l l' : Live} {s u : State}
    (h : HeldByLoss n l l' s u) (heff : effect c s = reply f k st result u) (hst : st ≠ .malformed) :
    ∃ t, exec c s = .next t ∧ liveAt t n = some l' ∧ LossShown n s t ∧ Answered s t f k st 0 result ∧ (∀ cause, l.state = .held cause → SameQueues s t)
      ∧ ∀ frag m, locateReport t n frag m = locateReport u n frag m := by
  obtain ⟨t, ht, hans, hflags, ⟨ctr, out, ev, rfl⟩, -⟩ := exec_answered heff hst h.toUnanswered
  exact ⟨_, ht, h.live, ⟨(hflags _).trans h.memoryError, (hflags _).trans h.recordHeld, h.others, h.collections⟩, hans, h.queues, fun _ _ => rfl⟩

theorem dram_onlyRecord (n : Nat) (d : Sparse WordHealth) (s : State) : OnlyRecord n s { s with dram := d } :=
  .of_records (.of_same (SameControl.refl s) rfl rfl) ⟨rfl, rfl, rfl⟩ rfl

/-- A request that names a FREE record whose state or generation is lost comes to its refusal alone (R31). -/
theorem OnlyLost.refused_free {c : Instr} {f : Frame} {k : Kind} {r : RecordName} {fd : RecField} {d : Sparse WordHealth}
    {act : Live → State → State} {s : State} (h : OnlyLost (.record r.number fd) { s with dram := d }) (hl : liveAt s r.number = none)
    (hfd : fd ∈ [RecField.state, .generation]) (heff : effect c s = onRecord f k r act { s with dram := d }) :
    ∃ t, exec c s = .next t ∧ Answered s t f k .wrongState 0 [] ∧ flagSet .memoryError t = true ∧ counterValue .staleGen t = counterValue .staleGen s
      ∧ t.records = s.records ∧ SameCollections s t ∧ SameQueues s t ∧ SameWork s t := by
  obtain ⟨t, ht, hans, hflags, ⟨ctr, out, ev, rfl⟩, hcount⟩ := exec_answered (heff.trans (h.onRecord_free hl hfd f k act)) (by decide)
    ((dram_onlyRecord 0 d s).trans (raise_onlyRecord ..)).toUnanswered
  exact ⟨_, ht, hans, (hflags _).trans (flagSet_raise_self ..), hcount .staleGen (by decide), rfl, ⟨rfl, rfl, rfl⟩, SameQueues.refl s, SameWork.refl s⟩

/-! ### LOCATE (R44 to R46) -/

theorem waysRead_of_lost_record {n : Nat} {fd : RecField} {s : State} (h : OnlyLost (.record n fd) s) (b : Nat) : WaysRead s b (fun _ => false) :=
  fun _ _ hv => (h.of_dram hv).readWord_other (wordCode_way_ne_record b _ n fd)

theorem waysRead_of_lost_freeEntry {p : Nat} {s : State} (h : OnlyLost (.freeEntry p) s) (b : Nat) : WaysRead s b (fun _ => false) :=
  fun _ _ hv => (h.of_dram hv).readWord_other (wordCode_way_ne_freeEntry b _ p)

theorem waysRead_of_lost_way {b w : Nat} {s : State} (h : OnlyLost (.way b w) s) : WaysRead s b (fun v => decide (v = w)) := fun v u hu => by
  by_cases hv : v = w
  · subst hv
    simp only [(h.of_dram hu).readWord, decide_true, Bool.not_true, if_true]
  · simp only [(h.of_dram hu).readWord_other (wordCode_way_ne hv), decide_eq_false hv, Bool.not_false, Bool.false_eq_true, if_false]

/-- A key is found wherever the ways of its bucket can be read. -/
theorem lookup_of_ways {key : StripeKey} {n : Nat} {l : Live} {s : State} (h : WaysRead s (bucketOf key) (fun _ => false)) (hk : KeyFinds s key n l) :
    (lookup key s).1.hit = some n ∧ (lookup key s).2 = s := by
  obtain ⟨-, ⟨w, hw, hway⟩, huniq⟩ := hk
  have hmet := lookup_met key h
  refine ⟨?_, hmet.state⟩
  cases hhit : (lookup key s).1.hit with
  | none => exact absurd rfl ((hmet.miss hhit).2 w (List.mem_range.mpr hw) rfl _ hway)
  | some m =>
    obtain ⟨v, hv, -, hvway⟩ := (hmet.hit m hhit).resolve_left fun hno => nomatch hno
    exact congrArg some (huniq v _ (List.mem_range.mp hv) hvway rfl)

theorem lookup_of_no_way {key : StripeKey} {bad : Nat → Bool} {s : State} (h : WaysRead s (bucketOf key) bad)
    (hno : ∀ v m, v < 8 → bad v = false → wayAt s (bucketOf key) v ≠ some { record := m, key := key }) : (lookup key s).1.hit = none := by
  have hmet := lookup_met key h
  cases hhit : (lookup key s).1.hit with
  | none => rfl
  | some m =>
    obtain ⟨v, hv, hbad, hvway⟩ := (hmet.hit m hhit).resolve_left fun hno => nomatch hno
    exact absurd hvway (hno v m (List.mem_range.mp hv) hbad)

/-- A LOCATE whose first reads leave the record HELD with MEMORY reports it. -/
theorem locateFound_of_held {f : Frame} {n : Nat} {frag : Option Byte} {l' : Live} {b : Bool} {s u : State}
    (hread : requestRead n identityFields (if frag.isSome then [.frags] else []) s = (b, u)) (hl : liveAt u n = some l') (hm : l'.state = .held .memory)
    (hf : f.flags.getLsbD 0 = false) : locateFound f n frag s = reply f .locate .ok (locateReport u n frag l') u := by
  have hno : notTarget l' frag = false := notTarget_eq_false (.inr (.inl (memoryHeld_iff.mpr hm)))
  simp only [locateFound, hread, hl, hno, Bool.false_eq_true, if_false, readWork_of_memoryHeld hl hm]
  exact locateOk_unraised hl (.inl hf)

/-- A LOCATE whose last reads leave the record HELD with MEMORY reports it. -/
theorem locateFound_of_work {f : Frame} {n : Nat} {frag : Option Byte} {l l' : Live} {b : Bool} {s u : State}
    (hread : requestRead n identityFields (if frag.isSome then [.frags] else []) s = (true, s)) (hl : liveAt s n = some l)
    (hno : notTarget l frag = false) (hwork : readWork n [.length, .segTotal, .frags, .placed, .status] s = (b, u)) (hl' : liveAt u n = some l')
    (hf : f.flags.getLsbD 0 = false) : locateFound f n frag s = reply f .locate .ok (locateReport u n frag l') u := by
  simp only [locateFound, hread, hl, hno, Bool.false_eq_true, if_false, hwork]
  exact locateOk_unraised hl' (.inl hf)

theorem applyLocate_of_hit {f : Frame} {r : LocateReq} {n : Nat} {s : State} (h : (lookup r.key s).1.hit = some n ∧ (lookup r.key s).2 = s) :
    applyLocate f r s = locateFound f n r.frag s := by
  obtain ⟨hhit, hstate⟩ := h
  unfold applyLocate
  generalize lookup r.key s = look at hhit hstate ⊢
  simp only [hhit, hstate]

theorem applyLocate_of_miss {f : Frame} {r : LocateReq} {s : State} (h : (lookup r.key s).1.hit = none) :
    applyLocate f r s = reply f .locate .notFound [] (lookup r.key s).2 := by
  unfold applyLocate
  generalize lookup r.key s = look at h ⊢
  simp only [h]

/-- A LOCATE that meets a lost work word, where it reads the fragment indices or where it reads the rest. -/
theorem locateFound_of_lost_work {f : Frame} {n : Nat} {frag : Option Byte} {l : Live} {fd : RecField} {s : State} (h : OnlyLost (.record n fd) s)
    (hl : liveAt s n = some l) (hlost : l.lostFields = []) (hfd : fd ∈ [RecField.length, .segTotal, .frags, .placed, .status])
    (hm : l.state ≠ .held .memory) (hfrag : frag = none ∨ ∃ x ∈ l.targets, frag = some x.frag)
    (hlive : liveAt (settle (enterHeld n .memory (raise .memoryError s))) n = some { l with state := .held .memory })
    (hf : f.flags.getLsbD 0 = false) : locateFound f n frag s =
      reply f .locate .ok (locateReport (settle (enterHeld n .memory (raise .memoryError s))) n frag { l with state := .held .memory })
        (settle (enterHeld n .memory (raise .memoryError s))) := by
  have hid : fd ∉ identityFields := (by decide : ∀ fd ∈ [RecField.length, .segTotal, .frags, .placed, .status], fd ∉ identityFields) fd hfd
  by_cases hfirst : fd ∈ if frag.isSome then [RecField.frags] else []
  · exact locateFound_of_held (h.requestRead_work hl hlost hid hfirst (by split <;> decide) hm) hlive rfl hf
  · refine locateFound_of_work (h.requestRead_whole hl hlost hid hfirst) hl (notTarget_eq_false ?_)
      (h.requestRead_work (ids := []) hl hlost List.not_mem_nil hfd (by decide) hm) hlive hf
    rcases hfrag with hnone | ⟨x, hx, hsome⟩
    · exact .inl hnone
    · exact .inr (.inr ⟨x.frag, hsome, x, hx, rfl⟩)

/-! ### RESUME (R53) -/

theorem applyResume_of_lost {f : Frame} {n : Nat} {l : Live} {cause : HoldCause} {s u : State} (h : l.state = .held cause) (hc : cause ≠ .memory)
    (hread : readWork n [.status] s = (false, u)) : applyResume f n l s = reply f .resume .wrongState [] u := by
  cases cause with
  | memory => exact absurd rfl hc
  | _ => simp only [applyResume, h, hread, Bool.not_false, if_true]

/-! ### CANCEL (R54) -/

theorem healthOf_writeFields {n : Nat} {fd : RecField} {fs : List RecField} (h : fd ∈ fs) (s : State) :
    healthOf (writeFields n fs s) (.record n fd) = { first := .clean, second := .clean } := by
  have kept : ∀ (fs : List RecField) (s : State), healthOf s (.record n fd) = { first := .clean, second := .clean } →
      healthOf (writeFields n fs s) (.record n fd) = { first := .clean, second := .clean } := fun fs => by
    induction fs with
    | nil => exact fun s hs => hs
    | cons f fs ih =>
      refine fun s hs => ih (writeWord (.record n f) s) ?_
      by_cases hf : f = fd
      · rw [hf, healthOf_writeWord]
      · exact (healthOf_setHealth_other (wordCode_field_ne (Ne.symm hf)) _ s).trans hs
  induction fs generalizing s with
  | nil => exact absurd h List.not_mem_nil
  | cons f fs ih =>
    rcases List.mem_cons.mp h with rfl | h
    · exact kept fs _ (healthOf_writeWord s (.record n fd))
    · exact ih h _

theorem healthOf_appendFree (m n : Nat) (fd : RecField) (s : State) : healthOf (appendFree m s) (.record n fd) = healthOf s (.record n fd) :=
  healthOf_setHealth_other (wordCode_record_ne_freeEntry n _ fd) _ _

/-- The words of a record are sound once it has been freed (R24). -/
theorem enterFree_health {n : Nat} {l : Live} {s : State} (hl : liveAt s n = some l) (fd : RecField) :
    healthOf (enterFree n s) (.record n fd) = { first := .clean, second := .clean } := by
  simp only [enterFree, hl]
  rw [healthOf_appendFree]
  exact healthOf_writeFields (mem_fields fd) _

theorem enterFree_events {n : Nat} {l : Live} {s : State} (hl : liveAt s n = some l) : (enterFree n s).events = s.events := by
  obtain ⟨d, nc, ctr, out, ns, fl, lc, ix, heq, -⟩ := enterFree_eq hl
  rw [heq]
  exact leaveHolder_events n l s

/-- A CANCEL whose work words are lost frees the record without its target part. -/
theorem applyCancel_of_work {f : Frame} {n : Nat} {l' : Live} {b : Bool} {s u : State} (hread : readWork n [.placed, .status] s = (b, u))
    (hl : liveAt u n = some l') (hm : l'.state = .held .memory) :
    applyCancel f n s = finish f .cancel .ok (be 2 n ++ be 2 (generationAt u n).toNat ++ [0, 0, 0, 0]) (enterFree n u) := by
  have hnone : cancelledTargets l' = [] := by rw [cancelledTargets_eq, if_pos hm]
  simp only [applyCancel, hread, hl, hnone, cancelResult_eq]
  rfl

/-- The record HELD for a lost work word is then freed. -/
theorem HeldByLoss.freed {c : Instr} {f : Frame} {result : List Byte} {n : Nat} {l l' : Live} {s u : State} (h : HeldByLoss n l l' s u)
    (heff : effect c s = finish f .cancel .ok result (enterFree n u)) :
    ∃ t, exec c s = .next t ∧ recordAt t n = { generation := generationAt s n + 1, live := none } ∧ flagSet .memoryError t = true
      ∧ flagSet .recordHeld t = true ∧ (∀ fd, healthOf t (.record n fd) = { first := .clean, second := .clean }) ∧ Answered s t f .cancel .ok 0 result := by
  have hevents := enterFree_events h.live
  obtain ⟨t, ht, hans, hcon, hflags⟩ := finish_concluded (h.toUnanswered.trans (enterFree_unanswered h.live)) f .cancel (st := .ok) (by decide) result
  have hflag : ∀ e, flagSet e u = true → flagSet e t = true := fun e he => hflags e (by rw [flagSet, hevents]; exact he)
  have hrecord := (hcon.freed (enterFree_freed h.live)).record
  rw [h.generation] at hrecord
  refine ⟨t, (exec_eq_commit c s).trans ((congrArg (commit s) heff).trans ht), hrecord, hflag _ h.memoryError, hflag _ h.recordHeld, fun fd => ?_, hans⟩
  obtain ⟨-, -, -, -, hdram, -⟩ := hcon.sameTable (settle_handed (enterFree n u)).table
  rw [healthOf, hdram]
  exact enterFree_health h.live fd

/-! ### DEFINE (R33) -/

/-- A way that cannot be read refuses every DEFINE of its bucket (R33). -/
theorem defineChecked_of_lost_way {f : Frame} {r : DefineReq} {c : RecordClass} {e : Option Edge} {w : Nat} {s : State}
    (h : OnlyLost (.way (bucketOf r.key) w) s) (hw : w < 8) (hk : KeyAbsent s r.key) :
    defineChecked f r c e s = reply f .define .indexFull [] (raise .indexFull (raise .memoryError s)) := by
  have hways := waysRead_of_lost_way h
  have hany : (List.range 8).any (fun v => decide (v = w)) = true := List.any_eq_true.mpr ⟨w, List.mem_range.mpr hw, decide_eq_true rfl⟩
  have hmiss := lookup_of_no_way hways fun v m hv _ hway => hk v _ hv hway rfl
  obtain ⟨hstate, hread, -⟩ := lookup_met r.key hways
  rw [hany] at hstate hread
  unfold defineChecked
  generalize lookup r.key s = look at hmiss hstate hread ⊢
  simp only [hmiss, hstate, hread, if_true, Bool.or_true]

/-- A free-list head that cannot be read refuses DEFINE (R33). -/
theorem defineChecked_of_lost_head {f : Frame} {r : DefineReq} {c : RecordClass} {e : Option Edge} {s : State}
    (h : OnlyLost (.freeEntry s.freeList.head.toNat) s) (hk : KeyAbsent s r.key) (hempty : ∃ w, w < 8 ∧ wayAt s (bucketOf r.key) w = none)
    (hroom : s.liveCount < 65536) : defineChecked f r c e s = reply f .define .tableFull [] (raise .memoryError s) := by
  have hways := waysRead_of_lost_freeEntry h (bucketOf r.key)
  have hmiss := lookup_of_no_way hways fun v m hv _ hway => hk v _ hv hway rfl
  obtain ⟨hstate, hread, hfirst, -⟩ := lookup_met r.key hways
  obtain ⟨w, hw, hway, hlow⟩ := exists_lowest_empty hempty
  have hfind : (List.range 8).find? (fun v => (wayAt s (bucketOf r.key) v).isNone) = some w := by
    rw [List.find?_range_eq_some]
    exact ⟨by rw [hway]; rfl, List.mem_range.mpr hw, fun v hv => by simp [Option.isSome_iff_ne_none, hlow v hv]⟩
  have hfirst : (lookup r.key s).1.empty = some w := hfirst.trans hfind
  have hstate : (lookup r.key s).2 = s := hstate
  have hread : (lookup r.key s).1.unreadable = false := hread
  have hsize : ¬ Config.tableSize ≤ s.liveCount := not_le.mpr hroom
  unfold defineChecked
  generalize lookup r.key s = look at hmiss hstate hread hfirst ⊢
  simp only [hmiss, hstate, hread, hfirst, if_neg hsize, h.readWord, Bool.not_false, if_true]

/-- Settles O24: each command by its first read that fails. -/
theorem uncorrectableReadHoldsTheRecord : Obligations.UncorrectableReadHoldsTheRecord := by
  refine ⟨fun f r l cause s ha hf hb hl hfix hlost hg hst hs => ⟨fun hc => ?_, fun fd hfd => ?_⟩,
    fun f r n l s ha hb hk hfrag hurgent hfix hlost hs => ⟨fun fd hfd hm => ?_, fun fd hfd => ?_⟩,
    fun f r l s h hf hb hlost => ⟨fun fd hfd hm => ?_, fun fd hfd => ?_⟩,
    fun f r s ha hf hb hl hs fd hfd c hc => ?_, fun f r n l w s ha hb hk hs hw hway hothers => ?_,
    fun f r c e s ha hs hf hb hc he hlen hlist hslot hk => ⟨fun w hw => ?_, fun hempty hroom => ?_⟩⟩
  · obtain ⟨d, hd, hone⟩ := exists_struck hs (.record r.number .status)
    have hm : l.state ≠ .held .memory := by rw [hst]; exact fun hx => hc (RecState.held.inj hx)
    have hread := hone.requestRead_work (ids := []) (work := [.status]) hl hlost List.not_mem_nil (by decide) (by decide) hm
    have heff : effect (.resume f (lossOf (.record r.number .status))) s = _ := (congrArg (onResume f) hd).trans
      ((request_of_readable (s := { s with dram := d }) (needs := true) ha hb (fun _ => hf) .resume _).trans
        ((hone.onRecord_whole hl hfix hlost (by decide) hg f .resume _).trans (applyResume_of_lost hst hc hread)))
    obtain ⟨t, ht, hlive, hshown, hans, hq, -⟩ := (enterHeld_heldByLoss (dram_onlyRecord r.number d s) (SameQueues.refl s) hl).answered heff (by decide)
    exact ⟨t, ht, hlive, hshown, hans, hq cause hst⟩
  · obtain ⟨d, hd, hone⟩ := exists_struck hs (.record r.number fd)
    have heff : effect (.resume f (lossOf (.record r.number fd))) s = _ := (congrArg (onResume f) hd).trans
      ((request_of_readable (s := { s with dram := d }) (needs := true) ha hb (fun _ => hf) .resume _).trans
        (hone.onRecord_fixed hl hfix hlost hfd f .resume _))
    obtain ⟨t, ht, hlive, hshown, hans, hq, -⟩ := (makeFixed_heldByLoss (dram_onlyRecord r.number d s) (SameQueues.refl s) hl hlost fd).answered heff (by decide)
    exact ⟨t, ht, hlive, hshown, hans, hq cause hst⟩
  · obtain ⟨d, hd, hone⟩ := exists_struck hs (.record n fd)
    have hloss := enterHeld_heldByLoss (dram_onlyRecord n d s) (SameQueues.refl s) hk.1
    have hms : l.state ≠ .held .memory := fun hx => by rw [memoryHeld_iff.mpr hx] at hm; exact nomatch hm
    have heff : effect (.locate f (lossOf (.record n fd))) s = _ := (congrArg (onLocate f) hd).trans
      ((request_of_readable (s := { s with dram := d }) (needs := false) ha hb (fun h => nomatch h) .locate _).trans
        ((applyLocate_of_hit (lookup_of_ways (waysRead_of_lost_record hone _) hk)).trans
          (locateFound_of_lost_work hone hk.1 hlost hfd hms hfrag hloss.live hurgent)))
    obtain ⟨t, ht, hlive, hshown, hans, -, hreport⟩ := hloss.answered heff (by decide)
    exact ⟨t, ht, hlive, hshown, by rw [hreport]; exact hans⟩
  · obtain ⟨d, hd, hone⟩ := exists_struck hs (.record n fd)
    have hloss := makeFixed_heldByLoss (dram_onlyRecord n d s) (SameQueues.refl s) hk.1 hlost fd
    have heff : effect (.locate f (lossOf (.record n fd))) s = _ := (congrArg (onLocate f) hd).trans
      ((request_of_readable (s := { s with dram := d }) (needs := false) ha hb (fun h => nomatch h) .locate _).trans
        ((applyLocate_of_hit (lookup_of_ways (waysRead_of_lost_record hone _) hk)).trans
          (locateFound_of_held (hone.requestRead_identity hk.1 hlost hfd _) hloss.live rfl hurgent)))
    obtain ⟨t, ht, hlive, hshown, hans, -, hreport⟩ := hloss.answered heff (by decide)
    exact ⟨t, ht, hlive, hshown, by rw [hreport]; exact hans⟩
  · obtain ⟨ha, hs, hl, hfix, hg⟩ := h
    obtain ⟨d, hd, hone⟩ := exists_struck hs (.record r.number fd)
    have hms : l.state ≠ .held .memory := fun hx => by rw [memoryHeld_iff.mpr hx] at hm; exact nomatch hm
    have hid : fd ∉ identityFields := (by decide : ∀ fd ∈ [RecField.placed, .status], fd ∉ identityFields) fd hfd
    have hloss := enterHeld_heldByLoss (dram_onlyRecord r.number d s) (SameQueues.refl s) hl
    have hread := hone.requestRead_work (ids := []) hl hlost List.not_mem_nil hfd (by decide) hms
    have heff : effect (.cancel f (lossOf (.record r.number fd))) s = _ := (congrArg (onCancel f) hd).trans
      ((request_of_readable (s := { s with dram := d }) (needs := true) ha hb (fun _ => hf) .cancel _).trans
        ((hone.onRecord_whole hl hfix hlost hid hg f .cancel _).trans (applyCancel_of_work hread hloss.live rfl)))
    obtain ⟨t, ht, hrecord, herror, hheld, hhealth, hans⟩ := hloss.freed heff
    rw [hg] at hrecord
    rw [hloss.generation, hg] at hans
    exact ⟨t, ht, hrecord, herror, hheld, hhealth fd, hans⟩
  · obtain ⟨ha, hs, hl, hfix, hg⟩ := h
    obtain ⟨d, hd, hone⟩ := exists_struck hs (.record r.number fd)
    have heff : effect (.cancel f (lossOf (.record r.number fd))) s = _ := (congrArg (onCancel f) hd).trans
      ((request_of_readable (s := { s with dram := d }) (needs := true) ha hb (fun _ => hf) .cancel _).trans
        (hone.onRecord_fixed hl hfix hlost hfd f .cancel _))
    obtain ⟨t, ht, hlive, hshown, hans, -⟩ := (makeFixed_heldByLoss (dram_onlyRecord r.number d s) (SameQueues.refl s) hl hlost fd).answered heff (by decide)
    exact ⟨t, ht, hlive, hshown, hans⟩
  · obtain ⟨d, hd, hone⟩ := exists_struck hs (.record r.number fd)
    have request : ∀ (k : Kind) (act : RecordName → Live → State → State),
        Machine.request k true f (parseName f.body) (fun r s => onRecord f k r (act r) s) { s with dram := d } = onRecord f k r (act r) { s with dram := d } :=
      fun k act => request_of_readable (s := { s with dram := d }) (needs := true) ha hb (fun _ => hf) k _
    simp only [List.mem_cons, List.not_mem_nil, or_false] at hc
    rcases hc with rfl | rfl | rfl | rfl
    · obtain ⟨t, ht, hrest⟩ := hone.refused_free (c := .hold f (lossOf (.record r.number fd))) hl hfd
        ((congrArg (onHold f) hd).trans (request .hold fun r => applyHold f r.number))
      exact ⟨t, .hold, ht, rfl, hrest⟩
    · obtain ⟨t, ht, hrest⟩ := hone.refused_free (c := .resume f (lossOf (.record r.number fd))) hl hfd
        ((congrArg (onResume f) hd).trans (request .resume fun r => applyResume f r.number))
      exact ⟨t, .resume, ht, rfl, hrest⟩
    · obtain ⟨t, ht, hrest⟩ := hone.refused_free (c := .cancel f (lossOf (.record r.number fd))) hl hfd
        ((congrArg (onCancel f) hd).trans (request .cancel fun r _ => applyCancel f r.number))
      exact ⟨t, .cancel, ht, rfl, hrest⟩
    · obtain ⟨t, ht, hrest⟩ := hone.refused_free (c := .retire f (lossOf (.record r.number fd))) hl hfd
        ((congrArg (onRetire f) hd).trans (request .retire fun r => applyRetire f r.number))
      exact ⟨t, .retire, ht, rfl, hrest⟩
  · obtain ⟨d, hd, hone⟩ := exists_struck hs (.way (bucketOf r.key) w)
    have hways := waysRead_of_lost_way hone
    have hany : (List.range 8).any (fun v => decide (v = w)) = true := List.any_eq_true.mpr ⟨w, List.mem_range.mpr hw, decide_eq_true rfl⟩
    have hstate := (lookup_met r.key hways).state
    rw [if_pos hany] at hstate
    have hmiss := lookup_of_no_way hways fun v m hv hbad hvway =>
      hothers v hv (of_decide_eq_false hbad) (by rw [← hk.2.2 v _ hv hvway rfl]; exact hvway)
    have heff : effect (.locate f (lossOf (.way (bucketOf r.key) w))) s = _ := (congrArg (onLocate f) hd).trans
      ((request_of_readable (s := { s with dram := d }) (needs := false) ha hb (fun h => nomatch h) .locate _).trans (applyLocate_of_miss hmiss))
    rw [hstate] at heff
    obtain ⟨t, ht, hans, hflags, ⟨ctr, out, ev, rfl⟩, -⟩ := exec_answered heff (by decide) ((dram_onlyRecord 0 d s).trans (raise_onlyRecord ..)).toUnanswered
    exact ⟨_, ht, hans, (hflags _).trans (flagSet_raise_self ..), rfl, ⟨rfl, rfl, rfl⟩, SameQueues.refl s, SameWork.refl s⟩
  · obtain ⟨d, hd, hone⟩ := exists_struck hs (.way (bucketOf r.key) w)
    have heff : effect (.define f (lossOf (.way (bucketOf r.key) w))) s = _ := (congrArg (onDefine f) hd).trans
      ((request_of_readable (s := { s with dram := d }) (needs := true) ha hb (fun _ => hf) .define _).trans
        ((applyDefine_of_checked (s := { s with dram := d }) hc he hlen hlist hslot).trans (defineChecked_of_lost_way hone hw hk)))
    obtain ⟨t, ht, hans, hflags, ⟨ctr, out, ev, rfl⟩, -⟩ := exec_answered heff (by decide)
      (((dram_onlyRecord 0 d s).trans (raise_onlyRecord ..)).trans (raise_onlyRecord ..)).toUnanswered
    exact ⟨_, ht, hans, (hflags _).trans (flagSet_raise_mono (flagSet_raise_self ..)), (hflags _).trans (flagSet_raise_self ..), rfl, ⟨rfl, rfl, rfl⟩,
      SameQueues.refl s, SameWork.refl s⟩
  · obtain ⟨d, hd, hone⟩ := exists_struck hs (.freeEntry s.freeList.head.toNat)
    have heff : effect (.define f (lossOf (.freeEntry s.freeList.head.toNat))) s = _ := (congrArg (onDefine f) hd).trans
      ((request_of_readable (s := { s with dram := d }) (needs := true) ha hb (fun _ => hf) .define _).trans
        ((applyDefine_of_checked (s := { s with dram := d }) hc he hlen hlist hslot).trans (defineChecked_of_lost_head hone hk hempty hroom)))
    obtain ⟨t, ht, hans, hflags, ⟨ctr, out, ev, rfl⟩, -⟩ := exec_answered heff (by decide) ((dram_onlyRecord 0 d s).trans (raise_onlyRecord ..)).toUnanswered
    exact ⟨_, ht, hans, (hflags _).trans (flagSet_raise_self ..), rfl, ⟨rfl, rfl, rfl⟩, SameQueues.refl s, SameWork.refl s⟩

end Sys2Proof.Machine

/-! SUPPORT. The laws of the work do not say that a store's timer runs only while it awaits its receipt (R134, R140). A state that meets them all, in which the
timer of a QUEUED store has run out, and the step that takes the expiry. -/

namespace Sys2Proof.Machine

/-! ### A QUEUED store whose timer has run out -/

/-- An ACTIVE record with one target, OPEN, on node 0. -/
def strayRecord : Live :=
  { key := 0, length := 4096, segTotal := 1, cls := .foreground, sources := [], targets := [{ frag := 0, dest := 0, placed := 0, status := .opened }]
    state := .active, watch := none, stamp := 0, definer := 0, way := 0, fixed := false, lostFields := [] }

/-- Its store waits for room on node 0, and its timer is at 0. -/
def strayStore : Store :=
  { target := 0, frag := 0, dest := 0, crc := 0, attempt := 1, state := .queued, chunksSent := 0, timer := some 0 }

/-- The job of the lane, in PLACE with that store. -/
def strayJob : Job :=
  { record := 0, generation := 0, cls := .foreground, segment := 0, segLength := 4096, needed := [0], complete := [], accs := [], turnCount := 0
    pendingFetches := [], phase := .place [strayStore] }

/-- Node 0, SERVING, with nothing in flight. -/
def strayNode : Node :=
  { absentNode 0 with state := .serving, refs := 1 }

/-- Record 0 alone live, on lane 0; the command that waits is the expiry of the store's timer. -/
def strayState : State :=
  { State.reset with
    pending := [.storeTimerExpiry 0 0]
    records := [(0, { generation := 0, live := some strayRecord })]
    liveCount := 1
    freeList := { ring := [], head := 1, tail := 0 }
    lanes := State.reset.lanes.set 0 (some strayJob)
    nodes := [(0, strayNode)]
    waitList := [(0, 0)] }

/-! ### What it holds -/

theorem recordAt_strayState (n : Nat) : recordAt strayState n = if n = 0 then { generation := 0, live := some strayRecord } else freeRecord n := rfl

theorem live_strayState {n : Nat} {l : Live} (h : liveAt strayState n = some l) : n = 0 ∧ l = strayRecord := by
  rw [liveAt, recordAt_strayState] at h
  by_cases hn : n = 0
  · rw [if_pos hn] at h
    exact ⟨hn, (Option.some.inj h).symm⟩
  · rw [if_neg hn] at h
    exact nomatch h

theorem lane_strayState {i : Fin 8} {j : Job} (h : laneAt strayState i = some j) : i = 0 ∧ j = strayJob := by
  by_cases hi : i = 0
  · subst hi
    exact ⟨rfl, (Option.some.inj (h : some strayJob = some j)).symm⟩
  · exact nomatch ((by decide : ∀ x : Fin 8, x ≠ 0 → laneAt strayState x = none) i hi).symm.trans h

theorem slot_strayState (k : Nat) : (slotAt strayState k).use = none := rfl

theorem nodeAt_strayState (k : Nat) : nodeAt strayState k = if k = 0 then strayNode else absentNode k := rfl

theorem storeAt_strayState {i : Fin 8} {q : Nat} {j : Job} {st : Store} (h : storeAt strayState i q = some (j, st)) :
    i = 0 ∧ q = 0 ∧ st = strayStore := by
  obtain ⟨hj, hst⟩ := storeAt_eq_some_iff.mp h
  obtain ⟨rfl, rfl⟩ := lane_strayState hj
  have hmem := List.mem_of_find?_eq_some hst
  have hq := beq_iff_eq.mp (List.find?_some (p := fun st : Store => st.target == q) hst)
  cases List.mem_singleton.mp hmem
  exact ⟨rfl, hq.symm, rfl⟩

theorem namesSlot_strayRecord (k : Nat) : namesSlot strayRecord k = decide (k = 0) := by
  by_cases hk : k = 0
  · subst hk
    rfl
  · simp [namesSlot, strayRecord, hk, Ne.symm hk]

/-! ### It meets the laws -/

theorem canonical_strayState : CanonicalTables strayState := by
  refine ⟨⟨List.pairwise_singleton .., fun e he => ?_⟩, Sparse.nil_wf _, Sparse.nil_wf _, Sparse.nil_wf _, ⟨List.pairwise_singleton .., fun e he => ?_⟩,
    Sparse.nil_wf _⟩
  · rw [List.mem_singleton.mp he]
    exact fun h => nomatch congrArg Record.live h
  · rw [List.mem_singleton.mp he]
    exact fun h => nomatch congrArg Node.state h

theorem placedLaw_strayState : PlacedLaw strayState := fun n l h => by
  rw [(live_strayState h).2]
  unfold PlacedCounts
  decide

theorem freeNumbers_strayState : freeNumbers strayState = (List.range 65535).map (fun k => k + 1) := by
  refine List.map_congr_left fun k hk => ?_
  have hk : k < 65535 := List.mem_range.mp hk
  change ((1 : BitVec 16) + BitVec.ofNat 16 k).toNat = k + 1
  have hone : (1 : BitVec 16).toNat = 1 := rfl
  rw [BitVec.toNat_add, BitVec.toNat_ofNat, hone]
  omega

theorem freeListLaw_strayState : FreeListLaw strayState := by
  refine ⟨rfl, fun n l h => ?_, by decide, ?_, fun n => ?_⟩
  · rw [(live_strayState h).1]
    decide
  · rw [freeNumbers_strayState]
    exact List.nodup_range.map Nat.succ_injective
  · rw [freeNumbers_strayState, liveAt, recordAt_strayState]
    by_cases hn : n = 0
    · simp [hn]
    · simp only [if_neg hn, List.mem_map, List.mem_range]
      refine ⟨fun ⟨k, hk, he⟩ => ⟨by omega, rfl⟩, fun ⟨h, _⟩ => ⟨n - 1, by omega, by omega⟩⟩

theorem fetchedPositions_strayState (i : Fin 8) : fetchedPositions strayState i = [] :=
  List.filterMap_eq_nil_iff.mpr fun _ _ => rfl

theorem laneLaw_strayState : LaneLaw strayState := by
  refine ⟨⟨fun i j hj => ?_, fun i i' j j' hj hj' _ => ?_⟩, fun i j hj => ?_, fun n l h _ => ?_⟩
  · rw [(lane_strayState hj).2]
    exact ⟨strayRecord, rfl, rfl⟩
  · rw [(lane_strayState hj).1, (lane_strayState hj').1]
  · rw [(lane_strayState hj).2]
    rfl
  · exact ⟨0, strayJob, rfl, (live_strayState h).1.symm⟩

theorem storeLaw_strayState : StoreLaw strayState := by
  refine ⟨fun i j l hj hl => ?_, List.nodup_singleton _, fun i q => ⟨fun h => ?_, fun ⟨j, st, h, _⟩ => ?_⟩⟩
  · obtain ⟨rfl, rfl⟩ := lane_strayState hj
    obtain ⟨-, rfl⟩ := live_strayState hl
    refine ⟨by decide, by decide, rfl, ⟨strayStore, List.mem_singleton_self _, by decide⟩, fun st hst => ?_⟩
    cases List.mem_singleton.mp hst
    exact ⟨_, rfl, rfl, rfl, fun _ => ⟨rfl, rfl⟩⟩
  · cases List.mem_singleton.mp h
    exact ⟨strayJob, strayStore, rfl, rfl⟩
  · obtain ⟨rfl, rfl, -⟩ := storeAt_strayState h
    exact List.mem_singleton_self _

theorem refLaw_strayState : RefLaw strayState := by
  have hlive : liveNumbers strayState = [0] := rfl
  refine ⟨fun k => ?_, fun n l k hl hk => ?_⟩
  · rw [hlive, nodeAt_strayState, List.countP_singleton]
    change _ = if namesSlot strayRecord k = true then 1 else 0
    rw [namesSlot_strayRecord]
    by_cases hk : k = 0
    · simp only [hk, if_true, decide_true]
      rfl
    · simp only [if_neg hk, decide_eq_false hk, Bool.false_eq_true, if_false]
      rfl
  · rw [(live_strayState hl).2, namesSlot_strayRecord] at hk
    cases of_decide_eq_true hk
    decide

theorem outstandingLaw_strayState : OutstandingLaw strayState := fun k => by
  have hfetch : fetchesOn strayState laneNumbers k = 0 := List.countP_eq_zero.mpr fun _ _ => Bool.false_ne_true
  have hstore : storesOn strayState laneNumbers k = 0 := rfl
  have hnone : (nodeAt strayState k).outstanding = 0 := by
    rw [nodeAt_strayState]
    split <;> rfl
  exact ⟨by rw [hfetch, hstore, hnone], fun _ => hnone⟩

theorem stallList_strayState (k : Nat) : (nodeAt strayState k).stallList = [] := by
  rw [nodeAt_strayState]
  split <;> rfl

theorem workLaws_strayState : WorkLaws strayState := by
  have hactive : ∀ {n l}, liveAt strayState n = some l → l.state = .active := fun h => by
    rw [(live_strayState h).2]
    rfl
  refine ⟨fun n l h => ?_, ⟨List.nodup_nil, List.nodup_nil, fun n => ?_, fun n => ?_⟩, ⟨⟨fun k => ?_, fun k n => ?_⟩, fun n l k h hs => ?_⟩,
    laneLaw_strayState, ⟨fun k ft h => ?_, fun i j l hj hl => ?_⟩, storeLaw_strayState, refLaw_strayState, outstandingLaw_strayState⟩
  · rw [(live_strayState h).2]
    exact ⟨by decide, by decide, by decide, fun _ hlost => absurd hlost (by decide)⟩
  · refine ⟨fun h => absurd h List.not_mem_nil, fun ⟨l, h, hw, _⟩ => ?_⟩
    exact nomatch (hactive h).symm.trans hw
  · refine ⟨fun h => absurd h List.not_mem_nil, fun ⟨l, h, hw, _⟩ => ?_⟩
    exact nomatch (hactive h).symm.trans hw
  · rw [stallList_strayState]
    exact List.nodup_nil
  · rw [stallList_strayState]
    refine ⟨fun h => absurd h List.not_mem_nil, fun ⟨l, h, hs⟩ => ?_⟩
    exact nomatch (hactive h).symm.trans hs
  · exact nomatch (hactive h).symm.trans hs
  · exact nomatch (slot_strayState k).symm.trans h
  · obtain ⟨rfl, rfl⟩ := lane_strayState hj
    obtain ⟨-, rfl⟩ := live_strayState hl
    simp only [fetchedPositions_strayState]
    exact ⟨List.nodup_nil, fun p => ⟨fun h => absurd h List.not_mem_nil, fun h => absurd h (Nat.not_lt_zero p)⟩, fun _ _ => rfl⟩

/-! ### The step -/

/-- The expiry fails an attempt that was never in flight: a second one begins, and the wait list, which still names the store, then begins a third. The node
counts two stores in flight, where the lane has one. -/
theorem step_strayState : ∃ t, step strayState = .next t ∧ (nodeAt t 0).outstanding = 2 ∧ fetchesOn t laneNumbers 0 = 0 ∧ storesOn t laneNumbers 0 = 1 :=
  ⟨_, rfl, rfl, rfl, rfl⟩

/-- Refutes O2: the laws leave the timer of a QUEUED store open, and an expiry of it miscounts what is in flight (R65). -/
theorem not_workLawsAreKept : ¬ Obligations.WorkLawsAreKept := fun h => by
  obtain ⟨t, ht, hcount, hfetch, hstore⟩ := step_strayState
  have hlaws := (h strayState t ht).1 canonical_strayState placedLaw_strayState freeListLaw_strayState workLaws_strayState
  have hkept := (hlaws.outstanding 0).1
  rw [hcount, hfetch, hstore] at hkept
  exact absurd hkept (by decide)

end Sys2Proof.Machine
